-- ==== Sys2Proof/Word.lean ====
section
/-! DEFINITION. The word types of the host interface (rules R90, R91, R92) and of the core's data
(rules R14, R73). Only types stand here: the binary64 arithmetic is in Machine/Real.lean. -/

namespace Sys2Proof

/-- A command word (rule R91): OP, RSV and A. -/
abbrev CmdWord := BitVec 32

/-- A payload or response word (rule R90), and the contents of a 64-bit register (rule R24). -/
abbrev Word := BitVec 64

/-- A real, held as its IEEE 754 binary64 bit pattern, sign at bit 63 (rules R14, R76). -/
abbrev F64 := BitVec 64

/-- A symbol or a faked-bit mask of the data buffer (rules R70, R71, R73). -/
abbrev Sym := BitVec 9

/-- One word of the host's input stream (rule R90): a 32-bit command word or a 64-bit payload
word. -/
inductive InWord where
  | cmd (w : CmdWord)
  | data (w : Word)
deriving DecidableEq, Repr

end Sys2Proof
end

