-- ==== Sys2Proof/Syntax.lean ====
section
/-! DEFINITION. The commands of RTCORE, one constructor per row of spec/opcode_table.json
(rule R94). The reserved fields are 0 in every command that decodes (rule R95), so no constructor
carries them. -/

namespace Sys2Proof

/-- A host command with its payload (rules R93, R94). -/
inductive Instr where
  /-- 0x00 NOP (rule R120). -/
  | nop
  /-- 0x01 RESET (rule R121). -/
  | reset
  /-- 0x02 CFG_WR (rule R123): the configuration address and the payload word. -/
  | cfgWr (a : BitVec 16) (v : Word)
  /-- 0x03 CFG_RD (rule R124): the configuration address. -/
  | cfgRd (a : BitVec 16)
  /-- 0x04 BLK_START (rule R128). -/
  | blkStart
  /-- 0x05 SAMPLE (rule R131): the encoded track count, the time, and the voltages that follow it,
  as many as the count says, legal or not (rule R407). -/
  | sample (a : BitVec 16) (t : F64) (vs : List F64)
  /-- 0x06 EOF (rule R133). -/
  | eof
  /-- 0x07 RES_RD (rule R135): the result address. -/
  | resRd (a : BitVec 16)
  /-- 0x08 DATA_RD (rule R137): the data-buffer index. -/
  | dataRd (a : BitVec 16)
deriving DecidableEq, Repr

end Sys2Proof
end

