-- ==== Sys2Proof/WellFormed.lean ====
section
/-! DEFINITION. Which terms of Instr are commands a host can send: the payload has the length the
command word gives (rules R93, R407). Every operand value the encoding admits is well formed,
illegal addresses and track counts included: those raise when they run. -/

namespace Sys2Proof

/-- The one check on a command: SAMPLE carries as many voltages as its A field says (rule R93). -/
def Instr.wellFormed : Instr → Bool
  | .nop => true
  | .reset => true
  | .cfgWr _ _ => true
  | .cfgRd _ => true
  | .blkStart => true
  | .sample a _ vs => vs.length == a.toNat
  | .eof => true
  | .resRd _ => true
  | .dataRd _ => true

end Sys2Proof
end

