-- ==== Sys2Proof/Decode.lean ====
section
/-! DEFINITION. Decoding the host's input stream (rules R91 to R97, R407), total on every list of
words, and the encoder written from the same tables. A command word that decodes to no command is
rejected by the name of the error it raises (rules R95, R96, R122). -/

namespace Sys2Proof

/-- The fields of a command word (rule R91). -/
def cmdOp (w : CmdWord) : BitVec 8 := w.extractLsb' 24 8
def cmdRsv (w : CmdWord) : BitVec 8 := w.extractLsb' 16 8
def cmdA (w : CmdWord) : BitVec 16 := w.extractLsb' 0 16

/-- How many payload words follow a command word (rules R93, R407): it depends on OP and A alone. -/
def payloadLen (w : CmdWord) : Nat :=
  match (cmdOp w).toNat with
  | 2 => 1
  | 5 => 1 + (cmdA w).toNat
  | _ => 0

/-- Why a command word is no command, with what the fault records (rule R400). -/
inductive Reject where
  /-- OP is 0x09 or more (rule R96). -/
  | illegalOpcode (op : BitVec 8)
  /-- RSV is not 0, or A is not 0 where it must be (rule R95); `info` is the offending field. -/
  | reservedNonzero (op : BitVec 8) (info : BitVec 16)
deriving DecidableEq, Repr

/-- A command whose A must be 0 (rule R95). -/
def zeroA (w : CmdWord) (i : Instr) : Except Reject Instr :=
  if cmdA w = 0 then .ok i else .error (.reservedNonzero (cmdOp w) (cmdA w))

/-- One command word and its payload words (rules R94, R95, R96; the order is that of rule R122). -/
def classify (w : CmdWord) (p : List Word) : Except Reject Instr :=
  if 8 < (cmdOp w).toNat then .error (.illegalOpcode (cmdOp w))
  else if cmdRsv w ≠ 0 then .error (.reservedNonzero (cmdOp w) ((cmdRsv w).setWidth 16))
  else match (cmdOp w).toNat with
    | 0 => zeroA w .nop
    | 1 => zeroA w .reset
    | 2 => .ok (.cfgWr (cmdA w) (p.headD 0))
    | 3 => .ok (.cfgRd (cmdA w))
    | 4 => zeroA w .blkStart
    | 5 => .ok (.sample (cmdA w) (p.headD 0) p.tail)
    | 6 => zeroA w .eof
    | 7 => .ok (.resRd (cmdA w))
    | _ => .ok (.dataRd (cmdA w))

/-- The result of taking payload words from the stream. -/
inductive Taken where
  /-- The stream ends before the last of them. -/
  | short
  /-- A 32-bit word stands where a 64-bit payload word is due. -/
  | misframed
  | words (p : List Word) (rest : List InWord)
deriving DecidableEq, Repr

/-- The next `n` payload words. -/
def takeData : Nat → List InWord → Taken
  | 0, ws => .words [] ws
  | _ + 1, [] => .short
  | _ + 1, .cmd _ :: _ => .misframed
  | n + 1, .data d :: ws =>
    match takeData n ws with
    | .words p rest => .words (d :: p) rest
    | .short => .short
    | .misframed => .misframed

/-- What stands at the head of the input stream. -/
inductive Decoded where
  /-- No whole command yet: the core waits for the host. -/
  | wait
  /-- A word of the wrong width for its place. -/
  | misframed
  /-- A command word that is no command, its payload words taken off (rule R407). -/
  | reject (r : Reject) (rest : List InWord)
  | instr (i : Instr) (rest : List InWord)
deriving DecidableEq, Repr

/-- The command at the head of the input stream and the words after it. -/
def decode : List InWord → Decoded
  | [] => .wait
  | .data _ :: _ => .misframed
  | .cmd w :: ws =>
    match takeData (payloadLen w) ws with
    | .short => .wait
    | .misframed => .misframed
    | .words p rest =>
      match classify w p with
      | .error r => .reject r rest
      | .ok i => .instr i rest

/-! ## The encoder -/

/-- OP of each command (rule R94). -/
def opcode : Instr → BitVec 8
  | .nop => 0x00
  | .reset => 0x01
  | .cfgWr _ _ => 0x02
  | .cfgRd _ => 0x03
  | .blkStart => 0x04
  | .sample _ _ _ => 0x05
  | .eof => 0x06
  | .resRd _ => 0x07
  | .dataRd _ => 0x08

/-- The A field of each command (rule R94). -/
def operandA : Instr → BitVec 16
  | .nop => 0
  | .reset => 0
  | .cfgWr a _ => a
  | .cfgRd a => a
  | .blkStart => 0
  | .sample a _ _ => a
  | .eof => 0
  | .resRd a => a
  | .dataRd a => a

/-- The payload of each command (rule R93). -/
def payload : Instr → List Word
  | .cfgWr _ v => [v]
  | .sample _ t vs => t :: vs
  | .nop | .reset | .cfgRd _ | .blkStart | .eof | .resRd _ | .dataRd _ => []

/-- A command word from its fields (rule R91): `OP ++ RSV ++ A`. -/
def cmdWord (op rsv : BitVec 8) (a : BitVec 16) : CmdWord := (op ++ rsv) ++ a

/-- The words of a command. -/
def encode (i : Instr) : List InWord :=
  .cmd (cmdWord (opcode i) 0 (operandA i)) :: (payload i).map .data

/-! ## Assembler pseudo-instructions (rule R101): no encoding of their own, only an expansion -/

/-- CFG_WRs of the values to the addresses from `a` on. -/
def cfgWrites : BitVec 16 → List Word → List Instr
  | _, [] => []
  | a, v :: vs => .cfgWr a v :: cfgWrites (a + 1) vs

/-- `LOADSET v0, ..., v11`. -/
def asmLoadSet (vs : Vector Word 12) : List Instr := cfgWrites 0x010 vs.toList

/-- `SETMODE m, ntrks, dt, bpi, ips, parity`. -/
def asmSetMode (m ntrks : Word) (dt bpi ips : F64) (parity : Word) : List Instr :=
  cfgWrites 0x000 [m, ntrks, dt, bpi, ips, parity]

/-- `DESKEWALL d0, ..., d(n-1)`. -/
def asmDeskewAll (ds : List Word) : List Instr := cfgWrites 0x040 ds

/-- `FEED s1; ...; sN`, each sample a time and its voltages. -/
def asmFeed (xs : List (F64 × List F64)) : List Instr :=
  xs.map fun x => .sample (BitVec.ofNat 16 x.2.length) x.1 x.2

/-- `ATTEMPT`. -/
def asmAttempt : List Instr := [.blkStart]

/-- `RESULTS`: the registers 0x002 to 0x018. -/
def asmResults : List Instr := (List.range 23).map fun i => .resRd (BitVec.ofNat 16 (2 + i))

/-- `DUMP n`. -/
def asmDump (n : Nat) : List Instr := (List.range n).map fun i => .dataRd (BitVec.ofNat 16 i)

/-! ## The host's numbering of an instruction's bits -/

/-- The words of the instruction whose bits are `w`: bits 31:0 are the command word, and the
payload words count on from bit 32, 64 bits each; bits from `nbits` up are 0. -/
def tableWords (nbits w : Nat) : List InWord :=
  let bits := w % 2 ^ nbits
  let c : CmdWord := BitVec.ofNat 32 bits
  .cmd c :: (List.range (payloadLen c)).map fun j => .data (BitVec.ofNat 64 (bits >>> (32 + 64 * j)))

/-- The command the decoder reads from an opcode-table word, none where it rejects it. -/
def decodeTableWord (nbits w : Nat) : Option Instr :=
  match decode (tableWords nbits w) with
  | .instr i _ => some i
  | .reject _ _ => none
  | .wait => none
  | .misframed => none

end Sys2Proof
end

