-- ==== Sys2Proof/Config.lean ====
section
/-! DEFINITION. What an implementation of RTCORE fixes: the parameters of rule R9, the open
parameters of rule R10 (no body: nothing can evaluate them), and the free values of the binary64
arithmetic that IEEE 754 itself leaves open (rule R14, 93_implementation_defined.md I5). -/

namespace Sys2Proof.Config

/-! ## Fixed parameters (rule R9) -/

/-- Track lanes implemented. -/
abbrev maxTrk : Nat := 9
/-- Symbols of the largest block RTCORE must decode without overflow. -/
abbrev maxBlock : Nat := 32768
/-- Entries of the data buffer. -/
abbrev databuf : Nat := 65536
/-- Largest and smallest peak window, and the window when the density is not known. -/
abbrev wMax : Nat := 20
abbrev wMin : Nat := 3
abbrev wScan : Nat := 8
/-- Largest clock window and largest AGC window. -/
abbrev clkNMax : Nat := 50
abbrev agcKMax : Nat := 50
/-- Largest per-track delay, in samples. -/
abbrev deskewMax : Nat := 30
/-- Raw bits of one track's GCR buffer. -/
abbrev gcrMaxbits : Nat := 65536
/-- 1-bits of a resync burst. -/
abbrev gcrResyncOnes : Nat := 70
/-- post_counter at the CRC cell (9-track) and at the LRC cell. -/
abbrev nrziCrcPos : Nat := 4
abbrev nrziLrcPos : Nat := 8

/-! ## Open parameters (rule R10) -/

/-- OPEN-1, GCR_DGROUP_TABLE before its special codes are taken out (rule R331): the storage
group's data group, or none for INVALID. Free value, assumption 5. -/
opaque gcrDgroupRaw : BitVec 5 → Option (BitVec 4)

/-- OPEN-2, GCR_ECC_OK of the eight bytes of a pair (rule R337). Free value, assumption 6. -/
opaque gcrEccOk : List Sym → Bool

/-! ## Free values of the arithmetic -/

/-- The operations that can give a NaN. -/
inductive NanSource where
  | add | mul | div | min | max
deriving DecidableEq, Repr

/-- Sign (bit 51) and payload (bits 50:0) of the NaN an operation gives: IEEE 754 does not fix
them. Free value, assumption 7. -/
opaque nanBits : NanSource → F64 → F64 → BitVec 52

/-- What a minimum or maximum with a NaN operand answers. -/
inductive NanPick where
  | first | second | nan
deriving DecidableEq, Repr, Inhabited

/-- Which of its operands, or a NaN, a minimum or maximum with a NaN operand gives: rule R14 says
only that comparisons with a NaN are false. Free value, assumption 8. -/
opaque nanPick : NanSource → F64 → F64 → NanPick

end Sys2Proof.Config
end

