-- ==== Sys2Proof/Machine/State.lean ====
section
/-! DEFINITION. Everything the spec gives the machine, as plain data (rules R20 to R38, R70, R71),
the interface's two streams and its reset input (rules R90, R431), the reset state (rule R430), and
the ways a step can stop. -/

namespace Sys2Proof.Machine

/-! ## Enumerations -/

/-- `g.state` (rule R22). -/
inductive CoreState where
  | idle | run | done | fault
deriving DecidableEq, Repr

/-- The MODE latched at BLK_START (rules R25, R30); `unset` is the 0 before any BLK_START. -/
inductive Mode where
  | unset | pe | nrzi | gcr
deriving DecidableEq, Repr

/-- The clock strategies (rules R37, R200). -/
inductive ClkStrategy where
  | window | ewma | constant
deriving DecidableEq, Repr

/-- The AGC strategies (rule R220). -/
inductive AgcStrategy where
  | window | ewma | none
deriving DecidableEq, Repr

/-- Polarity of a peak (rule R15). -/
inductive Polarity where
  | bot | top
deriving DecidableEq, Repr

/-- Phase of a PE track (rule R240). -/
inductive PePhase where
  | pre0 | preamble | data
deriving DecidableEq, Repr

/-- BLKTYPE (rules R31, R377). -/
inductive BlkType where
  | none | block | tapemark | noise
deriving DecidableEq, Repr

/-- The errors a command can raise (rule R400); code 0, no error, is not one of them. -/
inductive ErrCode where
  | illegalOpcode | reservedNonzero | badAddress | wrongState | cfgInvalid | timeOrder
  | bufferOverflow | payloadMismatch | nonfiniteSample
deriving DecidableEq, Repr

/-- An error on its way to the fault record: `raise E(info)` (rules R12, R403). -/
structure Raise where
  code : ErrCode
  info : BitVec 16
deriving DecidableEq, Repr

/-! ## Configuration registers -/

/-- The implemented configuration registers (rules R25 to R28), under the spec's names. -/
inductive CfgReg where
  | mode | ntrks | dt | bpi | ips | expectedParity
  | clkWindow | clkAlpha | agcWindow | agcAlpha | minPeak | clkFactor | pulseAdj | pkwwBitfrac
  | pkwwRise | midbitFraction | z1pt | z2pt
  | peakThreshold | agcMax | nominalHeight | avgHeightCount | peIdleFactor | gcrIdleFactor
  | ignorePostamble | maxPostambleBits | peFakeTarget | nrziSpeedReset | peTmMask | gcrTmMask
  | deskew (k : Fin 9)
deriving DecidableEq, Repr

/-- The configuration register file `cfg[]` (rule R24): 39 registers of 64 bits, in address
order. -/
structure CfgFile where
  regs : Vector Word 39
deriving DecidableEq, Repr

/-- Reset: every configuration register 0 (rule R430). -/
def CfgFile.reset : CfgFile := { regs := Vector.replicate 39 0 }

/-! ## The data buffer -/

/-- One entry of the data buffer (rule R71). -/
structure Entry where
  sym : Sym
  fmask : Sym
deriving DecidableEq, Repr

/-- What a cleared entry reads as (rule R79), and so what an unlisted index reads as. -/
def Entry.zero : Entry := { sym := 0, fmask := 0 }

/-- The data buffer (rule R70 (c)): the entries that differ from a cleared one, by index,
indices strictly rising. -/
abbrev Buf := List (Nat × Entry)

/-! ## Decoder state -/

/-- A clock averager (rule R37). -/
structure Clock where
  strategy : ClkStrategy
  ring : List F64
  value : F64
deriving DecidableEq, Repr

/-- Per-track state, field by field as in rule R33. -/
structure Track where
  fifo : List F64
  primed : Bool
  win : List (F64 × F64)
  blackout : Nat
  haveLast : Bool
  tLast : F64
  vLast : F64
  polLast : Polarity
  tLast2 : F64
  peakcount : Nat
  datacount : Nat
  gain : F64
  maxGain : F64
  vAvgHeight : F64
  hSum : F64
  hN : Nat
  hFrozen : Bool
  hwin : List F64
  clk : Clock
  idle : Bool
  phase : PePhase
  clknext : Bool
  tLastdata : F64
  tPulseAdj : F64
  lastbit : Bool
  faked : Nat
  dcStart : Nat
  bits : List Bool
  last5 : BitVec 5
  onesRun : Nat
  resyncActive : Bool
  resyncBitcount : Nat
  tResyncFirst : F64
  pending : Bool
  tPending : F64
deriving DecidableEq, Repr

/-- The binary64 value 1.0. -/
def f64One : F64 := 0x3FF0000000000000

/-- The init column of rule R33; `h` is NOMINAL_HEIGHT and `clk` the clock's init (rule R130). -/
def Track.init (h : F64) (clk : Clock) : Track where
  fifo := []
  primed := false
  win := []
  blackout := 0
  haveLast := false
  tLast := 0
  vLast := 0
  polLast := .bot
  tLast2 := 0
  peakcount := 0
  datacount := 0
  gain := f64One
  maxGain := f64One
  vAvgHeight := h
  hSum := 0
  hN := 0
  hFrozen := false
  hwin := []
  clk := clk
  idle := true
  phase := .pre0
  clknext := false
  tLastdata := 0
  tPulseAdj := 0
  lastbit := false
  faked := 0
  dcStart := 0
  bits := []
  last5 := 0
  onesRun := 0
  resyncActive := false
  resyncBitcount := 0
  tResyncFirst := 0
  pending := false
  tPending := 0

/-- The NRZI global decoder state (rule R35). -/
structure Nrzi where
  clk : Clock
  tLastclock : F64
  datablock : Bool
  postCounter : Nat
  haveBoundary : Bool
  tBoundary : F64
  crc : Sym
  lrc : Sym
  nsym : Nat
  missedMidbits : Nat
  srDone : Bool
  srTrk : Option (Fin 9)
  srT : F64
deriving DecidableEq, Repr

/-- The init column of rule R35. -/
def Nrzi.init (clk : Clock) : Nrzi where
  clk := clk
  tLastclock := 0
  datablock := false
  postCounter := 0
  haveBoundary := false
  tBoundary := 0
  crc := 0
  lrc := 0
  nsym := 0
  missedMidbits := 0
  srDone := false
  srTrk := none
  srT := 0

/-- The state of one block attempt: everything BLK_START re-initialises and the decoders write
(rules R23, R33, R35, R70). -/
structure Attempt where
  trk : Vector Track 9
  nrzi : Nrzi
  buf : Buf
  tPrev : Option F64
  nsamples : Nat
  anyPeak : Bool
  gcrNsym : Nat
deriving DecidableEq, Repr

/-- An attempt with no sample yet (rules R130, R430). -/
def Attempt.init (h : F64) (clk : Clock) : Attempt where
  trk := Vector.replicate 9 (Track.init h clk)
  nrzi := Nrzi.init clk
  buf := []
  tPrev := none
  nsamples := 0
  anyPeak := false
  gcrNsym := 0

/-- What BLK_START latches for the attempt (rules R30, R36). NTRKS is latched too: assumption 3. -/
structure Latched where
  w : Nat
  nominal : F64
  scan : Bool
  clk : ClkStrategy
  agc : AgcStrategy
  mode : Mode
  ntrks : Nat
deriving DecidableEq, Repr

/-- The latched values at reset (rule R430; NTRKS by rule R432). -/
def Latched.reset : Latched where
  w := 0
  nominal := 0
  scan := false
  clk := .constant
  agc := .none
  mode := .unset
  ntrks := 0

/-- The final result registers (rule R31). -/
structure Results where
  blktype : BlkType
  nsymbols : Nat
  minbits : Nat
  maxbits : Nat
  avgBitSpacing : F64
  vparityErrs : Nat
  fakedBits : Nat
  crc : Sym
  lrc : Sym
  crcBad : Bool
  lrcBad : Bool
  errcount : Nat
  warncount : Nat
  alltrkMaxAgcGain : F64
  trackMismatch : Bool
  mismatchSpan : Nat
  eccErrs : Nat
  badDgroups : Nat
  seqErrs : Nat
deriving DecidableEq, Repr

/-- Every final result register 0 (rules R29, R430). -/
def Results.zero : Results where
  blktype := .none
  nsymbols := 0
  minbits := 0
  maxbits := 0
  avgBitSpacing := 0
  vparityErrs := 0
  fakedBits := 0
  crc := 0
  lrc := 0
  crcBad := false
  lrcBad := false
  errcount := 0
  warncount := 0
  alltrkMaxAgcGain := 0
  trackMismatch := false
  mismatchSpan := 0
  eccErrs := 0
  badDgroups := 0
  seqErrs := 0

/-! ## The machine -/

/-- The machine (rule R20), with the interface of rules R90 and R431: `input` holds the words the
host has sent and the core has not taken, first sent first; `output` the response words the core has
sent, first sent first; `resetIn` says that the host asserts the reset input. -/
structure State where
  core : CoreState
  errCode : BitVec 8
  errInfo : BitVec 16
  eofSeen : Bool
  cfg : CfgFile
  lat : Latched
  att : Attempt
  res : Results
  input : List InWord
  output : List Word
  resetIn : Bool
deriving DecidableEq, Repr

/-- The clock of reset: CONSTANT, value 0.0 (rule R430). -/
def Clock.reset : Clock := { strategy := .constant, ring := [], value := 0 }

/-- Right after reset (rule R430), with nothing sent, nothing answered, and the reset input
released. -/
def State.reset : State where
  core := .idle
  errCode := 0
  errInfo := 0
  eofSeen := false
  cfg := CfgFile.reset
  lat := Latched.reset
  att := Attempt.init 0 Clock.reset
  res := Results.zero
  input := []
  output := []
  resetIn := false

/-! ## Stops -/

/-- How the machine can stop. -/
inductive Fault where
  /-- Raised by step alone, never by a command: a word of the input stream does not have the width
  the interface gives its place, a 32-bit command word or a 64-bit payload word (rule R90), and the
  spec does not say what such a word does. Safe: the model stops where the spec is silent. -/
  | streamMisframed
deriving DecidableEq, Repr

/-- Why the model gives an instruction no meaning. -/
inductive Refusal where
  /-- Answered only by an arm of exec whose instruction has no meaning yet; no arm does so now.
  Safe: the model stops. -/
  | notModelled (mnemonic : String)
deriving DecidableEq, Repr

end Sys2Proof.Machine
end

