-- ==== Sys2Proof/Machine/Real.lean ====
section
/-! DEFINITION. The reals of RTCORE (rule R14): IEEE 754 binary64 on bit patterns, one rounding to
nearest, ties to even, per operation. Each operation computes its exact result with natural numbers
and rounds once, in `fRound`. -/

namespace Sys2Proof.Machine

/-- Sign, biased exponent and fraction of a binary64 bit pattern. -/
def fSign (x : F64) : Bool := x.getLsbD 63
def fExp (x : F64) : Nat := (x.toNat / 2 ^ 52) % 2 ^ 11
def fFrac (x : F64) : Nat := x.toNat % 2 ^ 52
/-- The bits below the sign. -/
def fMag (x : F64) : Nat := x.toNat % 2 ^ 63

def fIsNaN (x : F64) : Bool := fExp x == 2047 && fFrac x != 0
def fIsInf (x : F64) : Bool := fExp x == 2047 && fFrac x == 0
/-- Neither a NaN nor an infinity (rules R126, R132). -/
def fFinite (x : F64) : Bool := fExp x != 2047
def fIsZero (x : F64) : Bool := fMag x == 0

/-- A finite value is `± fMant x × 2 ^ (fScale x − 1074)`. -/
def fMant (x : F64) : Nat := if fExp x = 0 then fFrac x else fFrac x + 2 ^ 52
def fScale (x : F64) : Nat := fExp x - 1

/-- Put a sign on a magnitude. -/
def fWithSign (s : Bool) (mag : Nat) : F64 := BitVec.ofNat 64 (if s then mag + 2 ^ 63 else mag)

/-- The magnitude of infinity. -/
def infMag : Nat := 0x7FF0000000000000

def fZero (s : Bool) : F64 := fWithSign s 0
def fInf (s : Bool) : F64 := fWithSign s infMag

/-- A quiet NaN whose sign and payload are free (assumption 7). -/
def fNaN (op : Config.NanSource) (a b : F64) : F64 :=
  let n := (Config.nanBits op a b).toNat
  fWithSign (2 ^ 51 ≤ n) (infMag + 2 ^ 51 + n % 2 ^ 51)

/-- `m` with its lowest `k` bits rounded away, to nearest, ties to even. -/
def roundOff (m k : Nat) : Nat :=
  let q := m >>> k
  let r := m % 2 ^ k
  let half := 2 ^ k / 2
  if k = 0 then m
  else if half < r || (r == half && q % 2 == 1) then q + 1 else q

/-- The magnitude bits of `m × 2 ^ (e − base)` rounded to binary64, for `base ≥ 1074`: overflow
gives infinity, underflow gives subnormals and zero. -/
def roundMag (m e base : Nat) : Nat :=
  let tiny := base - 1074
  let len := m.log2 + 1
  let q := max (e + len - 53) tiny
  let mant := if q ≤ e then m <<< (e - q) else roundOff m (q - e)
  min infMag (mant + (q - tiny) * 2 ^ 52)

/-- The binary64 value nearest to `± m × 2 ^ (e − base)`. -/
def fRound (s : Bool) (m e base : Nat) : F64 :=
  if m = 0 then fZero s else fWithSign s (roundMag m e base)

/-- `−x` and `abs(x)`, exact. -/
def fNeg (x : F64) : F64 := x ^^^ 0x8000000000000000
def fAbs (x : F64) : F64 := x &&& 0x7FFFFFFFFFFFFFFF

/-- The sum of two finite values. -/
def fAddFin (a b : F64) : F64 :=
  let e := min (fScale a) (fScale b)
  let ma := fMant a <<< (fScale a - e)
  let mb := fMant b <<< (fScale b - e)
  if fSign a = fSign b then fRound (fSign a) (ma + mb) e 1074
  else if mb < ma then fRound (fSign a) (ma - mb) e 1074
  else if ma < mb then fRound (fSign b) (mb - ma) e 1074
  else fZero false

/-- `a + b`. -/
def fAdd (a b : F64) : F64 :=
  if fIsNaN a || fIsNaN b then fNaN .add a b
  else if fIsInf a then
    if fIsInf b && fSign a != fSign b then fNaN .add a b else a
  else if fIsInf b then b
  else fAddFin a b

/-- `a − b`. -/
def fSub (a b : F64) : F64 := fAdd a (fNeg b)

/-- `a × b`. -/
def fMul (a b : F64) : F64 :=
  let s := fSign a != fSign b
  if fIsNaN a || fIsNaN b then fNaN .mul a b
  else if fIsInf a || fIsInf b then
    if fIsZero a || fIsZero b then fNaN .mul a b else fInf s
  else fRound s (fMant a * fMant b) (fScale a + fScale b) 2148

/-- The quotient of two finite values, `b` not 0: 108 more bits than the divisor's, and a sticky
bit below them, so that the one rounding is exact. -/
def fDivFin (a b : F64) : F64 :=
  let n := fMant a <<< 108
  let q := n / fMant b
  let sticky := if n % fMant b = 0 then 0 else 1
  fRound (fSign a != fSign b) (2 * q + sticky) (fScale a + 2046 - fScale b) 2155

/-- `a / b`. -/
def fDiv (a b : F64) : F64 :=
  let s := fSign a != fSign b
  if fIsNaN a || fIsNaN b then fNaN .div a b
  else if fIsInf a then
    if fIsInf b then fNaN .div a b else fInf s
  else if fIsInf b then fZero s
  else if fIsZero b then
    if fIsZero a then fNaN .div a b else fInf s
  else fDivFin a b

/-- The order of the values that are not NaN, as natural numbers: −0 and +0 have the same. -/
def fOrd (x : F64) : Nat := if fSign x then 2 ^ 63 - fMag x else 2 ^ 63 + fMag x

/-- `a < b`, `a ≤ b` and `a = b`: exact, and false when an operand is a NaN (rule R14). -/
def fLt (a b : F64) : Bool := !fIsNaN a && !fIsNaN b && decide (fOrd a < fOrd b)
def fLe (a b : F64) : Bool := !fIsNaN a && !fIsNaN b && decide (fOrd a ≤ fOrd b)
def fEq (a b : F64) : Bool := !fIsNaN a && !fIsNaN b && decide (fOrd a = fOrd b)

/-- What a minimum or maximum with a NaN operand gives: free (assumption 8). -/
def fPick (op : Config.NanSource) (a b : F64) : F64 :=
  match Config.nanPick op a b with
  | .first => a
  | .second => b
  | .nan => fNaN op a b

/-- `min(a, b)` and `max(a, b)`. -/
def fMin (a b : F64) : F64 :=
  if fIsNaN a || fIsNaN b then fPick .min a b else if fLt b a then b else a
def fMax (a b : F64) : F64 :=
  if fIsNaN a || fIsNaN b then fPick .max a b else if fLt a b then b else a

/-- `floor(x)` of a finite value `x ≥ 0` (rule R162). -/
def fFloorNat (x : F64) : Nat :=
  if 1074 ≤ fScale x then fMant x <<< (fScale x - 1074) else fMant x >>> (1074 - fScale x)

/-- A count as a real, exact below 2^53. -/
def fOfNat (n : Nat) : F64 := fRound false n 1074 1074

def fHalf : F64 := 0x3FE0000000000000
def fTwo : F64 := 0x4000000000000000

/-- `sum(L)` in index order, starting from `L[0]` (rule R13). -/
def fSum : List F64 → F64
  | [] => 0
  | x :: xs => xs.foldl fAdd x

/-- `min(L)` and `max(L)` of a non-empty list (rule R13). -/
def fMinList : List F64 → F64
  | [] => 0
  | x :: xs => xs.foldl fMin x
def fMaxList : List F64 → F64
  | [] => 0
  | x :: xs => xs.foldl fMax x

/-- `argmax_first(L)` and `argmin_first(L)` (rule R13). -/
def argmaxFirst (xs : List F64) : Nat := xs.findIdx fun x => fEq x (fMaxList xs)
def argminFirst (xs : List F64) : Nat := xs.findIdx fun x => fEq x (fMinList xs)

end Sys2Proof.Machine
end

