-- ==== Sys2Proof/Machine/Ops.lean ====
section
/-! DEFINITION. The named operations every command shares: the register files, the data buffer, the
symbol bits, the per-track state, the loops that can raise, fault entry and the way out of it, and
the frame every command runs in (rules R12, R70 to R80, R122, R127, R403 to R407). -/

namespace Sys2Proof.Machine

/-! ## Configuration registers -/

/-- Place of a register in the file: address order (rules R25 to R28). -/
def cfgIndex : CfgReg → Fin 39
  | .mode => 0 | .ntrks => 1 | .dt => 2 | .bpi => 3 | .ips => 4 | .expectedParity => 5
  | .clkWindow => 6 | .clkAlpha => 7 | .agcWindow => 8 | .agcAlpha => 9 | .minPeak => 10
  | .clkFactor => 11 | .pulseAdj => 12 | .pkwwBitfrac => 13 | .pkwwRise => 14
  | .midbitFraction => 15 | .z1pt => 16 | .z2pt => 17
  | .peakThreshold => 18 | .agcMax => 19 | .nominalHeight => 20 | .avgHeightCount => 21
  | .peIdleFactor => 22 | .gcrIdleFactor => 23 | .ignorePostamble => 24
  | .maxPostambleBits => 25 | .peFakeTarget => 26 | .nrziSpeedReset => 27 | .peTmMask => 28
  | .gcrTmMask => 29
  | .deskew k => ⟨30 + k.val, by omega⟩

/-- `cfg[A]` (rule R12): the register whole. -/
def CfgFile.get (c : CfgFile) (r : CfgReg) : Word := c.regs.get (cfgIndex r)

/-- `cfg[A] <- v` (rules R12, R24): any 64-bit value is stored unchanged. -/
def CfgFile.set (c : CfgFile) (r : CfgReg) (v : Word) : CfgFile :=
  { regs := c.regs.set (cfgIndex r) v }

/-- A register of type U or M as an unsigned integer (rules R24, R126). -/
def CfgFile.nat (c : CfgFile) (r : CfgReg) : Nat := (c.get r).toNat

/-! ## The data buffer -/

/-- `MemRead(i)` (rule R71). -/
def bufRead : Buf → Nat → Entry
  | [], _ => Entry.zero
  | (j, e) :: rest, i => if i = j then e else bufRead rest i

/-- An entry in front of the entries after it, left out when it equals a cleared one. -/
def bufCons (i : Nat) (e : Entry) (rest : Buf) : Buf :=
  if e = Entry.zero then rest else (i, e) :: rest

/-- `MemWrite(i, sym, fmask)` (rule R71), keeping the indices rising and cleared entries out. -/
def bufWrite : Buf → Nat → Entry → Buf
  | [], i, e => bufCons i e []
  | (j, d) :: rest, i, e =>
    if i < j then bufCons i e ((j, d) :: rest)
    else if i = j then bufCons i e rest
    else (j, d) :: bufWrite rest i e

/-- The canonical form: indices from `lo` up, strictly rising and inside the buffer, and no
cleared entry. -/
def bufWfFrom : Nat → Buf → Bool
  | _, [] => true
  | lo, (j, e) :: rest =>
    decide (lo ≤ j) && decide (j < Config.databuf) && decide (e ≠ Entry.zero) && bufWfFrom (j + 1) rest

/-- The data buffer is in canonical form. -/
def Memory.wf (b : Buf) : Bool := bufWfFrom 0 b

/-! ## Symbol bits (rules R73, R74) -/

/-- The bit of track `k` alone, in a symbol of `n` tracks: bit `n − 1 − k`. -/
def trackMask (n : Nat) (k : Fin 9) : Sym := 1#9 <<< (n - 1 - k.val)

/-- `bit(sym, k)`. -/
def symBit (n : Nat) (sym : Sym) (k : Fin 9) : Bool := sym.getLsbD (n - 1 - k.val)

/-- `setbit(sym, k)` and `clrbit(sym, k)`. -/
def setBit (n : Nat) (sym : Sym) (k : Fin 9) : Sym := sym ||| trackMask n k
def clrBit (n : Nat) (sym : Sym) (k : Fin 9) : Sym := sym &&& ~~~ trackMask n k

/-- `setbit` or `clrbit`, as the bit says. -/
def putBit (n : Nat) (sym : Sym) (k : Fin 9) (b : Bool) : Sym :=
  if b then setBit n sym k else clrBit n sym k

/-! ## Tracks -/

/-- All track lanes, and the lanes of an `n`-track tape, in track order. -/
def allTracks : List (Fin 9) := [0, 1, 2, 3, 4, 5, 6, 7, 8]
def tracks (n : Nat) : List (Fin 9) := allTracks.filter fun k => k.val < n

/-- `trk[k]`. -/
def Attempt.tr (a : Attempt) (k : Fin 9) : Track := a.trk.get k

/-- `trk[k] <- t`. -/
def Attempt.setTr (a : Attempt) (k : Fin 9) (t : Track) : Attempt := { a with trk := a.trk.set k t }

/-- `trk[k]` changed by `f`. -/
def Attempt.modTr (a : Attempt) (k : Fin 9) (f : Track → Track) : Attempt := a.setTr k (f (a.tr k))

/-- The voltage, or other list element, of track `k`. -/
def laneOf (vs : List F64) (k : Fin 9) : F64 := vs.getD k.val 0

/-! ## Rings (rule R13) -/

/-- `push(L, x)`, and `drop_oldest(L)` when L then holds more than `n`. -/
def pushBounded {α : Type} (n : Nat) (l : List α) (x : α) : List α :=
  if n < (l ++ [x]).length then (l ++ [x]).tail else l ++ [x]

/-! ## Loops that can raise -/

/-- `f` for each element in order; the first that raises ends the loop. -/
def forEach {α σ : Type} (f : α → σ → Except Raise σ) : List α → σ → Except Raise σ
  | [], s => .ok s
  | x :: xs, s =>
    match f x s with
    | .error r => .error r
    | .ok s' => forEach f xs s'

/-- `f` repeated `n` times; the first that raises ends the loop. -/
def repeatTimes {σ : Type} (f : σ → Except Raise σ) : Nat → σ → Except Raise σ
  | 0, s => .ok s
  | n + 1, s =>
    match f s with
    | .error r => .error r
    | .ok s' => repeatTimes f n s'

/-- Do `f`, then `g` on what it gives; a raise of either ends both. -/
def andThen {α β : Type} (x : Except Raise α) (g : α → Except Raise β) : Except Raise β :=
  match x with
  | .error r => .error r
  | .ok a => g a

/-! ## Faults (rules R400 to R406) -/

/-- The number of each error (rule R400). -/
def errNumber : ErrCode → BitVec 8
  | .illegalOpcode => 1
  | .reservedNonzero => 2
  | .badAddress => 3
  | .wrongState => 4
  | .cfgInvalid => 5
  | .timeOrder => 6
  | .bufferOverflow => 7
  | .payloadMismatch => 8
  | .nonfiniteSample => 9

/-- Fault entry (rule R403): of the state before the command, only these three fields change. -/
def raise (s : State) (r : Raise) : State :=
  { s with core := .fault, errCode := errNumber r.code, errInfo := r.info }

/-- Fault exit and reset (rules R405, R430, R431): every piece of the core's state takes its reset
value. The host's streams and its reset input are not the core's and stay. -/
def resetCore (s : State) : State :=
  { State.reset with input := s.input, output := s.output, resetIn := s.resetIn }

/-- Response words go out behind those already sent (rule R90). -/
def respond (s : State) (ws : List Word) : State := { s with output := s.output ++ ws }

/-- The response of a command that raises or is ignored: its word count depends only on OP
(rules R403, R406). -/
def placeholder (op : BitVec 8) : List Word :=
  match op.toNat with
  | 3 => [0]
  | 5 => [0]
  | 7 => [0]
  | 8 => [0]
  | _ => []

/-- A command that raises: fault entry and the placeholder response. -/
def raiseCommand (op : BitVec 8) (s : State) (r : Raise) : State :=
  respond (raise s r) (placeholder op)

/-- A command that FAULT ignores (rule R406). -/
def ignoreCommand (op : BitVec 8) (s : State) : State := respond s (placeholder op)

/-! ## The frame of a command -/

/-- Which commands each state outside FAULT allows (rule R127). -/
def allowed (op : BitVec 8) (c : CoreState) : Bool :=
  match op.toNat with
  | 2 => c != .run
  | 4 => c != .run
  | 5 => c == .run
  | _ => true

/-- A command that FAULT ignores, from its state check on (rules R122, R127, R406): `body` gives the
next state and the response, or the error it raises. -/
def runCommand (op : BitVec 8) (s : State) (body : Except Raise (State × List Word)) : State :=
  if s.core = .fault then ignoreCommand op s
  else if !allowed op s.core then raiseCommand op s ⟨.wrongState, op.setWidth 16⟩
  else match body with
    | .error r => raiseCommand op s r
    | .ok x => respond x.1 x.2

/-- The OP and the error of a rejected command word (rules R95, R96, R400). -/
def rejectOp : Reject → BitVec 8
  | .illegalOpcode op => op
  | .reservedNonzero op _ => op

def rejectRaise : Reject → Raise
  | .illegalOpcode op => ⟨.illegalOpcode, op.setWidth 16⟩
  | .reservedNonzero _ info => ⟨.reservedNonzero, info⟩

/-- A rejected command word (rules R122, R406): ignored in FAULT, else it raises. -/
def rejectCommand (r : Reject) (s : State) : State :=
  if s.core = .fault then ignoreCommand (rejectOp r) s
  else raiseCommand (rejectOp r) s (rejectRaise r)

end Sys2Proof.Machine
end

