-- ==== Sys2Proof/Machine/Operands.lean ====
section
/-! DEFINITION. The operand forms: configuration addresses (rule R125), and SAMPLE's arguments
(rule R132). Result addresses are in Flags.lean beside the register each reads. -/

namespace Sys2Proof.Machine

/-- The address of a configuration register (rules R25 to R28). -/
def cfgAddr : CfgReg → BitVec 16
  | .mode => 0x000 | .ntrks => 0x001 | .dt => 0x002 | .bpi => 0x003 | .ips => 0x004
  | .expectedParity => 0x005
  | .clkWindow => 0x010 | .clkAlpha => 0x011 | .agcWindow => 0x012 | .agcAlpha => 0x013
  | .minPeak => 0x014 | .clkFactor => 0x015 | .pulseAdj => 0x016 | .pkwwBitfrac => 0x017
  | .pkwwRise => 0x018 | .midbitFraction => 0x019 | .z1pt => 0x01A | .z2pt => 0x01B
  | .peakThreshold => 0x020 | .agcMax => 0x021 | .nominalHeight => 0x022
  | .avgHeightCount => 0x023 | .peIdleFactor => 0x024 | .gcrIdleFactor => 0x025
  | .ignorePostamble => 0x026 | .maxPostambleBits => 0x027 | .peFakeTarget => 0x028
  | .nrziSpeedReset => 0x029 | .peTmMask => 0x02A | .gcrTmMask => 0x02B
  | .deskew k => 0x040 + BitVec.ofNat 16 k.val

/-- The configuration register at an address, none where none is implemented (rule R125). -/
def cfgRegAt (a : BitVec 16) : Option CfgReg :=
  match a.toNat with
  | 0x000 => some .mode | 0x001 => some .ntrks | 0x002 => some .dt | 0x003 => some .bpi
  | 0x004 => some .ips | 0x005 => some .expectedParity
  | 0x010 => some .clkWindow | 0x011 => some .clkAlpha | 0x012 => some .agcWindow
  | 0x013 => some .agcAlpha | 0x014 => some .minPeak | 0x015 => some .clkFactor
  | 0x016 => some .pulseAdj | 0x017 => some .pkwwBitfrac | 0x018 => some .pkwwRise
  | 0x019 => some .midbitFraction | 0x01A => some .z1pt | 0x01B => some .z2pt
  | 0x020 => some .peakThreshold | 0x021 => some .agcMax | 0x022 => some .nominalHeight
  | 0x023 => some .avgHeightCount | 0x024 => some .peIdleFactor | 0x025 => some .gcrIdleFactor
  | 0x026 => some .ignorePostamble | 0x027 => some .maxPostambleBits
  | 0x028 => some .peFakeTarget | 0x029 => some .nrziSpeedReset | 0x02A => some .peTmMask
  | 0x02B => some .gcrTmMask
  | 0x040 => some (.deskew 0) | 0x041 => some (.deskew 1) | 0x042 => some (.deskew 2)
  | 0x043 => some (.deskew 3) | 0x044 => some (.deskew 4) | 0x045 => some (.deskew 5)
  | 0x046 => some (.deskew 6) | 0x047 => some (.deskew 7) | 0x048 => some (.deskew 8)
  | _ => none

/-- The register a configuration command names, or BAD_ADDRESS(A) (rules R123, R124). -/
def cfgOperand (a : BitVec 16) : Except Raise CfgReg :=
  match cfgRegAt a with
  | some r => .ok r
  | none => .error ⟨.badAddress, a⟩

/-- The index of the first payload word that is not finite: 0 for the time, 1 + k for voltage k
(rule R132). -/
def firstNonfinite : Nat → List F64 → Option Nat
  | _, [] => none
  | i, x :: xs => if fFinite x then firstNonfinite (i + 1) xs else some i

/-- SAMPLE's argument checks, in order (rule R132); `tPrev` is the time of the attempt's previous
SAMPLE. -/
def sampleCheck (ntrks : Nat) (tPrev : Option F64) (a : BitVec 16) (t : F64) (vs : List F64) :
    Option Raise :=
  if a.toNat < 1 || 9 < a.toNat || a.toNat != ntrks then some ⟨.payloadMismatch, a⟩
  else match firstNonfinite 0 (t :: vs) with
    | some i => some ⟨.nonfiniteSample, BitVec.ofNat 16 i⟩
    | none =>
      match tPrev with
      | none => none
      | some p => if fLt t p then some ⟨.timeOrder, 0⟩ else none

end Sys2Proof.Machine
end

