-- ==== Sys2Proof/Machine/Flags.lean ====
section
/-! DEFINITION. The flags and status words, and the whole result register file they are read through
(rules R29 to R32, R38, R136). -/

namespace Sys2Proof.Machine

/-! ## Codes -/

/-- `g.state` in STATUS (rule R22). -/
def coreNumber : CoreState → Nat
  | .idle => 0 | .run => 1 | .done => 2 | .fault => 3

/-- The latched MODE in STATUS (rules R25, R30). -/
def modeNumber : Mode → Nat
  | .unset => 0 | .pe => 1 | .nrzi => 2 | .gcr => 3

/-- The decoder a MODE value selects (rule R25). -/
def modeOf (v : Word) : Mode :=
  match v.toNat with
  | 1 => .pe
  | 2 => .nrzi
  | 3 => .gcr
  | _ => .unset

/-- BLKTYPE's values (rule R31). -/
def blkNumber : BlkType → Nat
  | .none => 0 | .block => 1 | .tapemark => 2 | .noise => 3

/-- A polarity's code (rule R15), and the PE bit it stands for (rule R243). -/
def polTop : Polarity → Bool
  | .top => true
  | .bot => false

/-! ## Words read by the host -/

def boolNat (b : Bool) : Nat := if b then 1 else 0
def flagWord (b : Bool) : Word := BitVec.ofNat 64 (boolNat b)
def countWord (n : Nat) : Word := BitVec.ofNat 64 n

/-- STATUS (rule R30): state in [1:0], eof_seen in [2], SCAN in [3], MODE in [7:4]. -/
def statusWord (s : State) : Word :=
  BitVec.ofNat 64 (coreNumber s.core + 4 * boolNat s.eofSeen + 8 * boolNat s.lat.scan
    + 16 * modeNumber s.lat.mode)

/-- ERR (rules R30, R401): err_code in [7:0], err_info in [31:16]. -/
def errWord (s : State) : Word :=
  BitVec.ofNat 64 (s.errCode.toNat + 2 ^ 16 * s.errInfo.toNat)

/-- The exclusive OR of a symbol's bits (rule R11). -/
def xorReduce (sym : Sym) : Nat :=
  ((List.range 9).map fun i => boolNat (sym.getLsbD i)).sum % 2

/-! ## Result registers -/

/-- A per-track view register (rule R32): 0 for a track at or past NTRKS. -/
def trackView (s : State) (k : Fin 9) (f : Track → Word) : Word :=
  if k.val < s.lat.ntrks then f (s.att.tr k) else 0

/-- The per-track clocks are in view in PE and GCR, the shared one in NRZI, none in peak-scan mode
(rule R32). -/
def trackClockShown (l : Latched) : Bool := !l.scan && (l.mode == .pe || l.mode == .gcr)
def sharedClockShown (l : Latched) : Bool := !l.scan && l.mode == .nrzi

/-- The per-track view register of bank `b` (address bits 15:4) for track `k` (rule R32). -/
def trackBank (s : State) (b : Nat) (k : Fin 9) : Option Word :=
  match b with
  | 2 => some (trackView s k fun t => countWord t.peakcount)
  | 3 => some (trackView s k fun t => countWord t.datacount)
  | 4 => some (trackView s k fun t => t.gain)
  | 5 => some (trackView s k fun t => if trackClockShown s.lat then t.clk.value else 0)
  | 7 => some (trackView s k fun t => countWord t.faked)
  | 8 => some (trackView s k fun t => t.vAvgHeight)
  | _ => none

/-- `res[A]`, none where no register is implemented (rules R30 to R32, R136). -/
def resRead (s : State) (a : BitVec 16) : Option Word :=
  match a.toNat with
  | 0x000 => some (statusWord s)
  | 0x001 => some (errWord s)
  | 0x002 => some (countWord (blkNumber s.res.blktype))
  | 0x003 => some (countWord s.res.nsymbols)
  | 0x004 => some (countWord s.res.minbits)
  | 0x005 => some (countWord s.res.maxbits)
  | 0x006 => some s.res.avgBitSpacing
  | 0x007 => some (countWord s.att.nrzi.missedMidbits)
  | 0x008 => some (countWord s.res.vparityErrs)
  | 0x009 => some (countWord s.res.fakedBits)
  | 0x00A => some (s.res.crc.setWidth 64)
  | 0x00B => some (s.res.lrc.setWidth 64)
  | 0x00C => some (flagWord s.res.crcBad)
  | 0x00D => some (flagWord s.res.lrcBad)
  | 0x00E => some (countWord s.res.errcount)
  | 0x00F => some (countWord s.res.warncount)
  | 0x010 => some s.res.alltrkMaxAgcGain
  | 0x011 => some (flagWord s.res.trackMismatch)
  | 0x012 => some (countWord s.res.mismatchSpan)
  | 0x013 => some (countWord s.res.eccErrs)
  | 0x014 => some (countWord s.res.badDgroups)
  | 0x015 => some (countWord s.res.seqErrs)
  | 0x016 => some (countWord s.lat.w)
  | 0x017 => some s.lat.nominal
  | 0x018 => some (countWord s.att.nsamples)
  | 0x060 => some (if sharedClockShown s.lat then s.att.nrzi.clk.value else 0)
  | 0x061 => some (if sharedClockShown s.lat then s.att.nrzi.tLastclock else 0)
  | 0x062 => some (countWord s.att.nrzi.postCounter)
  | n =>
    if h : n % 16 < 9 then trackBank s (n / 16) ⟨n % 16, h⟩ else none

end Sys2Proof.Machine
end

