-- ==== Sys2Proof/Machine/Clock.lean ====
section
/-! DEFINITION. The clock averager (rules R37, R200 to R206). -/

namespace Sys2Proof.Machine

/-- `init(nominal)`, with `n` = CLK_WINDOW (rule R201). -/
def clkInit (strategy : ClkStrategy) (n : Nat) (nominal : F64) : Clock :=
  match strategy with
  | .window => { strategy := .window, ring := List.replicate n nominal, value := nominal }
  | .ewma => { strategy := .ewma, ring := [], value := nominal }
  | .constant => { strategy := .constant, ring := [], value := nominal }

/-- The exponentially weighted mean `(α × x) + ((1.0 − α) × y)` (rules R203, R224). -/
def ewma (α x y : F64) : F64 := fAdd (fMul α x) (fMul (fSub f64One α) y)

/-- `adjust(d)`, with α = CLK_ALPHA (rules R202 to R204): the argument is not checked (rule R206). -/
def clkAdjust (α : F64) (d : F64) (clk : Clock) : Clock :=
  match clk.strategy with
  | .window =>
    let ring := clk.ring.tail ++ [d]
    { clk with ring := ring, value := fDiv (fSum ring) (fOfNat ring.length) }
  | .ewma => { clk with value := ewma α d clk.value }
  | .constant => clk

/-- `force(d)` (rule R205). -/
def clkForce (d : F64) (clk : Clock) : Clock :=
  match clk.strategy with
  | .window => { clk with ring := clk.ring.map fun _ => d, value := d }
  | .ewma => { clk with value := d }
  | .constant => clk

end Sys2Proof.Machine
end

