-- ==== Sys2Proof/Machine/Agc.lean ====
section
/-! DEFINITION. The automatic gain control (rules R220 to R226). -/

namespace Sys2Proof.Machine

/-- `freeze(k)` (rule R221). -/
def agcFreeze (c : CfgFile) (t : Track) : Track :=
  { t with
    vAvgHeight := if fLt 0 t.hSum then fDiv t.hSum (fOfNat t.hN) else c.get .nominalHeight
    hFrozen := true }

/-- The gain a height asks for, at most AGC_MAX; a height ≤ 0 asks for AGC_MAX (rules R223,
R224). -/
def agcGainFor (c : CfgFile) (t : Track) (h : F64) : F64 :=
  if fLe h 0 then c.get .agcMax else fMin (c.get .agcMax) (fDiv t.vAvgHeight h)

/-- `gain_update` (rules R223 to R225). -/
def gainUpdate (c : CfgFile) (l : Latched) (h : F64) (t : Track) : Track :=
  match l.agc with
  | .window =>
    let hwin := pushBounded (c.nat .agcWindow) t.hwin h
    { t with hwin := hwin, gain := agcGainFor c t (fMinList hwin) }
  | .ewma => { t with gain := ewma (c.get .agcAlpha) (agcGainFor c t h) t.gain }
  | .none => t

/-- `max_gain` after a gain update (rule R221). -/
def agcKeepMax (t : Track) : Track := { t with maxGain := fMax t.maxGain t.gain }

/-- The baseline phase of `agc_peak` (rules R221, R222). -/
def agcBaseline (c : CfgFile) (l : Latched) (h : Option F64) (sod : Bool) (t : Track) : Track :=
  if l.mode = .pe && sod && decide (1 ≤ t.hN) then agcFreeze c t
  else match h with
    | none => t
    | some x =>
      let t1 := { t with hSum := fAdd t.hSum x, hN := t.hN + 1 }
      if t1.hN = c.nat .avgHeightCount then agcFreeze c t1 else t1

/-- `agc_peak(k, h, sod)` (rule R221): `h` is none on a track's first peak. -/
def agcPeak (c : CfgFile) (l : Latched) (h : Option F64) (sod : Bool) (t : Track) : Track :=
  if t.hFrozen = false then agcBaseline c l h sod t
  else match h with
    | none => t
    | some x => agcKeepMax (gainUpdate c l x t)

end Sys2Proof.Machine
end

