-- ==== Sys2Proof/Machine/Peak.lean ====
section
/-! DEFINITION. The deskew delay (rules R160, R161) and the peak detector (rules R163 to R169). -/

namespace Sys2Proof.Machine

/-- A peak: its polarity, time and voltage (rule R168). -/
structure Peak where
  pol : Polarity
  t : F64
  v : F64
deriving DecidableEq, Repr

/-- `deskew(k, v)` with d = DESKEW[k] (rule R160): the delayed voltage and the track after it. -/
def deskew (d : Nat) (v : F64) (t : Track) : F64 × Track :=
  if d = 0 then (v, t)
  else
    let q := (if t.primed then t.fifo else List.replicate d v) ++ [v]
    (q.headD v, { t with fifo := q.tail, primed := true })

/-- The required rise (rule R165). -/
def requiredRise (c : CfgFile) (t : Track) : F64 :=
  fDiv (fMul (c.get .pkwwRise) (fDiv t.vAvgHeight (c.get .nominalHeight))) t.gain

/-- The absolute-value condition of a candidate (rule R166). -/
def minPeakMet (c : CfgFile) (v : F64) : Bool :=
  fEq (c.get .minPeak) 0 || fLt (c.get .minPeak) (fAbs v)

/-- The index of the top candidate among the window's voltages, when it is valid (rule R166). -/
def topCandidate (c : CfgFile) (rise : F64) (vs : List F64) : Option Nat :=
  let m := argmaxFirst vs
  let vm := vs.getD m 0
  if decide (0 < m) && decide (m + 1 < vs.length) && fLe rise (fSub vm (vs.headD 0))
      && fLe rise (fSub vm (vs.getLastD 0)) && minPeakMet c vm
  then some m else none

/-- The index of the bottom candidate, when it is valid (rule R166). -/
def botCandidate (c : CfgFile) (rise : F64) (vs : List F64) : Option Nat :=
  let m := argminFirst vs
  let vm := vs.getD m 0
  if decide (0 < m) && decide (m + 1 < vs.length) && fLe rise (fSub (vs.headD 0) vm)
      && fLe rise (fSub (vs.getLastD 0) vm) && minPeakMet c vm
  then some m else none

/-- The older of the valid candidates (rule R167). -/
def chooseCandidate : Option Nat → Option Nat → Option (Polarity × Nat)
  | none, none => none
  | some m, none => some (.top, m)
  | none, some m => some (.bot, m)
  | some mt, some mb => if mb < mt then some (.bot, mb) else some (.top, mt)

/-- The peak's time, shifted by half a sample toward the near flank (rule R168). -/
def interpolate (c : CfgFile) (gain : F64) (tm vm a b : F64) : F64 :=
  if fLt (fDiv (c.get .peakThreshold) gain) (fAbs (fSub a b)) then
    if fLt (fAbs (fSub vm a)) (fAbs (fSub vm b))
    then fSub tm (fMul (c.get .dt) fHalf)
    else fAdd tm (fMul (c.get .dt) fHalf)
  else tm

/-- Detection over a full window (rules R165 to R169): the track with its blackout started, and the
peak. -/
def detectPeak (c : CfgFile) (t : Track) : Track × Option Peak :=
  let vs := t.win.map Prod.snd
  let rise := requiredRise c t
  match chooseCandidate (topCandidate c rise vs) (botCandidate c rise vs) with
  | none => (t, none)
  | some (pol, m) =>
    let tm := (t.win.map Prod.fst).getD m 0
    let vm := vs.getD m 0
    let tp := interpolate c t.gain tm vm (vs.getD (m - 1) 0) (vs.getD (m + 1) 0)
    ({ t with blackout := m }, some { pol := pol, t := tp, v := vm })

/-- `peak_step(k, t, u)` (rules R163 to R169). -/
def peakStep (c : CfgFile) (l : Latched) (time u : F64) (t : Track) : Track × Option Peak :=
  let t1 := { t with win := pushBounded l.w t.win (time, u) }
  if t1.win.length < l.w then (t1, none)
  else if 0 < t1.blackout then ({ t1 with blackout := t1.blackout - 1 }, none)
  else detectPeak c t1

end Sys2Proof.Machine
end

