-- ==== Sys2Proof/Machine/Pe.lean ====
section
/-! DEFINITION. The PE decoder (rules R240 to R252). -/

namespace Sys2Proof.Machine

/-- `win`, the clock window of a track (rule R241). -/
def peWin (c : CfgFile) (t : Track) : F64 := fMul (fMul t.clk.value fHalf) (c.get .clkFactor)

/-- `pe_append(k, b, f)` (rule R248). -/
def peAppend (n : Nat) (k : Fin 9) (b f : Bool) (a : Attempt) : Except Raise Attempt :=
  let t := a.tr k
  if Config.databuf ≤ t.datacount then .error ⟨.bufferOverflow, BitVec.ofNat 16 k.val⟩
  else
    let e := bufRead a.buf t.datacount
    let e' : Entry := { sym := putBit n e.sym k b, fmask := putBit n e.fmask k f }
    .ok ({ a with buf := bufWrite a.buf t.datacount e' }.setTr k
      { t with datacount := t.datacount + 1 })

/-- A track's data reference moves to a peak that is a data transition (rules R242, R243, R247). -/
def peReference (time adj : F64) (b : Bool) (t : Track) : Track :=
  { t with tLastdata := time, clknext := true, tPulseAdj := adj, lastbit := b }

/-- `pe_preamble(k, pk)` (rule R242): the track after the peak, and whether data starts here. -/
def pePreamble (c : CfgFile) (pk : Peak) (t : Track) : Track × Bool :=
  let elapsed := fSub pk.t t.tLast
  if fLt (peWin c t) elapsed then
    (peReference pk.t 0 (polTop pk.pol) { t with phase := .data }, true)
  else if pk.pol ≠ t.polLast then
    ({ t with clk := clkAdjust (c.get .clkAlpha) (fMul fTwo elapsed) t.clk }, false)
  else (t, false)

/-- What a data transition does to its track beside the bit it appends (rule R243). -/
def peDataClock (c : CfgFile) (pk : Peak) (t : Track) : Track :=
  let dev := fSub pk.t (fAdd t.tLastdata t.clk.value)
  peReference pk.t (fMul (c.get .pulseAdj) dev) (polTop pk.pol)
    { t with clk := clkAdjust (c.get .clkAlpha) (fSub pk.t t.tLastdata) t.clk }

/-- `pe_data(k, pk)` (rules R243, R244). -/
def peData (c : CfgFile) (n : Nat) (k : Fin 9) (pk : Peak) (a : Attempt) : Except Raise Attempt :=
  let t := a.tr k
  let elapsed := fSub (fAdd pk.t t.tPulseAdj) t.tLastdata
  if fLt (peWin c t) elapsed then
    andThen (peAppend n k (polTop pk.pol) false a) fun a' => .ok (a'.modTr k (peDataClock c pk))
  else .ok (a.setTr k { t with clknext := false })

/-- The other tracks still producing data (rule R247). -/
def peOthers (n : Nat) (k : Fin 9) (a : Attempt) : List (Fin 9) :=
  (tracks n).filter fun j => j ≠ k && (a.tr j).phase = .data && (a.tr j).idle = false

/-- The count the fill aims at, from the other tracks' counts, none of which is no list
(rule R247): PE_FAKE_TARGET 0 their least, 1 their greatest, 2 the floor of their mean. -/
def peFillTarget (target : Nat) (cs : List Nat) : Nat :=
  match target with
  | 0 => cs.foldl min (cs.headD 0)
  | 1 => cs.foldl max 0
  | _ => cs.sum / cs.length

/-- How many bits the fill adds (rule R247). -/
def peFillCount (c : CfgFile) (n : Nat) (k : Fin 9) (a : Attempt) : Nat :=
  let others := peOthers n k a
  if others.isEmpty then 0
  else
    let cs := others.map fun j => (a.tr j).dcStart
    let have_ := (a.tr k).datacount
    min (peFillTarget (c.nat .peFakeTarget) cs - have_) (Config.databuf - have_)

/-- `pe_return(k, pk)` (rule R247). -/
def peReturn (c : CfgFile) (n : Nat) (k : Fin 9) (pk : Peak) (a : Attempt) : Except Raise Attempt :=
  let fill := peFillCount c n k a
  let last := (a.tr k).lastbit
  andThen (repeatTimes (peAppend n k last true) fill a) fun a1 =>
  andThen (peAppend n k (polTop pk.pol) false
      (a1.modTr k fun t => { t with faked := t.faked + fill })) fun a2 =>
  .ok (a2.modTr k (peReference pk.t 0 (polTop pk.pol)))

/-- `pe_peak(k, pk)` (rule R241): the attempt after the peak, and sod. -/
def pePeak (c : CfgFile) (n : Nat) (k : Fin 9) (pk : Peak) (a : Attempt) :
    Except Raise (Attempt × Bool) :=
  let wasIdle := (a.tr k).idle
  let a1 := a.modTr k fun t => { t with idle := false }
  match (a.tr k).phase with
  | .pre0 => .ok (a1.modTr k fun t => { t with phase := .preamble }, false)
  | .preamble =>
    let r := pePreamble c pk (a1.tr k)
    .ok (a1.setTr k r.1, r.2)
  | .data =>
    andThen (if wasIdle then peReturn c n k pk a1 else peData c n k pk a1) fun a2 =>
    .ok (a2, false)

/-! ## Per-sample step -/

/-- The idle timeout of one track, with its factor of a bit time (rules R245, R327); `started` says
that the track has a peak to measure from. -/
def idleTimeout (factor now : F64) (started : Bool) (t : Track) : Track :=
  if t.idle = false && started && fLt (fMul factor t.clk.value) (fSub now t.tLast)
  then { t with idle := true } else t

/-- A change of each of the first `n` tracks. -/
def eachTrack (n : Nat) (f : Track → Track) (a : Attempt) : Attempt :=
  (tracks n).foldl (fun a k => a.modTr k f) a

/-- Some peak has been seen and every track is idle (rules R246, R328). -/
def allIdle (n : Nat) (a : Attempt) : Bool :=
  a.anyPeak && (tracks n).all fun k => (a.tr k).idle

/-- `pe_sample_step(now)` (rules R245, R246). -/
def peSampleStep (c : CfgFile) (n : Nat) (now : F64) (a : Attempt) : Attempt × Bool :=
  let a1 := eachTrack n
    (fun t => idleTimeout (c.get .peIdleFactor) now (t.phase != .pre0) t) a
  (a1, allIdle n a1)

/-! ## Finalisation pre-step -/

/-- The counts a tapemark asks of the tracks in the mask, and at most two peaks of the others
(rules R252, R342). -/
def tapemarkPattern (mask : Word) (inMask : Track → Bool) (a : Attempt) : Bool :=
  allTracks.all fun k =>
    if mask.getLsbD k.val then inMask (a.tr k) else decide ((a.tr k).peakcount ≤ 2)

/-- The PE tapemark test (rule R252). -/
def peTapemark (c : CfgFile) (a : Attempt) : Bool :=
  tapemarkPattern (c.get .peTmMask)
    (fun t => decide (75 < t.peakcount) && decide (t.datacount ≤ 2)) a

/-- The removal of one bit of the postamble (rule R251): the last bit of the track, and whether it
was a 1. -/
def peStripBit (n : Nat) (k : Fin 9) (a : Attempt) : Attempt × Bool :=
  let t := a.tr k
  let i := t.datacount - 1
  let e := bufRead a.buf i
  let e' : Entry := { sym := clrBit n e.sym k, fmask := clrBit n e.fmask k }
  ({ a with buf := bufWrite a.buf i e' }.setTr k
    { t with datacount := i, faked := if symBit n e.fmask k then t.faked - 1 else t.faked },
    symBit n e.sym k)

/-- The strip with at most `left` more removals after `removed` of them (rule R251). -/
def peStripFrom (c : CfgFile) (n : Nat) (k : Fin 9) : Nat → Nat → Attempt → Attempt
  | 0, _, a => a
  | left + 1, removed, a =>
    if (a.tr k).datacount = 0 then a
    else
      let r := peStripBit n k a
      if c.nat .ignorePostamble ≤ removed + 1 && r.2 then r.1
      else peStripFrom c n k left (removed + 1) r.1

/-- The postamble strip of track `k` (rule R251). -/
def peStrip (c : CfgFile) (n : Nat) (k : Fin 9) (a : Attempt) : Attempt :=
  peStripFrom c n k (c.nat .maxPostambleBits) 0 a

/-- `pe_finalize()` (rule R250): the attempt stripped, and the tapemark test on the counts before
stripping. -/
def peFinalize (c : CfgFile) (n : Nat) (a : Attempt) : Attempt × Bool :=
  ((tracks n).foldl (fun a k => peStrip c n k a) a, peTapemark c a)

end Sys2Proof.Machine
end

