-- ==== Sys2Proof/Machine/Nrzi.lean ====
section
/-! DEFINITION. The NRZI decoder (rules R280 to R292). -/

namespace Sys2Proof.Machine

/-! ## Per-peak step -/

/-- One more symbol at the end of the data buffer, or BUFFER_OVERFLOW(0xFFFF) (rules R285, R287). -/
def nrziAppend (sym : Sym) (a : Attempt) : Except Raise Attempt :=
  if Config.databuf ≤ a.nrzi.nsym then .error ⟨.bufferOverflow, 0xFFFF⟩
  else .ok { a with
    buf := bufWrite a.buf a.nrzi.nsym { sym := sym, fmask := 0 }
    nrzi := { a.nrzi with nsym := a.nrzi.nsym + 1 } }

/-- One more midbit warning (rule R287). -/
def nrziWarn (a : Attempt) : Attempt :=
  { a with nrzi := { a.nrzi with missedMidbits := a.nrzi.missedMidbits + 1 } }

/-- A late peak while the data phase runs: the track's bit of the last symbol (rule R287). -/
def nrziLateData (n : Nat) (k : Fin 9) (a : Attempt) : Attempt :=
  let i := a.nrzi.nsym - 1
  let e := bufRead a.buf i
  if symBit n e.sym k then a
  else nrziWarn { a with buf := bufWrite a.buf i { e with sym := setBit n e.sym k } }

/-- `nrzi_late_peak(k)` (rule R287). -/
def nrziLatePeak (n : Nat) (k : Fin 9) (a : Attempt) : Except Raise Attempt :=
  if a.nrzi.postCounter = 0 ∧ 0 < a.nrzi.nsym then .ok (nrziLateData n k a)
  else if a.nrzi.postCounter = 1 then
    andThen (nrziAppend (setBit n 0 k) a) fun a1 =>
    .ok (nrziWarn { a1 with nrzi := { a1.nrzi with postCounter := 0 } })
  else .ok a

/-- `speed_reset_peak(k, pk)` (rule R289). -/
def speedResetPeak (c : CfgFile) (k : Fin 9) (pk : Peak) (z : Nrzi) : Nrzi :=
  if c.nat .nrziSpeedReset = 1 ∧ z.srDone = false then
    match z.srTrk with
    | none => if pk.pol = .top then { z with srTrk := some k, srT := pk.t } else z
    | some j =>
      if k = j then { z with clk := clkForce (fSub pk.t z.srT) z.clk, srDone := true } else z
  else z

/-- The first peak of the attempt starts the block (rules R281, R282). -/
def nrziBlockStart (pk : Peak) (z : Nrzi) : Nrzi :=
  if z.datablock then z
  else { z with datablock := true, tLastclock := fSub pk.t z.clk.value }

/-- `nrzi_peak(k, pk)` (rule R281). -/
def nrziPeak (c : CfgFile) (n : Nat) (k : Fin 9) (pk : Peak) (a : Attempt) :
    Except Raise Attempt :=
  let a1 := { a with nrzi := nrziBlockStart pk a.nrzi }
  let late := a1.nrzi.haveBoundary && fLe pk.t a1.nrzi.tBoundary
  andThen (if late then nrziLatePeak n k a1
      else .ok (a1.modTr k fun t =>
        if t.pending then t else { t with pending := true, tPending := pk.t })) fun a2 =>
  .ok { a2 with nrzi := speedResetPeak c k pk a2.nrzi }

/-! ## Midbit loop -/

/-- From the last clock to the next midbit (rule R284). -/
def midbitSpan (c : CfgFile) (z : Nrzi) : F64 :=
  fMul (fAdd f64One (c.get .midbitFraction)) z.clk.value

/-- A midbit fires at `now` (rule R284). -/
def midbitDue (c : CfgFile) (now : F64) (z : Nrzi) : Bool :=
  fLt (midbitSpan c z) (fSub now z.tLastclock)

/-- The tracks whose pending peak belongs to the midbit with boundary `b` (rule R284). -/
def midbitTracks (n : Nat) (b : F64) (a : Attempt) : List (Fin 9) :=
  (tracks n).filter fun k => (a.tr k).pending && fLe (a.tr k).tPending b

/-- The average of the pending peak times of the tracks `m` (rule R284). -/
def pendingMean (m : List (Fin 9)) (a : Attempt) : F64 :=
  fDiv (fSum (m.map fun k => (a.tr k).tPending)) (fOfNat m.length)

/-- The symbol with a 1 for each of the tracks `m` (rule R284). -/
def symOf (n : Nat) (m : List (Fin 9)) : Sym := m.foldl (setBit n) 0

/-- `nrzi_data_cell(sym, avg, t_exp)` (rule R285). -/
def nrziDataCell (c : CfgFile) (sym : Sym) (avg tExp : F64) (a : Attempt) : Except Raise Attempt :=
  andThen (nrziAppend sym a) fun a1 =>
  let tNew := fAdd avg (fMul (c.get .pulseAdj) (fSub tExp avg))
  .ok { a1 with nrzi := { a1.nrzi with
    clk := clkAdjust (c.get .clkAlpha) (fSub tNew a1.nrzi.tLastclock) a1.nrzi.clk
    tLastclock := tNew } }

/-- `nrzi_post_cell(sym, M, avg, t_exp)` (rule R286); `hit` says that M is not empty. -/
def nrziPostCell (n : Nat) (sym : Sym) (hit : Bool) (avg tExp : F64) (z : Nrzi) : Nrzi :=
  if hit && z.postCounter == Config.nrziCrcPos && n == 9 then
    { z with crc := sym, tLastclock := avg }
  else if hit && z.postCounter == Config.nrziLrcPos then
    { z with lrc := sym, tLastclock := avg }
  else { z with tLastclock := tExp }

/-- One midbit, from its boundary on (rule R284): the attempt after it, and whether the block
ended. -/
def nrziMidbit (c : CfgFile) (n : Nat) (a : Attempt) : Except Raise (Attempt × Bool) :=
  let z := a.nrzi
  let b := fAdd z.tLastclock (midbitSpan c z)
  let m := midbitTracks n b a
  let tExp := fAdd z.tLastclock z.clk.value
  let sym := symOf n m
  let avg := pendingMean m a
  let a1 := m.foldl (fun a k => a.modTr k fun t => { t with pending := false }) a
  let fired (a2 : Attempt) : Attempt :=
    { a2 with nrzi := { a2.nrzi with haveBoundary := true, tBoundary := b } }
  if z.postCounter = 0 then
    if m.isEmpty then
      .ok (fired { a1 with nrzi := { z with postCounter := 1, tLastclock := tExp } }, false)
    else andThen (nrziDataCell c sym avg tExp a1) fun a2 => .ok (fired a2, false)
  else
    let z1 := { z with postCounter := z.postCounter + 1 }
    if 8 < z1.postCounter then .ok ({ a1 with nrzi := z1 }, true)
    else .ok (fired { a1 with nrzi := nrziPostCell n sym (!m.isEmpty) avg tExp z1 }, false)

/-- The midbit loop with at most `fuel` midbits (rules R284, R288). -/
def nrziLoop (c : CfgFile) (n : Nat) (now : F64) : Nat → Attempt → Except Raise (Attempt × Bool)
  | 0, a => .ok (a, false)
  | fuel + 1, a =>
    if midbitDue c now a.nrzi then
      andThen (nrziMidbit c n a) fun x =>
      if x.2 then .ok x else nrziLoop c n now fuel x.1
    else .ok (a, false)

/-- A bound no run of the loop passes: every midbit takes a pending track or raises post_counter
(rule R284). -/
def midbitBound (n : Nat) (a : Attempt) : Nat :=
  ((tracks n).filter fun k => (a.tr k).pending).length + (10 - a.nrzi.postCounter) + 1

/-- `nrzi_sample_step(now)` (rule R284). -/
def nrziSampleStep (c : CfgFile) (n : Nat) (now : F64) (a : Attempt) :
    Except Raise (Attempt × Bool) :=
  if a.nrzi.datablock then nrziLoop c n now (midbitBound n a) a else .ok (a, false)

/-! ## Finalisation pre-step -/

/-- The data symbols `d[0] .. d[count − 1]` of the buffer. -/
def bufSyms (b : Buf) (count : Nat) : List Sym := (List.range count).map fun i => (bufRead b i).sym

/-- The CRC accumulator after one more data symbol (rule R290). -/
def nrziCrcStep (acc d : Sym) : Sym :=
  let x := acc ^^^ d
  let y := if x.getLsbD 0 then x ^^^ 0x0F0 else x
  y.rotateRight 1

/-- The CRC of the data symbols (rule R290). -/
def nrziCrc (ds : List Sym) : Sym := ds.foldl nrziCrcStep 0 ^^^ 0x1AF

/-- The exclusive OR of the data symbols (rule R290). -/
def xorAll (ds : List Sym) : Sym := ds.foldl (· ^^^ ·) 0

/-- CRC_BAD (rule R290): the check is made on 9-track tapes only. -/
def nrziCrcBad (n : Nat) (ds : List Sym) (crc : Sym) : Bool := n == 9 && nrziCrc ds != crc

/-- LRC_BAD (rule R290): the LRC covers the CRC symbol on 9-track tapes. -/
def nrziLrcBad (n : Nat) (ds : List Sym) (crc lrc : Sym) : Bool :=
  (if n = 9 then xorAll ds ^^^ crc else xorAll ds) != lrc

/-- The NRZI tapemark test (rule R291). -/
def nrziTapemark (n : Nat) (ds : List Sym) (crc lrc : Sym) : Bool :=
  if n = 9 then ds == [0x026] && crc == 0x000 && lrc == 0x026
  else ds == [0x01E] && lrc == 0x01E

end Sys2Proof.Machine
end

