-- ==== Sys2Proof/Machine/Gcr.lean ====
section
/-! DEFINITION. The GCR decoder (rules R320 to R343). The data-group table and the ECC predicate are
arguments here (rule R10); the machine passes the open ones of Config. -/

namespace Sys2Proof.Machine

/-! ## Per-track bit extraction -/

/-- A resync burst begins on a 0-bit whose last five bits are MARK2 (rule R325). -/
def gcrResyncArm (bit : Option F64) (t : Track) : Track :=
  if t.resyncActive = false && bit.isNone && t.last5 = 0b11100 then
    { t with resyncActive := true, resyncBitcount := 0 }
  else t

/-- A 1-bit at `time` inside a resync burst (rule R325). -/
def gcrResyncOne (time : F64) (t : Track) : Track :=
  let n := t.resyncBitcount + 1
  let first := if n = 1 then time else t.tResyncFirst
  if n = Config.gcrResyncOnes then
    { t with
      resyncBitcount := n
      tResyncFirst := first
      clk := clkForce (fDiv (fSub time first) (fOfNat (Config.gcrResyncOnes - 1))) t.clk
      resyncActive := false }
  else { t with resyncBitcount := n, tResyncFirst := first }

/-- `gcr_resync_bit(k, b, t)` (rule R325): a 1-bit carries its time, a 0-bit none. -/
def gcrResyncBit (bit : Option F64) (t : Track) : Track :=
  gcrResyncArm bit
    (if t.resyncActive then
      match bit with
      | none => { t with resyncActive := false }
      | some time => gcrResyncOne time t
    else t)

/-- `gcr_bit(k, b, t)` (rule R322). -/
def gcrBit (k : Fin 9) (bit : Option F64) (t : Track) : Except Raise Track :=
  if Config.gcrMaxbits ≤ t.datacount then .error ⟨.bufferOverflow, BitVec.ofNat 16 k.val⟩
  else .ok (gcrResyncBit bit { t with
    bits := t.bits ++ [bit.isSome]
    datacount := t.datacount + 1
    last5 := (t.last5 <<< 1) ||| (if bit.isSome then 1 else 0) })

/-- `gcr_clock(k, nz)` (rule R321). -/
def gcrClock (c : CfgFile) (nz : Nat) (t : Track) : Track :=
  let run := if nz = 0 then t.onesRun + 1 else 1
  let t1 := { t with onesRun := run }
  if 3 ≤ run then { t1 with clk := clkAdjust (c.get .clkAlpha) (fSub t.tLast t.tLast2) t1.clk }
  else t1

/-- How many 0-bits precede the 1-bit of a peak at `time` (rule R320). -/
def gcrZeros (c : CfgFile) (time : F64) (t : Track) : Nat :=
  let x := fSub (fSub time t.tLast) t.tPulseAdj
  if fLt (fMul (c.get .z2pt) t.clk.value) x then 2
  else if fLt (fMul (c.get .z1pt) t.clk.value) x then 1
  else 0

/-- A peak that is not the track's first (rule R320). -/
def gcrNextPeak (c : CfgFile) (k : Fin 9) (time : F64) (t : Track) : Except Raise Track :=
  let bs := t.clk.value
  let nz := gcrZeros c time t
  andThen (repeatTimes (gcrBit k none) nz t) fun t1 =>
  andThen (gcrBit k (some time) t1) fun t2 =>
  let tExp := fAdd t2.tLast (fMul (fOfNat (nz + 1)) bs)
  .ok (gcrClock c nz { t2 with tPulseAdj := fMul (c.get .pulseAdj) (fSub tExp time) })

/-- `gcr_peak(k, pk)` (rule R320). -/
def gcrPeak (c : CfgFile) (k : Fin 9) (pk : Peak) (t : Track) : Except Raise Track :=
  let t0 := { t with idle := false }
  if t0.haveLast = false then
    andThen (gcrBit k (some pk.t) t0) fun t1 => .ok { t1 with onesRun := 1 }
  else gcrNextPeak c k pk.t t0

/-- `gcr_sample_step(now)` (rules R327, R328). -/
def gcrSampleStep (c : CfgFile) (n : Nat) (now : F64) (a : Attempt) : Attempt × Bool :=
  let a1 := eachTrack n (fun t => idleTimeout (c.get .gcrIdleFactor) now t.haveLast t) a
  (a1, allIdle n a1)

/-! ## Block decode -/

/-- A storage group (rule R332), and the codes of one group over all tracks, track 0 first. -/
abbrev Code := BitVec 5

/-- The five bits of a storage group, the first the most significant (rule R332). -/
def codeOf (b0 b1 b2 b3 b4 : Bool) : Code :=
  BitVec.ofNat 5 (16 * boolNat b0 + 8 * boolNat b1 + 4 * boolNat b2 + 2 * boolNat b3 + boolNat b4)

/-- The bits after the first MARK1 of a track, none where there is no MARK1 (rule R332). -/
def afterMark1 : List Bool → Option (List Bool)
  | [] => none
  | b :: bs =>
    if !b && bs.take 4 == [false, true, true, true] then some (bs.drop 4) else afterMark1 bs

/-- The whole storage groups of a bit stream (rule R332). -/
def groupsOf : List Bool → List Code
  | b0 :: b1 :: b2 :: b3 :: b4 :: rest => codeOf b0 b1 b2 b3 b4 :: groupsOf rest
  | _ => []

/-- The group `g` of every track, for as many groups as every track has (rule R332). -/
def groupRows (cols : List (List Code)) : List (List Code) :=
  let g := (cols.map List.length).foldl min ((cols.headD []).length)
  (List.range g).map fun i => cols.map fun col => col.getD i 0

/-- Every element's value, none where one of them has none. -/
def allSome {α : Type} : List (Option α) → Option (List α)
  | [] => some []
  | none :: _ => none
  | some x :: rest =>
    match allSome rest with
    | none => none
    | some xs => some (x :: xs)

/-- The aligned groups of the block, none where a track has no MARK1 (rule R332). -/
def gcrAlign (n : Nat) (a : Attempt) : Option (List (List Code)) :=
  match allSome ((tracks n).map fun k => afterMark1 (a.tr k).bits) with
  | none => none
  | some streams => some (groupRows (streams.map groupsOf))

/-- Group classes (rule R333). -/
inductive GroupClass where
  | mark1 | mark2 | sync | data
deriving DecidableEq, Repr

/-- The class of a group: special only when every track holds the code (rule R333). -/
def groupClass (row : List Code) : GroupClass :=
  if row.all (· == 0b00111) then .mark1
  else if row.all (· == 0b11100) then .mark2
  else if row.all (· == 0b11111) then .sync
  else .data

/-- State of the group machine (rule R334): what it has decoded, the pairs oldest first, the
sequence errors and the terminal flag. -/
structure GroupRun where
  pairs : List (List Code × List Code)
  seq : Nat
  terminal : Bool
deriving DecidableEq, Repr

/-- Phase of the group machine (rule R334): `some rs` in RESYNC after `rs` SYNC groups. -/
abbrev GroupPhase := Option Nat

/-- One more sequence error. -/
def GroupRun.bad (r : GroupRun) : GroupRun := { r with seq := r.seq + 1 }

/-- The group machine from a row on (rule R334). A row that breaks a resync burst counts a sequence
error and is read again in DATA, here in the same step. -/
def groupMachine : List (List Code) → GroupPhase → GroupRun → GroupRun
  | [], _, r => r
  | row :: rest, ph, r =>
    match ph, groupClass row with
    | some rs, .sync => groupMachine rest (if rs + 1 = 14 then none else some (rs + 1)) r
    | ph, cls =>
      let r1 := if ph.isSome then r.bad else r
      match cls with
      | .mark2 => groupMachine rest (some 0) r1
      | .sync => { r1 with terminal := true }
      | .mark1 => groupMachine rest none r1.bad
      | .data =>
        match rest with
        | [] => r1.bad
        | row2 :: rest2 =>
          if groupClass row2 = .data then
            groupMachine rest2 none { r1 with pairs := r1.pairs ++ [(row, row2)] }
          else groupMachine (row2 :: rest2) none r1.bad

/-- The group machine over the whole block (rule R334). -/
def runGroups (rows : List (List Code)) : GroupRun :=
  let r := groupMachine rows none { pairs := [], seq := 0, terminal := false }
  if r.terminal then r else r.bad

/-- GCR_DGROUP_TABLE (rule R331): the open table, with every special code INVALID. -/
def gcrDgroupTable (code : Code) : Option (BitVec 4) :=
  if code = 0b00111 ∨ code = 0b11100 ∨ code = 0b11111 then none else Config.gcrDgroupRaw code

/-- The table normally used (rule R331), which the spec marks as general knowledge. The machine does
not take it: it is here for tests and statements that assume it (assumption 5). -/
def gcrDefaultTable (code : Code) : Option (BitVec 4) :=
  match code.toNat with
  | 0b11001 => some 0x0 | 0b11011 => some 0x1 | 0b10010 => some 0x2 | 0b10011 => some 0x3
  | 0b11101 => some 0x4 | 0b10101 => some 0x5 | 0b10110 => some 0x6 | 0b10111 => some 0x7
  | 0b11010 => some 0x8 | 0b01001 => some 0x9 | 0b01010 => some 0xA | 0b01011 => some 0xB
  | 0b11110 => some 0xC | 0b01101 => some 0xD | 0b01110 => some 0xE | 0b01111 => some 0xF
  | _ => none

/-- Byte `j` of the four a row of data groups gives: each track's bit is bit `3 − j` of its
nibble, 0 where the code is INVALID (rule R336). -/
def rowByte (n : Nat) (table : Code → Option (BitVec 4)) (row : List Code) (j : Nat) : Sym :=
  (tracks n).foldl
    (fun sym k => putBit n sym k (((table (row.getD k.val 0)).getD 0).getLsbD (3 - j))) 0

/-- The eight bytes of `decode_pair` (rule R336). -/
def pairBytes (n : Nat) (table : Code → Option (BitVec 4)) (p : List Code × List Code) :
    List Sym :=
  [rowByte n table p.1 0, rowByte n table p.1 1, rowByte n table p.1 2, rowByte n table p.1 3,
   rowByte n table p.2 0, rowByte n table p.2 1, rowByte n table p.2 2, rowByte n table p.2 3]

/-- The invalid codes of a pair (rule R336). -/
def pairBadDgroups (table : Code → Option (BitVec 4)) (p : List Code × List Code) : Nat :=
  ((p.1 ++ p.2).filter fun code => (table code).isNone).length

/-- Bytes whose parity is not odd (rule R338). -/
def oddParityErrs (bs : List Sym) : Nat := (bs.filter fun b => xorReduce b != 1).length

/-- What the block decode gives (rules R330 to R340). -/
structure GcrBlock where
  syms : List Sym
  vparityErrs : Nat
  eccErrs : Nat
  badDgroups : Nat
  seqErrs : Nat
deriving DecidableEq, Repr

/-- The symbols of the block and the sequence error of a block with fewer than two pairs
(rule R340). -/
def gcrAssemble (terminal : Bool) (pairs : List (List Sym)) : List Sym × Nat :=
  if terminal ∧ 2 ≤ pairs.length then
    let residual := ((pairs.getLastD []).getD 6 0).extractLsb' 6 3
    let d := (pairs.dropLast.map (·.take 7)).flatten
    (d.take (d.length - residual.toNat), 0)
  else ((pairs.map (·.take 7)).flatten, boolNat terminal)

/-- The group machine, the pair decode and the assembly over aligned rows (rules R334 to R340). -/
def gcrDecodeRows (n : Nat) (table : Code → Option (BitVec 4)) (ecc : List Sym → Bool)
    (rows : List (List Code)) : GcrBlock :=
  let run := runGroups rows
  let pairs := run.pairs.map (pairBytes n table)
  let asm := gcrAssemble run.terminal pairs
  { syms := asm.1
    vparityErrs := (pairs.map oddParityErrs).sum
    eccErrs := (pairs.filter fun p => !ecc p).length
    badDgroups := (run.pairs.map (pairBadDgroups table)).sum
    seqErrs := run.seq + asm.2 }

/-- A block with no symbols and `seq` sequence errors. -/
def GcrBlock.empty (seq : Nat) : GcrBlock :=
  { syms := [], vparityErrs := 0, eccErrs := 0, badDgroups := 0, seqErrs := seq }

/-- The block decode (rules R332 to R340). -/
def gcrDecode (n : Nat) (table : Code → Option (BitVec 4)) (ecc : List Sym → Bool) (a : Attempt) :
    GcrBlock :=
  match gcrAlign n a with
  | none => GcrBlock.empty 1
  | some rows => gcrDecodeRows n table ecc rows

/-- The GCR tapemark test (rule R342). -/
def gcrTapemark (c : CfgFile) (a : Attempt) : Bool :=
  tapemarkPattern (c.get .gcrTmMask)
    (fun t => decide (250 ≤ t.peakcount) && decide (t.peakcount ≤ 400)) a

/-- Symbols written to the data buffer from index `i` up (rule R340). -/
def bufWriteSyms : Nat → List Sym → Buf → Buf
  | _, [], b => b
  | i, s :: ss, b => bufWriteSyms (i + 1) ss (bufWrite b i { sym := s, fmask := 0 })

/-- `gcr_finalize()` (rule R330): the attempt with its symbols written, the decode, and the tapemark
test. -/
def gcrFinalize (c : CfgFile) (n : Nat) (a : Attempt) : Attempt × GcrBlock × Bool :=
  if gcrTapemark c a then (a, GcrBlock.empty 0, true)
  else
    let blk := gcrDecode n gcrDgroupTable Config.gcrEccOk a
    ({ a with buf := bufWriteSyms 0 blk.syms a.buf, gcrNsym := blk.syms.length }, blk, false)

end Sys2Proof.Machine
end

