-- ==== Sys2Proof/Machine/Finalize.lean ====
section
/-! DEFINITION. Block finalisation and the result registers (rules R370 to R385). -/

namespace Sys2Proof.Machine

/-- What the modes' pre-steps hand to the common results (rules R370, R382). -/
structure PreResults where
  minbits : Nat
  maxbits : Nat
  nsymbols : Nat
  vparityErrs : Nat
  fakedBits : Nat
  avgBitSpacing : F64
  crc : Sym
  lrc : Sym
  crcBad : Bool
  lrcBad : Bool
  eccErrs : Nat
  badDgroups : Nat
  seqErrs : Nat
  tapemark : Bool
deriving DecidableEq, Repr

/-- The least and the greatest count over the tracks (rule R375). -/
def minCount (n : Nat) (a : Attempt) : Nat :=
  let cs := (tracks n).map fun k => (a.tr k).datacount
  cs.foldl min (cs.headD 0)
def maxCount (n : Nat) (a : Attempt) : Nat :=
  ((tracks n).map fun k => (a.tr k).datacount).foldl max 0

/-- VPARITY_ERRS for PE and NRZI (rule R378). -/
def vparityErrs (c : CfgFile) (b : Buf) (count : Nat) : Nat :=
  ((bufSyms b count).filter fun s => xorReduce s != c.nat .expectedParity).length

/-- The mean clock of the tracks that had a peak, nominal where none had (rule R381). -/
def meanClock (n : Nat) (nominal : F64) (a : Attempt) : F64 :=
  let ks := (tracks n).filter fun k => 0 < (a.tr k).peakcount
  if ks.isEmpty then nominal
  else fDiv (fSum (ks.map fun k => (a.tr k).clk.value)) (fOfNat ks.length)

/-- The greatest gain of any track (rule R381). -/
def allMaxGain (n : Nat) (a : Attempt) : F64 := fMaxList ((tracks n).map fun k => (a.tr k).maxGain)

/-- FAKED_BITS for PE (rule R380). -/
def fakedBits (n : Nat) (a : Attempt) : Nat := ((tracks n).map fun k => (a.tr k).faked).sum

/-- The PE results before the common ones (rules R250, R375 to R381). -/
def pePre (c : CfgFile) (l : Latched) (a : Attempt) : Attempt × PreResults :=
  let n := l.ntrks
  let r := peFinalize c n a
  let a1 := r.1
  (a1,
    { minbits := minCount n a1
      maxbits := maxCount n a1
      nsymbols := minCount n a1
      vparityErrs := vparityErrs c a1.buf (minCount n a1)
      fakedBits := fakedBits n a1
      avgBitSpacing := meanClock n l.nominal a1
      crc := 0
      lrc := 0
      crcBad := false
      lrcBad := false
      eccErrs := 0
      badDgroups := 0
      seqErrs := 0
      tapemark := r.2 })

/-- The NRZI results before the common ones (rules R290, R291, R375 to R384). -/
def nrziPre (c : CfgFile) (l : Latched) (a : Attempt) : PreResults :=
  let z := a.nrzi
  let ds := bufSyms a.buf z.nsym
  { minbits := z.nsym
    maxbits := z.nsym
    nsymbols := z.nsym
    vparityErrs := vparityErrs c a.buf z.nsym
    fakedBits := 0
    avgBitSpacing := z.clk.value
    crc := z.crc
    lrc := z.lrc
    crcBad := nrziCrcBad l.ntrks ds z.crc
    lrcBad := nrziLrcBad l.ntrks ds z.crc z.lrc
    eccErrs := 0
    badDgroups := 0
    seqErrs := 0
    tapemark := nrziTapemark l.ntrks ds z.crc z.lrc }

/-- The GCR results before the common ones (rules R330 to R343, R375 to R384). -/
def gcrPre (c : CfgFile) (l : Latched) (a : Attempt) : Attempt × PreResults :=
  let n := l.ntrks
  let r := gcrFinalize c n a
  let a1 := r.1
  (a1,
    { minbits := minCount n a1
      maxbits := maxCount n a1
      nsymbols := a1.gcrNsym
      vparityErrs := r.2.1.vparityErrs
      fakedBits := 0
      avgBitSpacing := meanClock n l.nominal a1
      crc := 0
      lrc := 0
      crcBad := false
      lrcBad := false
      eccErrs := r.2.1.eccErrs
      badDgroups := r.2.1.badDgroups
      seqErrs := r.2.1.seqErrs
      tapemark := r.2.2 })

/-- BLKTYPE (rule R377). -/
def blkTypeOf (tapemark anyPeak : Bool) (nsymbols : Nat) : BlkType :=
  if tapemark then .tapemark
  else if anyPeak = false then .none
  else if nsymbols ≤ 1 then .noise
  else .block

/-- ERRCOUNT and WARNCOUNT (rule R382). -/
def errcountOf (p : PreResults) : Nat :=
  p.vparityErrs + boolNat (p.minbits != p.maxbits) + boolNat p.crcBad + boolNat p.lrcBad
    + p.eccErrs + p.badDgroups + p.seqErrs
def warncountOf (missed : Nat) (p : PreResults) : Nat := missed + p.fakedBits

/-- The result registers before the tapemark clearing (rules R375 to R382, R384). -/
def commonResults (l : Latched) (a : Attempt) (p : PreResults) : Results :=
  { blktype := blkTypeOf p.tapemark a.anyPeak p.nsymbols
    nsymbols := p.nsymbols
    minbits := p.minbits
    maxbits := p.maxbits
    avgBitSpacing := p.avgBitSpacing
    vparityErrs := p.vparityErrs
    fakedBits := p.fakedBits
    crc := p.crc
    lrc := p.lrc
    crcBad := p.crcBad
    lrcBad := p.lrcBad
    errcount := errcountOf p
    warncount := warncountOf a.nrzi.missedMidbits p
    alltrkMaxAgcGain := allMaxGain l.ntrks a
    trackMismatch := p.minbits != p.maxbits
    mismatchSpan := p.maxbits - p.minbits
    eccErrs := p.eccErrs
    badDgroups := p.badDgroups
    seqErrs := p.seqErrs }

/-- Tapemark clearing (rule R383). -/
def tapemarkClear (r : Results) : Results :=
  if r.blktype = .tapemark then
    { r with
      vparityErrs := 0
      trackMismatch := false
      mismatchSpan := 0
      crcBad := false
      lrcBad := false
      eccErrs := 0
      badDgroups := 0
      seqErrs := 0
      errcount := 0 }
  else r

/-- The peak-scan results (rule R385). -/
def scanResults : Results := { Results.zero with alltrkMaxAgcGain := f64One }

/-- The results of a decoding attempt, from its pre-step (rule R370). -/
def resultsOf (l : Latched) (x : Attempt × PreResults) : Attempt × Results :=
  (x.1, tapemarkClear (commonResults l x.1 x.2))

/-- `finalize()` (rule R370): the attempt after the pre-step, and the final result registers. The
arm for no mode is not reached: BLK_START latches one of the three (rule R129). -/
def finalize (c : CfgFile) (l : Latched) (a : Attempt) : Attempt × Results :=
  if l.scan then (a, scanResults)
  else match l.mode with
    | .pe => resultsOf l (pePre c l a)
    | .nrzi => resultsOf l (a, nrziPre c l a)
    | .gcr => resultsOf l (gcrPre c l a)
    | .unset => (a, Results.zero)

end Sys2Proof.Machine
end

