-- ==== Sys2Proof/Machine/BlkStart.lean ====
section
/-! DEFINITION. BLK_START: the configuration check, the latched values and the attempt's
initialisation (rules R36, R126, R128 to R130, R162, R200, R220). -/

namespace Sys2Proof.Machine

/-- BPI = 0 selects peak-scan mode (rules R5, R129). -/
def cfgScan (c : CfgFile) : Bool := fEq (c.get .bpi) 0

/-- `1.0 / (BPI × IPS)` (rules R36, R129). -/
def cfgBitspace (c : CfgFile) : F64 := fDiv f64One (fMul (c.get .bpi) (c.get .ips))

/-- The window width W (rule R162). -/
def cfgWindow (c : CfgFile) : Nat :=
  if cfgScan c then Config.wScan
  else
    let den := fMul (fMul (c.get .bpi) (c.get .ips)) (c.get .dt)
    let q := fDiv (c.get .pkwwBitfrac) den
    if fLe (fOfNat Config.wMax) q then Config.wMax else fFloorNat q

/-- Finite and > 0; finite and ≥ 0; finite and in 0..1 (rules R126, R129). -/
def cfgPositive (x : F64) : Bool := fFinite x && fLt 0 x
def cfgNonneg (x : F64) : Bool := fFinite x && fLe 0 x
def cfgUnit (x : F64) : Bool := fFinite x && fLe 0 x && fLe x f64One

/-- The number of 1 bits of a register (rule R11). -/
def popcount (w : Word) : Nat := ((List.range 64).map fun i => boolNat (w.getLsbD i)).sum

/-- A tapemark mask: bits 8:0 only, six of them set (rules R27, R129). -/
def cfgMask (w : Word) : Bool := decide (w.toNat < 2 ^ 9) && popcount w == 6

/-- A check that runs only when `on` holds (rule R129). -/
def cfgWhen (on check : Bool) : Bool := !on || check

/-- The checks of BLK_START in the order they run, each with the address it reports (rule R129).
The second check of 0x003 runs once IPS is known to be finite and > 0. -/
def cfgChecks (c : CfgFile) : List (BitVec 16 × Bool) :=
  let decode := !cfgScan c
  let pe := decode && modeOf (c.get .mode) == .pe
  let nrzi := decode && modeOf (c.get .mode) == .nrzi
  let gcr := decode && modeOf (c.get .mode) == .gcr
  [ (0x000, modeOf (c.get .mode) != .unset),
    (0x001, (c.nat .ntrks == 7 && modeOf (c.get .mode) == .nrzi) || c.nat .ntrks == 9),
    (0x002, cfgPositive (c.get .dt)),
    (0x003, cfgNonneg (c.get .bpi)),
    (0x004, cfgPositive (c.get .ips)),
    (0x003, cfgWhen decode (cfgPositive (cfgBitspace c))),
    (0x005, decide (c.nat .expectedParity ≤ 1)),
    (0x010, decide (c.nat .clkWindow ≤ Config.clkNMax)),
    (0x011, cfgUnit (c.get .clkAlpha)),
    (0x012, decide (c.nat .agcWindow ≤ Config.agcKMax)),
    (0x013, cfgUnit (c.get .agcAlpha)),
    (0x014, cfgNonneg (c.get .minPeak)),
    (0x015, cfgWhen pe (cfgPositive (c.get .clkFactor))),
    (0x016, cfgWhen decode (cfgUnit (c.get .pulseAdj))),
    (0x017, cfgPositive (c.get .pkwwBitfrac) && decide (Config.wMin ≤ cfgWindow c)),
    (0x018, cfgNonneg (c.get .pkwwRise)),
    (0x019, cfgWhen nrzi (cfgNonneg (c.get .midbitFraction)
      && fLt (c.get .midbitFraction) f64One)),
    (0x01A, cfgWhen gcr (cfgPositive (c.get .z1pt))),
    (0x01B, cfgWhen gcr (fFinite (c.get .z2pt) && fLt (c.get .z1pt) (c.get .z2pt))),
    (0x020, cfgNonneg (c.get .peakThreshold)),
    (0x021, cfgWhen decode (fFinite (c.get .agcMax) && fLe f64One (c.get .agcMax))),
    (0x022, cfgPositive (c.get .nominalHeight)),
    (0x023, cfgWhen decode (decide (1 ≤ c.nat .avgHeightCount)
      && decide (c.nat .avgHeightCount ≤ 65535))),
    (0x024, cfgWhen pe (cfgPositive (c.get .peIdleFactor))),
    (0x025, cfgWhen gcr (cfgPositive (c.get .gcrIdleFactor))),
    (0x026, cfgWhen pe (decide (c.nat .ignorePostamble ≤ 65535))),
    (0x027, cfgWhen pe (decide (c.nat .ignorePostamble ≤ c.nat .maxPostambleBits)
      && decide (c.nat .maxPostambleBits ≤ 65535))),
    (0x028, cfgWhen pe (decide (c.nat .peFakeTarget ≤ 2))),
    (0x029, cfgWhen nrzi (decide (c.nat .nrziSpeedReset ≤ 1))),
    (0x02A, cfgWhen pe (cfgMask (c.get .peTmMask))),
    (0x02B, cfgWhen gcr (cfgMask (c.get .gcrTmMask))),
    (0x040, decide (c.nat (.deskew 0) ≤ Config.deskewMax)),
    (0x041, decide (c.nat (.deskew 1) ≤ Config.deskewMax)),
    (0x042, decide (c.nat (.deskew 2) ≤ Config.deskewMax)),
    (0x043, decide (c.nat (.deskew 3) ≤ Config.deskewMax)),
    (0x044, decide (c.nat (.deskew 4) ≤ Config.deskewMax)),
    (0x045, decide (c.nat (.deskew 5) ≤ Config.deskewMax)),
    (0x046, decide (c.nat (.deskew 6) ≤ Config.deskewMax)),
    (0x047, decide (c.nat (.deskew 7) ≤ Config.deskewMax)),
    (0x048, decide (c.nat (.deskew 8) ≤ Config.deskewMax)) ]

/-- The address of the first check that fails. -/
def firstFailing : List (BitVec 16 × Bool) → Option (BitVec 16)
  | [] => none
  | (a, ok) :: rest => if ok then firstFailing rest else some a

/-- The register BLK_START reports, none when the configuration is legal (rule R129). -/
def cfgInvalid (c : CfgFile) : Option (BitVec 16) := firstFailing (cfgChecks c)

/-- The clock strategy (rule R200): CONSTANT in peak-scan mode (rule R130). -/
def cfgClkStrategy (c : CfgFile) : ClkStrategy :=
  if cfgScan c then .constant
  else if 0 < c.nat .clkWindow then .window
  else if fLt 0 (c.get .clkAlpha) then .ewma
  else .constant

/-- The AGC strategy (rule R220). -/
def cfgAgcStrategy (c : CfgFile) : AgcStrategy :=
  if 0 < c.nat .agcWindow then .window
  else if fLt 0 (c.get .agcAlpha) then .ewma
  else .none

/-- What BLK_START latches (rules R36, R130; MODE by rule R30, NTRKS by assumption 3). -/
def latchOf (c : CfgFile) : Latched where
  w := cfgWindow c
  nominal := if cfgScan c then 0 else cfgBitspace c
  scan := cfgScan c
  clk := cfgClkStrategy c
  agc := cfgAgcStrategy c
  mode := modeOf (c.get .mode)
  ntrks := c.nat .ntrks

/-- The attempt BLK_START begins (rule R130). -/
def attemptOf (c : CfgFile) : Attempt :=
  Attempt.init (c.get .nominalHeight)
    (clkInit (latchOf c).clk (c.nat .clkWindow) (latchOf c).nominal)

/-- BLK_START after its checks (rules R128, R130). -/
def startBlock (s : State) : State :=
  { s with
    core := .run
    eofSeen := false
    lat := latchOf s.cfg
    att := attemptOf s.cfg
    res := Results.zero }

end Sys2Proof.Machine
end

