-- ==== Sys2Proof/Machine/Sample.lean ====
section
/-! DEFINITION. SAMPLE: the per-track front end, the peak dispatch, the decoder's per-sample step and
the end of the block (rules R98, R131, R170, R171). -/

namespace Sys2Proof.Machine

/-- A peak event of a SAMPLE response (rule R98). -/
structure Event where
  k : Fin 9
  pk : Peak
deriving DecidableEq, Repr

/-- The three words of an event (rule R98). -/
def eventWords (e : Event) : List Word :=
  [BitVec.ofNat 64 (e.k.val + 16 * boolNat (polTop e.pk.pol)), e.pk.t, e.pk.v]

/-- The header word (rule R98). -/
def headerWord (events : Nat) (ended : Bool) : Word := BitVec.ofNat 64 (events + 256 * boolNat ended)

/-- The response of a SAMPLE that runs (rule R98). -/
def sampleResponse (es : List Event) (ended : Bool) : List Word :=
  headerWord es.length ended :: (es.map eventWords).flatten

/-- The peak-to-peak height, none on a track's first peak (rule R170). -/
def peakHeight (pk : Peak) (t : Track) : Option F64 :=
  if t.haveLast then some (fAbs (fSub pk.v t.vLast)) else none

/-- `decoder_peak(k, pk)` (rule R170): the attempt after it, and sod. The arm for no mode is not
reached: BLK_START latches one of the three (rule R129). -/
def decoderPeak (c : CfgFile) (l : Latched) (k : Fin 9) (pk : Peak) (a : Attempt) :
    Except Raise (Attempt × Bool) :=
  match l.mode with
  | .pe => pePeak c l.ntrks k pk a
  | .nrzi => andThen (nrziPeak c l.ntrks k pk a) fun a1 => .ok (a1, false)
  | .gcr => andThen (gcrPeak c k pk (a.tr k)) fun t => .ok (a.setTr k t, false)
  | .unset => .ok (a, false)

/-- The last-peak record after a peak (rule R170). -/
def keepPeak (pk : Peak) (t : Track) : Track :=
  { t with tLast2 := t.tLast, tLast := pk.t, vLast := pk.v, polLast := pk.pol, haveLast := true }

/-- `dispatch_peak(k, pk)` (rules R170, R171). -/
def dispatchPeak (c : CfgFile) (l : Latched) (k : Fin 9) (pk : Peak) (a : Attempt) :
    Except Raise Attempt :=
  let a1 := { a.modTr k fun t => { t with peakcount := t.peakcount + 1 } with anyPeak := true }
  if l.scan then .ok (a1.modTr k (keepPeak pk))
  else
    let h := peakHeight pk (a.tr k)
    andThen (decoderPeak c l k pk a1) fun x =>
    .ok (x.1.modTr k fun t => keepPeak pk (agcPeak c l h x.2 t))

/-- One track of a SAMPLE: deskew, detection and dispatch (rule R131), with the events so far. -/
def sampleTrack (c : CfgFile) (l : Latched) (t : F64) (vs : List F64) (k : Fin 9)
    (x : Attempt × List Event) : Except Raise (Attempt × List Event) :=
  let d := deskew (c.nat (.deskew k)) (laneOf vs k) (x.1.tr k)
  let p := peakStep c l t d.1 d.2
  let a1 := x.1.setTr k p.1
  match p.2 with
  | none => .ok (a1, x.2)
  | some pk => andThen (dispatchPeak c l k pk a1) fun a2 => .ok (a2, x.2 ++ [⟨k, pk⟩])

/-- The bookkeeping at the start of a SAMPLE (rule R131). -/
def sampleBegin (n : Nat) (t : F64) (a : Attempt) : Attempt :=
  eachTrack n (fun tr => { tr with dcStart := tr.datacount })
    { a with tPrev := some t, nsamples := a.nsamples + 1 }

/-- `sample_step(t)` (rule R131): the attempt after it, and whether the block ended. -/
def sampleStep (c : CfgFile) (l : Latched) (now : F64) (a : Attempt) :
    Except Raise (Attempt × Bool) :=
  if l.scan then .ok (a, false)
  else match l.mode with
    | .pe => .ok (peSampleStep c l.ntrks now a)
    | .nrzi => nrziSampleStep c l.ntrks now a
    | .gcr => .ok (gcrSampleStep c l.ntrks now a)
    | .unset => .ok (a, false)

/-- A SAMPLE that passed its checks, up to the block's end (rule R131): the attempt, whether the
block ended, and the events. -/
def sampleRun (c : CfgFile) (l : Latched) (t : F64) (vs : List F64) (a : Attempt) :
    Except Raise (Attempt × Bool × List Event) :=
  andThen (forEach (sampleTrack c l t vs) (tracks l.ntrks) (sampleBegin l.ntrks t a, [])) fun x =>
  andThen (sampleStep c l t x.1) fun y =>
  .ok (y.1, y.2, x.2)

/-- The attempt finalised and the state DONE (rules R131, R133). -/
def finishBlock (s : State) : State :=
  let r := finalize s.cfg s.lat s.att
  { s with core := .done, att := r.1, res := r.2 }

/-- SAMPLE after the state check (rules R131, R132): the next state and the response. -/
def sampleBody (a : BitVec 16) (t : F64) (vs : List F64) (s : State) :
    Except Raise (State × List Word) :=
  match sampleCheck s.lat.ntrks s.att.tPrev a t vs with
  | some r => .error r
  | none =>
    andThen (sampleRun s.cfg s.lat t vs s.att) fun x =>
    let s1 := { s with att := x.1 }
    .ok (if x.2.1 then finishBlock s1 else s1, sampleResponse x.2.2 x.2.1)

end Sys2Proof.Machine
end

