-- ==== Sys2Proof/Machine/Commands.lean ====
section
/-! DEFINITION. The meaning of each command (rules R120 to R137, R406), in the opcode table's
order. -/

namespace Sys2Proof.Machine

/-- NOP (rule R120). -/
def execNop (s : State) : Host.Outcome State Fault Refusal :=
  .next (runCommand 0x00 s (.ok (s, [])))

/-- RESET (rule R121): the one command that leaves FAULT (rule R405). -/
def execReset (s : State) : Host.Outcome State Fault Refusal := .next (resetCore s)

/-- CFG_WR after the state check (rule R123). -/
def cfgWrBody (a : BitVec 16) (v : Word) (s : State) : Except Raise (State × List Word) :=
  andThen (cfgOperand a) fun r => .ok ({ s with cfg := s.cfg.set r v }, [])

/-- CFG_WR (rule R123). -/
def execCfgWr (a : BitVec 16) (v : Word) (s : State) : Host.Outcome State Fault Refusal :=
  .next (runCommand 0x02 s (cfgWrBody a v s))

/-- CFG_RD after the state check (rule R124). -/
def cfgRdBody (a : BitVec 16) (s : State) : Except Raise (State × List Word) :=
  andThen (cfgOperand a) fun r => .ok (s, [s.cfg.get r])

/-- CFG_RD (rule R124). -/
def execCfgRd (a : BitVec 16) (s : State) : Host.Outcome State Fault Refusal :=
  .next (runCommand 0x03 s (cfgRdBody a s))

/-- BLK_START after the state check (rule R128). -/
def blkStartBody (s : State) : Except Raise (State × List Word) :=
  match cfgInvalid s.cfg with
  | some a => .error ⟨.cfgInvalid, a⟩
  | none => .ok (startBlock s, [])

/-- BLK_START (rule R128). -/
def execBlkStart (s : State) : Host.Outcome State Fault Refusal :=
  .next (runCommand 0x04 s (blkStartBody s))

/-- SAMPLE (rule R131). -/
def execSample (a : BitVec 16) (t : F64) (vs : List F64) (s : State) :
    Host.Outcome State Fault Refusal :=
  .next (runCommand 0x05 s (sampleBody a t vs s))

/-- EOF after the state check (rule R133). -/
def eofBody (s : State) : Except Raise (State × List Word) :=
  let s1 := { s with eofSeen := true }
  .ok (if s.core = .run then finishBlock s1 else s1, [])

/-- EOF (rule R133). -/
def execEof (s : State) : Host.Outcome State Fault Refusal :=
  .next (runCommand 0x06 s (eofBody s))

/-- RES_RD outside FAULT (rule R135). -/
def resRdBody (a : BitVec 16) (s : State) : Except Raise (State × List Word) :=
  match resRead s a with
  | some w => .ok (s, [w])
  | none => .error ⟨.badAddress, a⟩

/-- RES_RD (rule R135): it executes in FAULT too, where an unimplemented address gives a zero word
(rule R406). -/
def execResRd (a : BitVec 16) (s : State) : Host.Outcome State Fault Refusal :=
  .next (if s.core = .fault then respond s [(resRead s a).getD 0]
    else runCommand 0x07 s (resRdBody a s))

/-- The response word of DATA_RD (rules R99, R137): sym in [8:0], fmask in [24:16]. -/
def entryWord (e : Entry) : Word := (e.fmask.setWidth 64 <<< 16) ||| e.sym.setWidth 64

/-- DATA_RD (rule R137): every 16-bit index names an entry. -/
def execDataRd (a : BitVec 16) (s : State) : Host.Outcome State Fault Refusal :=
  .next (runCommand 0x08 s (.ok (s, [entryWord (bufRead s.att.buf a.toNat)])))

end Sys2Proof.Machine
end

