-- ==== Sys2Proof/Machine/Dispatch.lean ====
section
/-! DEFINITION. The command dispatch (rule R94): one arm per constructor of Instr. -/

namespace Sys2Proof.Machine

def exec (i : Instr) (s : State) : Host.Outcome State Fault Refusal :=
  match i with
  | .nop => Sys2Proof.Machine.execNop s
  | .reset => Sys2Proof.Machine.execReset s
  | .cfgWr a v => Sys2Proof.Machine.execCfgWr a v s
  | .cfgRd a => Sys2Proof.Machine.execCfgRd a s
  | .blkStart => Sys2Proof.Machine.execBlkStart s
  | .sample a t vs => Sys2Proof.Machine.execSample a t vs s
  | .eof => Sys2Proof.Machine.execEof s
  | .resRd a => Sys2Proof.Machine.execResRd a s
  | .dataRd a => Sys2Proof.Machine.execDataRd a s

end Sys2Proof.Machine
end

