-- ==== Sys2Proof/Machine/Step.lean ====
section
/-! DEFINITION. One step (rules R17, R81, R122, R431): the reset input where the host asserts it,
else the command at the head of the input stream, else nothing. -/

namespace Sys2Proof.Machine

/-- The reset input between two commands (rule R431): the effect of RESET, after which the input is
released. -/
def resetByInput (s : State) : State := { resetCore s with resetIn := false }

/-- One step. With no whole command sent yet the core waits: nothing changes (rules R417, R430). -/
def step (s : State) : Host.Outcome State Fault Refusal :=
  if s.resetIn then .next (resetByInput s)
  else match decode s.input with
    | .wait => .next s
    | .misframed => .fault .streamMisframed
    | .reject r rest => .next (rejectCommand r { s with input := rest })
    | .instr i rest => exec i { s with input := rest }

/-- `s` with the opcode-table word `w` sent to it ahead of everything in its input stream, and its
reset input released, so that the next step runs it. -/
def State.withFetchWord (s : State) (nbits w : Nat) : State :=
  { s with input := tableWords nbits w ++ s.input, resetIn := false }

end Sys2Proof.Machine
end

