-- ==== Sys2Proof/Safety.lean ====
section
/-! DEFINITION. The terms the claims are stated in: what of a state is the core's own, the invariants
of the core, of an attempt and of the final results, what a SAMPLE does and may change of an attempt,
the configuration check as the spec lists it, and a run of commands. -/

namespace Sys2Proof.Machine

/-! ## The core without its host -/

/-- A state with the host's side of the interface blanked: what is left is the state of rule R20. -/
def State.coreOnly (s : State) : State := { s with input := [], output := [], resetIn := false }

/-- The decoder of mode `m` runs: none does in peak-scan mode (rules R171, R240, R280). -/
def Latched.runs (l : Latched) (m : Mode) : Bool := !l.scan && l.mode == m

/-- What commands can leave in `s.lat`: the reset values, or those of a configuration that passed
its checks (rules R36, R129). -/
def Latched.legal (l : Latched) : Prop :=
  l = Latched.reset ∨ ∃ c, cfgInvalid c = none ∧ l = latchOf c

/-- The commands `is` one after the other, each straight after the one before. -/
def execAll : List Instr → State → Host.Outcome State Fault Refusal
  | [], s => .next s
  | i :: is, s =>
    match exec i s with
    | .next s' => execAll is s'
    | .fault f => .fault f
    | .refused r => .refused r

/-! ## Invariant of the core -/

/-- The core state, the fault record, the latched values and the result file agree (rules R22, R29,
R36, R400, R401). -/
structure ControlInv (s : State) : Prop where
  /-- FAULT is the state in which an error is recorded. -/
  fault : s.core = .fault ↔ s.errCode ≠ 0
  info : s.errCode = 0 → s.errInfo = 0
  code : s.errCode.toNat ≤ 9
  lat : s.lat.legal
  /-- In IDLE no attempt has been started since reset. -/
  idle : s.core = .idle → s.lat = Latched.reset ∧ s.att = Attempt.init 0 Clock.reset
  /-- In RUN the configuration is legal and is the one that was latched. -/
  run : s.core = .run → cfgInvalid s.cfg = none ∧ s.lat = latchOf s.cfg ∧ s.eofSeen = false
  /-- Before DONE the final result registers read 0. -/
  final : s.core = .idle ∨ s.core = .run → s.res = Results.zero

/-! ## Invariant of an attempt -/

/-- A clock averager obeys the latched strategy: a window keeps its entries, and a constant clock
stays nominal (rules R37, R200, R202, R204). -/
structure ClockInv (l : Latched) (c : Clock) : Prop where
  strategy : c.strategy = l.clk
  ring : if l.clk = .window then 1 ≤ c.ring.length ∧ c.ring.length ≤ Config.clkNMax else c.ring = []
  constant : l.clk = .constant → c.value = l.nominal

/-- A track's fields stay inside the bounds of rule R33, and the gain of a track without AGC stays
1.0 (rules R171, R225). -/
structure TrackInv (l : Latched) (t : Track) : Prop where
  fifo : t.fifo.length ≤ Config.deskewMax
  win : t.win.length ≤ l.w
  blackout : t.blackout ≤ 19
  hwin : t.hwin.length ≤ Config.agcKMax
  datacount : t.datacount ≤ Config.databuf
  bits : if l.runs .gcr then t.bits.length = t.datacount else t.bits = []
  resync : if t.resyncActive then t.resyncBitcount < Config.gcrResyncOnes
    else t.resyncBitcount ≤ Config.gcrResyncOnes
  gain : l.agc = .none ∨ l.scan = true → t.gain = f64One ∧ t.maxGain = f64One
  clk : ClockInv l t.clk

/-- How many of the first `count` bits of track `k` in the data buffer are faked (rule R71). -/
def fakedIn (n : Nat) (k : Fin 9) (b : Buf) (count : Nat) : Nat :=
  ((List.range count).filter fun i => symBit n (bufRead b i).fmask k).length

/-- A PE track's column of the data buffer: clear past its count, and its faked bits counted exactly
(rules R248, R251). -/
structure ColumnInv (n : Nat) (k : Fin 9) (a : Attempt) : Prop where
  clear : ∀ i, (a.tr k).datacount ≤ i →
    symBit n (bufRead a.buf i).sym k = false ∧ symBit n (bufRead a.buf i).fmask k = false
  faked : (a.tr k).faked = fakedIn n k a.buf (a.tr k).datacount

/-- The data buffer: canonical, no bit at or past NTRKS (rule R73), faked bits in PE alone, and
entries past the decoder's count clear (rules R79, R285, R340). -/
structure BufInv (l : Latched) (a : Attempt) : Prop where
  wf : Memory.wf a.buf = true
  width : ∀ i j, l.ntrks ≤ j →
    (bufRead a.buf i).sym.getLsbD j = false ∧ (bufRead a.buf i).fmask.getLsbD j = false
  unfaked : l.runs .pe = false → ∀ i, (bufRead a.buf i).fmask = 0
  pe : l.runs .pe = true → ∀ k : Fin 9, k.val < l.ntrks → ColumnInv l.ntrks k a
  nrzi : l.runs .nrzi = true → ∀ i, a.nrzi.nsym ≤ i → bufRead a.buf i = Entry.zero
  gcr : l.runs .gcr = true → ∀ i, a.gcrNsym ≤ i → bufRead a.buf i = Entry.zero
  scan : l.scan = true → a.buf = []

/-- The NRZI decoder's fields stay inside the bounds of rule R35. -/
structure NrziInv (l : Latched) (z : Nrzi) : Prop where
  nsym : z.nsym ≤ Config.databuf
  post : z.postCounter ≤ 9
  missed : l.runs .nrzi = false → z.missedMidbits = 0
  clk : ClockInv l z.clk

/-- The invariant of an attempt. -/
structure AttemptInv (l : Latched) (a : Attempt) : Prop where
  tracks : ∀ k, TrackInv l (a.tr k)
  nrzi : NrziInv l a.nrzi
  buf : BufInv l a
  gcrNsym : a.gcrNsym ≤ Config.databuf

/-! ## Invariant of the final results -/

/-- What the final result registers say of each other (rules R379, R382, R383, R387). -/
structure ResultsInv (r : Results) : Prop where
  errcount : r.errcount = r.vparityErrs + boolNat r.trackMismatch + boolNat r.crcBad
    + boolNat r.lrcBad + r.eccErrs + r.badDgroups + r.seqErrs
  mismatch : r.blktype ≠ .tapemark →
    (r.trackMismatch = true ↔ r.minbits ≠ r.maxbits) ∧ r.mismatchSpan = r.maxbits - r.minbits
  tapemark : r.blktype = .tapemark → r.errcount = 0 ∧ r.mismatchSpan = 0
  order : r.minbits ≤ r.maxbits

/-- The invariant of the machine. -/
structure Inv (s : State) : Prop where
  control : ControlInv s
  attempt : AttemptInv s.lat s.att
  results : ResultsInv s.res
  /-- The block ends when post_counter passes 8 (rule R288), and the block decode that counts the GCR
  symbols is the end of an attempt (rule R340). -/
  live : s.core = .run → s.att.nrzi.postCounter ≤ 8 ∧ s.att.gcrNsym = 0
  warncount : s.core = .done → s.res.warncount = s.att.nrzi.missedMidbits + s.res.fakedBits

/-! ## What a SAMPLE may change -/

/-- The fields of a track only the PE decoder writes (rule R33). -/
def peFields (t : Track) : PePhase × Bool × F64 × Bool × Nat :=
  (t.phase, t.clknext, t.tLastdata, t.lastbit, t.faked)
/-- The fields of a track only the GCR decoder writes. -/
def gcrFields (t : Track) : List Bool × BitVec 5 × Nat × Bool × Nat × F64 :=
  (t.bits, t.last5, t.onesRun, t.resyncActive, t.resyncBitcount, t.tResyncFirst)
/-- The fields of a track the PE and GCR decoders share. -/
def bitFields (t : Track) : Bool × Nat × F64 × Clock := (t.idle, t.datacount, t.tPulseAdj, t.clk)
/-- The fields of a track only the NRZI decoder writes. -/
def pendingFields (t : Track) : Bool × F64 := (t.pending, t.tPending)
/-- The fields of a track only the AGC writes. -/
def agcFields (t : Track) : F64 × F64 × F64 × F64 × Nat × Bool × List F64 :=
  (t.gain, t.maxGain, t.vAvgHeight, t.hSum, t.hN, t.hFrozen, t.hwin)

/-- What the decoding part of a SAMPLE leaves unchanged of a track, by mode (rules R33, R171). -/
structure TrackFrame (l : Latched) (t t' : Track) : Prop where
  pe : l.runs .pe = false → peFields t' = peFields t
  gcr : l.runs .gcr = false → gcrFields t' = gcrFields t
  bit : l.runs .pe = false → l.runs .gcr = false → bitFields t' = bitFields t
  nrzi : l.runs .nrzi = false → pendingFields t' = pendingFields t
  agc : l.scan = true → agcFields t' = agcFields t
  count : t.datacount ≤ t'.datacount

/-- What a SAMPLE leaves unchanged of an attempt while the block runs, by mode: the lanes at or past
NTRKS (rule R34), the other decoders' fields, and every data-buffer bit it does not store to: PE
stores each track's new bits (rule R248), NRZI to the last symbol and the new ones (rules R285,
R287), GCR and peak-scan mode nothing. -/
structure AttemptFrame (l : Latched) (a a' : Attempt) : Prop where
  lanes : ∀ k : Fin 9, l.ntrks ≤ k.val → a'.tr k = a.tr k
  tracks : ∀ k, TrackFrame l (a.tr k) (a'.tr k)
  nrzi : l.runs .nrzi = false → a'.nrzi = a.nrzi
  nsym : a.nrzi.nsym ≤ a'.nrzi.nsym
  gcrNsym : a'.gcrNsym = a.gcrNsym
  peBuf : l.runs .pe = true → ∀ (k : Fin 9) (i : Nat), k.val < l.ntrks →
    i < (a.tr k).datacount ∨ (a'.tr k).datacount ≤ i →
    symBit l.ntrks (bufRead a'.buf i).sym k = symBit l.ntrks (bufRead a.buf i).sym k ∧
    symBit l.ntrks (bufRead a'.buf i).fmask k = symBit l.ntrks (bufRead a.buf i).fmask k
  nrziBuf : l.runs .nrzi = true → ∀ i, i + 1 < a.nrzi.nsym ∨ a'.nrzi.nsym ≤ i →
    bufRead a'.buf i = bufRead a.buf i
  otherBuf : l.runs .pe = false → l.runs .nrzi = false → a'.buf = a.buf

/-- The last-peak record of a track (rule R170). -/
def lastPeak (t : Track) : Bool × F64 × F64 × Polarity × F64 :=
  (t.haveLast, t.tLast, t.vLast, t.polLast, t.tLast2)

/-- The events of a SAMPLE and what they leave behind: at most one a track, in track order (rules
R98, R131); each is its track's last peak and is counted, and the other tracks' records and counts
stay (rule R170). -/
structure EventsOf (n : Nat) (a a' : Attempt) (es : List Event) : Prop where
  order : (es.map (·.k)).Pairwise (· < ·)
  lanes : ∀ e ∈ es, e.k.val < n
  seen : ∀ e ∈ es, lastPeak (a'.tr e.k) = (true, e.pk.t, e.pk.v, e.pk.pol, (a.tr e.k).tLast) ∧
    (a'.tr e.k).peakcount = (a.tr e.k).peakcount + 1
  unseen : ∀ k, (∀ e ∈ es, e.k ≠ k) → lastPeak (a'.tr k) = lastPeak (a.tr k) ∧
    (a'.tr k).peakcount = (a.tr k).peakcount
  anyPeak : a'.anyPeak = (a.anyPeak || !es.isEmpty)

/-- The fields of a track only the front end writes (rule R33). -/
def frontFields (t : Track) : List F64 × Bool × List (F64 × F64) × Nat :=
  (t.fifo, t.primed, t.win, t.blackout)

/-- The front end of track `k` in a SAMPLE: its voltage through the deskew delay into the peak detector
(rules R131, R160, R163). -/
def frontEnd (c : CfgFile) (l : Latched) (time : F64) (vs : List F64) (k : Fin 9) (t : Track) :
    Track × Option Peak :=
  let d := deskew (c.nat (.deskew k)) (vs.getD k.val 0) t
  peakStep c l time d.1 d.2

/-- Which peaks a SAMPLE reports: of each track the one its front end finds, and none where it finds
none; and what the front end leaves of each track (rules R131, R160, R163). -/
structure FrontEndOf (c : CfgFile) (l : Latched) (time : F64) (vs : List F64) (a a' : Attempt)
    (es : List Event) : Prop where
  event : ∀ k : Fin 9, k.val < l.ntrks →
    (es.find? fun e => e.k = k).map (·.pk) = (frontEnd c l time vs k (a.tr k)).2
  track : ∀ k : Fin 9, k.val < l.ntrks →
    frontFields (a'.tr k) = frontFields (frontEnd c l time vs k (a.tr k)).1

/-- `decoder_peak(k, pk)` by the latched mode (rules R170, R241, R281, R320): it leads from `a` to `b`
and returns `sod`, which only PE can set. -/
def DecoderOf (c : CfgFile) (l : Latched) (k : Fin 9) (pk : Peak) (a b : Attempt) (sod : Bool) : Prop :=
  l.mode ≠ .unset ∧
  (l.mode = .pe → pePeak c l.ntrks k pk a = .ok (b, sod)) ∧
  (l.mode = .nrzi → nrziPeak c l.ntrks k pk a = .ok b ∧ sod = false) ∧
  (l.mode = .gcr → sod = false ∧ ∃ t, gcrPeak c k pk (a.tr k) = .ok t ∧ b = a.setTr k t)

/-- `dispatch_peak(k, pk)` (rules R170, R171): the peak is counted; the decoder and then the AGC take
it, with the height above the last peak and none on the track's first; the last-peak record is updated
last. In peak-scan mode neither the decoder nor the AGC runs. -/
def DispatchOf (c : CfgFile) (l : Latched) (k : Fin 9) (pk : Peak) (a a' : Attempt) : Prop :=
  let t := a.tr k
  let counted := { a.setTr k { t with peakcount := t.peakcount + 1 } with anyPeak := true }
  let height := if t.haveLast then some (fAbs (fSub pk.v t.vLast)) else none
  let record := fun u : Track =>
    { u with tLast2 := u.tLast, tLast := pk.t, vLast := pk.v, polLast := pk.pol, haveLast := true }
  (l.scan = true → a' = counted.setTr k (record (counted.tr k))) ∧
  (l.scan = false → ∃ b sod, DecoderOf c l k pk counted b sod ∧
    a' = b.setTr k (record (agcPeak c l height sod (b.tr k))))

/-- `sample_step(t)` by the latched mode, and nothing in peak-scan mode (rules R131, R171, R245, R284,
R327). -/
def StepOf (c : CfgFile) (l : Latched) (time : F64) (a a' : Attempt) (ended : Bool) : Prop :=
  (l.scan = true → a' = a ∧ ended = false) ∧
  (l.scan = false → l.mode ≠ .unset ∧
    (l.mode = .pe → (a', ended) = peSampleStep c l.ntrks time a) ∧
    (l.mode = .nrzi → nrziSampleStep c l.ntrks time a = .ok (a', ended)) ∧
    (l.mode = .gcr → (a', ended) = gcrSampleStep c l.ntrks time a))

/-- What a SAMPLE does of an attempt, from its checks to its sample step (rule R131): the time, the
count and the fill's counts; then track after track, `x k` the attempt before track `k`, the front end
and the dispatch of its peak; then the sample step. -/
def SampleRunOf (c : CfgFile) (l : Latched) (time : F64) (vs : List F64) (a a' : Attempt)
    (ended : Bool) : Prop :=
  ∃ x : Nat → Attempt,
    x 0 = { a with trk := (x 0).trk, tPrev := some time, nsamples := a.nsamples + 1 } ∧
    (∀ k : Fin 9, (x 0).tr k =
      if k.val < l.ntrks then { a.tr k with dcStart := (a.tr k).datacount } else a.tr k) ∧
    (∀ k : Fin 9, k.val < l.ntrks →
      let front := frontEnd c l time vs k ((x k.val).tr k)
      match front.2 with
      | none => x (k.val + 1) = (x k.val).setTr k front.1
      | some pk => DispatchOf c l k pk ((x k.val).setTr k front.1) (x (k.val + 1))) ∧
    StepOf c l time (x l.ntrks) a' ended

/-! ## What the end of a block may change -/

/-- What finalisation leaves unchanged of an attempt, by mode (rules R250, R330, R370): everything
but, in PE, the counts of the stripped bits and those bits themselves (rule R251), and in GCR the
symbols of the block and their number (rule R340). -/
structure FinalFrame (l : Latched) (a a' : Attempt) : Prop where
  nrzi : a'.nrzi = a.nrzi
  tPrev : a'.tPrev = a.tPrev
  nsamples : a'.nsamples = a.nsamples
  anyPeak : a'.anyPeak = a.anyPeak
  gcrNsym : l.runs .gcr = false → a'.gcrNsym = a.gcrNsym
  tracks : ∀ k, a'.tr k =
    { a.tr k with datacount := (a'.tr k).datacount, faked := (a'.tr k).faked }
  counts : ∀ k : Fin 9, l.runs .pe = false ∨ l.ntrks ≤ k.val → a'.tr k = a.tr k
  strip : ∀ k, (a'.tr k).datacount ≤ (a.tr k).datacount
  peBuf : l.runs .pe = true → ∀ (k : Fin 9) (i : Nat), k.val < l.ntrks →
    i < (a'.tr k).datacount ∨ (a.tr k).datacount ≤ i →
    symBit l.ntrks (bufRead a'.buf i).sym k = symBit l.ntrks (bufRead a.buf i).sym k ∧
    symBit l.ntrks (bufRead a'.buf i).fmask k = symBit l.ntrks (bufRead a.buf i).fmask k
  gcrBuf : l.runs .gcr = true → ∀ i, a'.gcrNsym ≤ i → bufRead a'.buf i = bufRead a.buf i
  otherBuf : l.runs .pe = false → l.runs .gcr = false → a'.buf = a.buf

/-! ## Sequences -/

/-- The delayed voltages of a sequence of voltages, one SAMPLE each (rule R160). -/
def deskewAll (d : Nat) : List F64 → Track → List F64
  | [], _ => []
  | v :: vs, t => (deskew d v t).1 :: deskewAll d vs (deskew d v t).2

/-- A track's peak steps over a sequence of samples: the track after them, and what each reports
(rules R163 to R169). -/
def peakSteps (c : CfgFile) (l : Latched) : List (F64 × F64) → Track → Track × List (Option Peak)
  | [], t => (t, [])
  | x :: xs, t =>
    let r := peakStep c l x.1 x.2 t
    let q := peakSteps c l xs r.1
    (q.1, r.2 :: q.2)

/-- A track's AGC over a sequence of heights (rule R221). -/
def agcFeed (c : CfgFile) (l : Latched) (hs : List F64) (t : Track) : Track :=
  hs.foldl (fun t h => agcPeak c l (some h) false t) t

/-- 1-bits at the given times, one after the other, through the resync machine (rule R325). -/
def resyncOnes (times : List F64) (t : Track) : Track :=
  times.foldl (fun t time => gcrResyncBit (some time) t) t

/-! ## Groups of a GCR block -/

/-- A group every one of `n` tracks holds the code of (rule R333). -/
def sameGroup (n : Nat) (code : Code) : List Code := List.replicate n code

/-- A resync burst: MARK2 and 14 SYNC groups (rules R325, R334). -/
def resyncRows (n : Nat) : List (List Code) := sameGroup n 0b11100 :: List.replicate 14 (sameGroup n 0b11111)

/-- The rows of pairs of data groups. -/
def pairRows (ps : List (List Code × List Code)) : List (List Code) := (ps.map fun p => [p.1, p.2]).flatten

/-- The rows of a block: stretches of pairs with a resync burst after each but the last (rule
R334). -/
def blockRows (n : Nat) : List (List (List Code × List Code)) → List (List Code)
  | [] => []
  | [ps] => pairRows ps
  | ps :: rest => pairRows ps ++ resyncRows n ++ blockRows n rest

/-! ## The configuration check -/

/-- The checks of BLK_START as rule R129 lists them, in the order they run: the address each reports,
and what it asks. The bit time is checked once IPS is known to be finite and > 0, and reports BPI's
address. -/
def configRules (c : CfgFile) : List (BitVec 16 × Prop) :=
  let scan := fEq (c.get .bpi) 0 = true
  let pe := ¬ scan ∧ c.nat .mode = 1
  let nrzi := ¬ scan ∧ c.nat .mode = 2
  let gcr := ¬ scan ∧ c.nat .mode = 3
  let finite := fun r => fFinite (c.get r) = true
  let lt := fun x y => fLt x y = true
  let le := fun x y => fLe x y = true
  let bitTime := fDiv f64One (fMul (c.get .bpi) (c.get .ips))
  let unit := fun r => finite r ∧ le 0 (c.get r) ∧ le (c.get r) f64One
  [ (0x000, 1 ≤ c.nat .mode ∧ c.nat .mode ≤ 3),
    (0x001, (c.nat .ntrks = 7 ∨ c.nat .ntrks = 9) ∧
      (c.nat .mode = 1 ∨ c.nat .mode = 3 → c.nat .ntrks = 9)),
    (0x002, finite .dt ∧ lt 0 (c.get .dt)),
    (0x003, finite .bpi ∧ le 0 (c.get .bpi)),
    (0x004, finite .ips ∧ lt 0 (c.get .ips)),
    (0x003, ¬ scan → fFinite bitTime = true ∧ lt 0 bitTime),
    (0x005, c.nat .expectedParity ≤ 1),
    (0x010, c.nat .clkWindow ≤ 50),
    (0x011, unit .clkAlpha),
    (0x012, c.nat .agcWindow ≤ 50),
    (0x013, unit .agcAlpha),
    (0x014, finite .minPeak ∧ le 0 (c.get .minPeak)),
    (0x015, pe → finite .clkFactor ∧ lt 0 (c.get .clkFactor)),
    (0x016, ¬ scan → unit .pulseAdj),
    (0x017, (finite .pkwwBitfrac ∧ lt 0 (c.get .pkwwBitfrac)) ∧ 3 ≤ cfgWindow c),
    (0x018, finite .pkwwRise ∧ le 0 (c.get .pkwwRise)),
    (0x019, nrzi → finite .midbitFraction ∧ le 0 (c.get .midbitFraction) ∧
      lt (c.get .midbitFraction) f64One),
    (0x01A, gcr → finite .z1pt ∧ lt 0 (c.get .z1pt)),
    (0x01B, gcr → finite .z2pt ∧ lt (c.get .z1pt) (c.get .z2pt)),
    (0x020, finite .peakThreshold ∧ le 0 (c.get .peakThreshold)),
    (0x021, ¬ scan → finite .agcMax ∧ le f64One (c.get .agcMax)),
    (0x022, finite .nominalHeight ∧ lt 0 (c.get .nominalHeight)),
    (0x023, ¬ scan → 1 ≤ c.nat .avgHeightCount ∧ c.nat .avgHeightCount ≤ 65535),
    (0x024, pe → finite .peIdleFactor ∧ lt 0 (c.get .peIdleFactor)),
    (0x025, gcr → finite .gcrIdleFactor ∧ lt 0 (c.get .gcrIdleFactor)),
    (0x026, pe → c.nat .ignorePostamble ≤ 65535),
    (0x027, pe → c.nat .ignorePostamble ≤ c.nat .maxPostambleBits ∧
      c.nat .maxPostambleBits ≤ 65535),
    (0x028, pe → c.nat .peFakeTarget ≤ 2),
    (0x029, nrzi → c.nat .nrziSpeedReset ≤ 1),
    (0x02A, pe → c.nat .peTmMask < 2 ^ 9 ∧ popcount (c.get .peTmMask) = 6),
    (0x02B, gcr → c.nat .gcrTmMask < 2 ^ 9 ∧ popcount (c.get .gcrTmMask) = 6) ] ++
  allTracks.map fun k => (BitVec.ofNat 16 (0x040 + k.val), c.nat (.deskew k) ≤ 30)

/-! ## Values of binary64 -/

/-- The value of a finite magnitude, in units of 2^-1074 (IEEE 754 binary64). -/
def magValue (m : Nat) : Nat :=
  if m / 2 ^ 52 = 0 then m % 2 ^ 52 else (m % 2 ^ 52 + 2 ^ 52) * 2 ^ (m / 2 ^ 52 - 1)

/-- The value of a finite binary64 bit pattern, in units of 2^-1074. -/
def fValue (x : F64) : Int := if fSign x then -(magValue (fMag x) : Int) else magValue (fMag x)

/-- The value 1.0 in units of 2^-1074. -/
@[irreducible] def fUnits : Nat := 2 ^ 1074

/-- Half a unit past the largest finite value, in units of 2^-1074: from there on a result rounds to
infinity (IEEE 754 binary64). -/
@[irreducible] def fOverflow : Nat := (2 ^ 54 - 1) * 2 ^ 2044

/-- `r` is an exact result rounded to nearest, ties to even (rule R14). `scaled` gives a finite value in
the units of `exact`, and `limit` is `fOverflow` in them: `r` is finite exactly where the result is below it,
and an infinity of the result's sign elsewhere; no finite value is nearer to the result than `r`, and where
another is as near, `r` is even. -/
def Rounded (scaled : F64 → Int) (exact : Int) (limit : Nat) (negative : Bool) (r : F64) : Prop :=
  (fFinite r = true ↔ exact.natAbs < limit) ∧
  (fFinite r = false → r = if negative then 0xFFF0000000000000 else 0x7FF0000000000000) ∧
  (fFinite r = true → ∀ y : F64, fFinite y = true →
    (scaled r - exact).natAbs ≤ (scaled y - exact).natAbs ∧
    ((scaled r - exact).natAbs = (scaled y - exact).natAbs → fValue y ≠ fValue r → r.getLsbD 0 = false))

/-! ## Room for one more SAMPLE -/

/-- The buffers have room for all that one SAMPLE can append: one bit past the other tracks in PE, a
late symbol and a symbol per pending track in NRZI, three bits a track in GCR (rules R80, R402). -/
def Room (l : Latched) (a : Attempt) : Prop :=
  (l.runs .pe = true → ∀ k : Fin 9, k.val < l.ntrks → (a.tr k).datacount < Config.databuf) ∧
  (l.runs .nrzi = true → a.nrzi.nsym + 10 ≤ Config.databuf) ∧
  (l.runs .gcr = true → ∀ k : Fin 9, k.val < l.ntrks → (a.tr k).datacount + 3 ≤ Config.gcrMaxbits)

end Sys2Proof.Machine
end

