-- ==== Sys2Proof/Certificates/Slice0/Obligations.lean ====
section
/-! DEFINITION. The statements for the provers, each a numbered rule of the spec or derived from
some. A clause that rests on the model's own choice says so and names the assumption. -/

open Sys2Proof Sys2Proof.Machine

/-! ## Encoding -/

/-- Decoding the words of a well-formed command gives the command back, whatever follows it (rules
R91 to R94). -/
def Obligations.DecodeOfEncode : Prop :=
  ∀ (i : Instr) (rest : List InWord), i.wellFormed = true → decode (encode i ++ rest) = .instr i rest

/-- A command is decoded from its own words and from no others, and is well formed (rules R91 to
R97). -/
def Obligations.EncodeOfDecode : Prop :=
  ∀ (ws : List InWord) (i : Instr) (rest : List InWord), decode ws = .instr i rest →
    i.wellFormed = true ∧ ws = encode i ++ rest

/-- A word of each row of the opcode map decodes to the row's command (rule R94). -/
def Obligations.OpcodeMapWords : Prop :=
  decode [.cmd 0x00000000] = .instr .nop [] ∧
  decode [.cmd 0x01000000] = .instr .reset [] ∧
  decode [.cmd 0x02000017, .data 0x3FE199999999999A] = .instr (.cfgWr 0x017 0x3FE199999999999A) [] ∧
  decode [.cmd 0x03000001] = .instr (.cfgRd 0x001) [] ∧
  decode [.cmd 0x04000000] = .instr .blkStart [] ∧
  decode [.cmd 0x05000002, .data 0, .data 0x3FF0000000000000, .data 0xBFF0000000000000] =
    .instr (.sample 2 0 [0x3FF0000000000000, 0xBFF0000000000000]) [] ∧
  decode [.cmd 0x06000000] = .instr .eof [] ∧
  decode [.cmd 0x07000018] = .instr (.resRd 0x018) [] ∧
  decode [.cmd 0x0800FFFF] = .instr (.dataRd 0xFFFF) []

/-- An OP value of 9 or more raises ILLEGAL_OPCODE, with OP recorded, no payload taken and no
response (rules R96, R400). -/
def Obligations.IllegalOpcodeRaises : Prop :=
  ∀ (s : State) (w : CmdWord) (ws : List InWord),
    s.resetIn = false → s.core ≠ .fault → s.input = .cmd w :: ws → 9 ≤ (w.extractLsb' 24 8).toNat →
    step s = .next { s with
      input := ws, core := .fault, errCode := 1, errInfo := (w.extractLsb' 24 8).setWidth 16 }

/-- A non-zero RSV, and a non-zero A where A must be 0, raise RESERVED_NONZERO with the field
recorded; the payload is taken all the same, and the response is the placeholder (rules R95,
R400). -/
def Obligations.ReservedFieldRaises : Prop :=
  ∀ (s : State) (w : CmdWord) (p : List Word) (rest : List InWord),
    s.resetIn = false → s.core ≠ .fault → s.input = .cmd w :: (p.map .data ++ rest) →
    p.length = payloadLen w → (w.extractLsb' 24 8).toNat ≤ 8 →
    (w.extractLsb' 16 8 ≠ 0 →
      step s = .next { s with
        input := rest, core := .fault, errCode := 2, errInfo := (w.extractLsb' 16 8).setWidth 16,
        output := s.output ++ (if w.extractLsb' 24 8 = 3 ∨ w.extractLsb' 24 8 = 5 ∨
          w.extractLsb' 24 8 = 7 ∨ w.extractLsb' 24 8 = 8 then [0] else []) }) ∧
    (w.extractLsb' 16 8 = 0 → w.extractLsb' 0 16 ≠ 0 →
      w.extractLsb' 24 8 = 0 ∨ w.extractLsb' 24 8 = 1 ∨ w.extractLsb' 24 8 = 4 ∨
        w.extractLsb' 24 8 = 6 →
      step s = .next { s with
        input := rest, core := .fault, errCode := 2, errInfo := w.extractLsb' 0 16 })

/-- In every state, a command word is taken with exactly the payload words of rule R407, and the
number of response words depends on OP alone, but for the three words of each of at most NTRKS
events of a SAMPLE (rules R98, R406, R407). -/
def Obligations.StreamsStayInStep : Prop :=
  ∀ (s : State) (w : CmdWord) (p : List Word) (rest : List InWord),
    s.resetIn = false → s.input = .cmd w :: (p.map .data ++ rest) →
    p.length = (if w.extractLsb' 24 8 = 2 then 1
      else if w.extractLsb' 24 8 = 5 then 1 + (w.extractLsb' 0 16).toNat else 0) →
    ∃ s' r, step s = .next s' ∧ s'.input = rest ∧ s'.output = s.output ++ r ∧
      (if w.extractLsb' 24 8 = 3 ∨ w.extractLsb' 24 8 = 7 ∨ w.extractLsb' 24 8 = 8 then r.length = 1
       else if w.extractLsb' 24 8 = 5 then
         ∃ e, e ≤ s.lat.ntrks ∧ e ≤ Config.maxTrk ∧ r.length = 1 + 3 * e
       else r = [])

/-! ## The step -/

/-- A step runs the command at the head of the input stream, on the state with its words taken off
(rules R17, R81). -/
def Obligations.StepRunsDecoded : Prop :=
  ∀ (s : State) (i : Instr) (rest : List InWord),
    s.resetIn = false → decode s.input = .instr i rest → step s = exec i { s with input := rest }

/-- With no whole command sent the core waits unchanged: that a command of which a part has been sent
waits too, and nothing of it is taken, is the model's choice (assumption 2). A word of the wrong width
stops the model: the second clause is the model's choice (assumption 1). -/
def Obligations.StepWaitsOrStops : Prop :=
  ∀ s : State, s.resetIn = false →
    (decode s.input = .wait → step s = .next s) ∧
    (decode s.input = .misframed → step s = .fault .streamMisframed)

/-- The reset input has the effect of a RESET command, between two commands; but for a RESET command
it is the only way out of FAULT (rule R431). That the step releases the input, and that the host's
two streams stay, is the model's choice (assumption 10). -/
def Obligations.ResetInputResets : Prop :=
  (∀ s : State, s.resetIn = true →
    ∃ t, exec .reset s = .next t ∧ step s = .next { t with resetIn := false }) ∧
  (∀ s s' : State, step s = .next s' → s.core = .fault → s'.core ≠ .fault →
    s.resetIn = true ∨ ∃ rest, decode s.input = .instr .reset rest)

/-! ## The commands -/

/-- NOP changes nothing and returns nothing, in every state (rules R120, R406). -/
def Obligations.NopDoesNothing : Prop := ∀ s : State, exec .nop s = .next s

/-- RESET sets every piece of state to its reset value, in every state (rules R121, R405, R430). That
the host's streams stay is the model's choice (assumption 10), and the 0 of the latched NTRKS is by
assumption 3. -/
def Obligations.ResetSetsEverything : Prop :=
  ∀ s : State, ∃ t, exec .reset s = .next t ∧
    t.core = .idle ∧ t.errCode = 0 ∧ t.errInfo = 0 ∧ t.eofSeen = false ∧
    (∀ r, t.cfg.get r = 0) ∧
    t.lat = { w := 0, nominal := 0, scan := false, clk := .constant, agc := .none, mode := .unset,
              ntrks := 0 } ∧
    (∀ i, bufRead t.att.buf i = { sym := 0, fmask := 0 }) ∧ t.att.buf = [] ∧
    (∀ k, t.att.tr k = Track.init 0 { strategy := .constant, ring := [], value := 0 }) ∧
    t.att.nrzi = Nrzi.init { strategy := .constant, ring := [], value := 0 } ∧
    t.att.tPrev = none ∧ t.att.nsamples = 0 ∧ t.att.anyPeak = false ∧ t.att.gcrNsym = 0 ∧
    t.res = Results.zero ∧
    resRead t 0x000 = some 0 ∧ resRead t 0x001 = some 0 ∧ (∀ a w, 0x002 ≤ a.toNat →
      resRead t a = some w → w = 0) ∧
    t.input = s.input ∧ t.output = s.output ∧ t.resetIn = s.resetIn

/-- CFG_WR stores its payload in the register its address names and changes nothing else; it raises
BAD_ADDRESS(A) where no register is implemented and WRONG_STATE(2) in RUN, and does nothing in FAULT
(rules R123, R127, R406). -/
def Obligations.CfgWriteEffect : Prop :=
  ∀ (a : BitVec 16) (v : Word) (s : State),
    (s.core = .idle ∨ s.core = .done →
      (∀ r, cfgRegAt a = some r →
        ∃ t, exec (.cfgWr a v) s = .next t ∧ t = { s with cfg := t.cfg } ∧ t.cfg.get r = v ∧
          ∀ r', r' ≠ r → t.cfg.get r' = s.cfg.get r') ∧
      (cfgRegAt a = none → exec (.cfgWr a v) s =
        .next { s with core := .fault, errCode := 3, errInfo := a })) ∧
    (s.core = .run → exec (.cfgWr a v) s =
      .next { s with core := .fault, errCode := 4, errInfo := 2 }) ∧
    (s.core = .fault → exec (.cfgWr a v) s = .next s)

/-- CFG_RD answers the register its address names and changes nothing else, in RUN too; it raises
BAD_ADDRESS(A), with a zero word, where no register is implemented (rules R124, R403). -/
def Obligations.CfgReadEffect : Prop :=
  ∀ (a : BitVec 16) (s : State), s.core ≠ .fault →
    (∀ r, cfgRegAt a = some r →
      exec (.cfgRd a) s = .next { s with output := s.output ++ [s.cfg.get r] }) ∧
    (cfgRegAt a = none → exec (.cfgRd a) s =
      .next { s with core := .fault, errCode := 3, errInfo := a, output := s.output ++ [0] })

/-- The configuration register at each address, and no register at any other (rules R25 to R28,
R125). -/
def Obligations.CfgAddressMap : Prop :=
  (∀ x ∈ [((0x000 : BitVec 16), CfgReg.mode), (0x001, .ntrks), (0x002, .dt), (0x003, .bpi), (0x004, .ips),
      (0x005, .expectedParity),
      (0x010, .clkWindow), (0x011, .clkAlpha), (0x012, .agcWindow), (0x013, .agcAlpha), (0x014, .minPeak),
      (0x015, .clkFactor), (0x016, .pulseAdj), (0x017, .pkwwBitfrac), (0x018, .pkwwRise),
      (0x019, .midbitFraction), (0x01A, .z1pt), (0x01B, .z2pt),
      (0x020, .peakThreshold), (0x021, .agcMax), (0x022, .nominalHeight), (0x023, .avgHeightCount),
      (0x024, .peIdleFactor), (0x025, .gcrIdleFactor), (0x026, .ignorePostamble),
      (0x027, .maxPostambleBits), (0x028, .peFakeTarget), (0x029, .nrziSpeedReset),
      (0x02A, .peTmMask), (0x02B, .gcrTmMask)], cfgRegAt x.1 = some x.2) ∧
  (∀ k : Fin 9, cfgRegAt (BitVec.ofNat 16 (0x040 + k.val)) = some (.deskew k)) ∧
  (∀ a : BitVec 16, (cfgRegAt a).isSome = true ↔
    a.toNat ≤ 0x005 ∨ (0x010 ≤ a.toNat ∧ a.toNat ≤ 0x01B) ∨ (0x020 ≤ a.toNat ∧ a.toNat ≤ 0x02B) ∨
      (0x040 ≤ a.toNat ∧ a.toNat ≤ 0x048)) ∧
  (∀ a a' : BitVec 16, ∀ r, cfgRegAt a = some r → cfgRegAt a' = some r → a = a')

/-- BLK_START with a legal configuration starts an attempt: the state RUN, the latched values, every
track and the NRZI decoder at their init values, the data buffer and the result registers cleared
(rules R36, R128, R130, R430). That NTRKS is latched too is assumption 3, and the strategies latched in
peak-scan mode, CONSTANT for the clock and the selected one for the AGC, are assumption 12. -/
def Obligations.BlkStartStarts : Prop :=
  ∀ s : State, s.core = .idle ∨ s.core = .done → cfgInvalid s.cfg = none →
    ∃ t, exec .blkStart s = .next t ∧
      t.core = .run ∧ t.eofSeen = false ∧ t.errCode = s.errCode ∧ t.errInfo = s.errInfo ∧
      t.cfg = s.cfg ∧ t.input = s.input ∧ t.output = s.output ∧ t.resetIn = s.resetIn ∧
      t.lat.w = cfgWindow s.cfg ∧ t.lat.scan = fEq (s.cfg.get .bpi) 0 ∧
      t.lat.nominal = (if fEq (s.cfg.get .bpi) 0 then 0
        else fDiv f64One (fMul (s.cfg.get .bpi) (s.cfg.get .ips))) ∧
      t.lat.clk = (if fEq (s.cfg.get .bpi) 0 then .constant
        else if 0 < s.cfg.nat .clkWindow then .window
        else if fLt 0 (s.cfg.get .clkAlpha) then .ewma else .constant) ∧
      t.lat.agc = (if 0 < s.cfg.nat .agcWindow then .window
        else if fLt 0 (s.cfg.get .agcAlpha) then .ewma else .none) ∧
      modeNumber t.lat.mode = s.cfg.nat .mode ∧ t.lat.ntrks = s.cfg.nat .ntrks ∧
      (∀ k, t.att.tr k = Track.init (s.cfg.get .nominalHeight)
        (clkInit t.lat.clk (s.cfg.nat .clkWindow) t.lat.nominal)) ∧
      t.att.nrzi = Nrzi.init (clkInit t.lat.clk (s.cfg.nat .clkWindow) t.lat.nominal) ∧
      (∀ i, bufRead t.att.buf i = { sym := 0, fmask := 0 }) ∧
      t.att.tPrev = none ∧ t.att.nsamples = 0 ∧ t.att.anyPeak = false ∧ t.att.gcrNsym = 0 ∧
      t.res = Results.zero

/-- BLK_START with an illegal configuration raises CFG_INVALID with the address of the first check of
rule R129 that fails, and no other effect; in RUN it raises WRONG_STATE(4) (rules R127, R128, R129,
R403). -/
def Obligations.BlkStartRefuses : Prop :=
  ∀ s : State,
    (s.core = .idle ∨ s.core = .done → ∀ pre a check post,
      configRules s.cfg = pre ++ (a, check) :: post → (∀ x ∈ pre, x.2) → ¬ check →
      exec .blkStart s = .next { s with core := .fault, errCode := 5, errInfo := a }) ∧
    (s.core = .run → exec .blkStart s = .next { s with core := .fault, errCode := 4, errInfo := 4 })

/-- The configurations BLK_START takes, register by register (rules R126, R129). -/
def Obligations.LegalConfigurations : Prop :=
  ∀ c : CfgFile, cfgInvalid c = none ↔
    let scan := fEq (c.get .bpi) 0
    let pe := scan = false ∧ c.nat .mode = 1
    let nrzi := scan = false ∧ c.nat .mode = 2
    let gcr := scan = false ∧ c.nat .mode = 3
    let finite := fun r => fFinite (c.get r) = true
    let lt := fun x y => fLt x y = true
    let le := fun x y => fLe x y = true
    (1 ≤ c.nat .mode ∧ c.nat .mode ≤ 3) ∧
    ((c.nat .ntrks = 7 ∨ c.nat .ntrks = 9) ∧ (c.nat .mode ≠ 2 → c.nat .ntrks = 9)) ∧
    (finite .dt ∧ lt 0 (c.get .dt)) ∧
    (finite .bpi ∧ le 0 (c.get .bpi)) ∧
    (finite .ips ∧ lt 0 (c.get .ips)) ∧
    (scan = false → fFinite (fDiv f64One (fMul (c.get .bpi) (c.get .ips))) = true ∧
      lt 0 (fDiv f64One (fMul (c.get .bpi) (c.get .ips)))) ∧
    c.nat .expectedParity ≤ 1 ∧
    c.nat .clkWindow ≤ 50 ∧
    (finite .clkAlpha ∧ le 0 (c.get .clkAlpha) ∧ le (c.get .clkAlpha) f64One) ∧
    c.nat .agcWindow ≤ 50 ∧
    (finite .agcAlpha ∧ le 0 (c.get .agcAlpha) ∧ le (c.get .agcAlpha) f64One) ∧
    (finite .minPeak ∧ le 0 (c.get .minPeak)) ∧
    (pe → finite .clkFactor ∧ lt 0 (c.get .clkFactor)) ∧
    (scan = false → finite .pulseAdj ∧ le 0 (c.get .pulseAdj) ∧ le (c.get .pulseAdj) f64One) ∧
    ((finite .pkwwBitfrac ∧ lt 0 (c.get .pkwwBitfrac)) ∧ 3 ≤ cfgWindow c) ∧
    (finite .pkwwRise ∧ le 0 (c.get .pkwwRise)) ∧
    (nrzi → finite .midbitFraction ∧ le 0 (c.get .midbitFraction) ∧
      lt (c.get .midbitFraction) f64One) ∧
    (gcr → finite .z1pt ∧ lt 0 (c.get .z1pt)) ∧
    (gcr → finite .z2pt ∧ lt (c.get .z1pt) (c.get .z2pt)) ∧
    (finite .peakThreshold ∧ le 0 (c.get .peakThreshold)) ∧
    (scan = false → finite .agcMax ∧ le f64One (c.get .agcMax)) ∧
    (finite .nominalHeight ∧ lt 0 (c.get .nominalHeight)) ∧
    (scan = false → 1 ≤ c.nat .avgHeightCount ∧ c.nat .avgHeightCount ≤ 65535) ∧
    (pe → finite .peIdleFactor ∧ lt 0 (c.get .peIdleFactor)) ∧
    (gcr → finite .gcrIdleFactor ∧ lt 0 (c.get .gcrIdleFactor)) ∧
    (pe → c.nat .ignorePostamble ≤ 65535) ∧
    (pe → c.nat .ignorePostamble ≤ c.nat .maxPostambleBits ∧ c.nat .maxPostambleBits ≤ 65535) ∧
    (pe → c.nat .peFakeTarget ≤ 2) ∧
    (nrzi → c.nat .nrziSpeedReset ≤ 1) ∧
    (pe → c.nat .peTmMask < 2 ^ 9 ∧ popcount (c.get .peTmMask) = 6) ∧
    (gcr → c.nat .gcrTmMask < 2 ^ 9 ∧ popcount (c.get .gcrTmMask) = 6) ∧
    (∀ k, c.nat (.deskew k) ≤ 30)

/-- The window of a configuration, legal or not: 8 samples in peak-scan mode, else 20 or, where it is
less, the whole part of PKWW_BITFRAC / ((BPI × IPS) × DT); of a legal one at least 3 and at most 20
(rules R9, R162). -/
def Obligations.WindowWidth : Prop :=
  ∀ c : CfgFile,
    let q := fDiv (c.get .pkwwBitfrac) (fMul (fMul (c.get .bpi) (c.get .ips)) (c.get .dt))
    (fEq (c.get .bpi) 0 = true → cfgWindow c = 8) ∧
    (fEq (c.get .bpi) 0 = false →
      cfgWindow c = if fLe (fOfNat 20) q then 20 else fFloorNat q) ∧
    (cfgInvalid c = none → 3 ≤ cfgWindow c ∧ cfgWindow c ≤ 20)

/-- The combinations of command and state that raise WRONG_STATE(OP): CFG_WR and BLK_START in RUN,
SAMPLE in IDLE and DONE; the state is the one before, but for the fault and the placeholder response
(rules R127, R403). -/
def Obligations.WrongStateRaises : Prop :=
  ∀ s : State,
    (s.core = .run → ∀ a v, exec (.cfgWr a v) s =
      .next { s with core := .fault, errCode := 4, errInfo := 0x02 }) ∧
    (s.core = .run → exec .blkStart s =
      .next { s with core := .fault, errCode := 4, errInfo := 0x04 }) ∧
    (s.core = .idle ∨ s.core = .done → ∀ a t vs, exec (.sample a t vs) s =
      .next { s with core := .fault, errCode := 4, errInfo := 0x05, output := s.output ++ [0] }) ∧
    (∀ i s', s.core ≠ .fault → exec i s = .next s' → s'.core = .fault → s'.errCode = 4 →
      (s.core = .run ∧ ((∃ a v, i = .cfgWr a v) ∨ i = .blkStart)) ∨
      (s.core ≠ .run ∧ ∃ a t vs, i = .sample a t vs))

/-- SAMPLE's argument checks in RUN, in order: the count, the first word that is not finite, the
time; each raises its error and nothing else (rules R132, R400). That the count is compared with the
latched NTRKS is by assumption 3. -/
def Obligations.SampleChecks : Prop :=
  ∀ (a : BitVec 16) (t : F64) (vs : List F64) (s : State), s.core = .run →
    let raised := fun (code : BitVec 8) (info : BitVec 16) =>
      exec (.sample a t vs) s =
        .next { s with core := .fault, errCode := code, errInfo := info, output := s.output ++ [0] }
    (a.toNat < 1 ∨ 9 < a.toNat ∨ a.toNat ≠ s.lat.ntrks → raised 8 a) ∧
    (1 ≤ a.toNat → a.toNat ≤ 9 → a.toNat = s.lat.ntrks →
      (fFinite t = false → raised 9 0) ∧
      (fFinite t = true → ∀ (pre : List F64) (v : F64) (post : List F64), vs = pre ++ v :: post →
        (∀ x ∈ pre, fFinite x = true) → fFinite v = false →
        raised 9 (BitVec.ofNat 16 (1 + pre.length))) ∧
      (fFinite t = true → (∀ x ∈ vs, fFinite x = true) → ∀ p, s.att.tPrev = some p →
        fLt t p = true → raised 6 0))

/-- A SAMPLE that passes its checks in RUN runs to its end wherever the buffers have room: each track's
front end and the dispatch of its peak, to the decoder and the AGC, in track order, and the sample step,
which alone ends the block; the events of its response and the records they leave, the end of the block
as the header says it, and nothing else changed but what its mode allows (rules R98, R131, R170, R171,
R402). That the tracks are those of the latched NTRKS is by assumption 3. -/
def Obligations.SampleCompletes : Prop :=
  ∀ (a : BitVec 16) (t : F64) (vs : List F64) (s : State),
    Inv s → s.core = .run → a.toNat = s.lat.ntrks → vs.length = a.toNat → fFinite t = true →
    (∀ v ∈ vs, fFinite v = true) → (∀ p, s.att.tPrev = some p → fLt t p = false) →
    Room s.lat s.att →
    ∃ s' es ended a', exec (.sample a t vs) s = .next s' ∧
      s'.core = (if ended then .done else .run) ∧
      s'.output = s.output ++ BitVec.ofNat 64 (es.length + 256 * boolNat ended) ::
        (es.map fun e => [BitVec.ofNat 64 (e.k.val + 16 * boolNat (polTop e.pk.pol)), e.pk.t, e.pk.v]).flatten ∧
      s'.errCode = s.errCode ∧ s'.errInfo = s.errInfo ∧ s'.eofSeen = s.eofSeen ∧ s'.cfg = s.cfg ∧
      s'.lat = s.lat ∧ s'.input = s.input ∧ s'.resetIn = s.resetIn ∧
      s'.att.tPrev = some t ∧ s'.att.nsamples = s.att.nsamples + 1 ∧
      EventsOf s.lat.ntrks s.att s'.att es ∧ FrontEndOf s.cfg s.lat t vs s.att s'.att es ∧
      SampleRunOf s.cfg s.lat t vs s.att a' ended ∧ AttemptFrame s.lat s.att a' ∧
      (ended = false → s'.att = a' ∧ s'.res = s.res) ∧
      (ended = true → s.lat.scan = false ∧ FinalFrame s.lat a' s'.att ∧
        (s'.att, s'.res) = finalize s.cfg s.lat a')

/-- A SAMPLE that passes its checks in RUN raises BUFFER_OVERFLOW or nothing: with the track in PE
and GCR, 0xFFFF in NRZI, and never in peak-scan mode (rules R400, R402, R404). -/
def Obligations.SampleRaisesOnlyOverflow : Prop :=
  ∀ (a : BitVec 16) (t : F64) (vs : List F64) (s s' : State),
    s.core = .run → a.toNat = s.lat.ntrks → 1 ≤ a.toNat → a.toNat ≤ 9 → fFinite t = true →
    (∀ v ∈ vs, fFinite v = true) → (∀ p, s.att.tPrev = some p → fLt t p = false) →
    exec (.sample a t vs) s = .next s' → s'.core = .fault →
    s.lat.scan = false ∧ s'.errCode = 7 ∧
      (if s.lat.mode = .nrzi then s'.errInfo = 0xFFFF
       else ∃ k : Fin 9, k.val < s.lat.ntrks ∧ s'.errInfo = BitVec.ofNat 16 k.val)

/-- EOF sets its flag; in RUN it also finalises the attempt and ends it, changing of the attempt only
what finalisation may (rules R133, R370). -/
def Obligations.EofEffect : Prop :=
  ∀ s : State,
    (s.core = .idle ∨ s.core = .done → exec .eof s = .next { s with eofSeen := true }) ∧
    (s.core = .run → Inv s → ∃ t, exec .eof s = .next t ∧
      t = { s with core := .done, eofSeen := true, att := t.att, res := t.res } ∧
      (t.att, t.res) = finalize s.cfg s.lat s.att ∧ FinalFrame s.lat s.att t.att)

/-- RES_RD answers the register its address names and changes nothing else, in every state; an
unimplemented address raises BAD_ADDRESS(A) with a zero word, in FAULT the zero word alone (rules
R135, R406). -/
def Obligations.ResReadEffect : Prop :=
  ∀ (a : BitVec 16) (s : State),
    (∀ w, resRead s a = some w → exec (.resRd a) s = .next { s with output := s.output ++ [w] }) ∧
    (resRead s a = none → s.core ≠ .fault → exec (.resRd a) s =
      .next { s with core := .fault, errCode := 3, errInfo := a, output := s.output ++ [0] }) ∧
    (resRead s a = none → s.core = .fault →
      exec (.resRd a) s = .next { s with output := s.output ++ [0] })

/-- The implemented result addresses (rule R136). -/
def Obligations.ResAddressMap : Prop :=
  ∀ (s : State) (a : BitVec 16), (resRead s a).isSome = true ↔
    a.toNat ≤ 0x018 ∨ (0x020 ≤ a.toNat ∧ a.toNat ≤ 0x028) ∨ (0x030 ≤ a.toNat ∧ a.toNat ≤ 0x038) ∨
      (0x040 ≤ a.toNat ∧ a.toNat ≤ 0x048) ∨ (0x050 ≤ a.toNat ∧ a.toNat ≤ 0x058) ∨
      (0x060 ≤ a.toNat ∧ a.toNat ≤ 0x062) ∨ (0x070 ≤ a.toNat ∧ a.toNat ≤ 0x078) ∨
      (0x080 ≤ a.toNat ∧ a.toNat ≤ 0x088)

/-- STATUS and ERR, field by field (rules R22, R30, R401). -/
def Obligations.StatusAndErrFields : Prop :=
  ∀ s : State, ∃ status err, resRead s 0x000 = some status ∧ resRead s 0x001 = some err ∧
    status.extractLsb' 0 2 = (match s.core with | .idle => 0 | .run => 1 | .done => 2 | .fault => 3) ∧
    status.getLsbD 2 = s.eofSeen ∧ status.getLsbD 3 = s.lat.scan ∧
    status.extractLsb' 4 4 = (match s.lat.mode with | .unset => 0 | .pe => 1 | .nrzi => 2 | .gcr => 3) ∧
    status.extractLsb' 8 56 = 0 ∧
    err.extractLsb' 0 8 = s.errCode ∧ err.extractLsb' 8 8 = 0 ∧ err.extractLsb' 16 16 = s.errInfo ∧
    err.extractLsb' 32 32 = 0

/-- The result registers, address by address: the final ones, and the live views, of which the
per-track ones read 0 for a track at or past NTRKS and the clocks are shown in the modes that use them
(rules R31, R32). That NTRKS is the latched one is assumption 3, and that the mode which shows a clock
is the latched one, in DONE too, is assumption 13. -/
def Obligations.ViewRegisters : Prop :=
  ∀ (s : State) (k : Fin 9),
    let view := fun (base : Nat) (w : Word) =>
      resRead s (BitVec.ofNat 16 (base + k.val)) = some (if k.val < s.lat.ntrks then w else 0)
    let reads := fun (a : BitVec 16) (w : Word) => resRead s a = some w
    let flag := fun b : Bool => if b then (1 : Word) else 0
    let decodes := fun m => s.lat.scan = false ∧ s.lat.mode = m
    let t := s.att.tr k
    let r := s.res
    reads 0x002 (match r.blktype with | .none => 0 | .block => 1 | .tapemark => 2 | .noise => 3) ∧
    reads 0x003 (BitVec.ofNat 64 r.nsymbols) ∧ reads 0x004 (BitVec.ofNat 64 r.minbits) ∧
    reads 0x005 (BitVec.ofNat 64 r.maxbits) ∧ reads 0x006 r.avgBitSpacing ∧
    reads 0x007 (BitVec.ofNat 64 s.att.nrzi.missedMidbits) ∧
    reads 0x008 (BitVec.ofNat 64 r.vparityErrs) ∧ reads 0x009 (BitVec.ofNat 64 r.fakedBits) ∧
    reads 0x00A (r.crc.setWidth 64) ∧ reads 0x00B (r.lrc.setWidth 64) ∧
    reads 0x00C (flag r.crcBad) ∧ reads 0x00D (flag r.lrcBad) ∧
    reads 0x00E (BitVec.ofNat 64 r.errcount) ∧ reads 0x00F (BitVec.ofNat 64 r.warncount) ∧
    reads 0x010 r.alltrkMaxAgcGain ∧ reads 0x011 (flag r.trackMismatch) ∧
    reads 0x012 (BitVec.ofNat 64 r.mismatchSpan) ∧ reads 0x013 (BitVec.ofNat 64 r.eccErrs) ∧
    reads 0x014 (BitVec.ofNat 64 r.badDgroups) ∧ reads 0x015 (BitVec.ofNat 64 r.seqErrs) ∧
    reads 0x016 (BitVec.ofNat 64 s.lat.w) ∧ reads 0x017 s.lat.nominal ∧
    reads 0x018 (BitVec.ofNat 64 s.att.nsamples) ∧
    view 0x020 (BitVec.ofNat 64 t.peakcount) ∧ view 0x030 (BitVec.ofNat 64 t.datacount) ∧
    view 0x040 t.gain ∧ view 0x070 (BitVec.ofNat 64 t.faked) ∧ view 0x080 t.vAvgHeight ∧
    (decodes .pe ∨ decodes .gcr → view 0x050 t.clk.value) ∧
    (¬ (decodes .pe ∨ decodes .gcr) → view 0x050 0) ∧
    (decodes .nrzi → reads 0x060 s.att.nrzi.clk.value ∧ reads 0x061 s.att.nrzi.tLastclock) ∧
    (¬ decodes .nrzi → reads 0x060 0 ∧ reads 0x061 0) ∧
    reads 0x062 (BitVec.ofNat 64 s.att.nrzi.postCounter)

/-- DATA_RD answers the symbol and the faked mask of the entry it names, at every index and in every
state but FAULT, and changes nothing else (rules R99, R137). -/
def Obligations.DataReadEffect : Prop :=
  ∀ (a : BitVec 16) (s : State), s.core ≠ .fault →
    ∃ w : Word, exec (.dataRd a) s = .next { s with output := s.output ++ [w] } ∧
      w.extractLsb' 0 9 = (bufRead s.att.buf a.toNat).sym ∧
      w.extractLsb' 16 9 = (bufRead s.att.buf a.toNat).fmask ∧
      w.extractLsb' 9 7 = 0 ∧ w.extractLsb' 25 39 = 0

/-! ## Faults -/

/-- What each command does in FAULT (rule R406). -/
def Obligations.FaultIgnores : Prop :=
  ∀ s : State, s.core = .fault →
    (∃ t, exec .reset s = .next t ∧ t.core = .idle ∧ t.errCode = 0) ∧
    (∀ a, exec (.resRd a) s = .next { s with output := s.output ++ [(resRead s a).getD 0] }) ∧
    (∀ a, exec (.cfgRd a) s = .next { s with output := s.output ++ [0] }) ∧
    (∀ a, exec (.dataRd a) s = .next { s with output := s.output ++ [0] }) ∧
    (∀ a t vs, exec (.sample a t vs) s = .next { s with output := s.output ++ [0] }) ∧
    (∀ a v, exec (.cfgWr a v) s = .next s) ∧
    exec .nop s = .next s ∧ exec .blkStart s = .next s ∧ exec .eof s = .next s ∧
    (∀ (w : CmdWord) (p : List Word) (rest : List InWord) (r : Reject), s.resetIn = false →
      s.input = .cmd w :: (p.map .data ++ rest) → p.length = payloadLen w → classify w p = .error r →
      step s = .next { s with
        input := rest
        output := s.output ++ (if w.extractLsb' 24 8 = 3 ∨ w.extractLsb' 24 8 = 5 ∨
          w.extractLsb' 24 8 = 7 ∨ w.extractLsb' 24 8 = 8 then [0] else []) })

/-- A step that enters FAULT changes nothing of the core but the state and the error record: every
other write of its command is undone, and the response is at most one zero word (rules R12, R400,
R403). -/
def Obligations.FaultIsPrecise : Prop :=
  ∀ s s' : State, step s = .next s' → s.core ≠ .fault → s'.core = .fault →
    ∃ (code : BitVec 8) (info : BitVec 16) (rest : List InWord) (r : List Word),
      s' = { s with core := .fault, errCode := code, errInfo := info, input := rest,
                    output := s.output ++ r } ∧
      1 ≤ code.toNat ∧ code.toNat ≤ 9 ∧ (r = [] ∨ r = [0])

/-- The transitions of the core state: FAULT by an error; IDLE by a reset; RUN by BLK_START from IDLE
or DONE; DONE by SAMPLE or EOF from RUN; and only a reset leaves FAULT (rules R22, R127, R405). -/
def Obligations.StateTransitions : Prop :=
  ∀ s s' : State, step s = .next s' → s'.core ≠ s.core →
    s'.core = .fault ∨
    (s'.core = .idle ∧ (s.resetIn = true ∨ ∃ rest, decode s.input = .instr .reset rest)) ∨
    ((s.core = .idle ∨ s.core = .done) ∧ s'.core = .run ∧
      ∃ rest, decode s.input = .instr .blkStart rest) ∨
    (s.core = .run ∧ s'.core = .done ∧
      ((∃ rest, decode s.input = .instr .eof rest) ∨
       ∃ a t vs rest, decode s.input = .instr (.sample a t vs) rest))

/-- While an attempt runs neither the configuration nor a latched value changes, short of a reset
(rules R36, R83). -/
def Obligations.ConfigurationFixedInRun : Prop :=
  ∀ s s' : State, step s = .next s' → s.core = .run →
    (s'.cfg = s.cfg ∧ s'.lat = s.lat) ∨
    (s'.core = .idle ∧ (s.resetIn = true ∨ ∃ rest, decode s.input = .instr .reset rest))

/-! ## Invariants -/

/-- The state after reset meets the invariant. -/
def Obligations.InvAtReset : Prop := Inv State.reset

/-- Every step keeps the invariant: the fault record, the latched values and the results agree with
the core state; the data buffer keeps its canonical form and its unused bits clear; every field stays
in its range; and a PE track counts exactly its faked bits (rules R22, R29, R33, R35, R73, R79, R204,
R251, R343, R387, R401). -/
def Obligations.InvKeptByStep : Prop :=
  ∀ s s' : State, Inv s → step s = .next s' → Inv s'

/-! ## The host -/

/-- A command neither reads nor changes what the host has sent or been answered: two states whose
cores agree answer alike and stay alike (rules R17, R78, R81). That a RESET command leaves the streams is
assumption 10, and that a NaN and a minimum or maximum with one come out alike in the two is by
assumptions 7 and 8. -/
def Obligations.HostStreamsUnread : Prop :=
  ∀ (i : Instr) (s₁ s₂ : State), s₁.coreOnly = s₂.coreOnly →
    ∃ t₁ t₂ r, exec i s₁ = .next t₁ ∧ exec i s₂ = .next t₂ ∧ t₁.coreOnly = t₂.coreOnly ∧
      t₁.output = s₁.output ++ r ∧ t₂.output = s₂.output ++ r ∧
      t₁.input = s₁.input ∧ t₂.input = s₂.input ∧ t₁.resetIn = s₁.resetIn ∧ t₂.resetIn = s₂.resetIn

/-- Retry determinism: after a BLK_START with the same configuration, the same commands give the same
responses and the same final state, whatever attempt came before (rule R84). That a RESET among the
commands keeps the responses already given is assumption 10, and that a NaN and a minimum or maximum
with one come out alike in the two runs is by assumptions 7 and 8. -/
def Obligations.RetryDeterminism : Prop :=
  ∀ (s₁ s₂ : State) (is : List Instr),
    s₁.cfg = s₂.cfg → cfgInvalid s₁.cfg = none →
    s₁.core = .idle ∨ s₁.core = .done → s₂.core = .idle ∨ s₂.core = .done →
    s₁.errCode = 0 → s₁.errInfo = 0 → s₂.errCode = 0 → s₂.errInfo = 0 →
    ∃ t₁ t₂ r, execAll (.blkStart :: is) s₁ = .next t₁ ∧ execAll (.blkStart :: is) s₂ = .next t₂ ∧
      t₁.coreOnly = t₂.coreOnly ∧ t₁.output = s₁.output ++ r ∧ t₂.output = s₂.output ++ r

/-! ## Deskew and peaks -/

/-- A track with a delay of `d` samples answers each voltage `d` SAMPLEs late, and the attempt's
first voltage until then; a delay of 0 is a wire (rule R160). -/
def Obligations.DeskewDelays : Prop :=
  ∀ (d : Nat) (v : F64) (vs : List F64) (t : Track), t.fifo = [] → t.primed = false →
    deskewAll d (v :: vs) t = (List.replicate d v ++ (v :: vs)).take (vs.length + 1)

/-- The peak detector. The sample joins the window, which keeps the last W; no peak before it is full,
nor in a blackout, which counts down. In a full window out of blackout the candidates are the first
greatest and the first least voltage, valid when strictly interior, the required rise clear of both edges
and past MIN_PEAK: of two valid ones the older is the peak, and none where neither is. The time shifts by
half a DT toward the nearer flank exactly where the flanks differ by more than the threshold, and the
blackout starts at the peak's index (rules R163 to R169). In a list of finite voltages the candidates are
what their names say (rule R13). -/
def Obligations.PeakOfFullWindow : Prop :=
  (∀ (c : CfgFile) (l : Latched) (time u : F64) (t : Track), t.win.length ≤ l.w →
    let win := (t.win ++ [(time, u)]).drop (t.win.length + 1 - l.w)
    let at_ := fun i => (win.getD i (0, 0)).1
    let v := fun i => (win.getD i (0, 0)).2
    let rise := fDiv (fMul (c.get .pkwwRise) (fDiv t.vAvgHeight (c.get .nominalHeight))) t.gain
    let interior := fun m => 0 < m ∧ m + 1 < l.w
    let configured := fun x => fEq (c.get .minPeak) 0 = true ∨ fLt (c.get .minPeak) (fAbs x) = true
    let mt := argmaxFirst (win.map (·.2))
    let mb := argminFirst (win.map (·.2))
    let top := interior mt ∧ fLe rise (fSub (v mt) (v 0)) = true ∧
      fLe rise (fSub (v mt) (v (l.w - 1))) = true ∧ configured (v mt)
    let bot := interior mb ∧ fLe rise (fSub (v 0) (v mb)) = true ∧
      fLe rise (fSub (v (l.w - 1)) (v mb)) = true ∧ configured (v mb)
    let shifted := fun m =>
      let a := v (m - 1)
      let b := v (m + 1)
      if fLt (fDiv (c.get .peakThreshold) t.gain) (fAbs (fSub a b)) = true then
        if fLt (fAbs (fSub (v m) a)) (fAbs (fSub (v m) b)) = true
        then fSub (at_ m) (fMul (c.get .dt) fHalf) else fAdd (at_ m) (fMul (c.get .dt) fHalf)
      else at_ m
    let none_ := fun blackout => peakStep c l time u t = ({ t with win := win, blackout := blackout }, none)
    let peak := fun pol m => peakStep c l time u t =
      ({ t with win := win, blackout := m }, some { pol := pol, t := shifted m, v := v m })
    (win.length < l.w → none_ t.blackout) ∧
    (win.length = l.w → 0 < t.blackout → none_ (t.blackout - 1)) ∧
    (win.length = l.w → t.blackout = 0 →
      (¬ top → ¬ bot → none_ 0) ∧
      (top → ¬ bot → peak .top mt) ∧
      (bot → ¬ top → peak .bot mb) ∧
      (top → bot → mt < mb → peak .top mt) ∧
      (top → bot → mb < mt → peak .bot mb))) ∧
  (∀ vs : List F64, vs ≠ [] → (∀ x ∈ vs, fFinite x = true) →
    let mt := argmaxFirst vs
    let mb := argminFirst vs
    (mt < vs.length ∧ (∀ x ∈ vs, fLe x (vs.getD mt 0) = true) ∧
      ∀ i, i < mt → fLt (vs.getD i 0) (vs.getD mt 0) = true) ∧
    (mb < vs.length ∧ (∀ x ∈ vs, fLe (vs.getD mb 0) x = true) ∧
      ∀ i, i < mb → fLt (vs.getD mb 0) (vs.getD i 0) = true))

/-- After a peak at index `m`, which leaves a blackout of `m`, the next `m` SAMPLEs report no peak of
the track and count the blackout down to 0, the window staying full (rules R164, R169, R443). -/
def Obligations.BlackoutSuppresses : Prop :=
  ∀ (c : CfgFile) (l : Latched) (xs : List (F64 × F64)) (t : Track),
    t.win.length = l.w → 0 < l.w → xs.length ≤ t.blackout →
    (peakSteps c l xs t).2 = List.replicate xs.length none ∧
    (peakSteps c l xs t).1.blackout = t.blackout - xs.length ∧
    (peakSteps c l xs t).1.win.length = l.w

/-! ## Clock and AGC -/

/-- The clock averager's operations, strategy by strategy (rules R201 to R205). -/
def Obligations.ClockOperations : Prop :=
  ∀ (α d nominal value x : F64) (xs : List F64) (n : Nat),
    clkInit .window n nominal = { strategy := .window, ring := List.replicate n nominal, value := nominal } ∧
    clkInit .ewma n nominal = { strategy := .ewma, ring := [], value := nominal } ∧
    clkInit .constant n nominal = { strategy := .constant, ring := [], value := nominal } ∧
    clkAdjust α d { strategy := .window, ring := x :: xs, value := value } =
      { strategy := .window, ring := xs ++ [d],
        value := fDiv (fSum (xs ++ [d])) (fOfNat (xs.length + 1)) } ∧
    clkAdjust α d { strategy := .ewma, ring := [], value := value } =
      { strategy := .ewma, ring := [],
        value := fAdd (fMul α d) (fMul (fSub f64One α) value) } ∧
    clkAdjust α d { strategy := .constant, ring := [], value := value } =
      { strategy := .constant, ring := [], value := value } ∧
    clkForce d { strategy := .window, ring := x :: xs, value := value } =
      { strategy := .window, ring := List.replicate (xs.length + 1) d, value := d } ∧
    clkForce d { strategy := .ewma, ring := [], value := value } =
      { strategy := .ewma, ring := [], value := d } ∧
    clkForce d { strategy := .constant, ring := [], value := value } =
      { strategy := .constant, ring := [], value := value }

/-- The AGC baseline of a track: the mean of its first AVG_HEIGHT_COUNT heights, NOMINAL_HEIGHT where
their sum is not > 0, frozen with the last of them; until then, and on the height that freezes it, the
gain stays. PE's start of data freezes it at once where the track has had a height, and takes none; on any
other peak the start of data is no matter. A peak without a height, a track's first, changes nothing
(rules R221, R222). -/
def Obligations.AgcBaseline : Prop :=
  (∀ (c : CfgFile) (l : Latched) (hs : List F64) (t : Track),
    t.hFrozen = false → t.hN = 0 → t.hSum = 0 → hs.length ≤ c.nat .avgHeightCount →
    hs ≠ [] →
    let t' := agcFeed c l hs t
    let sum := hs.foldl fAdd 0
    t'.hN = hs.length ∧ t'.hSum = sum ∧ t'.gain = t.gain ∧ t'.maxGain = t.maxGain ∧
    (hs.length < c.nat .avgHeightCount → t'.hFrozen = false ∧ t'.vAvgHeight = t.vAvgHeight) ∧
    (hs.length = c.nat .avgHeightCount → t'.hFrozen = true ∧
      t'.vAvgHeight = if fLt 0 sum then fDiv sum (fOfNat hs.length) else c.get .nominalHeight)) ∧
  (∀ (c : CfgFile) (l : Latched) (h : Option F64) (sod : Bool) (t : Track),
    (t.hFrozen = false → l.mode = .pe → 1 ≤ t.hN → agcPeak c l h true t = { t with
      hFrozen := true
      vAvgHeight := if fLt 0 t.hSum then fDiv t.hSum (fOfNat t.hN) else c.get .nominalHeight }) ∧
    (t.hFrozen = true ∨ l.mode ≠ .pe ∨ t.hN = 0 → agcPeak c l h sod t = agcPeak c l h false t) ∧
    agcPeak c l none false t = t)

/-- The AGC past the baseline: under WINDOW the last AGC_WINDOW heights are kept and their least sets
the gain, under EWMA the gain moves by its factor, under NONE it stays; a height ≤ 0 asks for AGC_MAX,
and max_gain follows (rules R221, R223, R224, R225). -/
def Obligations.AgcGain : Prop :=
  ∀ (c : CfgFile) (l : Latched) (h : F64) (t : Track), t.hFrozen = true →
    let t' := agcPeak c l (some h) false t
    let want := fun x => if fLe x 0 then c.get .agcMax else fMin (c.get .agcMax) (fDiv t.vAvgHeight x)
    t'.maxGain = fMax t.maxGain t'.gain ∧
    (l.agc = .window → t.hwin.length ≤ c.nat .agcWindow →
      t'.hwin = (t.hwin ++ [h]).drop ((t.hwin.length + 1) - c.nat .agcWindow) ∧
      t'.gain = want (fMinList t'.hwin)) ∧
    (l.agc = .ewma →
      t'.gain = fAdd (fMul (c.get .agcAlpha) (want h)) (fMul (fSub f64One (c.get .agcAlpha)) t.gain)) ∧
    (l.agc = .none → t'.gain = t.gain) ∧
    t' = { t with gain := t'.gain, maxGain := t'.maxGain, hwin := t'.hwin }

/-! ## PE -/

/-- pe_append writes the track's own bit of the entry at its count and no other bit, and counts it;
past the buffer it raises BUFFER_OVERFLOW(k) (rule R248). -/
def Obligations.PeAppendEffect : Prop :=
  ∀ (n : Nat) (k : Fin 9) (b f : Bool) (a : Attempt), n ≤ 9 → k.val < n → Memory.wf a.buf = true →
    (65536 ≤ (a.tr k).datacount →
      peAppend n k b f a = .error ⟨.bufferOverflow, BitVec.ofNat 16 k.val⟩) ∧
    ((a.tr k).datacount < 65536 → ∃ a', peAppend n k b f a = .ok a' ∧
      a'.tr k = { a.tr k with datacount := (a.tr k).datacount + 1 } ∧
      (∀ j, j ≠ k → a'.tr j = a.tr j) ∧
      symBit n (bufRead a'.buf (a.tr k).datacount).sym k = b ∧
      symBit n (bufRead a'.buf (a.tr k).datacount).fmask k = f ∧
      (∀ j : Fin 9, j.val < n → j ≠ k →
        symBit n (bufRead a'.buf (a.tr k).datacount).sym j =
          symBit n (bufRead a.buf (a.tr k).datacount).sym j ∧
        symBit n (bufRead a'.buf (a.tr k).datacount).fmask j =
          symBit n (bufRead a.buf (a.tr k).datacount).fmask j) ∧
      (∀ i, i ≠ (a.tr k).datacount → bufRead a'.buf i = bufRead a.buf i))

/-- A PE track's peak, phase by phase. PRE0 moves to PREAMBLE. In PREAMBLE a peak past the clock window
starts data, with no bit, and any other of alternate polarity feeds the clock twice its interval. In DATA
a track that was idle returns from a dropout; else a data transition appends the polarity's bit and moves
the clock and the reference, and any other is a clock transition, which only clears clknext. Every peak
clears idle (rules R241, R242, R243, R244). -/
def Obligations.PeDataPeak : Prop :=
  ∀ (c : CfgFile) (n : Nat) (k : Fin 9) (pk : Peak) (a : Attempt),
    let t := a.tr k
    let window := fMul (fMul t.clk.value fHalf) (c.get .clkFactor)
    let becomes := fun (u : Track) (sod : Bool) =>
      pePeak c n k pk a = .ok (a.setTr k { u with idle := false }, sod)
    (t.phase = .pre0 → becomes { t with phase := .preamble } false) ∧
    (t.phase = .preamble →
      let elapsed := fSub pk.t t.tLast
      (fLt window elapsed = true →
        becomes { t with
          phase := .data
          tLastdata := pk.t
          clknext := true
          tPulseAdj := 0
          lastbit := polTop pk.pol } true) ∧
      (fLt window elapsed = false → pk.pol ≠ t.polLast →
        becomes { t with clk := clkAdjust (c.get .clkAlpha) (fMul fTwo elapsed) t.clk } false) ∧
      (fLt window elapsed = false → pk.pol = t.polLast → becomes t false)) ∧
    (t.phase = .data → t.idle = true →
      pePeak c n k pk a =
        andThen (peReturn c n k pk (a.setTr k { t with idle := false })) fun x => .ok (x, false)) ∧
    (t.phase = .data → t.idle = false →
      let elapsed := fSub (fAdd pk.t t.tPulseAdj) t.tLastdata
      (fLt window elapsed = false → becomes { t with clknext := false } false) ∧
      (fLt window elapsed = true → 65536 ≤ t.datacount →
        pePeak c n k pk a = .error ⟨.bufferOverflow, BitVec.ofNat 16 k.val⟩) ∧
      (fLt window elapsed = true → t.datacount < 65536 → n ≤ 9 → k.val < n →
        ∃ a' x, pePeak c n k pk a = .ok (a', false) ∧ (∀ j, j ≠ k → a'.tr j = a.tr j) ∧
          peAppend n k (polTop pk.pol) false a = .ok x ∧ a'.buf = x.buf ∧
          a'.tr k = { t with
            datacount := t.datacount + 1
            lastbit := polTop pk.pol
            clk := clkAdjust (c.get .clkAlpha) (fSub pk.t t.tLastdata) t.clk
            tPulseAdj := fMul (c.get .pulseAdj) (fSub pk.t (fAdd t.tLastdata t.clk.value))
            tLastdata := pk.t
            clknext := true }))

/-- The dropout fill: a track that returns while others produce data appends faked copies of its last
bit up to the MIN, MAX or floor of the mean of the others' counts at the start of the SAMPLE, clamped so
that they end with the buffer, counts them, and appends the returning bit; where the fill has reached the
end of the buffer, that bit raises BUFFER_OVERFLOW(k) (rules R247, R248). -/
def Obligations.PeDropoutFill : Prop :=
  ∀ (c : CfgFile) (n : Nat) (k : Fin 9) (pk : Peak) (a : Attempt),
    n ≤ 9 → k.val < n → Memory.wf a.buf = true → c.nat .peFakeTarget ≤ 2 →
    let t := a.tr k
    let others := (tracks n).filter fun j => j ≠ k && (a.tr j).phase = .data && (a.tr j).idle = false
    let counts := others.map fun j => (a.tr j).dcStart
    let target := if c.nat .peFakeTarget = 0 then counts.foldl min (counts.headD 0)
      else if c.nat .peFakeTarget = 1 then counts.foldl max 0
      else counts.sum / counts.length
    let fill := if others = [] then 0 else min (target - t.datacount) (65536 - t.datacount)
    (65536 ≤ t.datacount + fill →
      peReturn c n k pk a = .error ⟨.bufferOverflow, BitVec.ofNat 16 k.val⟩) ∧
    (t.datacount + fill < 65536 → ∃ a', peReturn c n k pk a = .ok a' ∧
      a'.tr k = { t with
        datacount := t.datacount + fill + 1
        faked := t.faked + fill
        lastbit := polTop pk.pol
        tLastdata := pk.t
        clknext := true
        tPulseAdj := 0 } ∧
      (∀ j, j ≠ k → a'.tr j = a.tr j) ∧
      (∀ i, t.datacount ≤ i → i < t.datacount + fill →
        symBit n (bufRead a'.buf i).sym k = t.lastbit ∧ symBit n (bufRead a'.buf i).fmask k = true) ∧
      symBit n (bufRead a'.buf (t.datacount + fill)).sym k = polTop pk.pol ∧
      symBit n (bufRead a'.buf (t.datacount + fill)).fmask k = false ∧
      (∀ (j : Fin 9) (i : Nat), j.val < n → j ≠ k ∨ i < t.datacount ∨ t.datacount + fill < i →
        symBit n (bufRead a'.buf i).sym j = symBit n (bufRead a.buf i).sym j ∧
        symBit n (bufRead a'.buf i).fmask j = symBit n (bufRead a.buf i).fmask j))

/-- The postamble strip removes the last bits of a track, at most MAX_POSTAMBLE_BITS of them, up to
and with the first 1-bit met once IGNORE_POSTAMBLE bits are gone, clears them, and takes exactly the
faked ones off the count (rule R251). -/
def Obligations.PePostambleStrip : Prop :=
  ∀ (c : CfgFile) (l : Latched) (k : Fin 9) (a : Attempt),
    l.legal → AttemptInv l a → l.runs .pe = true → k.val < l.ntrks →
    let n := l.ntrks
    let a' := peStrip c n k a
    let count := (a.tr k).datacount
    let kept := (a'.tr k).datacount
    let removed := count - kept
    let bit := fun i => symBit n (bufRead a.buf i).sym k
    kept ≤ count ∧ removed ≤ c.nat .maxPostambleBits ∧
    (removed = c.nat .maxPostambleBits ∨ kept = 0 ∨
      (1 ≤ removed ∧ c.nat .ignorePostamble ≤ removed ∧ bit kept = true)) ∧
    (∀ i, kept < i → i < count → c.nat .ignorePostamble ≤ count - i → bit i = false) ∧
    (a'.tr k).faked = fakedIn n k a.buf kept ∧
    a'.tr k = { a.tr k with datacount := kept, faked := (a'.tr k).faked } ∧
    (∀ j, j ≠ k → a'.tr j = a.tr j) ∧
    (∀ (j : Fin 9) (i : Nat), j.val < n →
      symBit n (bufRead a'.buf i).sym j =
        (if j = k ∧ kept ≤ i then false else symBit n (bufRead a.buf i).sym j) ∧
      symBit n (bufRead a'.buf i).fmask j =
        (if j = k ∧ kept ≤ i then false else symBit n (bufRead a.buf i).fmask j))

/-- PE and GCR tracks go idle when no peak has come for their factor of a bit time, and the block
ends when some peak has been seen and every track is idle (rules R245, R246, R327, R328). -/
def Obligations.IdleEndsBlock : Prop :=
  ∀ (c : CfgFile) (n : Nat) (now : F64) (a : Attempt),
    let late := fun (factor : F64) (t : Track) =>
      fLt (fMul factor t.clk.value) (fSub now t.tLast)
    let peIdle := fun t => t.idle || (t.phase != .pre0 && late (c.get .peIdleFactor) t)
    let gcrIdle := fun t => t.idle || (t.haveLast && late (c.get .gcrIdleFactor) t)
    (∀ k : Fin 9, ((peSampleStep c n now a).1.tr k) =
      if k.val < n then { a.tr k with idle := peIdle (a.tr k) } else a.tr k) ∧
    ((peSampleStep c n now a).2 = true ↔
      a.anyPeak = true ∧ ∀ k : Fin 9, k.val < n → peIdle (a.tr k) = true) ∧
    (∀ k : Fin 9, ((gcrSampleStep c n now a).1.tr k) =
      if k.val < n then { a.tr k with idle := gcrIdle (a.tr k) } else a.tr k) ∧
    ((gcrSampleStep c n now a).2 = true ↔
      a.anyPeak = true ∧ ∀ k : Fin 9, k.val < n → gcrIdle (a.tr k) = true)

/-! ## NRZI -/

/-- The midbit loop. It runs a midbit for as long as one is due, and stops by itself: any larger bound on
its midbits gives the same, and it ends the block exactly when post_counter passes 8. A midbit takes the
tracks whose pending peak is not past its boundary, and no others, and gives the symbol they mark. In the
data phase a symbol is stored and moves the clock, and an empty cell starts the tail; in the tail the
cells are counted, cell 4 of a 9-track tape gives the CRC and cell 8 the LRC (rules R284, R285, R286,
R288). The bound is the model's (assumption 17). -/
def Obligations.MidbitLoopStops : Prop :=
  ∀ (c : CfgFile) (n : Nat) (now : F64) (a : Attempt) (extra : Nat),
    let z := a.nrzi
    let span := fMul (fAdd f64One (c.get .midbitFraction)) z.clk.value
    let boundary := fAdd z.tLastclock span
    let taken := (tracks n).filter fun k => (a.tr k).pending && fLe (a.tr k).tPending boundary
    let avg := fDiv (fSum (taken.map fun k => (a.tr k).tPending)) (fOfNat taken.length)
    let tExp := fAdd z.tLastclock z.clk.value
    let tNew := fAdd avg (fMul (c.get .pulseAdj) (fSub tExp avg))
    (z.datablock = false → nrziSampleStep c n now a = .ok (a, false)) ∧
    (z.datablock = true → nrziSampleStep c n now a =
      if fLt span (fSub now z.tLastclock) then
        andThen (nrziMidbit c n a) fun x => if x.2 then .ok x else nrziSampleStep c n now x.1
      else .ok (a, false)) ∧
    nrziLoop c n now (midbitBound n a + extra) a = nrziLoop c n now (midbitBound n a) a ∧
    (∀ a' ended, z.postCounter ≤ 8 → nrziSampleStep c n now a = .ok (a', ended) →
      (ended = true ↔ 8 < a'.nrzi.postCounter) ∧
      (ended = false → z.datablock = true → midbitDue c now a'.nrzi = false)) ∧
    (z.postCounter = 0 → taken ≠ [] → 65536 ≤ z.nsym →
      nrziMidbit c n a = .error ⟨.bufferOverflow, 0xFFFF⟩) ∧
    (n ≤ 9 → Memory.wf a.buf = true → z.nsym < 65536 ∨ z.postCounter ≠ 0 ∨ taken = [] →
      ∃ a' sym, nrziMidbit c n a = .ok (a', decide (8 ≤ z.postCounter)) ∧
        (∀ k : Fin 9, k.val < n → symBit n sym k = decide (k ∈ taken)) ∧
        (∀ i, n ≤ i → sym.getLsbD i = false) ∧
        a' = { a with trk := a'.trk, buf := a'.buf, nrzi := a'.nrzi } ∧
        (∀ k, a'.tr k = if k ∈ taken then { a.tr k with pending := false } else a.tr k) ∧
        (∀ i, bufRead a'.buf i = if z.postCounter = 0 ∧ taken ≠ [] ∧ i = z.nsym
          then { sym := sym, fmask := 0 } else bufRead a.buf i) ∧
        a'.nrzi =
          if 8 ≤ z.postCounter then { z with postCounter := z.postCounter + 1 }
          else
            let fired := { z with haveBoundary := true, tBoundary := boundary }
            if z.postCounter = 0 then
              if taken = [] then { fired with postCounter := 1, tLastclock := tExp }
              else { fired with
                nsym := z.nsym + 1
                clk := clkAdjust (c.get .clkAlpha) (fSub tNew z.tLastclock) z.clk
                tLastclock := tNew }
            else
              let counted := { fired with postCounter := z.postCounter + 1 }
              if taken ≠ [] ∧ z.postCounter + 1 = 4 ∧ n = 9 then
                { counted with crc := sym, tLastclock := avg }
              else if taken ≠ [] ∧ z.postCounter + 1 = 8 then
                { counted with lrc := sym, tLastclock := avg }
              else { counted with tLastclock := tExp })

/-- An NRZI peak. The first of the attempt starts the block one bit time after its clock. A timely one
makes its track pending, which keeps an earlier time. One at or before the last midbit's boundary is
late: it sets its track's bit of the last symbol with a warning, re-opens the data phase when the midbit
before found nothing, and is ignored otherwise. Every peak then goes to the speed auto-reset, which
forces the clock once, to the time from the first top peak to its track's next peak (rules R281, R282,
R287, R289). -/
def Obligations.NrziLatePeak : Prop :=
  (∀ (c : CfgFile) (n : Nat) (k : Fin 9) (pk : Peak) (a : Attempt),
    let z := a.nrzi
    let t := a.tr k
    let started := { a with nrzi :=
      if z.datablock then z else { z with datablock := true, tLastclock := fSub pk.t z.clk.value } }
    let speed := fun x : Nrzi =>
      if c.nat .nrziSpeedReset ≠ 1 ∨ x.srDone = true then x
      else if x.srTrk = none then
        if pk.pol = .top then { x with srTrk := some k, srT := pk.t } else x
      else if x.srTrk = some k then { x with clk := clkForce (fSub pk.t x.srT) x.clk, srDone := true }
      else x
    let late := z.haveBoundary = true ∧ fLe pk.t z.tBoundary = true
    (¬ late → nrziPeak c n k pk a = .ok { started.setTr k
        (if t.pending then t else { t with pending := true, tPending := pk.t }) with
      nrzi := speed started.nrzi }) ∧
    (late → nrziPeak c n k pk a =
      andThen (nrziLatePeak n k started) fun x => .ok { x with nrzi := speed x.nrzi })) ∧
  (∀ (n : Nat) (k : Fin 9) (a : Attempt), n ≤ 9 → k.val < n → Memory.wf a.buf = true →
    a.nrzi.nsym ≤ 65536 →
    let z := a.nrzi
    let last := bufRead a.buf (z.nsym - 1)
    (z.postCounter = 0 → 0 < z.nsym → symBit n last.sym k = true → nrziLatePeak n k a = .ok a) ∧
    (z.postCounter = 0 → 0 < z.nsym → symBit n last.sym k = false →
      ∃ a', nrziLatePeak n k a = .ok a' ∧ a'.trk = a.trk ∧
        a'.nrzi = { z with missedMidbits := z.missedMidbits + 1 } ∧
        ∀ i, bufRead a'.buf i = if i + 1 = z.nsym
          then { last with sym := last.sym ||| (1#9 <<< (n - 1 - k.val)) } else bufRead a.buf i) ∧
    (z.postCounter = 1 → z.nsym < 65536 →
      ∃ a', nrziLatePeak n k a = .ok a' ∧ a'.trk = a.trk ∧
        a'.nrzi = { z with
          nsym := z.nsym + 1, postCounter := 0, missedMidbits := z.missedMidbits + 1 } ∧
        ∀ i, bufRead a'.buf i = if i = z.nsym
          then { sym := 1#9 <<< (n - 1 - k.val), fmask := 0 } else bufRead a.buf i) ∧
    (z.postCounter = 1 → z.nsym = 65536 → nrziLatePeak n k a = .error ⟨.bufferOverflow, 0xFFFF⟩) ∧
    (2 ≤ z.postCounter ∨ (z.postCounter = 0 ∧ z.nsym = 0) → nrziLatePeak n k a = .ok a))

/-- The CRC of a 9-track block tells two blocks apart that differ in one symbol (rule R290). -/
def Obligations.CrcDetectsOneSymbol : Prop :=
  ∀ (pre post : List Sym) (d d' : Sym), d ≠ d' →
    nrziCrc (pre ++ d :: post) ≠ nrziCrc (pre ++ d' :: post)

/-- The NRZI results: the counts, the received CRC and LRC, the two checks, the CRC by its recurrence
over the data symbols, and the parity count, which a tapemark clears; without an error on a 9-track block both recurrences give the received symbols
(rules R290, R292, R375, R378, R381, R384, R387). -/
def Obligations.NrziResults : Prop :=
  ∀ (c : CfgFile) (l : Latched) (a : Attempt), l.scan = false → l.mode = .nrzi →
    let z := a.nrzi
    let ds := (List.range z.nsym).map fun i => (bufRead a.buf i).sym
    let crcStep := fun (acc d : Sym) =>
      let x := acc ^^^ d
      let y := if x.getLsbD 0 = true then x ^^^ 0x0F0 else x
      (y >>> 1) ||| ((y &&& 1) <<< 8)
    let crc := ds.foldl crcStep 0 ^^^ 0x1AF
    let lrc := if l.ntrks = 9 then ds.foldl (· ^^^ ·) 0 ^^^ z.crc else ds.foldl (· ^^^ ·) 0
    let r := (finalize c l a).2
    nrziCrc ds = crc ∧ (finalize c l a).1 = a ∧ r.minbits = z.nsym ∧ r.maxbits = z.nsym ∧ r.nsymbols = z.nsym ∧
    r.crc = z.crc ∧ r.lrc = z.lrc ∧ r.fakedBits = 0 ∧ r.eccErrs = 0 ∧ r.badDgroups = 0 ∧
    r.seqErrs = 0 ∧ r.trackMismatch = false ∧ r.avgBitSpacing = z.clk.value ∧
    (r.blktype ≠ .tapemark →
      (r.crcBad = true ↔ l.ntrks = 9 ∧ crc ≠ z.crc) ∧ (r.lrcBad = true ↔ lrc ≠ z.lrc) ∧
      r.vparityErrs = (ds.filter fun d => xorReduce d ≠ c.nat .expectedParity).length ∧
      (r.vparityErrs = 0 ↔ ∀ d ∈ ds, xorReduce d = c.nat .expectedParity) ∧
      (r.errcount = 0 → l.ntrks = 9 → crc = z.crc ∧ lrc = z.lrc)) ∧
    (r.blktype = .tapemark → r.errcount = 0 ∧ r.crcBad = false ∧ r.lrcBad = false ∧ r.vparityErrs = 0)

/-! ## GCR -/

/-- A GCR peak appends the inserted zeros and a 1 to its track's bits, none before the track's first
peak and at most two, bit by bit through the resync machine, and moves the pulse adjustment. The clock is re-estimated on the third of three
1-bits with no zero between them, by the interval that ends at the second; the 70th 1-bit of a resync
burst forces it before that (rules R320, R321, R322, R325). -/
def Obligations.GcrPeakBits : Prop :=
  ∀ (c : CfgFile) (k : Fin 9) (pk : Peak) (t : Track), t.datacount + 3 ≤ 65536 →
    let x := fSub (fSub pk.t t.tLast) t.tPulseAdj
    let nz := if fLt (fMul (c.get .z2pt) t.clk.value) x then 2
      else if fLt (fMul (c.get .z1pt) t.clk.value) x then 1 else 0
    let burst := t.resyncActive = true ∧ t.resyncBitcount = 69
    let forced := clkForce (fDiv (fSub pk.t t.tResyncFirst) (fOfNat 69)) t.clk
    let appended := fun (u : Track) (bit : Option F64) => gcrResyncBit bit { u with
      bits := u.bits ++ [bit.isSome]
      datacount := u.datacount + 1
      last5 := (u.last5 <<< 1) ||| (if bit.isSome then 1 else 0) }
    let bits := if t.haveLast then List.replicate nz none ++ [some pk.t] else [some pk.t]
    let after := bits.foldl appended { t with idle := false }
    ∃ t', gcrPeak c k pk t = .ok t' ∧ t'.idle = false ∧
      t' = { after with tPulseAdj := t'.tPulseAdj, onesRun := t'.onesRun, clk := t'.clk } ∧
      t'.last5 = (t.last5 <<< bits.length) ||| 1 ∧
      (bits.length = 1 → t.resyncActive = false → t'.resyncActive = false ∧
        t'.resyncBitcount = t.resyncBitcount ∧ t'.tResyncFirst = t.tResyncFirst) ∧
      (bits.length = 1 → t.resyncActive = true → t'.resyncActive = decide (t.resyncBitcount ≠ 69) ∧
        t'.resyncBitcount = t.resyncBitcount + 1 ∧
        t'.tResyncFirst = if t.resyncBitcount = 0 then pk.t else t.tResyncFirst) ∧
      (1 < bits.length → t'.resyncActive = decide (t.last5 <<< nz = 0b11100) ∧
        (t'.resyncActive = true → t'.resyncBitcount = 1 ∧ t'.tResyncFirst = pk.t)) ∧
      (t.haveLast = false → t'.bits = t.bits ++ [true] ∧ t'.datacount = t.datacount + 1 ∧
        t'.tPulseAdj = t.tPulseAdj ∧ t'.onesRun = 1 ∧ t'.clk = if burst then forced else t.clk) ∧
      (t.haveLast = true → t'.bits = t.bits ++ List.replicate nz false ++ [true] ∧
        t'.datacount = t.datacount + nz + 1 ∧
        t'.tPulseAdj = fMul (c.get .pulseAdj)
          (fSub (fAdd t.tLast (fMul (fOfNat (nz + 1)) t.clk.value)) pk.t) ∧
        t'.onesRun = (if nz = 0 then t.onesRun + 1 else 1) ∧
        t'.clk =
          let clk := if nz = 0 ∧ burst then forced else t.clk
          if 3 ≤ t'.onesRun then clkAdjust (c.get .clkAlpha) (fSub t.tLast t.tLast2) clk else clk)

/-- The resync machine, bit by bit. Each bit joins the track's bits and shifts into the last five, past
the buffer it raises BUFFER_OVERFLOW(k), and then goes through the machine: a 0-bit that ends MARK2 arms
it with no ones counted, one inside a burst too, and any other 0-bit breaks a burst, without effect on the
clock; a 1-bit inside a burst is counted, the first is noted, and the 70th forces the clock to the mean
interval of the burst and ends it; a 1-bit outside a burst does nothing. So fewer than 70 ones only count
(rules R322, R325). -/
def Obligations.ResyncForcesClock : Prop :=
  ∀ (t : Track),
    (∀ (k : Fin 9) (bit : Option F64),
      (65536 ≤ t.datacount → gcrBit k bit t = .error ⟨.bufferOverflow, BitVec.ofNat 16 k.val⟩) ∧
      (t.datacount < 65536 → gcrBit k bit t = .ok (gcrResyncBit bit { t with
        bits := t.bits ++ [bit.isSome]
        datacount := t.datacount + 1
        last5 := (t.last5 <<< 1) ||| (if bit.isSome then 1 else 0) }))) ∧
    (t.last5 = 0b11100 →
      gcrResyncBit none t = { t with resyncActive := true, resyncBitcount := 0 }) ∧
    (t.last5 ≠ 0b11100 → gcrResyncBit none t = { t with resyncActive := false }) ∧
    (t.resyncActive = false → ∀ time, gcrResyncBit (some time) t = t) ∧
    (t.resyncActive = true → ∀ time,
      let first := if t.resyncBitcount = 0 then time else t.tResyncFirst
      gcrResyncBit (some time) t =
        if t.resyncBitcount = 69 then
          { t with
            resyncBitcount := 70
            tResyncFirst := first
            resyncActive := false
            clk := clkForce (fDiv (fSub time first) (fOfNat 69)) t.clk }
        else { t with resyncBitcount := t.resyncBitcount + 1, tResyncFirst := first }) ∧
    (t.resyncActive = true → t.resyncBitcount = 0 → ∀ (first : F64) (times : List F64),
      times.length + 1 < 70 →
      resyncOnes (first :: times) t =
        { t with resyncBitcount := times.length + 1, tResyncFirst := first }) ∧
    (t.resyncActive = true → t.resyncBitcount = 0 → ∀ (first last : F64) (times : List F64),
      times.length + 2 = 70 →
      resyncOnes (first :: times ++ [last]) t =
        { t with
          resyncBitcount := 70
          tResyncFirst := first
          resyncActive := false
          clk := clkForce (fDiv (fSub last first) (fOfNat 69)) t.clk })

/-- The GCR block decode. Its groups are the five bits after each track's first MARK1 and every five
after them, as many as every track has; a track without MARK1 gives a sequence error and no symbols. The
group machine reads a block of pairs of data groups, in stretches with a whole resync burst after each but
the last and closed by a SYNC group, as its pairs in order, without a sequence error, whatever follows;
and from any row on it does what its rule says, in DATA and in RESYNC: MARK1, a data group without its
pair, a row that breaks a burst, which is read again in DATA, and the end of the rows before the terminal
SYNC count a sequence error each. Of whatever groups, damaged or not, parity, ECC and invalid codes are
counted over every pair decoded; with the terminal SYNC and two pairs or more the last is the CRC pair,
whose residual count is trimmed from the seven bytes of each pair before it, and fewer count a sequence
error (rules R332, R333, R334, R337 to R340). That a track's groups are counted from its bits is
assumption 15. -/
def Obligations.GroupMachineReadsBlock : Prop :=
  (∀ (n : Nat) (a : Attempt), 1 ≤ n → n ≤ 9 →
    let mark1At := fun (k : Fin 9) (i : Nat) =>
      ((a.tr k).bits.drop i).take 5 = [false, false, true, true, true]
    ((∃ k : Fin 9, k.val < n ∧ ∀ i, ¬ mark1At k i) → ∀ table ecc, gcrDecode n table ecc a =
      { syms := [], vparityErrs := 0, eccErrs := 0, badDgroups := 0, seqErrs := 1 }) ∧
    (∀ start : Fin 9 → Nat,
      (∀ k : Fin 9, k.val < n → mark1At k (start k) ∧ ∀ i, i < start k → ¬ mark1At k i) →
      let groups := fun k : Fin 9 => ((a.tr k).bits.length - start k - 5) / 5
      ∃ rows, (∀ table ecc, gcrDecode n table ecc a = gcrDecodeRows n table ecc rows) ∧
        (∀ k : Fin 9, k.val < n → rows.length ≤ groups k) ∧
        (∃ k : Fin 9, k.val < n ∧ rows.length = groups k) ∧
        ∀ g row, rows[g]? = some row → row.length = n ∧
          ∀ (k : Fin 9) (j : Nat), k.val < n → j < 5 → (row.getD k.val 0).getLsbD (4 - j) =
            (a.tr k).bits.getD (start k + 5 + 5 * g + j) false)) ∧
  (∀ (n : Nat) (stretches : List (List (List Code × List Code))) (tail : List (List Code)), 0 < n →
    stretches ≠ [] →
    (∀ ps ∈ stretches, ∀ p ∈ ps, groupClass p.1 = .data ∧ groupClass p.2 = .data) →
    runGroups (blockRows n stretches ++ sameGroup n 0b11111 :: tail) =
      { pairs := stretches.flatten, seq := 0, terminal := true }) ∧
  (∀ (row : List Code) (rest : List (List Code)) (r : GroupRun),
    let failed := { r with seq := r.seq + 1 }
    let inData := fun rows r => groupMachine rows none r
    (groupClass row = .mark2 → inData (row :: rest) r = groupMachine rest (some 0) r) ∧
    (groupClass row = .sync → inData (row :: rest) r = { r with terminal := true }) ∧
    (groupClass row = .mark1 → inData (row :: rest) r = inData rest failed) ∧
    (groupClass row = .data → inData [row] r = failed) ∧
    (groupClass row = .data → ∀ row2, groupClass row2 ≠ .data →
      inData (row :: row2 :: rest) r = inData (row2 :: rest) failed) ∧
    (groupClass row = .data → ∀ row2, groupClass row2 = .data →
      inData (row :: row2 :: rest) r = inData rest { r with pairs := r.pairs ++ [(row, row2)] }) ∧
    (∀ rs, groupClass row = .sync → groupMachine (row :: rest) (some rs) r =
      if rs + 1 = 14 then inData rest r else groupMachine rest (some (rs + 1)) r) ∧
    (∀ rs, groupClass row ≠ .sync → groupMachine (row :: rest) (some rs) r = inData (row :: rest) failed) ∧
    (∀ phase, groupMachine [] phase r = r)) ∧
  (∀ rows : List (List Code),
    let r := groupMachine rows none { pairs := [], seq := 0, terminal := false }
    runGroups rows = { r with seq := r.seq + boolNat (!r.terminal) }) ∧
  (∀ (n : Nat) (rows : List (List Code)) (table : Code → Option (BitVec 4)) (ecc : List Sym → Bool),
    let run := runGroups rows
    let bytes := run.pairs.map (pairBytes n table)
    let data := fun bs : List (List Sym) => (bs.map fun b => b.take 7).flatten
    let block := gcrDecodeRows n table ecc rows
    block.vparityErrs = (bytes.flatten.filter fun b => xorReduce b ≠ 1).length ∧
    block.eccErrs = (bytes.filter fun b => ecc b = false).length ∧
    block.badDgroups = (run.pairs.map (pairBadDgroups table)).sum ∧
    (run.terminal = false → block.seqErrs = run.seq ∧ block.syms = data bytes) ∧
    (run.terminal = true → run.pairs.length < 2 →
      block.seqErrs = run.seq + 1 ∧ block.syms = data bytes) ∧
    (run.terminal = true → ∀ body crc, bytes = body ++ [crc] → body ≠ [] →
      let residual := ((crc.getD 6 0).extractLsb' 6 3).toNat
      block.seqErrs = run.seq ∧ block.syms <+: data body ∧
        block.syms.length = (data body).length - residual))

/-- The bytes of a pair: bit `k` of byte `j` is a bit of track `k`'s data group, group A's most
significant bit in byte 0 and group B's in byte 4; an invalid code counts one bad dgroup and gives
zeros (rule R336). -/
def Obligations.PairBytes : Prop :=
  ∀ (n : Nat) (table : Code → Option (BitVec 4)) (A B : List Code), n ≤ 9 → A.length = n → B.length = n →
    (pairBytes n table (A, B)).length = 8 ∧
    pairBadDgroups table (A, B) =
      (A.filter fun x => table x = none).length + (B.filter fun x => table x = none).length ∧
    ∀ (k : Fin 9) (j : Nat), k.val < n → j < 4 →
      let nibble := fun (row : List Code) => (table (row.getD k.val 0)).getD 0
      symBit n ((pairBytes n table (A, B)).getD j 0) k = (nibble A).getLsbD (3 - j) ∧
      symBit n ((pairBytes n table (A, B)).getD (4 + j) 0) k = (nibble B).getLsbD (3 - j)

/-! ## Results -/

/-- The tapemark tests, mode by mode (rules R252, R291, R342, R377). -/
def Obligations.TapemarkTests : Prop :=
  ∀ (c : CfgFile) (l : Latched) (a : Attempt), l.scan = false →
    let tapemark := (finalize c l a).2.blktype = .tapemark
    let z := a.nrzi
    (l.mode = .pe → (tapemark ↔ ∀ k : Fin 9,
      if (c.get .peTmMask).getLsbD k.val then 75 < (a.tr k).peakcount ∧ (a.tr k).datacount ≤ 2
      else (a.tr k).peakcount ≤ 2)) ∧
    (l.mode = .gcr → (tapemark ↔ ∀ k : Fin 9,
      if (c.get .gcrTmMask).getLsbD k.val then 250 ≤ (a.tr k).peakcount ∧ (a.tr k).peakcount ≤ 400
      else (a.tr k).peakcount ≤ 2)) ∧
    (l.mode = .nrzi → l.ntrks = 9 → (tapemark ↔
      z.nsym = 1 ∧ (bufRead a.buf 0).sym = 0x026 ∧ z.crc = 0x000 ∧ z.lrc = 0x026)) ∧
    (l.mode = .nrzi → l.ntrks ≠ 9 → (tapemark ↔
      z.nsym = 1 ∧ (bufRead a.buf 0).sym = 0x01E ∧ z.lrc = 0x01E))

/-- The block type and the sums of a decoding attempt: NONE without a peak, NOISE with at most one
symbol, else BLOCK, unless a tapemark; the mismatch, the error and the warning sums; and the greatest gain
any track reached, where none of them is a NaN (rules R377, R379, R381, R382, R383). -/
def Obligations.BlockTypeAndSums : Prop :=
  ∀ (c : CfgFile) (l : Latched) (a : Attempt), l.scan = false → l.mode ≠ .unset →
    let r := (finalize c l a).2
    (r.blktype = .none → a.anyPeak = false) ∧
    (r.blktype = .noise → a.anyPeak = true ∧ r.nsymbols ≤ 1) ∧
    (r.blktype = .block → a.anyPeak = true ∧ 1 < r.nsymbols) ∧
    (r.blktype ≠ .tapemark →
      (r.trackMismatch = true ↔ r.minbits ≠ r.maxbits) ∧ r.mismatchSpan = r.maxbits - r.minbits) ∧
    r.errcount = r.vparityErrs + boolNat r.trackMismatch + boolNat r.crcBad + boolNat r.lrcBad +
      r.eccErrs + r.badDgroups + r.seqErrs ∧
    r.warncount = a.nrzi.missedMidbits + r.fakedBits ∧
    (r.blktype = .tapemark → r.vparityErrs = 0 ∧ r.trackMismatch = false ∧ r.mismatchSpan = 0 ∧
      r.crcBad = false ∧ r.lrcBad = false ∧ r.eccErrs = 0 ∧ r.badDgroups = 0 ∧ r.seqErrs = 0 ∧
      r.errcount = 0) ∧
    (1 ≤ l.ntrks → l.ntrks ≤ 9 → (∀ k : Fin 9, k.val < l.ntrks → fIsNaN (a.tr k).maxGain = false) →
      (∃ k : Fin 9, k.val < l.ntrks ∧ r.alltrkMaxAgcGain = (a.tr k).maxGain) ∧
      ∀ k : Fin 9, k.val < l.ntrks → fLe (a.tr k).maxGain r.alltrkMaxAgcGain = true)

/-- The results of a PE or GCR block: MINBITS and MAXBITS are the least and the greatest track count,
AVG_BIT_SPACING is the mean clock of the tracks that had a peak, nominal where none had. In PE every track's
postamble is stripped, tapemark or not, track 0 first, and of what is left NSYMBOLS is MINBITS, FAKED_BITS the sum of the tracks' counts and VPARITY_ERRS the number of
symbols whose parity is not the expected one, unless a tapemark. In GCR the block decode gives the
symbols of the data buffer and the error counts, and a tapemark leaves the attempt alone (rules R250, R330,
R331, R343, R375, R376, R378, R380, R381, R384, R387). The GCR table and ECC check are free (assumptions
5 and 6). -/
def Obligations.PeResults : Prop :=
  ∀ (c : CfgFile) (l : Latched) (a : Attempt), l.scan = false → l.mode = .pe ∨ l.mode = .gcr →
    1 ≤ l.ntrks → l.ntrks ≤ 9 →
    let a' := (finalize c l a).1
    let r := (finalize c l a).2
    let peaked := (tracks l.ntrks).filter fun k => 0 < (a'.tr k).peakcount
    (∀ k : Fin 9, k.val < l.ntrks →
      r.minbits ≤ (a'.tr k).datacount ∧ (a'.tr k).datacount ≤ r.maxbits) ∧
    (∃ k : Fin 9, k.val < l.ntrks ∧ (a'.tr k).datacount = r.minbits) ∧
    (∃ k : Fin 9, k.val < l.ntrks ∧ (a'.tr k).datacount = r.maxbits) ∧
    r.avgBitSpacing = (if peaked = [] then l.nominal
      else fDiv (fSum (peaked.map fun k => (a'.tr k).clk.value)) (fOfNat peaked.length)) ∧
    r.crc = 0 ∧ r.lrc = 0 ∧ r.crcBad = false ∧ r.lrcBad = false ∧
    (l.mode = .pe →
      a' = (tracks l.ntrks).foldl (fun x k => peStrip c l.ntrks k x) a ∧
      r.nsymbols = r.minbits ∧ r.fakedBits = ((tracks l.ntrks).map fun k => (a'.tr k).faked).sum ∧
      r.eccErrs = 0 ∧ r.badDgroups = 0 ∧ r.seqErrs = 0 ∧
      (r.blktype ≠ .tapemark →
        r.vparityErrs = ((List.range r.nsymbols).filter fun i =>
          xorReduce (bufRead a'.buf i).sym ≠ c.nat .expectedParity).length ∧
        (r.vparityErrs = 0 ↔ ∀ i, i < r.nsymbols →
          xorReduce (bufRead a'.buf i).sym = c.nat .expectedParity))) ∧
    (l.mode = .gcr →
      a' = { a with buf := a'.buf, gcrNsym := a'.gcrNsym } ∧ r.fakedBits = 0 ∧ r.nsymbols = a'.gcrNsym ∧
      (∀ code : Code, code = 0b00111 ∨ code = 0b11100 ∨ code = 0b11111 → gcrDgroupTable code = none) ∧
      (r.blktype = .tapemark → a' = a) ∧
      (r.blktype ≠ .tapemark →
        let block := gcrDecode l.ntrks gcrDgroupTable Config.gcrEccOk a
        r.nsymbols = block.syms.length ∧ r.vparityErrs = block.vparityErrs ∧
        r.eccErrs = block.eccErrs ∧ r.badDgroups = block.badDgroups ∧ r.seqErrs = block.seqErrs ∧
        (Memory.wf a.buf = true → (∀ k : Fin 9, (a.tr k).bits.length ≤ 65536) →
          ∀ i, bufRead a'.buf i = if i < r.nsymbols
            then { sym := block.syms.getD i 0, fmask := 0 } else bufRead a.buf i)))

/-- EOF in peak-scan mode: BLKTYPE NONE, ALLTRK_MAX_AGC_GAIN 1.0, every other final register 0, and
the attempt as it was (rules R171, R385). -/
def Obligations.ScanResults : Prop :=
  ∀ s : State, s.core = .run → s.lat.scan = true →
    exec .eof s = .next { s with
      core := .done
      eofSeen := true
      res := { Results.zero with alltrkMaxAgcGain := 0x3FF0000000000000 } }

/-! ## Arithmetic -/

/-- Sums, differences, products and quotients of finite values are the exact result rounded to nearest,
ties to even, and an infinity of its sign exactly where it lies half a unit or more past the largest finite
value; a zero has the sign IEEE 754 gives it. Infinities propagate, and a NaN results of a NaN and where no
value can. Comparisons are exact, between infinities and finite values too, and false with a NaN; the
minimum, the maximum, the absolute value and the whole part are exact. A list is summed in index order from
its first element, and a count below 2^53 and the constants are the reals they name (rules R13, R14;
values are in units of 2^-1074). -/
def Obligations.ArithmeticRoundsToNearest : Prop :=
  let infinity := fun negative : Bool => if negative then (0xFFF0000000000000 : F64) else 0x7FF0000000000000
  let zero := fun negative : Bool => if negative then (0x8000000000000000 : F64) else 0
  (∀ a b : F64, fFinite a = true → fFinite b = true →
    let differ := fSign a != fSign b
    Rounded fValue (fValue a + fValue b) fOverflow (decide (fValue a + fValue b < 0)) (fAdd a b) ∧
    Rounded fValue (fValue a - fValue b) fOverflow (decide (fValue a - fValue b < 0)) (fSub a b) ∧
    Rounded (fun x => fValue x * fUnits) (fValue a * fValue b) (fOverflow * fUnits) differ (fMul a b) ∧
    (fIsZero b = false → Rounded (fun x => fValue x * fValue b) (fValue a * fUnits)
      (fOverflow * (fValue b).natAbs) differ (fDiv a b)) ∧
    (fValue a + fValue b = 0 → fAdd a b = zero (fSign a && fSign b)) ∧
    (fValue a - fValue b = 0 → fSub a b = zero (fSign a && !fSign b)) ∧
    fSign (fMul a b) = differ ∧ (fIsZero b = false → fSign (fDiv a b) = differ)) ∧
  (∀ a b : F64,
    let differ := fSign a != fSign b
    (fIsNaN a = true ∨ fIsNaN b = true → fIsNaN (fAdd a b) = true ∧ fIsNaN (fSub a b) = true ∧
      fIsNaN (fMul a b) = true ∧ fIsNaN (fDiv a b) = true) ∧
    (fIsInf a = true → fFinite b = true → fAdd a b = a ∧ fAdd b a = a ∧ fSub a b = a ∧
      fSub b a = infinity (!fSign a) ∧ fDiv a b = infinity differ ∧ fDiv b a = zero differ) ∧
    (fIsInf a = true → fIsInf b = true →
      (differ = false → fAdd a b = a ∧ fIsNaN (fSub a b) = true) ∧
      (differ = true → fIsNaN (fAdd a b) = true ∧ fSub a b = a) ∧ fIsNaN (fDiv a b) = true) ∧
    (fIsInf a = true → fIsNaN b = false →
      (fIsZero b = false → fMul a b = infinity differ ∧ fMul b a = infinity differ) ∧
      (fIsZero b = true → fIsNaN (fMul a b) = true ∧ fIsNaN (fMul b a) = true)) ∧
    (fFinite a = true → fIsZero b = true →
      (fIsZero a = false → fDiv a b = infinity differ) ∧ (fIsZero a = true → fIsNaN (fDiv a b) = true))) ∧
  (∀ a b : F64,
    (fFinite a = true → fFinite b = true →
      (fLt a b = true ↔ fValue a < fValue b) ∧ (fLe a b = true ↔ fValue a ≤ fValue b) ∧
      (fEq a b = true ↔ fValue a = fValue b)) ∧
    (fIsNaN a = true ∨ fIsNaN b = true → fLt a b = false ∧ fLe a b = false ∧ fEq a b = false) ∧
    (fIsInf a = true → fFinite b = true →
      (fLt a b = fSign a ∧ fLe a b = fSign a ∧ fEq a b = false) ∧
      (fLt b a = !fSign a ∧ fLe b a = !fSign a ∧ fEq b a = false)) ∧
    (fIsInf a = true → fIsInf b = true →
      fLt a b = (fSign a && !fSign b) ∧ fLe a b = (fSign a || !fSign b) ∧
      fEq a b = (fSign a == fSign b)) ∧
    (fIsNaN a = false → fIsNaN b = false →
      (fMin a b = a ∨ fMin a b = b) ∧ fLe (fMin a b) a = true ∧ fLe (fMin a b) b = true ∧
      (fMax a b = a ∨ fMax a b = b) ∧ fLe a (fMax a b) = true ∧ fLe b (fMax a b) = true) ∧
    (fFinite a = true → fFinite (fAbs a) = true ∧ fValue (fAbs a) = (fValue a).natAbs) ∧
    (fFinite a = true → 0 ≤ fValue a →
      fFloorNat a * fUnits ≤ (fValue a).natAbs ∧ (fValue a).natAbs < (fFloorNat a + 1) * fUnits)) ∧
  (∀ (xs : List F64) (x : F64), xs ≠ [] →
    fSum [x] = x ∧ fSum (xs ++ [x]) = fAdd (fSum xs) x ∧
    ((∀ y ∈ xs, fIsNaN y = false) →
      (fMinList xs ∈ xs ∧ ∀ y ∈ xs, fLe (fMinList xs) y = true) ∧
      (fMaxList xs ∈ xs ∧ ∀ y ∈ xs, fLe y (fMaxList xs) = true))) ∧
  (∀ n : Nat, n < 2 ^ 53 → fFinite (fOfNat n) = true ∧ fValue (fOfNat n) = n * fUnits) ∧
  (fFinite f64One = true ∧ fValue f64One = fUnits) ∧ (fFinite fTwo = true ∧ fValue fTwo = 2 * fUnits) ∧
  (fFinite fHalf = true ∧ 2 * fValue fHalf = fUnits)
end

