-- ==== Sys2Proof/Laws/Ops.lean ====
section
/-! SUPPORT. Laws of the shared operations of Machine/Ops.lean: registers, data buffer, symbol bits,
tracks, loops that can raise, and the frame of a command. -/

namespace Sys2Proof.Machine

/-! ## Loops that can raise -/

@[simp] theorem andThen_ok_left {α β : Type} (a : α) (g : α → Except Raise β) :
    andThen (.ok a) g = g a := rfl

@[simp] theorem andThen_error_left {α β : Type} (r : Raise) (g : α → Except Raise β) :
    andThen (.error r) g = .error r := rfl

/-- A sequence answers only through both parts. -/
theorem andThen_eq_ok {α β : Type} {x : Except Raise α} {g : α → Except Raise β} {b : β} :
    andThen x g = .ok b ↔ ∃ a, x = .ok a ∧ g a = .ok b := by
  cases x with
  | error r => simp [andThen]
  | ok a => simp [andThen]

/-- A sequence raises what one of its parts raises. -/
theorem andThen_eq_error {α β : Type} {x : Except Raise α} {g : α → Except Raise β} {r : Raise} :
    andThen x g = .error r ↔ x = .error r ∨ ∃ a, x = .ok a ∧ g a = .error r := by
  cases x with
  | error r => simp [andThen]
  | ok a => simp [andThen]

/-- What every turn of a loop keeps, the loop keeps. -/
theorem forEach_inv {α σ : Type} {f : α → σ → Except Raise σ} {P : σ → Prop} {xs : List α} {s s' : σ}
    (hf : ∀ x ∈ xs, ∀ s s', P s → f x s = .ok s' → P s') (hs : P s)
    (h : forEach f xs s = .ok s') : P s' := by
  induction xs generalizing s with
  | nil => cases h; exact hs
  | cons x xs ih =>
    simp only [forEach] at h
    split at h
    · cases h
    · rename_i s1 h1
      exact ih (fun y hy => hf y (List.mem_cons_of_mem _ hy)) (hf x List.mem_cons_self _ _ hs h1) h

theorem repeatTimes_inv {σ : Type} {f : σ → Except Raise σ} {P : σ → Prop} {n : Nat} {s s' : σ}
    (hf : ∀ s s', P s → f s = .ok s' → P s') (hs : P s)
    (h : repeatTimes f n s = .ok s') : P s' := by
  induction n generalizing s with
  | zero => cases h; exact hs
  | succ n ih =>
    simp only [repeatTimes] at h
    split at h
    · cases h
    · rename_i s1 h1
      exact ih (hf _ _ hs h1) h

/-- A loop whose turns all answer, answers. -/
theorem forEach_answers {α σ : Type} {f : α → σ → Except Raise σ} {P : List α → σ → Prop}
    {xs : List α} {s : σ}
    (hf : ∀ x xs s, P (x :: xs) s → ∃ s', f x s = .ok s' ∧ P xs s') (hs : P xs s) :
    ∃ s', forEach f xs s = .ok s' ∧ P [] s' := by
  induction xs generalizing s with
  | nil => exact ⟨s, rfl, hs⟩
  | cons x xs ih =>
    obtain ⟨s1, h1, hp⟩ := hf x xs s hs
    obtain ⟨s2, h2, hp2⟩ := ih hp
    exact ⟨s2, by simp [forEach, h1, h2], hp2⟩

theorem repeatTimes_answers {σ : Type} {f : σ → Except Raise σ} {P : Nat → σ → Prop} {n : Nat} {s : σ}
    (hf : ∀ n s, P (n + 1) s → ∃ s', f s = .ok s' ∧ P n s') (hs : P n s) :
    ∃ s', repeatTimes f n s = .ok s' ∧ P 0 s' := by
  induction n generalizing s with
  | zero => exact ⟨s, rfl, hs⟩
  | succ n ih =>
    obtain ⟨s1, h1, hp⟩ := hf n s hs
    obtain ⟨s2, h2, hp2⟩ := ih hp
    exact ⟨s2, by simp [repeatTimes, h1, h2], hp2⟩

/-! ## Configuration registers -/

theorem cfgIndex_injective {r r' : CfgReg} (h : cfgIndex r = cfgIndex r') : r = r' := by
  have hv : (cfgIndex r).val = (cfgIndex r').val := congrArg Fin.val h
  cases r <;> cases r' <;> first
    | rfl
    | exact congrArg CfgReg.deskew (Fin.ext (by simpa [cfgIndex] using hv))
    | (simp [cfgIndex] at hv; done)
    | (simp [cfgIndex] at hv; omega)

@[simp] theorem CfgFile.get_set_same (c : CfgFile) (r : CfgReg) (v : Word) : (c.set r v).get r = v := by
  simp [CfgFile.get, CfgFile.set, Vector.get_eq_getElem]

theorem CfgFile.get_set_other (c : CfgFile) {r r' : CfgReg} (v : Word) (h : r' ≠ r) :
    (c.set r v).get r' = c.get r' := by
  have hi : (cfgIndex r).val ≠ (cfgIndex r').val := fun e => h (cfgIndex_injective (Fin.ext e)).symm
  simp [CfgFile.get, CfgFile.set, Vector.get_eq_getElem, Vector.getElem_set_ne, hi]

@[simp] theorem CfgFile.get_reset (r : CfgReg) : CfgFile.reset.get r = 0 := by
  simp [CfgFile.get, CfgFile.reset, Vector.get_eq_getElem]

/-! ## Tracks -/

theorem Attempt.tr_setTr (a : Attempt) (k j : Fin 9) (t : Track) :
    (a.setTr k t).tr j = if j = k then t else a.tr j := by
  by_cases h : j = k
  · subst h; simp [Attempt.tr, Attempt.setTr, Vector.get_eq_getElem]
  · have : k.val ≠ j.val := fun e => h (Fin.ext e).symm
    simp [Attempt.tr, Attempt.setTr, Vector.get_eq_getElem, Vector.getElem_set_ne, this, h]

@[simp] theorem Attempt.tr_setTr_same (a : Attempt) (k : Fin 9) (t : Track) :
    (a.setTr k t).tr k = t := by simp [Attempt.tr_setTr]

theorem Attempt.tr_setTr_other (a : Attempt) {k j : Fin 9} (t : Track) (h : j ≠ k) :
    (a.setTr k t).tr j = a.tr j := by simp [Attempt.tr_setTr, h]

@[simp] theorem Attempt.setTr_setTr (a : Attempt) (k : Fin 9) (t u : Track) :
    (a.setTr k t).setTr k u = a.setTr k u := by
  simp [Attempt.setTr]

@[simp] theorem Attempt.setTr_nrzi (a : Attempt) (k : Fin 9) (t : Track) : (a.setTr k t).nrzi = a.nrzi := rfl
@[simp] theorem Attempt.setTr_buf (a : Attempt) (k : Fin 9) (t : Track) : (a.setTr k t).buf = a.buf := rfl
@[simp] theorem Attempt.setTr_tPrev (a : Attempt) (k : Fin 9) (t : Track) : (a.setTr k t).tPrev = a.tPrev := rfl
@[simp] theorem Attempt.setTr_nsamples (a : Attempt) (k : Fin 9) (t : Track) : (a.setTr k t).nsamples = a.nsamples := rfl
@[simp] theorem Attempt.setTr_anyPeak (a : Attempt) (k : Fin 9) (t : Track) : (a.setTr k t).anyPeak = a.anyPeak := rfl
@[simp] theorem Attempt.setTr_gcrNsym (a : Attempt) (k : Fin 9) (t : Track) : (a.setTr k t).gcrNsym = a.gcrNsym := rfl

theorem Attempt.setTr_tr (a : Attempt) (k : Fin 9) : a.setTr k (a.tr k) = a := by
  simp [Attempt.setTr, Attempt.tr, Vector.get_eq_getElem]

theorem Attempt.tr_modTr (a : Attempt) (k j : Fin 9) (f : Track → Track) :
    (a.modTr k f).tr j = if j = k then f (a.tr k) else a.tr j := by
  simp [Attempt.modTr, Attempt.tr_setTr]

@[simp] theorem Attempt.tr_modTr_same (a : Attempt) (k : Fin 9) (f : Track → Track) :
    (a.modTr k f).tr k = f (a.tr k) := by simp [Attempt.tr_modTr]

@[simp] theorem Attempt.modTr_nrzi (a : Attempt) (k : Fin 9) (f : Track → Track) : (a.modTr k f).nrzi = a.nrzi := rfl
@[simp] theorem Attempt.modTr_buf (a : Attempt) (k : Fin 9) (f : Track → Track) : (a.modTr k f).buf = a.buf := rfl
@[simp] theorem Attempt.modTr_tPrev (a : Attempt) (k : Fin 9) (f : Track → Track) : (a.modTr k f).tPrev = a.tPrev := rfl
@[simp] theorem Attempt.modTr_nsamples (a : Attempt) (k : Fin 9) (f : Track → Track) : (a.modTr k f).nsamples = a.nsamples := rfl
@[simp] theorem Attempt.modTr_anyPeak (a : Attempt) (k : Fin 9) (f : Track → Track) : (a.modTr k f).anyPeak = a.anyPeak := rfl
@[simp] theorem Attempt.modTr_gcrNsym (a : Attempt) (k : Fin 9) (f : Track → Track) : (a.modTr k f).gcrNsym = a.gcrNsym := rfl

@[simp] theorem Attempt.tr_init (h : F64) (clk : Clock) (k : Fin 9) :
    (Attempt.init h clk).tr k = Track.init h clk := by
  simp [Attempt.tr, Attempt.init, Vector.get_eq_getElem]

/-- A lane is one of the first `n` exactly when its number is below `n`. -/
theorem mem_tracks {n : Nat} {k : Fin 9} : k ∈ tracks n ↔ k.val < n := by
  have : k ∈ allTracks := by revert k; decide
  simp [tracks, this]

theorem tracks_nodup (n : Nat) : (tracks n).Nodup := by
  have : allTracks.Nodup := by decide
  exact this.filter _

theorem tracks_length_le (n : Nat) : (tracks n).length ≤ 9 := by
  have := List.length_filter_le (fun k : Fin 9 => decide (k.val < n)) allTracks
  simpa [tracks, allTracks] using this

/-- What a change of each track does to a track, and that it does nothing else. -/
theorem foldl_modTr (f : Track → Track) (ks : List (Fin 9)) (hk : ks.Nodup) (a : Attempt) :
    (∀ j, (ks.foldl (fun a k => a.modTr k f) a).tr j = if j ∈ ks then f (a.tr j) else a.tr j) ∧
    (ks.foldl (fun a k => a.modTr k f) a).nrzi = a.nrzi ∧
    (ks.foldl (fun a k => a.modTr k f) a).buf = a.buf ∧
    (ks.foldl (fun a k => a.modTr k f) a).tPrev = a.tPrev ∧
    (ks.foldl (fun a k => a.modTr k f) a).nsamples = a.nsamples ∧
    (ks.foldl (fun a k => a.modTr k f) a).anyPeak = a.anyPeak ∧
    (ks.foldl (fun a k => a.modTr k f) a).gcrNsym = a.gcrNsym := by
  induction ks generalizing a with
  | nil => simp
  | cons k ks ih =>
    obtain ⟨hnot, hks⟩ := List.nodup_cons.mp hk
    obtain ⟨h1, h2⟩ := ih hks (a.modTr k f)
    refine ⟨fun j => ?_, by simpa using h2⟩
    rw [List.foldl_cons, h1, Attempt.tr_modTr]
    by_cases hj : j = k
    · subst hj; simp [hnot]
    · simp [hj]

theorem eachTrack_tr (n : Nat) (f : Track → Track) (a : Attempt) (j : Fin 9) :
    (eachTrack n f a).tr j = if j.val < n then f (a.tr j) else a.tr j := by
  rw [eachTrack, (foldl_modTr f (tracks n) (tracks_nodup n) a).1]
  simp [mem_tracks]

@[simp] theorem eachTrack_nrzi (n : Nat) (f : Track → Track) (a : Attempt) : (eachTrack n f a).nrzi = a.nrzi :=
  (foldl_modTr f _ (tracks_nodup n) a).2.1
@[simp] theorem eachTrack_buf (n : Nat) (f : Track → Track) (a : Attempt) : (eachTrack n f a).buf = a.buf :=
  (foldl_modTr f _ (tracks_nodup n) a).2.2.1
@[simp] theorem eachTrack_tPrev (n : Nat) (f : Track → Track) (a : Attempt) : (eachTrack n f a).tPrev = a.tPrev :=
  (foldl_modTr f _ (tracks_nodup n) a).2.2.2.1
@[simp] theorem eachTrack_nsamples (n : Nat) (f : Track → Track) (a : Attempt) : (eachTrack n f a).nsamples = a.nsamples :=
  (foldl_modTr f _ (tracks_nodup n) a).2.2.2.2.1
@[simp] theorem eachTrack_anyPeak (n : Nat) (f : Track → Track) (a : Attempt) : (eachTrack n f a).anyPeak = a.anyPeak :=
  (foldl_modTr f _ (tracks_nodup n) a).2.2.2.2.2.1
@[simp] theorem eachTrack_gcrNsym (n : Nat) (f : Track → Track) (a : Attempt) : (eachTrack n f a).gcrNsym = a.gcrNsym :=
  (foldl_modTr f _ (tracks_nodup n) a).2.2.2.2.2.2

/-! ## Symbol bits -/

theorem trackMask_getLsbD (n : Nat) (k : Fin 9) (i : Nat) :
    (trackMask n k).getLsbD i = decide (i = n - 1 - k.val ∧ i < 9) := by
  have hone : ∀ j, (1#9).getLsbD j = decide (j = 0) := by
    intro j; cases j <;> simp [BitVec.getLsbD_one]
  rw [trackMask, BitVec.getLsbD_shiftLeft, hone]
  by_cases h1 : i < 9 <;> by_cases h2 : i < n - 1 - k.val <;> simp [h1, h2] <;> omega

/-- Two lanes of an `n`-track symbol have different bits. -/
theorem trackPos_ne {n : Nat} {k j : Fin 9} (hk : k.val < n) (hj : j.val < n) (h : j ≠ k) :
    n - 1 - j.val ≠ n - 1 - k.val := by
  have : j.val ≠ k.val := fun e => h (Fin.ext e)
  omega

theorem symBit_putBit_same {n : Nat} {k : Fin 9} (hn : n ≤ 9) (sym : Sym) (b : Bool) :
    symBit n (putBit n sym k b) k = b := by
  have : n - 1 - k.val < 9 := by omega
  cases b <;> simp [symBit, putBit, setBit, clrBit, trackMask_getLsbD, this]

theorem getLsbD_putBit_other {n : Nat} {k : Fin 9} (sym : Sym) (b : Bool) {i : Nat}
    (h : i ≠ n - 1 - k.val) : (putBit n sym k b).getLsbD i = sym.getLsbD i := by
  have hm : (trackMask n k).getLsbD i = false := by simp [trackMask_getLsbD, h]
  by_cases hi : i < 9
  · cases b
    · rw [putBit, if_neg (by simp), clrBit, BitVec.getLsbD_and, BitVec.getLsbD_not, hm]; simp [hi]
    · rw [putBit, if_pos rfl, setBit, BitVec.getLsbD_or, hm, Bool.or_false]
  · rw [BitVec.getLsbD_of_ge _ _ (by omega), BitVec.getLsbD_of_ge _ _ (by omega)]

theorem symBit_putBit_other {n : Nat} {k j : Fin 9} (hk : k.val < n) (hj : j.val < n) (h : j ≠ k)
    (sym : Sym) (b : Bool) : symBit n (putBit n sym k b) j = symBit n sym j :=
  getLsbD_putBit_other sym b (trackPos_ne hk hj h)

theorem setBit_eq_putBit (n : Nat) (sym : Sym) (k : Fin 9) : setBit n sym k = putBit n sym k true := rfl
theorem clrBit_eq_putBit (n : Nat) (sym : Sym) (k : Fin 9) : clrBit n sym k = putBit n sym k false := rfl

/-! ## The data buffer -/

theorem bufWfFrom_mono {lo lo' : Nat} {b : Buf} (h : lo' ≤ lo) (hb : bufWfFrom lo b = true) :
    bufWfFrom lo' b = true := by
  cases b with
  | nil => rfl
  | cons x rest =>
    simp only [bufWfFrom, Bool.and_eq_true, decide_eq_true_eq] at hb ⊢
    exact ⟨⟨⟨by omega, hb.1.1.2⟩, hb.1.2⟩, hb.2⟩

/-- Nothing is listed below the least index. -/
theorem bufRead_below {lo : Nat} {b : Buf} (hb : bufWfFrom lo b = true) {i : Nat} (h : i < lo) :
    bufRead b i = Entry.zero := by
  induction b generalizing lo with
  | nil => rfl
  | cons x rest ih =>
    simp only [bufWfFrom, Bool.and_eq_true, decide_eq_true_eq] at hb
    rw [bufRead, if_neg (by omega)]
    exact ih hb.2 (by omega)

theorem bufRead_bufCons {i j : Nat} {e : Entry} {rest : Buf} (hr : bufRead rest i = Entry.zero) :
    bufRead (bufCons i e rest) j = if j = i then e else bufRead rest j := by
  unfold bufCons
  by_cases he : e = Entry.zero
  · rw [if_pos he]
    by_cases hj : j = i
    · subst hj; rw [if_pos rfl, hr, he]
    · rw [if_neg hj]
  · rw [if_neg he, bufRead]

/-- A read after a write (rule R71). -/
theorem bufRead_bufWriteFrom {lo : Nat} {b : Buf} (hb : bufWfFrom lo b = true) (i j : Nat) (e : Entry) :
    bufRead (bufWrite b i e) j = if j = i then e else bufRead b j := by
  induction b generalizing lo with
  | nil => exact bufRead_bufCons rfl
  | cons x rest ih =>
    obtain ⟨k, d⟩ := x
    have hb' := hb
    simp only [bufWfFrom, Bool.and_eq_true, decide_eq_true_eq] at hb
    rw [bufWrite]
    by_cases h1 : i < k
    · rw [if_pos h1]
      refine bufRead_bufCons ?_
      rw [bufRead, if_neg (by omega)]
      exact bufRead_below hb.2 (by omega)
    · rw [if_neg h1]
      by_cases h2 : i = k
      · subst h2
        rw [if_pos rfl, bufRead_bufCons (bufRead_below hb.2 (by omega))]
        by_cases hj : j = i <;> simp [hj, bufRead]
      · rw [if_neg h2, bufRead, ih hb.2]
        by_cases hj : j = k
        · subst hj; simp [bufRead, Ne.symm h2]
        · simp [bufRead, hj]

theorem bufRead_bufWrite {b : Buf} (hb : Memory.wf b = true) (i j : Nat) (e : Entry) :
    bufRead (bufWrite b i e) j = if j = i then e else bufRead b j :=
  bufRead_bufWriteFrom hb i j e

theorem bufCons_wf {lo i : Nat} {e : Entry} {rest : Buf} (hlo : lo ≤ i) (hi : i < Config.databuf)
    (hr : bufWfFrom (i + 1) rest = true) : bufWfFrom lo (bufCons i e rest) = true := by
  unfold bufCons
  by_cases he : e = Entry.zero
  · rw [if_pos he]; exact bufWfFrom_mono (by omega) hr
  · rw [if_neg he]; simp [bufWfFrom, hlo, hi, he, hr]

theorem bufWrite_wfFrom {lo : Nat} {b : Buf} (hb : bufWfFrom lo b = true) {i : Nat} (hlo : lo ≤ i)
    (hi : i < Config.databuf) (e : Entry) : bufWfFrom lo (bufWrite b i e) = true := by
  induction b generalizing lo with
  | nil => exact bufCons_wf hlo hi rfl
  | cons x rest ih =>
    obtain ⟨k, d⟩ := x
    have hb' := hb
    simp only [bufWfFrom, Bool.and_eq_true, decide_eq_true_eq] at hb
    rw [bufWrite]
    by_cases h1 : i < k
    · rw [if_pos h1]
      refine bufCons_wf hlo hi ?_
      simp only [bufWfFrom, Bool.and_eq_true, decide_eq_true_eq]
      exact ⟨⟨⟨by omega, hb.1.1.2⟩, hb.1.2⟩, hb.2⟩
    · rw [if_neg h1]
      by_cases h2 : i = k
      · subst h2; rw [if_pos rfl]; exact bufCons_wf hlo hi hb.2
      · rw [if_neg h2]
        simp only [bufWfFrom, Bool.and_eq_true, decide_eq_true_eq]
        exact ⟨hb.1, ih hb.2 (by omega)⟩

/-- A write keeps the canonical form. -/
theorem bufWrite_wf {b : Buf} (hb : Memory.wf b = true) {i : Nat} (hi : i < Config.databuf) (e : Entry) :
    Memory.wf (bufWrite b i e) = true :=
  bufWrite_wfFrom hb (Nat.zero_le _) hi e

/-- Equal reads are equal buffers: the canonical form is one. -/
theorem bufWfFrom_ext {lo : Nat} {b b' : Buf} (hb : bufWfFrom lo b = true) (hb' : bufWfFrom lo b' = true)
    (h : ∀ i, bufRead b i = bufRead b' i) : b = b' := by
  induction b generalizing lo b' with
  | nil =>
    cases b' with
    | nil => rfl
    | cons x rest =>
      obtain ⟨k, d⟩ := x
      simp only [bufWfFrom, Bool.and_eq_true, decide_eq_true_eq] at hb'
      have := h k
      simp [bufRead] at this
      exact absurd this.symm hb'.1.2
  | cons x rest ih =>
    obtain ⟨k, d⟩ := x
    simp only [bufWfFrom, Bool.and_eq_true, decide_eq_true_eq] at hb
    cases b' with
    | nil =>
      have := h k
      simp [bufRead] at this
      exact absurd this hb.1.2
    | cons y rest' =>
      obtain ⟨k', d'⟩ := y
      simp only [bufWfFrom, Bool.and_eq_true, decide_eq_true_eq] at hb'
      have hk : k = k' := by
        rcases Nat.lt_trichotomy k k' with hlt | heq | hgt
        · have := h k
          rw [bufRead, if_pos rfl, bufRead, if_neg (by omega), bufRead_below hb'.2 (by omega)] at this
          exact absurd this hb.1.2
        · exact heq
        · have := h k'
          rw [bufRead, if_neg (by omega), bufRead_below hb.2 (by omega), bufRead, if_pos rfl] at this
          exact absurd this.symm hb'.1.2
      subst hk
      have hd : d = d' := by simpa [bufRead] using h k
      subst hd
      have : rest = rest' := by
        refine ih hb.2 hb'.2 fun i => ?_
        by_cases hi : i = k
        · subst hi; rw [bufRead_below hb.2 (by omega), bufRead_below hb'.2 (by omega)]
        · simpa [bufRead, hi] using h i
      rw [this]

/-! ## The frame of a command -/

/-- Everything a command that FAULT ignores can do. -/
theorem runCommand_cases (op : BitVec 8) (s : State) (body : Except Raise (State × List Word)) :
    (s.core = .fault ∧ runCommand op s body = ignoreCommand op s) ∨
    (s.core ≠ .fault ∧ allowed op s.core = false ∧
      runCommand op s body = raiseCommand op s ⟨.wrongState, op.setWidth 16⟩) ∨
    (s.core ≠ .fault ∧ allowed op s.core = true ∧ ∃ r, body = .error r ∧
      runCommand op s body = raiseCommand op s r) ∨
    (s.core ≠ .fault ∧ allowed op s.core = true ∧ ∃ x, body = .ok x ∧
      runCommand op s body = respond x.1 x.2) := by
  unfold runCommand
  by_cases hf : s.core = .fault
  · exact .inl ⟨hf, by rw [if_pos hf]⟩
  · right
    rw [if_neg hf]
    cases ha : allowed op s.core
    · exact .inl ⟨hf, rfl, by simp⟩
    · right
      cases body with
      | error r => exact .inl ⟨hf, rfl, r, rfl, by simp⟩
      | ok x => exact .inr ⟨hf, rfl, x, rfl, by simp⟩

end Sys2Proof.Machine
end

