-- ==== Sys2Proof/Laws/Real.lean ====
section
/-! SUPPORT. Laws of the binary64 arithmetic of Machine/Real.lean: what a rounded result can be, and
when an operation on finite values gives no NaN. -/

namespace Sys2Proof.Machine

/-! ## The parts of a value put together from sign and magnitude -/

theorem fWithSign_toNat (s : Bool) {m : Nat} (h : m < 2 ^ 63) :
    (fWithSign s m).toNat = if s then m + 2 ^ 63 else m := by
  cases s <;> simp [fWithSign] <;> omega

theorem fMag_fWithSign (s : Bool) {m : Nat} (h : m < 2 ^ 63) : fMag (fWithSign s m) = m := by
  rw [fMag, fWithSign_toNat s h]
  cases s <;> simp <;> omega

theorem fSign_eq (x : F64) : fSign x = decide (2 ^ 63 ≤ x.toNat) := by
  have hx : x.toNat < 2 ^ 64 := x.isLt
  rw [fSign, BitVec.getLsbD, Nat.testBit_eq_decide_div_mod_eq]
  congr 1
  apply propext
  omega

theorem fSign_fWithSign (s : Bool) {m : Nat} (h : m < 2 ^ 63) : fSign (fWithSign s m) = s := by
  rw [fSign_eq, fWithSign_toNat s h]
  cases s
  · simpa using h
  · simp

theorem fExp_eq_mag (x : F64) : fExp x = fMag x / 2 ^ 52 := by
  rw [fExp, fMag]; omega

theorem fFrac_eq_mag (x : F64) : fFrac x = fMag x % 2 ^ 52 := by
  rw [fFrac, fMag]; omega

theorem fMag_lt (x : F64) : fMag x < 2 ^ 63 := Nat.mod_lt _ (by decide)

theorem fIsNaN_iff (x : F64) : fIsNaN x = true ↔ infMag < fMag x := by
  have := fMag_lt x
  simp only [fIsNaN, fExp_eq_mag, fFrac_eq_mag, infMag, Bool.and_eq_true, beq_iff_eq, bne_iff_ne]
  omega

theorem fIsInf_iff (x : F64) : fIsInf x = true ↔ fMag x = infMag := by
  have := fMag_lt x
  simp only [fIsInf, fExp_eq_mag, fFrac_eq_mag, infMag, Bool.and_eq_true, beq_iff_eq]
  omega

theorem fFinite_iff (x : F64) : fFinite x = true ↔ fMag x < infMag := by
  have := fMag_lt x
  simp only [fFinite, fExp_eq_mag, infMag, bne_iff_ne]
  omega

theorem fIsNaN_of_finite {x : F64} (h : fFinite x = true) : fIsNaN x = false := by
  rw [fFinite_iff] at h
  rw [← Bool.not_eq_true, fIsNaN_iff]; omega

theorem fIsInf_of_finite {x : F64} (h : fFinite x = true) : fIsInf x = false := by
  rw [fFinite_iff] at h
  rw [← Bool.not_eq_true, fIsInf_iff]; omega

/-- A value is finite, an infinity or a NaN. -/
theorem finite_of_not {x : F64} (hn : fIsNaN x = false) (hi : fIsInf x = false) : fFinite x = true := by
  rw [← Bool.not_eq_true, fIsNaN_iff] at hn
  rw [← Bool.not_eq_true, fIsInf_iff] at hi
  rw [fFinite_iff]; omega

/-! ## Rounded results -/

theorem roundMag_le (m e base : Nat) : roundMag m e base ≤ infMag := by
  unfold roundMag
  exact Nat.min_le_left _ _

theorem infMag_lt : infMag < 2 ^ 63 := by decide

theorem fMag_fRound_le (s : Bool) (m e base : Nat) : fMag (fRound s m e base) ≤ infMag := by
  rw [fRound]
  split
  · rw [fZero, fMag_fWithSign s (by decide)]; exact Nat.zero_le _
  · have := roundMag_le m e base
    rw [fMag_fWithSign s (Nat.lt_of_le_of_lt this infMag_lt)]; exact this

/-- A rounded result is no NaN. -/
theorem fRound_not_nan (s : Bool) (m e base : Nat) : fIsNaN (fRound s m e base) = false := by
  have := fMag_fRound_le s m e base
  rw [← Bool.not_eq_true, fIsNaN_iff]; omega

theorem fSign_fRound (s : Bool) (m e base : Nat) : fSign (fRound s m e base) = s := by
  rw [fRound]
  split
  · exact fSign_fWithSign s (by decide)
  · exact fSign_fWithSign s (Nat.lt_of_le_of_lt (roundMag_le m e base) infMag_lt)

theorem fInf_not_nan (s : Bool) : fIsNaN (fInf s) = false := by
  rw [← Bool.not_eq_true, fIsNaN_iff, fInf, fMag_fWithSign s infMag_lt]; omega

theorem fZero_not_nan (s : Bool) : fIsNaN (fZero s) = false := by
  rw [← Bool.not_eq_true, fIsNaN_iff, fZero, fMag_fWithSign s (by decide)]; decide

theorem fSign_fInf (s : Bool) : fSign (fInf s) = s := fSign_fWithSign s infMag_lt
theorem fSign_fZero (s : Bool) : fSign (fZero s) = s := fSign_fWithSign s (by decide)

/-! ## Products and quotients of finite values -/

theorem fMul_finite {a b : F64} (ha : fFinite a = true) (hb : fFinite b = true) :
    fMul a b = fRound (fSign a != fSign b) (fMant a * fMant b) (fScale a + fScale b) 2148 := by
  simp [fMul, fIsNaN_of_finite ha, fIsNaN_of_finite hb, fIsInf_of_finite ha, fIsInf_of_finite hb]

/-- A product of finite values is no NaN, and its sign is the exclusive OR of theirs. -/
theorem fMul_not_nan {a b : F64} (ha : fFinite a = true) (hb : fFinite b = true) :
    fIsNaN (fMul a b) = false := by rw [fMul_finite ha hb]; exact fRound_not_nan _ _ _ _

theorem fSign_fMul {a b : F64} (ha : fFinite a = true) (hb : fFinite b = true) :
    fSign (fMul a b) = (fSign a != fSign b) := by rw [fMul_finite ha hb]; exact fSign_fRound _ _ _ _

/-- A finite value other than 0 divided by anything but a NaN is no NaN. -/
theorem fDiv_not_nan {a b : F64} (ha : fFinite a = true) (hz : fIsZero a = false)
    (hb : fIsNaN b = false) : fIsNaN (fDiv a b) = false := by
  rw [fDiv]
  simp only [fIsNaN_of_finite ha, hb, fIsInf_of_finite ha, hz, Bool.or_self, Bool.false_eq_true, if_false]
  split
  · exact fZero_not_nan _
  · split
    · exact fInf_not_nan _
    · exact fRound_not_nan _ _ _ _

theorem fSign_fDiv {a b : F64} (ha : fFinite a = true) (hz : fIsZero a = false)
    (hb : fIsNaN b = false) : fSign (fDiv a b) = (fSign a != fSign b) := by
  rw [fDiv]
  simp only [fIsNaN_of_finite ha, hb, fIsInf_of_finite ha, hz, Bool.or_self, Bool.false_eq_true, if_false]
  split
  · exact fSign_fZero _
  · split
    · exact fSign_fInf _
    · exact fSign_fRound _ _ _ _

/-! ## Order -/

theorem fLt_iff {a b : F64} : fLt a b = true ↔ fIsNaN a = false ∧ fIsNaN b = false ∧ fOrd a < fOrd b := by
  simp [fLt, and_assoc]

theorem fLe_iff {a b : F64} : fLe a b = true ↔ fIsNaN a = false ∧ fIsNaN b = false ∧ fOrd a ≤ fOrd b := by
  simp [fLe, and_assoc]

theorem fEq_iff {a b : F64} : fEq a b = true ↔ fIsNaN a = false ∧ fIsNaN b = false ∧ fOrd a = fOrd b := by
  simp [fEq, and_assoc]

/-- A value is > 0 exactly when it is no NaN, positive and not zero. -/
theorem fLt_zero_iff {x : F64} :
    fLt 0 x = true ↔ fIsNaN x = false ∧ fSign x = false ∧ fMag x ≠ 0 := by
  have h0 : fOrd 0 = 2 ^ 63 := by decide
  have hn : fIsNaN 0 = false := by decide
  have hm := fMag_lt x
  rw [fLt_iff, h0, fOrd, hn]
  cases fSign x <;> simp only [Bool.false_eq_true, if_true, if_false] <;> constructor <;> intro h
  · exact ⟨h.2.1, trivial, by omega⟩
  · exact ⟨trivial, h.1, by omega⟩
  · omega
  · exact absurd h.2.1 (by decide)

/-! ## The whole part -/

/-- The whole part of a value below 20 is below 20. -/
theorem fFloorNat_lt_20 {x : F64} (h : fMag x < fMag (fOfNat 20)) : fFloorNat x < 20 := by
  have h20 : fMag (fOfNat 20) = 0x4034000000000000 := by decide
  rw [h20] at h
  have hf : fMant x < 2 ^ 53 := by
    have : fFrac x < 2 ^ 52 := Nat.mod_lt _ (by decide)
    rw [fMant]; split <;> omega
  have he := fExp_eq_mag x
  have hr := fFrac_eq_mag x
  by_cases h1 : fExp x = 1027
  · have hm : fMant x < 2 ^ 50 * 5 := by
      rw [fMant, if_neg (by omega)]; omega
    have hs : fScale x = 1026 := by rw [fScale, h1]
    rw [fFloorNat, hs, if_neg (by decide), Nat.shiftRight_eq_div_pow]
    exact Nat.div_lt_of_lt_mul (by omega)
  · have hs : fScale x ≤ 1025 := by rw [fScale]; omega
    have hk : 2 ^ 49 ≤ 2 ^ (1074 - fScale x) := Nat.pow_le_pow_right (by decide) (by omega)
    rw [fFloorNat, if_neg (by omega), Nat.shiftRight_eq_div_pow]
    calc fMant x / 2 ^ (1074 - fScale x) ≤ fMant x / 2 ^ 49 := Nat.div_le_div_left hk (by decide)
      _ < 20 := Nat.div_lt_of_lt_mul (by omega)

end Sys2Proof.Machine
end

