-- ==== Sys2Proof/Laws/BlkStart.lean ====
section
/-! SUPPORT. What a configuration that passes BLK_START's checks gives: the mode and track count, the
window, the strategies and the bounds of the registers the decoders read (rules R36, R129, R162). -/

namespace Sys2Proof.Machine

/-! ## The list of checks -/

theorem firstFailing_eq_none {cs : List (BitVec 16 × Bool)} :
    firstFailing cs = none ↔ ∀ p ∈ cs, p.2 = true := by
  induction cs with
  | nil => simp [firstFailing]
  | cons p cs ih =>
    obtain ⟨a, ok⟩ := p
    cases ok <;> simp [firstFailing, ih]

theorem cfgChecks_length (c : CfgFile) : (cfgChecks c).length = 40 := rfl

/-- A legal configuration passes every check. -/
theorem cfgCheck_ok {c : CfgFile} (h : cfgInvalid c = none) (i : Fin 40) :
    ((cfgChecks c).get (i.cast (cfgChecks_length c).symm)).2 = true :=
  firstFailing_eq_none.mp h _ (List.get_mem _ _)

/-- The first check that fails is reported. -/
theorem firstFailing_append {pre : List (BitVec 16 × Bool)} (h : ∀ x ∈ pre, x.2 = true) (a : BitVec 16)
    (post : List (BitVec 16 × Bool)) : firstFailing (pre ++ (a, false) :: post) = some a := by
  induction pre with
  | nil => rfl
  | cons x pre ih =>
    have hx : x.2 = true := h x (List.mem_cons_self ..)
    simp only [List.cons_append, firstFailing, hx, if_true]
    exact ih fun y hy => h y (List.mem_cons_of_mem _ hy)

/-- The MODE register selects each decoder by its number, and none outside 1 to 3 (rule R25). -/
theorem modeOf_iff (c : CfgFile) :
    (modeOf (c.get .mode) ≠ .unset ↔ 1 ≤ c.nat .mode ∧ c.nat .mode ≤ 3) ∧
    (modeOf (c.get .mode) = .pe ↔ c.nat .mode = 1) ∧ (modeOf (c.get .mode) = .nrzi ↔ c.nat .mode = 2) ∧
    (modeOf (c.get .mode) = .gcr ↔ c.nat .mode = 3) := by
  unfold modeOf CfgFile.nat
  generalize (c.get .mode).toNat = n
  split <;> simp
  rename_i h1 h2 h3
  refine ⟨?_, h1, h2, h3⟩
  simp only [imp_false] at h1 h2 h3
  omega

/-- With a legal MODE, the checks that run are the checks rule R129 lists, one by one. -/
theorem configRules_cfgChecks {c : CfgFile} (hm : 1 ≤ c.nat .mode ∧ c.nat .mode ≤ 3) :
    List.Forall₂ (fun (x : BitVec 16 × Prop) (y : BitVec 16 × Bool) => x.1 = y.1 ∧ (x.2 ↔ y.2 = true))
      (configRules c) (cfgChecks c) := by
  obtain ⟨h0, h1, h2, h3⟩ := modeOf_iff c
  unfold configRules cfgChecks
  simp only [allTracks, List.map_cons, List.map_nil, List.cons_append, List.nil_append,
    List.forall₂_cons, List.Forall₂.nil, and_true, cfgWhen, cfgPositive, cfgNonneg, cfgUnit, cfgMask,
    Bool.or_eq_true, Bool.and_eq_true, decide_eq_true_eq, bne_iff_ne, beq_iff_eq, h0, h2, cfgScan,
    cfgBitspace]
  have hnt : ((c.nat .ntrks = 7 ∧ c.nat .mode = 2) ∨ c.nat .ntrks = 9) ↔
      ((c.nat .ntrks = 7 ∨ c.nat .ntrks = 9) ∧
        (c.nat .mode = 1 ∨ c.nat .mode = 3 → c.nat .ntrks = 9)) := by omega
  have e1 : ((modeOf (c.get .mode) == .pe) = true) ↔ c.nat .mode = 1 := by rw [beq_iff_eq, h1]
  have e2 : ((modeOf (c.get .mode) == .nrzi) = true) ↔ c.nat .mode = 2 := by rw [beq_iff_eq, h2]
  have e3 : ((modeOf (c.get .mode) == .gcr) = true) ↔ c.nat .mode = 3 := by rw [beq_iff_eq, h3]
  rw [hnt]
  generalize (modeOf (c.get .mode) == .pe) = m1 at *
  generalize (modeOf (c.get .mode) == .nrzi) = m2 at *
  generalize (modeOf (c.get .mode) == .gcr) = m3 at *
  rw [← e1, ← e2, ← e3]
  generalize fEq (c.get .bpi) 0 = scan
  cases scan <;> cases m1 <;> cases m2 <;> cases m3 <;>
    simp [and_assoc, CfgFile.nat]

/-! ## Facts of a legal configuration -/

theorem legal_mode {c : CfgFile} (h : cfgInvalid c = none) : modeOf (c.get .mode) ≠ .unset := by
  have := cfgCheck_ok h 0
  change (modeOf (c.get .mode) != .unset) = true at this
  simpa using this

theorem legal_ntrks {c : CfgFile} (h : cfgInvalid c = none) :
    (c.nat .ntrks = 7 ∧ modeOf (c.get .mode) = .nrzi) ∨ c.nat .ntrks = 9 := by
  have := cfgCheck_ok h 1
  change ((c.nat .ntrks == 7 && modeOf (c.get .mode) == .nrzi) || c.nat .ntrks == 9) = true at this
  simpa using this

theorem legal_dt {c : CfgFile} (h : cfgInvalid c = none) : cfgPositive (c.get .dt) = true :=
  cfgCheck_ok h 2

theorem legal_bpi {c : CfgFile} (h : cfgInvalid c = none) : cfgNonneg (c.get .bpi) = true :=
  cfgCheck_ok h 3

theorem legal_ips {c : CfgFile} (h : cfgInvalid c = none) : cfgPositive (c.get .ips) = true :=
  cfgCheck_ok h 4

theorem legal_bitspace {c : CfgFile} (h : cfgInvalid c = none) (hs : cfgScan c = false) :
    cfgPositive (cfgBitspace c) = true := by
  have := cfgCheck_ok h 5
  change cfgWhen (!cfgScan c) (cfgPositive (cfgBitspace c)) = true at this
  simpa [cfgWhen, hs] using this

theorem legal_clkWindow {c : CfgFile} (h : cfgInvalid c = none) : c.nat .clkWindow ≤ Config.clkNMax := by
  have := cfgCheck_ok h 7
  change decide (c.nat .clkWindow ≤ Config.clkNMax) = true at this
  simpa using this

theorem legal_agcWindow {c : CfgFile} (h : cfgInvalid c = none) : c.nat .agcWindow ≤ Config.agcKMax := by
  have := cfgCheck_ok h 9
  change decide (c.nat .agcWindow ≤ Config.agcKMax) = true at this
  simpa using this

theorem legal_pkww {c : CfgFile} (h : cfgInvalid c = none) :
    cfgPositive (c.get .pkwwBitfrac) = true ∧ Config.wMin ≤ cfgWindow c := by
  have := cfgCheck_ok h 14
  change (cfgPositive (c.get .pkwwBitfrac) && decide (Config.wMin ≤ cfgWindow c)) = true at this
  simpa using this

theorem legal_deskew {c : CfgFile} (h : cfgInvalid c = none) (k : Fin 9) :
    c.nat (.deskew k) ≤ Config.deskewMax := by
  have := cfgCheck_ok h ⟨31 + k.val, by omega⟩
  have hk : decide (c.nat (.deskew k) ≤ Config.deskewMax) = true := by
    revert this
    match k with
    | 0 | 1 | 2 | 3 | 4 | 5 | 6 | 7 | 8 => exact id
  simpa using hk

/-! ## The window -/

theorem cfgPositive_iff {x : F64} :
    cfgPositive x = true ↔ fFinite x = true ∧ fSign x = false ∧ fMag x ≠ 0 := by
  rw [cfgPositive, Bool.and_eq_true, fLt_zero_iff]
  constructor
  · exact fun h => ⟨h.1, h.2.2⟩
  · exact fun h => ⟨h.1, fIsNaN_of_finite h.1, h.2⟩

theorem not_zero_iff {x : F64} : fIsZero x = false ↔ fMag x ≠ 0 := by
  simp [fIsZero]

/-- A density that is ≥ 0 and not 0 is positive. -/
theorem bpi_positive {c : CfgFile} (h : cfgInvalid c = none) (hs : cfgScan c = false) :
    cfgPositive (c.get .bpi) = true := by
  have hb := legal_bpi h
  rw [cfgNonneg, Bool.and_eq_true, fLe_iff] at hb
  have hne : ¬ (fIsNaN (c.get .bpi) = false ∧ fIsNaN (0 : F64) = false ∧ fOrd (c.get .bpi) = fOrd 0) := by
    rw [← fEq_iff, ← cfgScan, hs]; decide
  have hn := fIsNaN_of_finite hb.1
  have hlt : fOrd 0 < fOrd (c.get .bpi) :=
    Nat.lt_of_le_of_ne hb.2.2.2 fun e => hne ⟨hn, hb.2.1, e.symm⟩
  rw [cfgPositive, Bool.and_eq_true]
  exact ⟨hb.1, fLt_iff.mpr ⟨hb.2.1, hn, hlt⟩⟩

/-- The quotient of rule R162 is a value, and no negative one. -/
theorem window_quotient {c : CfgFile} (h : cfgInvalid c = none) (hs : cfgScan c = false) :
    fIsNaN (fDiv (c.get .pkwwBitfrac) (fMul (fMul (c.get .bpi) (c.get .ips)) (c.get .dt))) = false ∧
    fSign (fDiv (c.get .pkwwBitfrac) (fMul (fMul (c.get .bpi) (c.get .ips)) (c.get .dt))) = false := by
  obtain ⟨hbf, hbs, -⟩ := cfgPositive_iff.mp (bpi_positive h hs)
  obtain ⟨hif, his, -⟩ := cfgPositive_iff.mp (legal_ips h)
  obtain ⟨hdf, hds, -⟩ := cfgPositive_iff.mp (legal_dt h)
  obtain ⟨hpf, hps, hpz⟩ := cfgPositive_iff.mp (legal_pkww h).1
  obtain ⟨hqf, -, hqz⟩ := cfgPositive_iff.mp (legal_bitspace h hs)
  have hmn : fIsNaN (fMul (c.get .bpi) (c.get .ips)) = false := fMul_not_nan hbf hif
  have hmf : fFinite (fMul (c.get .bpi) (c.get .ips)) = true := by
    refine finite_of_not hmn ?_
    cases hi : fIsInf (fMul (c.get .bpi) (c.get .ips))
    · rfl
    · refine absurd ?_ hqz
      have h1 : fIsNaN f64One = false := by decide
      have h2 : fIsInf f64One = false := by decide
      rw [cfgBitspace, fDiv]
      simp only [h1, hmn, h2, hi, Bool.or_self, Bool.false_eq_true, if_false, if_true, fZero]
      exact fMag_fWithSign _ (by decide)
  have hms : fSign (fMul (c.get .bpi) (c.get .ips)) = false := by rw [fSign_fMul hbf hif, hbs, his]; rfl
  have hden : fIsNaN (fMul (fMul (c.get .bpi) (c.get .ips)) (c.get .dt)) = false := fMul_not_nan hmf hdf
  have hz := not_zero_iff.mpr hpz
  refine ⟨fDiv_not_nan hpf hz hden, ?_⟩
  rw [fSign_fDiv hpf hz hden, fSign_fMul hmf hdf, hms, hds, hps]
  rfl

/-- The window has at least 3 and at most 20 samples (rules R9, R162). -/
theorem cfgWindow_bounds {c : CfgFile} (h : cfgInvalid c = none) :
    Config.wMin ≤ cfgWindow c ∧ cfgWindow c ≤ Config.wMax := by
  refine ⟨(legal_pkww h).2, ?_⟩
  rw [cfgWindow]
  cases hs : cfgScan c
  · obtain ⟨hn, hsg⟩ := window_quotient h hs
    simp only [Bool.false_eq_true, if_false]
    generalize fDiv (c.get .pkwwBitfrac) (fMul (fMul (c.get .bpi) (c.get .ips)) (c.get .dt)) = q at hn hsg
    split
    · exact Nat.le_refl _
    · rename_i hq
      have h20 : fIsNaN (fOfNat Config.wMax) = false := by decide
      have ho : fOrd (fOfNat Config.wMax) = 2 ^ 63 + fMag (fOfNat 20) := by decide
      have hlt : fOrd q < fOrd (fOfNat Config.wMax) := by
        rw [fLe_iff] at hq
        have := not_and.mp (not_and.mp hq h20) hn
        omega
      rw [ho, fOrd, hsg] at hlt
      simp only [Bool.false_eq_true, if_false] at hlt
      exact Nat.le_of_lt (fFloorNat_lt_20 (by omega))
  · simp [Config.wScan, Config.wMax]

/-! ## The latched values -/

/-- What the latched values of any state satisfy. -/
structure LatFacts (l : Latched) : Prop where
  ntrks : l.ntrks = 0 ∨ l.ntrks = 7 ∨ l.ntrks = 9
  wide : l.mode ≠ .nrzi → l.ntrks = 0 ∨ l.ntrks = 9
  w : l.w ≤ Config.wMax

theorem legal_latFacts {l : Latched} (h : l.legal) : LatFacts l := by
  rcases h with h | ⟨c, hc, h⟩
  · subst h; exact ⟨.inl rfl, fun _ => .inl rfl, by decide⟩
  · subst h
    refine ⟨.inr ?_, fun hm => .inr ?_, (cfgWindow_bounds hc).2⟩
    · rcases legal_ntrks hc with h | h
      · exact .inl h.1
      · exact .inr h
    · rcases legal_ntrks hc with h | h
      · exact absurd h.2 hm
      · exact h

theorem LatFacts.ntrks_le {l : Latched} (h : LatFacts l) : l.ntrks ≤ 9 := by
  rcases h.ntrks with h | h | h <;> omega

theorem runs_iff {l : Latched} {m : Mode} : l.runs m = true ↔ l.scan = false ∧ l.mode = m := by
  simp [Latched.runs]

theorem runs_false_of_scan {l : Latched} (h : l.scan = true) (m : Mode) : l.runs m = false := by
  simp [Latched.runs, h]

end Sys2Proof.Machine
end

