-- ==== Sys2Proof/Laws/State.lean ====
section
/-! SUPPORT. One lemma per field per named update of State, so that no proof unfolds a record
update. -/

namespace Sys2Proof.Machine

/-! ## Fault entry -/

@[simp] theorem raise_core (s : State) (r : Raise) : (raise s r).core = .fault := rfl
@[simp] theorem raise_errCode (s : State) (r : Raise) :
    (raise s r).errCode = errNumber r.code := rfl
@[simp] theorem raise_errInfo (s : State) (r : Raise) : (raise s r).errInfo = r.info := rfl
@[simp] theorem raise_eofSeen (s : State) (r : Raise) : (raise s r).eofSeen = s.eofSeen := rfl
@[simp] theorem raise_cfg (s : State) (r : Raise) : (raise s r).cfg = s.cfg := rfl
@[simp] theorem raise_lat (s : State) (r : Raise) : (raise s r).lat = s.lat := rfl
@[simp] theorem raise_att (s : State) (r : Raise) : (raise s r).att = s.att := rfl
@[simp] theorem raise_res (s : State) (r : Raise) : (raise s r).res = s.res := rfl
@[simp] theorem raise_input (s : State) (r : Raise) : (raise s r).input = s.input := rfl
@[simp] theorem raise_output (s : State) (r : Raise) : (raise s r).output = s.output := rfl
@[simp] theorem raise_resetIn (s : State) (r : Raise) : (raise s r).resetIn = s.resetIn := rfl

/-! ## A response -/

@[simp] theorem respond_core (s : State) (ws : List Word) : (respond s ws).core = s.core := rfl
@[simp] theorem respond_errCode (s : State) (ws : List Word) :
    (respond s ws).errCode = s.errCode := rfl
@[simp] theorem respond_errInfo (s : State) (ws : List Word) :
    (respond s ws).errInfo = s.errInfo := rfl
@[simp] theorem respond_eofSeen (s : State) (ws : List Word) :
    (respond s ws).eofSeen = s.eofSeen := rfl
@[simp] theorem respond_cfg (s : State) (ws : List Word) : (respond s ws).cfg = s.cfg := rfl
@[simp] theorem respond_lat (s : State) (ws : List Word) : (respond s ws).lat = s.lat := rfl
@[simp] theorem respond_att (s : State) (ws : List Word) : (respond s ws).att = s.att := rfl
@[simp] theorem respond_res (s : State) (ws : List Word) : (respond s ws).res = s.res := rfl
@[simp] theorem respond_input (s : State) (ws : List Word) : (respond s ws).input = s.input := rfl
@[simp] theorem respond_output (s : State) (ws : List Word) :
    (respond s ws).output = s.output ++ ws := rfl
@[simp] theorem respond_resetIn (s : State) (ws : List Word) :
    (respond s ws).resetIn = s.resetIn := rfl

/-! ## Reset -/

@[simp] theorem resetCore_core (s : State) : (resetCore s).core = State.reset.core := rfl
@[simp] theorem resetCore_errCode (s : State) : (resetCore s).errCode = State.reset.errCode := rfl
@[simp] theorem resetCore_errInfo (s : State) : (resetCore s).errInfo = State.reset.errInfo := rfl
@[simp] theorem resetCore_eofSeen (s : State) : (resetCore s).eofSeen = State.reset.eofSeen := rfl
@[simp] theorem resetCore_cfg (s : State) : (resetCore s).cfg = State.reset.cfg := rfl
@[simp] theorem resetCore_lat (s : State) : (resetCore s).lat = State.reset.lat := rfl
@[simp] theorem resetCore_att (s : State) : (resetCore s).att = State.reset.att := rfl
@[simp] theorem resetCore_res (s : State) : (resetCore s).res = State.reset.res := rfl
@[simp] theorem resetCore_input (s : State) : (resetCore s).input = s.input := rfl
@[simp] theorem resetCore_output (s : State) : (resetCore s).output = s.output := rfl
@[simp] theorem resetCore_resetIn (s : State) : (resetCore s).resetIn = s.resetIn := rfl

@[simp] theorem resetByInput_core (s : State) : (resetByInput s).core = State.reset.core := rfl
@[simp] theorem resetByInput_errCode (s : State) :
    (resetByInput s).errCode = State.reset.errCode := rfl
@[simp] theorem resetByInput_errInfo (s : State) :
    (resetByInput s).errInfo = State.reset.errInfo := rfl
@[simp] theorem resetByInput_eofSeen (s : State) :
    (resetByInput s).eofSeen = State.reset.eofSeen := rfl
@[simp] theorem resetByInput_cfg (s : State) : (resetByInput s).cfg = State.reset.cfg := rfl
@[simp] theorem resetByInput_lat (s : State) : (resetByInput s).lat = State.reset.lat := rfl
@[simp] theorem resetByInput_att (s : State) : (resetByInput s).att = State.reset.att := rfl
@[simp] theorem resetByInput_res (s : State) : (resetByInput s).res = State.reset.res := rfl
@[simp] theorem resetByInput_input (s : State) : (resetByInput s).input = s.input := rfl
@[simp] theorem resetByInput_output (s : State) : (resetByInput s).output = s.output := rfl
@[simp] theorem resetByInput_resetIn (s : State) : (resetByInput s).resetIn = false := rfl

/-! ## BLK_START -/

@[simp] theorem startBlock_core (s : State) : (startBlock s).core = .run := rfl
@[simp] theorem startBlock_errCode (s : State) : (startBlock s).errCode = s.errCode := rfl
@[simp] theorem startBlock_errInfo (s : State) : (startBlock s).errInfo = s.errInfo := rfl
@[simp] theorem startBlock_eofSeen (s : State) : (startBlock s).eofSeen = false := rfl
@[simp] theorem startBlock_cfg (s : State) : (startBlock s).cfg = s.cfg := rfl
@[simp] theorem startBlock_lat (s : State) : (startBlock s).lat = latchOf s.cfg := rfl
@[simp] theorem startBlock_att (s : State) : (startBlock s).att = attemptOf s.cfg := rfl
@[simp] theorem startBlock_res (s : State) : (startBlock s).res = Results.zero := rfl
@[simp] theorem startBlock_input (s : State) : (startBlock s).input = s.input := rfl
@[simp] theorem startBlock_output (s : State) : (startBlock s).output = s.output := rfl
@[simp] theorem startBlock_resetIn (s : State) : (startBlock s).resetIn = s.resetIn := rfl

/-! ## The end of a block -/

@[simp] theorem finishBlock_core (s : State) : (finishBlock s).core = .done := rfl
@[simp] theorem finishBlock_errCode (s : State) : (finishBlock s).errCode = s.errCode := rfl
@[simp] theorem finishBlock_errInfo (s : State) : (finishBlock s).errInfo = s.errInfo := rfl
@[simp] theorem finishBlock_eofSeen (s : State) : (finishBlock s).eofSeen = s.eofSeen := rfl
@[simp] theorem finishBlock_cfg (s : State) : (finishBlock s).cfg = s.cfg := rfl
@[simp] theorem finishBlock_lat (s : State) : (finishBlock s).lat = s.lat := rfl
@[simp] theorem finishBlock_att (s : State) :
    (finishBlock s).att = (finalize s.cfg s.lat s.att).1 := rfl
@[simp] theorem finishBlock_res (s : State) :
    (finishBlock s).res = (finalize s.cfg s.lat s.att).2 := rfl
@[simp] theorem finishBlock_input (s : State) : (finishBlock s).input = s.input := rfl
@[simp] theorem finishBlock_output (s : State) : (finishBlock s).output = s.output := rfl
@[simp] theorem finishBlock_resetIn (s : State) : (finishBlock s).resetIn = s.resetIn := rfl

/-! ## The interface -/

@[simp] theorem State.withFetchWord_core (s : State) (nbits w : Nat) :
    (s.withFetchWord nbits w).core = s.core := rfl
@[simp] theorem State.withFetchWord_errCode (s : State) (nbits w : Nat) :
    (s.withFetchWord nbits w).errCode = s.errCode := rfl
@[simp] theorem State.withFetchWord_errInfo (s : State) (nbits w : Nat) :
    (s.withFetchWord nbits w).errInfo = s.errInfo := rfl
@[simp] theorem State.withFetchWord_eofSeen (s : State) (nbits w : Nat) :
    (s.withFetchWord nbits w).eofSeen = s.eofSeen := rfl
@[simp] theorem State.withFetchWord_cfg (s : State) (nbits w : Nat) :
    (s.withFetchWord nbits w).cfg = s.cfg := rfl
@[simp] theorem State.withFetchWord_lat (s : State) (nbits w : Nat) :
    (s.withFetchWord nbits w).lat = s.lat := rfl
@[simp] theorem State.withFetchWord_att (s : State) (nbits w : Nat) :
    (s.withFetchWord nbits w).att = s.att := rfl
@[simp] theorem State.withFetchWord_res (s : State) (nbits w : Nat) :
    (s.withFetchWord nbits w).res = s.res := rfl
@[simp] theorem State.withFetchWord_input (s : State) (nbits w : Nat) :
    (s.withFetchWord nbits w).input = tableWords nbits w ++ s.input := rfl
@[simp] theorem State.withFetchWord_output (s : State) (nbits w : Nat) :
    (s.withFetchWord nbits w).output = s.output := rfl
@[simp] theorem State.withFetchWord_resetIn (s : State) (nbits w : Nat) :
    (s.withFetchWord nbits w).resetIn = false := rfl

@[simp] theorem State.coreOnly_core (s : State) : (s.coreOnly).core = s.core := rfl
@[simp] theorem State.coreOnly_errCode (s : State) : (s.coreOnly).errCode = s.errCode := rfl
@[simp] theorem State.coreOnly_errInfo (s : State) : (s.coreOnly).errInfo = s.errInfo := rfl
@[simp] theorem State.coreOnly_eofSeen (s : State) : (s.coreOnly).eofSeen = s.eofSeen := rfl
@[simp] theorem State.coreOnly_cfg (s : State) : (s.coreOnly).cfg = s.cfg := rfl
@[simp] theorem State.coreOnly_lat (s : State) : (s.coreOnly).lat = s.lat := rfl
@[simp] theorem State.coreOnly_att (s : State) : (s.coreOnly).att = s.att := rfl
@[simp] theorem State.coreOnly_res (s : State) : (s.coreOnly).res = s.res := rfl
@[simp] theorem State.coreOnly_input (s : State) : (s.coreOnly).input = [] := rfl
@[simp] theorem State.coreOnly_output (s : State) : (s.coreOnly).output = [] := rfl
@[simp] theorem State.coreOnly_resetIn (s : State) : (s.coreOnly).resetIn = false := rfl

end Sys2Proof.Machine
end

