-- ==== Sys2Proof/Laws/Track.lean ====
section
/-! SUPPORT. The front end of a track keeps the attempt's invariant and changes nothing but its own
fields: deskew, peak detection, AGC and the last-peak record (rules R160 to R170, R220 to R226); and
the algebra of AttemptFrame. -/

namespace Sys2Proof.Machine

/-! ## Lists of bounded length -/

theorem pushBounded_length_le {α : Type} {n b : Nat} {l : List α} (x : α) (hn : n ≤ b)
    (hl : l.length ≤ b) : (pushBounded n l x).length ≤ b := by
  unfold pushBounded
  split <;> simp_all <;> omega

theorem pushBounded_length_le_self {α : Type} {n : Nat} {l : List α} (x : α) (hl : l.length ≤ n) :
    (pushBounded n l x).length ≤ n := pushBounded_length_le x (Nat.le_refl n) hl

/-! ## Frames compose -/

theorem TrackFrame.refl (l : Latched) (t : Track) : TrackFrame l t t :=
  ⟨fun _ => rfl, fun _ => rfl, fun _ _ => rfl, fun _ => rfl, fun _ => rfl, Nat.le_refl _⟩

theorem TrackFrame.trans {l : Latched} {t t' t'' : Track} (h : TrackFrame l t t')
    (h' : TrackFrame l t' t'') : TrackFrame l t t'' :=
  ⟨fun e => (h'.pe e).trans (h.pe e), fun e => (h'.gcr e).trans (h.gcr e),
    fun e e' => (h'.bit e e').trans (h.bit e e'), fun e => (h'.nrzi e).trans (h.nrzi e),
    fun e => (h'.agc e).trans (h.agc e), Nat.le_trans h.count h'.count⟩

theorem AttemptFrame.refl (l : Latched) (a : Attempt) : AttemptFrame l a a :=
  ⟨fun _ _ => rfl, fun _ => TrackFrame.refl l _, fun _ => rfl, Nat.le_refl _, rfl,
    fun _ _ _ _ _ => ⟨rfl, rfl⟩, fun _ _ _ => rfl, fun _ _ => rfl⟩

theorem AttemptFrame.trans {l : Latched} {a a' a'' : Attempt} (h : AttemptFrame l a a')
    (h' : AttemptFrame l a' a'') : AttemptFrame l a a'' where
  lanes k hk := (h'.lanes k hk).trans (h.lanes k hk)
  tracks k := (h.tracks k).trans (h'.tracks k)
  nrzi e := (h'.nrzi e).trans (h.nrzi e)
  nsym := Nat.le_trans h.nsym h'.nsym
  gcrNsym := h'.gcrNsym.trans h.gcrNsym
  peBuf e k i hk hi := by
    have m := (h.tracks k).count
    have m' := (h'.tracks k).count
    have e1 := h.peBuf e k i hk (by omega)
    have e2 := h'.peBuf e k i hk (by omega)
    exact ⟨e2.1.trans e1.1, e2.2.trans e1.2⟩
  nrziBuf e i hi := by
    have m := h.nsym
    have m' := h'.nsym
    exact (h'.nrziBuf e i (by omega)).trans (h.nrziBuf e i (by omega))
  otherBuf e e' := (h'.otherBuf e e').trans (h.otherBuf e e')

/-! ## A change of one track -/

/-- The invariant after a change of one track that leaves the buffer alone. -/
theorem AttemptInv.setTr {l : Latched} {a : Attempt} (h : AttemptInv l a) {k : Fin 9} {t : Track}
    (ht : TrackInv l t)
    (hd : l.runs .pe = true → t.datacount = (a.tr k).datacount ∧ t.faked = (a.tr k).faked) :
    AttemptInv l (a.setTr k t) where
  tracks j := by
    rw [Attempt.tr_setTr]; split
    · exact ht
    · exact h.tracks j
  nrzi := h.nrzi
  gcrNsym := h.gcrNsym
  buf :=
    { h.buf with
      pe := fun e j hj => by
        have hc := h.buf.pe e j hj
        have hdc : ((a.setTr k t).tr j).datacount = (a.tr j).datacount ∧
            ((a.setTr k t).tr j).faked = (a.tr j).faked := by
          by_cases hjk : j = k
          · subst hjk; rw [Attempt.tr_setTr_same]; exact hd e
          · rw [Attempt.tr_setTr_other _ _ hjk]; exact ⟨rfl, rfl⟩
        exact ⟨by rw [hdc.1]; exact hc.clear, by rw [hdc.1, hdc.2]; exact hc.faked⟩ }

theorem AttemptFrame.setTr {l : Latched} {a : Attempt} {k : Fin 9} {t : Track}
    (hk : k.val < l.ntrks) (hf : TrackFrame l (a.tr k) t) :
    AttemptFrame l a (a.setTr k t) where
  lanes j hj := Attempt.tr_setTr_other _ _ (fun e => by subst e; omega)
  tracks j := by
    by_cases hjk : j = k
    · subst hjk; rw [Attempt.tr_setTr_same]; exact hf
    · rw [Attempt.tr_setTr_other _ _ hjk]; exact TrackFrame.refl l _
  nrzi _ := rfl
  nsym := Nat.le_refl _
  gcrNsym := rfl
  peBuf _ _ _ _ _ := ⟨rfl, rfl⟩
  nrziBuf _ _ _ := rfl
  otherBuf _ _ := rfl

/-! ## What a decoder leaves alone -/

/-- The fields of a track no decoder writes: the front end, the AGC, the last-peak record and the
peak count. -/
structure RestFields where
  front : List F64 × Bool × List (F64 × F64) × Nat
  last : Bool × F64 × F64 × Polarity × F64
  peakcount : Nat
  agc : F64 × F64 × F64 × F64 × Nat × Bool × List F64
  dcStart : Nat

def restFields (t : Track) : RestFields :=
  { front := (t.fifo, t.primed, t.win, t.blackout)
    last := (t.haveLast, t.tLast, t.vLast, t.polLast, t.tLast2)
    peakcount := t.peakcount
    agc := agcFields t
    dcStart := t.dcStart }

theorem restFields_front {t t' : Track} (h : restFields t' = restFields t) :
    t'.fifo = t.fifo ∧ t'.win = t.win ∧ t'.blackout = t.blackout ∧ t'.hwin = t.hwin ∧
    t'.gain = t.gain ∧ t'.maxGain = t.maxGain := by
  simp only [restFields, agcFields, RestFields.mk.injEq, Prod.mk.injEq] at h
  exact ⟨h.1.1, h.1.2.2.1, h.1.2.2.2, h.2.2.2.1.2.2.2.2.2.2, h.2.2.2.1.1, h.2.2.2.1.2.1⟩

/-- What a decoder leaves unchanged of an attempt. -/
structure DecodeFrame (l : Latched) (a a' : Attempt) : Prop extends AttemptFrame l a a' where
  rest : ∀ k, restFields (a'.tr k) = restFields (a.tr k)
  tPrev : a'.tPrev = a.tPrev
  nsamples : a'.nsamples = a.nsamples
  anyPeak : a'.anyPeak = a.anyPeak

theorem DecodeFrame.refl (l : Latched) (a : Attempt) : DecodeFrame l a a :=
  ⟨AttemptFrame.refl l a, fun _ => rfl, rfl, rfl, rfl⟩

theorem DecodeFrame.trans {l : Latched} {a a' a'' : Attempt} (h : DecodeFrame l a a')
    (h' : DecodeFrame l a' a'') : DecodeFrame l a a'' :=
  ⟨h.toAttemptFrame.trans h'.toAttemptFrame, fun k => (h'.rest k).trans (h.rest k),
    h'.tPrev.trans h.tPrev, h'.nsamples.trans h.nsamples, h'.anyPeak.trans h.anyPeak⟩

theorem DecodeFrame.setTr {l : Latched} {a : Attempt} {k : Fin 9} {t : Track}
    (hk : k.val < l.ntrks) (hf : TrackFrame l (a.tr k) t) (hr : restFields t = restFields (a.tr k)) :
    DecodeFrame l a (a.setTr k t) := by
  refine ⟨AttemptFrame.setTr hk hf, fun j => ?_, rfl, rfl, rfl⟩
  by_cases hjk : j = k
  · subst hjk; rw [Attempt.tr_setTr_same]; exact hr
  · rw [Attempt.tr_setTr_other _ _ hjk]

/-! ## Changes of the front end alone -/

/-- No decoder field differs. -/
structure SameDecode (t t' : Track) : Prop where
  pe : peFields t' = peFields t
  gcr : gcrFields t' = gcrFields t
  bit : bitFields t' = bitFields t
  nrzi : pendingFields t' = pendingFields t

theorem SameDecode.trans {t t' t'' : Track} (h : SameDecode t t') (h' : SameDecode t' t'') :
    SameDecode t t'' :=
  ⟨h'.pe.trans h.pe, h'.gcr.trans h.gcr, h'.bit.trans h.bit, h'.nrzi.trans h.nrzi⟩

theorem SameDecode.datacount {t t' : Track} (h : SameDecode t t') : t'.datacount = t.datacount :=
  congrArg (·.2.1) h.bit
theorem SameDecode.clk {t t' : Track} (h : SameDecode t t') : t'.clk = t.clk :=
  congrArg (·.2.2.2) h.bit
theorem SameDecode.faked {t t' : Track} (h : SameDecode t t') : t'.faked = t.faked :=
  congrArg (·.2.2.2.2) h.pe
theorem SameDecode.bits {t t' : Track} (h : SameDecode t t') : t'.bits = t.bits :=
  congrArg (·.1) h.gcr
theorem SameDecode.resyncActive {t t' : Track} (h : SameDecode t t') :
    t'.resyncActive = t.resyncActive := congrArg (·.2.2.2.1) h.gcr
theorem SameDecode.resyncBitcount {t t' : Track} (h : SameDecode t t') :
    t'.resyncBitcount = t.resyncBitcount := congrArg (·.2.2.2.2.1) h.gcr

theorem SameDecode.frame {t t' : Track} (h : SameDecode t t') (l : Latched)
    (hagc : l.scan = true → agcFields t' = agcFields t) : TrackFrame l t t' :=
  ⟨fun _ => h.pe, fun _ => h.gcr, fun _ _ => h.bit, fun _ => h.nrzi, hagc,
    Nat.le_of_eq h.datacount.symm⟩

/-- The bounds of a track's front end (rules R33, R171, R225). -/
structure FrontInv (l : Latched) (t : Track) : Prop where
  fifo : t.fifo.length ≤ Config.deskewMax
  win : t.win.length ≤ l.w
  blackout : t.blackout ≤ 19
  hwin : t.hwin.length ≤ Config.agcKMax
  gain : l.agc = .none ∨ l.scan = true → t.gain = f64One ∧ t.maxGain = f64One

theorem TrackInv.front {l : Latched} {t : Track} (h : TrackInv l t) : FrontInv l t :=
  ⟨h.fifo, h.win, h.blackout, h.hwin, h.gain⟩

theorem TrackInv.of_same {l : Latched} {t t' : Track} (h : TrackInv l t) (hs : SameDecode t t')
    (hf : FrontInv l t') : TrackInv l t' where
  fifo := hf.fifo
  win := hf.win
  blackout := hf.blackout
  hwin := hf.hwin
  gain := hf.gain
  datacount := by rw [hs.datacount]; exact h.datacount
  bits := by rw [hs.bits, hs.datacount]; exact h.bits
  resync := by rw [hs.resyncActive, hs.resyncBitcount]; exact h.resync
  clk := by rw [hs.clk]; exact h.clk

/-! ## Deskew -/

theorem deskew_same (d : Nat) (v : F64) (t : Track) : SameDecode t (deskew d v t).2 := by
  unfold deskew; split <;> exact ⟨rfl, rfl, rfl, rfl⟩

theorem deskew_agc (d : Nat) (v : F64) (t : Track) : agcFields (deskew d v t).2 = agcFields t := by
  unfold deskew; split <;> rfl

theorem deskew_front {l : Latched} {d : Nat} (hd : d ≤ Config.deskewMax) (v : F64) {t : Track}
    (h : FrontInv l t) : FrontInv l (deskew d v t).2 := by
  unfold deskew
  split
  · exact h
  · refine ⟨?_, h.win, h.blackout, h.hwin, h.gain⟩
    have := h.fifo
    cases t.primed <;> simp <;> omega

/-! ## Peak detection -/

theorem topCandidate_interior {c : CfgFile} {rise : F64} {vs : List F64} {m : Nat}
    (h : topCandidate c rise vs = some m) : 0 < m ∧ m + 1 < vs.length := by
  simp only [topCandidate] at h
  split at h
  · rename_i hc
    simp only [Bool.and_eq_true, decide_eq_true_eq] at hc
    obtain rfl := Option.some.inj h
    exact ⟨hc.1.1.1.1, hc.1.1.1.2⟩
  · cases h

theorem botCandidate_interior {c : CfgFile} {rise : F64} {vs : List F64} {m : Nat}
    (h : botCandidate c rise vs = some m) : 0 < m ∧ m + 1 < vs.length := by
  simp only [botCandidate] at h
  split at h
  · rename_i hc
    simp only [Bool.and_eq_true, decide_eq_true_eq] at hc
    obtain rfl := Option.some.inj h
    exact ⟨hc.1.1.1.1, hc.1.1.1.2⟩
  · cases h

theorem chooseCandidate_from {t b : Option Nat} {p : Polarity} {m : Nat}
    (h : chooseCandidate t b = some (p, m)) : t = some m ∨ b = some m := by
  unfold chooseCandidate at h
  split at h
  · cases h
  · cases h; exact .inl rfl
  · cases h; exact .inr rfl
  · split at h <;> cases h
    · exact .inr rfl
    · exact .inl rfl

/-- What detection over a full window does: nothing, or a peak inside the window and a blackout of
its index (rules R166, R167, R169). -/
theorem detectPeak_cases (c : CfgFile) (t : Track) :
    detectPeak c t = (t, none) ∨
    ∃ m pk, 0 < m ∧ m + 1 < t.win.length ∧ detectPeak c t = ({ t with blackout := m }, some pk) := by
  simp only [detectPeak]
  split
  · exact .inl rfl
  · rename_i pol m hc
    refine .inr ⟨m, _, ?_, ?_, rfl⟩
    · rcases chooseCandidate_from hc with h | h
      · exact (topCandidate_interior h).1
      · exact (botCandidate_interior h).1
    · rcases chooseCandidate_from hc with h | h
      · simpa using (topCandidate_interior h).2
      · simpa using (botCandidate_interior h).2

/-- A track with one more sample in its window (rule R163). -/
def pushWin (l : Latched) (time u : F64) (t : Track) : Track :=
  { t with win := pushBounded l.w t.win (time, u) }

/-- Everything a peak step can do: populate the window, count the blackout down, or detect over a
full window (rules R163, R164, R169). -/
theorem peakStep_cases (c : CfgFile) (l : Latched) (time u : F64) (t : Track) :
    ((pushWin l time u t).win.length < l.w ∧ peakStep c l time u t = (pushWin l time u t, none)) ∨
    (l.w ≤ (pushWin l time u t).win.length ∧ 0 < t.blackout ∧
      peakStep c l time u t = ({ pushWin l time u t with blackout := t.blackout - 1 }, none)) ∨
    (l.w ≤ (pushWin l time u t).win.length ∧ t.blackout = 0 ∧
      peakStep c l time u t = (pushWin l time u t, none)) ∨
    (l.w ≤ (pushWin l time u t).win.length ∧ t.blackout = 0 ∧
      ∃ m pk, 0 < m ∧ m + 1 < (pushWin l time u t).win.length ∧
        peakStep c l time u t = ({ pushWin l time u t with blackout := m }, some pk)) := by
  simp only [peakStep]
  by_cases h1 : (pushWin l time u t).win.length < l.w
  · exact .inl ⟨h1, if_pos h1⟩
  · have h1' : l.w ≤ (pushWin l time u t).win.length := by omega
    by_cases h2 : 0 < t.blackout
    · exact .inr (.inl ⟨h1', h2, (if_neg h1).trans (if_pos h2)⟩)
    · have h2' : t.blackout = 0 := by omega
      rcases detectPeak_cases c (pushWin l time u t) with e | ⟨m, pk, hm, hm', e⟩
      · exact .inr (.inr (.inl ⟨h1', h2', ((if_neg h1).trans (if_neg h2)).trans e⟩))
      · exact .inr (.inr (.inr ⟨h1', h2', m, pk, hm, hm', ((if_neg h1).trans (if_neg h2)).trans e⟩))

theorem peakStep_same (c : CfgFile) (l : Latched) (time u : F64) (t : Track) :
    SameDecode t (peakStep c l time u t).1 := by
  rcases peakStep_cases c l time u t with ⟨-, h⟩ | ⟨-, -, h⟩ | ⟨-, -, h⟩ | ⟨-, -, m, pk, -, -, h⟩ <;>
    rw [h] <;> exact ⟨rfl, rfl, rfl, rfl⟩

theorem peakStep_agc (c : CfgFile) (l : Latched) (time u : F64) (t : Track) :
    agcFields (peakStep c l time u t).1 = agcFields t := by
  rcases peakStep_cases c l time u t with ⟨-, h⟩ | ⟨-, -, h⟩ | ⟨-, -, h⟩ | ⟨-, -, m, pk, -, -, h⟩ <;>
    rw [h] <;> rfl

theorem peakStep_front {c : CfgFile} {l : Latched} (hw : l.w ≤ Config.wMax) (time u : F64) {t : Track}
    (h : FrontInv l t) : FrontInv l (peakStep c l time u t).1 := by
  have hp : (pushWin l time u t).win.length ≤ l.w := pushBounded_length_le_self (time, u) h.win
  have hb := h.blackout
  rcases peakStep_cases c l time u t with ⟨-, e⟩ | ⟨-, -, e⟩ | ⟨-, -, e⟩ | ⟨-, -, m, pk, -, hm, e⟩ <;>
    rw [e] <;> refine ⟨h.fifo, hp, ?_, h.hwin, h.gain⟩
  · exact hb
  · exact Nat.le_trans (Nat.sub_le _ _) hb
  · exact hb
  · simp only [Config.wMax] at *
    omega

/-! ## AGC -/

theorem agcPeak_same (c : CfgFile) (l : Latched) (h : Option F64) (sod : Bool) (t : Track) :
    SameDecode t (agcPeak c l h sod t) := by
  unfold agcPeak
  split
  · unfold agcBaseline
    split
    · exact ⟨rfl, rfl, rfl, rfl⟩
    · split
      · exact ⟨rfl, rfl, rfl, rfl⟩
      · simp only []
        split <;> exact ⟨rfl, rfl, rfl, rfl⟩
  · split
    · exact ⟨rfl, rfl, rfl, rfl⟩
    · unfold agcKeepMax gainUpdate
      split <;> exact ⟨rfl, rfl, rfl, rfl⟩

theorem fMax_one : fMax f64One f64One = f64One := by decide

theorem agcPeak_front {c : CfgFile} {l : Latched} (hk : c.nat .agcWindow ≤ Config.agcKMax)
    (hs : l.scan = false) (h : Option F64) (sod : Bool) {t : Track} (ht : FrontInv l t) :
    FrontInv l (agcPeak c l h sod t) := by
  unfold agcPeak
  split
  · unfold agcBaseline
    split
    · exact ⟨ht.fifo, ht.win, ht.blackout, ht.hwin, ht.gain⟩
    · split
      · exact ht
      · simp only []
        split <;> exact ⟨ht.fifo, ht.win, ht.blackout, ht.hwin, ht.gain⟩
  · split
    · exact ht
    · rename_i x
      have hp := pushBounded_length_le x hk ht.hwin
      unfold agcKeepMax gainUpdate
      split
      · rename_i e
        refine ⟨ht.fifo, ht.win, ht.blackout, hp, fun hn => ?_⟩
        rcases hn with hn | hn
        · rw [e] at hn; cases hn
        · rw [hs] at hn; cases hn
      · rename_i e
        refine ⟨ht.fifo, ht.win, ht.blackout, ht.hwin, fun hn => ?_⟩
        rcases hn with hn | hn
        · rw [e] at hn; cases hn
        · rw [hs] at hn; cases hn
      · refine ⟨ht.fifo, ht.win, ht.blackout, ht.hwin, fun hn => ?_⟩
        have hg := ht.gain hn
        exact ⟨hg.1, by simp only [hg.1, hg.2]; exact fMax_one⟩

/-! ## Clocks -/

theorem clkInit_inv {l : Latched} {n : Nat} {x : F64} (hn : n ≤ Config.clkNMax)
    (hp : l.clk = .window → 0 < n) (hx : l.clk = .constant → x = l.nominal) :
    ClockInv l (clkInit l.clk n x) := by
  unfold clkInit
  split
  · rename_i e
    refine ⟨e.symm, ?_, fun h => ?_⟩
    · rw [if_pos e]; simp; exact ⟨hp e, hn⟩
    · rw [e] at h; cases h
  · rename_i e
    refine ⟨e.symm, ?_, fun h => ?_⟩
    · rw [e]; simp
    · rw [e] at h; cases h
  · rename_i e
    refine ⟨e.symm, ?_, hx⟩
    rw [e]; simp

theorem clkAdjust_inv {l : Latched} (α d : F64) {c : Clock} (h : ClockInv l c) :
    ClockInv l (clkAdjust α d c) := by
  have hs := h.strategy
  have hr := h.ring
  unfold clkAdjust
  split
  · rename_i e
    have el : l.clk = .window := hs ▸ e
    refine ⟨hs, ?_, fun hc => ?_⟩
    · rw [if_pos el] at hr ⊢
      simp
      omega
    · rw [el] at hc; cases hc
  · rename_i e
    have el : l.clk = .ewma := hs ▸ e
    refine ⟨hs, ?_, fun hc => ?_⟩
    · rw [el] at hr ⊢; exact hr
    · rw [el] at hc; cases hc
  · exact h

theorem clkForce_inv {l : Latched} (d : F64) {c : Clock} (h : ClockInv l c) :
    ClockInv l (clkForce d c) := by
  have hs := h.strategy
  have hr := h.ring
  unfold clkForce
  split
  · rename_i e
    have el : l.clk = .window := hs ▸ e
    refine ⟨hs, ?_, fun hc => ?_⟩
    · rw [if_pos el] at hr ⊢
      simpa using hr
    · rw [el] at hc; cases hc
  · rename_i e
    have el : l.clk = .ewma := hs ▸ e
    refine ⟨hs, ?_, fun hc => ?_⟩
    · rw [el] at hr ⊢; exact hr
    · rw [el] at hc; cases hc
  · exact h

end Sys2Proof.Machine
end

