-- ==== Sys2Proof/Laws/Nrzi.lean ====
section
/-! SUPPORT. The NRZI decoder keeps the attempt's invariant and stores only its last symbol and new
ones (rules R280 to R289); its midbit loop stops by itself before its fuel runs out (rule R284), and
appends without a fault where there is room. -/

namespace Sys2Proof.Machine

/-! ## Changes that leave the buffer alone -/

/-- The NRZI record changes, its symbol count does not. -/
theorem AttemptInv.setNrzi {l : Latched} (hz : l.runs .nrzi = true) {a : Attempt} (h : AttemptInv l a)
    {z : Nrzi} (hi : NrziInv l z) (hn : z.nsym = a.nrzi.nsym) :
    AttemptInv l { a with nrzi := z } ∧ DecodeFrame l a { a with nrzi := z } := by
  refine ⟨⟨h.tracks, hi, ⟨h.buf.wf, h.buf.width, h.buf.unfaked, ?_, ?_, h.buf.gcr, h.buf.scan⟩, h.gcrNsym⟩,
    ⟨⟨fun _ _ => rfl, fun _ => TrackFrame.refl l _, ?_, ?_, rfl, fun _ _ _ _ _ => ⟨rfl, rfl⟩,
      fun _ _ _ => rfl, fun _ _ => rfl⟩, fun _ => rfl, rfl, rfl, rfl⟩⟩
  · intro e j hj
    have := h.buf.pe e j hj
    exact ⟨this.clear, this.faked⟩
  · intro e i hi'
    exact h.buf.nrzi e i (by simp only [hn] at hi'; exact hi')
  · intro e; rw [hz] at e; cases e
  · exact Nat.le_of_eq hn.symm

/-- A track's pending flag or time changes. -/
structure PendStep (t t' : Track) : Prop where
  rest : restFields t' = restFields t
  pe : peFields t' = peFields t
  gcr : gcrFields t' = gcrFields t
  bit : bitFields t' = bitFields t

theorem PendStep.inv {l : Latched} {t t' : Track} (h : PendStep t t') (ht : TrackInv l t) :
    TrackInv l t' := by
  obtain ⟨e1, e2, e3, e4, e5, e6⟩ := restFields_front h.rest
  have h3 := h.gcr
  have h4 := h.bit
  simp only [gcrFields, bitFields, Prod.mk.injEq] at h3 h4
  refine ⟨e1 ▸ ht.fifo, e2 ▸ ht.win, e3 ▸ ht.blackout, e4 ▸ ht.hwin, h4.2.1 ▸ ht.datacount, ?_, ?_, ?_,
    h4.2.2.2 ▸ ht.clk⟩
  · rw [h3.1, h4.2.1]; exact ht.bits
  · rw [h3.2.2.2.1, h3.2.2.2.2.1]; exact ht.resync
  · rw [e5, e6]; exact ht.gain

theorem PendStep.frame {l : Latched} (hz : l.runs .nrzi = true) {t t' : Track} (h : PendStep t t') :
    TrackFrame l t t' :=
  ⟨fun _ => h.pe, fun _ => h.gcr, fun _ _ => h.bit, fun e => (by rw [hz] at e; cases e),
    fun _ => congrArg RestFields.agc h.rest, Nat.le_of_eq (congrArg (·.2.1) h.bit).symm⟩

theorem PendStep.attempt {l : Latched} (hz : l.runs .nrzi = true) {k : Fin 9} (hk : k.val < l.ntrks)
    {a : Attempt} {t : Track} (h : PendStep (a.tr k) t) (ha : AttemptInv l a) :
    AttemptInv l (a.setTr k t) ∧ DecodeFrame l a (a.setTr k t) :=
  ⟨ha.setTr (h.inv (ha.tracks k)) fun _ =>
      ⟨congrArg (·.2.1) h.bit, congrArg (·.2.2.2.2) h.pe⟩, DecodeFrame.setTr hk (h.frame hz) h.rest⟩

/-! ## Symbols -/

/-- No bit at or past `n`. -/
def symFits (n : Nat) (sym : Sym) : Prop := ∀ j, n ≤ j → sym.getLsbD j = false

theorem symFits_zero (n : Nat) : symFits n 0 := fun _ _ => BitVec.getLsbD_zero

theorem symFits_setBit {n : Nat} {k : Fin 9} (hk : k.val < n) {sym : Sym} (h : symFits n sym) :
    symFits n (setBit n sym k) := fun j hj => by
  rw [setBit_eq_putBit, getLsbD_putBit_other _ _ (by omega)]; exact h j hj

theorem symFits_symOf {n : Nat} {m : List (Fin 9)} (hm : ∀ k ∈ m, k.val < n) : symFits n (symOf n m) := by
  have key : ∀ m : List (Fin 9), (∀ k ∈ m, k.val < n) → ∀ sym, symFits n sym →
      symFits n (m.foldl (setBit n) sym) := by
    intro m
    induction m with
    | nil => exact fun _ _ h => h
    | cons k m ih =>
      exact fun hm sym h => ih (fun j hj => hm j (List.mem_cons_of_mem _ hj)) _
        (symFits_setBit (hm k List.mem_cons_self) h)
  exact key m hm 0 (symFits_zero n)

/-! ## Stores -/

/-- What nrzi_append leaves when it has room (rules R285, R287). -/
def nrziAppended (sym : Sym) (a : Attempt) : Attempt :=
  { a with
    buf := bufWrite a.buf a.nrzi.nsym { sym := sym, fmask := 0 }
    nrzi := { a.nrzi with nsym := a.nrzi.nsym + 1 } }

/-- Everything nrzi_append can do. -/
theorem nrziAppend_eq (sym : Sym) (a : Attempt) : nrziAppend sym a =
    if Config.databuf ≤ a.nrzi.nsym then .error ⟨.bufferOverflow, 0xFFFF⟩
    else .ok (nrziAppended sym a) := rfl

theorem nrziAppend_eq_ok {sym : Sym} {a a' : Attempt} :
    nrziAppend sym a = .ok a' ↔ a.nrzi.nsym < Config.databuf ∧ a' = nrziAppended sym a := by
  rw [nrziAppend_eq]
  split
  · simp; omega
  · simp; exact ⟨fun h => ⟨by omega, h.symm⟩, fun h => h.2.symm⟩

theorem nrziAppend_answers {a : Attempt} (h : a.nrzi.nsym < Config.databuf) (sym : Sym) :
    nrziAppend sym a = .ok (nrziAppended sym a) := nrziAppend_eq_ok.mpr ⟨h, rfl⟩

theorem nrzi_not_others {l : Latched} (hz : l.runs .nrzi = true) :
    l.runs .pe = false ∧ l.runs .gcr = false ∧ l.scan = false := by
  obtain ⟨hs, hm⟩ := runs_iff.mp hz
  simp [Latched.runs, hm, hs]

/-- A store to an entry below `m`, where `m` is the symbol count after it. -/
theorem nrziStore_inv {l : Latched} (hz : l.runs .nrzi = true) {a : Attempt} (h : AttemptInv l a)
    {i m : Nat} {sym : Sym} (hs : symFits l.ntrks sym) (him : i < m) (hm : m ≤ Config.databuf)
    (hle : a.nrzi.nsym ≤ m) (hge : a.nrzi.nsym ≤ i + 1) :
    AttemptInv l { a with buf := bufWrite a.buf i { sym := sym, fmask := 0 },
                          nrzi := { a.nrzi with nsym := m } } ∧
    DecodeFrame l a { a with buf := bufWrite a.buf i { sym := sym, fmask := 0 },
                              nrzi := { a.nrzi with nsym := m } } := by
  obtain ⟨hp, hg, hsc⟩ := nrzi_not_others hz
  have hr := fun j => bufRead_bufWrite h.buf.wf i j { sym := sym, fmask := 0 }
  refine ⟨⟨h.tracks, ⟨hm, h.nrzi.post, h.nrzi.missed, h.nrzi.clk⟩, ⟨?_, ?_, ?_, ?_, ?_, ?_, ?_⟩, h.gcrNsym⟩,
    ⟨⟨fun _ _ => rfl, fun _ => TrackFrame.refl l _, ?_, hle, rfl, ?_, ?_, ?_⟩, fun _ => rfl, rfl, rfl,
      rfl⟩⟩
  · exact bufWrite_wf h.buf.wf (by omega) _
  · intro i' j hj
    simp only [hr]
    split
    · exact ⟨hs j hj, by simp⟩
    · exact h.buf.width i' j hj
  · intro _ i'
    simp only [hr]
    split
    · rfl
    · exact h.buf.unfaked hp i'
  · intro e; rw [hp] at e; cases e
  · intro _ i' hi'
    simp only [hr] at hi' ⊢
    rw [if_neg (by omega)]
    exact h.buf.nrzi hz i' (by omega)
  · intro e; rw [hg] at e; cases e
  · intro e; rw [hsc] at e; cases e
  · intro e; rw [hz] at e; cases e
  · intro e; rw [hp] at e; cases e
  · intro _ i' hi'
    simp only [hr]
    rw [if_neg (by simp at hi'; omega)]
  · intro _ e; rw [hz] at e; cases e

theorem nrziAppend_inv {l : Latched} (hz : l.runs .nrzi = true) {a a' : Attempt} (h : AttemptInv l a)
    {sym : Sym} (hs : symFits l.ntrks sym) (ha : nrziAppend sym a = .ok a') :
    AttemptInv l a' ∧ DecodeFrame l a a' := by
  obtain ⟨hlt, rfl⟩ := nrziAppend_eq_ok.mp ha
  exact nrziStore_inv hz h hs (Nat.lt_succ_self _) hlt (Nat.le_succ _) (Nat.le_succ _)

/-! ## The per-peak step -/

theorem nrziWarn_inv {l : Latched} (hz : l.runs .nrzi = true) {a : Attempt} (h : AttemptInv l a) :
    AttemptInv l (nrziWarn a) ∧ DecodeFrame l a (nrziWarn a) :=
  h.setNrzi hz ⟨h.nrzi.nsym, h.nrzi.post, fun e => (by rw [hz] at e; cases e), h.nrzi.clk⟩ rfl

theorem nrziLateData_inv {l : Latched} (hz : l.runs .nrzi = true) {k : Fin 9} (hk : k.val < l.ntrks)
    {a : Attempt} (h : AttemptInv l a) (hpos : 0 < a.nrzi.nsym) :
    AttemptInv l (nrziLateData l.ntrks k a) ∧ DecodeFrame l a (nrziLateData l.ntrks k a) := by
  simp only [nrziLateData]
  split
  · exact ⟨h, DecodeFrame.refl l a⟩
  · have hf : (bufRead a.buf (a.nrzi.nsym - 1)).fmask = 0 := h.buf.unfaked (nrzi_not_others hz).1 _
    have hsym : symFits l.ntrks (setBit l.ntrks (bufRead a.buf (a.nrzi.nsym - 1)).sym k) :=
      symFits_setBit hk fun j hj => (h.buf.width _ j hj).1
    obtain ⟨i1, f1⟩ := nrziStore_inv hz h (i := a.nrzi.nsym - 1) (m := a.nrzi.nsym) hsym (by omega)
      h.nrzi.nsym (Nat.le_refl _) (by omega)
    rw [hf]
    obtain ⟨i2, f2⟩ := nrziWarn_inv hz i1
    exact ⟨i2, f1.trans f2⟩

theorem nrziLatePeak_inv {l : Latched} (hz : l.runs .nrzi = true) {k : Fin 9} (hk : k.val < l.ntrks)
    {a a' : Attempt} (h : AttemptInv l a) (ha : nrziLatePeak l.ntrks k a = .ok a') :
    AttemptInv l a' ∧ DecodeFrame l a a' := by
  simp only [nrziLatePeak] at ha
  split at ha
  · rename_i hc
    cases ha
    exact nrziLateData_inv hz hk h hc.2
  · split at ha
    · rw [andThen_eq_ok] at ha
      obtain ⟨a1, h1, h2⟩ := ha
      cases h2
      obtain ⟨i1, f1⟩ := nrziAppend_inv hz h (symFits_setBit hk (symFits_zero _)) h1
      obtain ⟨i2, f2⟩ := i1.setNrzi hz (z := { a1.nrzi with postCounter := 0 })
        ⟨i1.nrzi.nsym, Nat.zero_le _, i1.nrzi.missed, i1.nrzi.clk⟩ rfl
      obtain ⟨i3, f3⟩ := nrziWarn_inv hz i2
      exact ⟨i3, (f1.trans f2).trans f3⟩
    · cases ha
      exact ⟨h, DecodeFrame.refl l _⟩

theorem speedResetPeak_inv {l : Latched} (c : CfgFile) (k : Fin 9) (pk : Peak) {z : Nrzi}
    (h : NrziInv l z) : NrziInv l (speedResetPeak c k pk z) ∧ (speedResetPeak c k pk z).nsym = z.nsym := by
  unfold speedResetPeak
  split
  · split
    · split
      · exact ⟨⟨h.nsym, h.post, h.missed, h.clk⟩, rfl⟩
      · exact ⟨h, rfl⟩
    · split
      · exact ⟨⟨h.nsym, h.post, h.missed, clkForce_inv _ h.clk⟩, rfl⟩
      · exact ⟨h, rfl⟩
  · exact ⟨h, rfl⟩

theorem nrziBlockStart_inv {l : Latched} (pk : Peak) {z : Nrzi} (h : NrziInv l z) :
    NrziInv l (nrziBlockStart pk z) ∧ (nrziBlockStart pk z).nsym = z.nsym := by
  unfold nrziBlockStart
  split
  · exact ⟨h, rfl⟩
  · exact ⟨⟨h.nsym, h.post, h.missed, h.clk⟩, rfl⟩

theorem nrziPeak_inv {l : Latched} (hz : l.runs .nrzi = true) {c : CfgFile} {k : Fin 9}
    (hk : k.val < l.ntrks) {pk : Peak} {a a' : Attempt} (h : AttemptInv l a)
    (ha : nrziPeak c l.ntrks k pk a = .ok a') : AttemptInv l a' ∧ DecodeFrame l a a' := by
  obtain ⟨i1, f1⟩ := h.setNrzi hz (nrziBlockStart_inv pk h.nrzi).1 (nrziBlockStart_inv pk h.nrzi).2
  simp only [nrziPeak, andThen_eq_ok] at ha
  obtain ⟨a2, h2, h3⟩ := ha
  cases h3
  have step2 : AttemptInv l a2 ∧ DecodeFrame l { a with nrzi := nrziBlockStart pk a.nrzi } a2 := by
    split at h2
    · exact nrziLatePeak_inv hz hk i1 h2
    · cases h2
      have hp : ∀ t : Track, PendStep t (if t.pending then t else { t with pending := true, tPending := pk.t }) := by
        intro t; split <;> exact ⟨rfl, rfl, rfl, rfl⟩
      exact PendStep.attempt hz hk (hp _) i1
  obtain ⟨i2, f2⟩ := step2
  have hsr := speedResetPeak_inv c k pk i2.nrzi
  obtain ⟨i3, f3⟩ := i2.setNrzi hz hsr.1 hsr.2
  exact ⟨i3, (f1.trans f2).trans f3⟩

/-- A peak can only take post_counter back to 0 (rule R287). -/
theorem nrziPeak_post {c : CfgFile} {n : Nat} {k : Fin 9} {pk : Peak} {a a' : Attempt}
    (ha : nrziPeak c n k pk a = .ok a') : a'.nrzi.postCounter ≤ a.nrzi.postCounter := by
  have hsr : ∀ z, (speedResetPeak c k pk z).postCounter = z.postCounter := by
    intro z
    unfold speedResetPeak
    split
    · split
      · split <;> rfl
      · split <;> rfl
    · rfl
  have hb : (nrziBlockStart pk a.nrzi).postCounter = a.nrzi.postCounter := by
    unfold nrziBlockStart; split <;> rfl
  simp only [nrziPeak, andThen_eq_ok] at ha
  obtain ⟨a2, h2, h3⟩ := ha
  cases h3
  change (speedResetPeak c k pk a2.nrzi).postCounter ≤ _
  rw [hsr]
  split at h2
  · simp only [nrziLatePeak] at h2
    split at h2
    · cases h2
      simp only [nrziLateData]
      split <;> exact Nat.le_of_eq hb
    · split at h2
      · rw [andThen_eq_ok] at h2
        obtain ⟨a1, -, h5⟩ := h2
        cases h5
        exact Nat.zero_le _
      · cases h2; exact Nat.le_of_eq hb
  · cases h2; exact Nat.le_of_eq hb

/-! ## One midbit -/

/-- Pending flags cleared on the tracks `m`. -/
def clearPending (m : List (Fin 9)) (a : Attempt) : Attempt :=
  m.foldl (fun a k => a.modTr k fun t => { t with pending := false }) a

theorem clearPending_inv {l : Latched} (hz : l.runs .nrzi = true) {m : List (Fin 9)}
    (hm : ∀ k ∈ m, k.val < l.ntrks) {a : Attempt} (h : AttemptInv l a) :
    AttemptInv l (clearPending m a) ∧ DecodeFrame l a (clearPending m a) := by
  induction m generalizing a with
  | nil => exact ⟨h, DecodeFrame.refl l a⟩
  | cons k m ih =>
    obtain ⟨i1, f1⟩ := PendStep.attempt (t := { a.tr k with pending := false }) hz
      (hm k List.mem_cons_self) ⟨rfl, rfl, rfl, rfl⟩ h
    obtain ⟨i2, f2⟩ := ih (fun j hj => hm j (List.mem_cons_of_mem _ hj)) i1
    exact ⟨i2, f1.trans f2⟩

theorem clearPending_nrzi (m : List (Fin 9)) (a : Attempt) : (clearPending m a).nrzi = a.nrzi := by
  induction m generalizing a with
  | nil => rfl
  | cons k m ih => exact ih _

theorem mem_midbitTracks {n : Nat} {b : F64} {a : Attempt} {k : Fin 9} (h : k ∈ midbitTracks n b a) :
    k.val < n := mem_tracks.mp (List.mem_filter.mp h).1

/-- How many tracks are pending. -/
def pendingCount (n : Nat) (a : Attempt) : Nat := ((tracks n).filter fun k => (a.tr k).pending).length

theorem pendingCount_le (n : Nat) (a : Attempt) : pendingCount n a ≤ 9 :=
  Nat.le_trans (List.length_filter_le _ _) (tracks_length_le n)

/-- A midbit takes its tracks off the pending ones. -/
theorem pendingCount_clear (n : Nat) (b : F64) (a : Attempt) :
    pendingCount n (clearPending (midbitTracks n b a) a) + (midbitTracks n b a).length = pendingCount n a := by
  have hnd : (midbitTracks n b a).Nodup := (tracks_nodup n).filter _
  have htr := (foldl_modTr (fun t => { t with pending := false }) (midbitTracks n b a) hnd a).1
  have hp : ∀ k ∈ tracks n, ((clearPending (midbitTracks n b a) a).tr k).pending =
      ((a.tr k).pending && !fLe (a.tr k).tPending b) := by
    intro k hk
    rw [clearPending, htr k]
    by_cases hm : k ∈ midbitTracks n b a
    · rw [if_pos hm]
      have := (List.mem_filter.mp hm).2
      simp only [Bool.and_eq_true] at this
      simp [this]
    · rw [if_neg hm]
      have : ¬ ((a.tr k).pending && fLe (a.tr k).tPending b) = true :=
        fun e => hm (List.mem_filter.mpr ⟨hk, e⟩)
      cases h1 : (a.tr k).pending <;> cases h2 : fLe (a.tr k).tPending b <;> simp_all
  unfold pendingCount
  rw [List.filter_congr hp, midbitTracks]
  clear hnd htr hp
  generalize tracks n = ks
  induction ks with
  | nil => rfl
  | cons k ks ih =>
    cases h1 : (a.tr k).pending <;> cases h2 : fLe (a.tr k).tPending b <;>
      simp [List.filter_cons, h1, h2] <;> omega

/-- Everything one midbit can do: it keeps the invariant and the frame, and it takes a pending track
or counts one post cell up (rules R284 to R288). -/
theorem nrziMidbit_step {c : CfgFile} {n : Nat} {a : Attempt} {x : Attempt × Bool}
    (ha : nrziMidbit c n a = .ok x) :
    if x.2 then x.1.nrzi.postCounter = a.nrzi.postCounter + 1 ∧ 8 ≤ a.nrzi.postCounter
    else
      (a.nrzi.postCounter = 0 ∧ x.1.nrzi.postCounter = 0 ∧ pendingCount n x.1 < pendingCount n a ∧
        x.1.nrzi.nsym = a.nrzi.nsym + 1) ∨
      (x.1.nrzi.postCounter = a.nrzi.postCounter + 1 ∧ a.nrzi.postCounter < 8 ∧
        pendingCount n x.1 ≤ pendingCount n a ∧ x.1.nrzi.nsym = a.nrzi.nsym) := by
  have hc := pendingCount_clear n (fAdd a.nrzi.tLastclock (midbitSpan c a.nrzi)) a
  have hz : (clearPending (midbitTracks n (fAdd a.nrzi.tLastclock (midbitSpan c a.nrzi)) a) a).nrzi
      = a.nrzi := clearPending_nrzi _ a
  simp only [nrziMidbit] at ha
  generalize midbitTracks n (fAdd a.nrzi.tLastclock (midbitSpan c a.nrzi)) a = m at ha hc hz
  change _ = Except.ok x at ha
  split at ha
  · rename_i h0
    split at ha
    · cases ha
      refine .inr ⟨by simp [h0], by omega, ?_, rfl⟩
      change pendingCount n (clearPending m a) ≤ _
      omega
    · rename_i hne
      rw [andThen_eq_ok] at ha
      obtain ⟨a2, h2, h3⟩ := ha
      cases h3
      simp only [nrziDataCell, andThen_eq_ok] at h2
      obtain ⟨a3, h4, h5⟩ := h2
      cases h5
      obtain ⟨-, rfl⟩ := nrziAppend_eq_ok.mp h4
      have hpos : 0 < m.length := by
        cases m with
        | nil => exact absurd rfl hne
        | cons k m => simp
      refine .inl ⟨h0, ?_, ?_, ?_⟩
      · change (clearPending m a).nrzi.postCounter = 0
        rw [hz, h0]
      · change pendingCount n (clearPending m a) < _
        omega
      · change (clearPending m a).nrzi.nsym + 1 = _
        rw [hz]
  · split at ha
    · rename_i h8
      cases ha
      exact ⟨rfl, by simp at h8; omega⟩
    · rename_i h8
      cases ha
      refine .inr ⟨?_, by simp at h8; omega, ?_, ?_⟩
      · simp only [nrziPostCell]
        split
        · rfl
        · split <;> rfl
      · change pendingCount n (clearPending m a) ≤ _
        omega
      · simp only [nrziPostCell]
        split
        · rfl
        · split <;> rfl

theorem nrziPostCell_inv {l : Latched} (n : Nat) (sym : Sym) (hit : Bool) (avg tExp : F64) {z : Nrzi}
    (h : NrziInv l z) : NrziInv l (nrziPostCell n sym hit avg tExp z) ∧
      (nrziPostCell n sym hit avg tExp z).nsym = z.nsym := by
  unfold nrziPostCell
  split
  · exact ⟨⟨h.nsym, h.post, h.missed, h.clk⟩, rfl⟩
  · split <;> exact ⟨⟨h.nsym, h.post, h.missed, h.clk⟩, rfl⟩

theorem nrziMidbit_inv {l : Latched} (hz : l.runs .nrzi = true) {c : CfgFile} {a : Attempt}
    {x : Attempt × Bool} (h : AttemptInv l a) (h9 : a.nrzi.postCounter ≤ 8)
    (ha : nrziMidbit c l.ntrks a = .ok x) :
    AttemptInv l x.1 ∧ DecodeFrame l a x.1 := by
  simp only [nrziMidbit] at ha
  have hm : ∀ k ∈ midbitTracks l.ntrks (fAdd a.nrzi.tLastclock (midbitSpan c a.nrzi)) a, k.val < l.ntrks :=
    fun k hk => mem_midbitTracks hk
  generalize midbitTracks l.ntrks (fAdd a.nrzi.tLastclock (midbitSpan c a.nrzi)) a = m at ha hm
  obtain ⟨i1, f1⟩ := clearPending_inv hz hm h
  have hzz : (clearPending m a).nrzi = a.nrzi := clearPending_nrzi m a
  split at ha
  · rename_i h0
    split at ha
    · cases ha
      obtain ⟨i2, f2⟩ := i1.setNrzi hz
        (z := { { a.nrzi with postCounter := 1, tLastclock := fAdd a.nrzi.tLastclock a.nrzi.clk.value } with
          haveBoundary := true, tBoundary := fAdd a.nrzi.tLastclock (midbitSpan c a.nrzi) })
        ⟨h.nrzi.nsym, by simp, h.nrzi.missed, h.nrzi.clk⟩ (by rw [hzz])
      exact ⟨i2, f1.trans f2⟩
    · rw [andThen_eq_ok] at ha
      obtain ⟨a2, h2, h3⟩ := ha
      cases h3
      simp only [nrziDataCell, andThen_eq_ok] at h2
      obtain ⟨a3, h4, h5⟩ := h2
      cases h5
      obtain ⟨i2, f2⟩ := nrziAppend_inv hz i1 (symFits_symOf hm) h4
      refine And.imp id (fun f3 => (f1.trans f2).trans f3) (i2.setNrzi hz (z := _) ?_ rfl)
      exact ⟨i2.nrzi.nsym, i2.nrzi.post, i2.nrzi.missed, clkAdjust_inv _ _ i2.nrzi.clk⟩
  · split at ha
    · cases ha
      obtain ⟨i2, f2⟩ := i1.setNrzi hz (z := { a.nrzi with postCounter := a.nrzi.postCounter + 1 })
        ⟨h.nrzi.nsym, by simp; omega, h.nrzi.missed, h.nrzi.clk⟩ (by rw [hzz])
      exact ⟨i2, f1.trans f2⟩
    · cases ha
      have hz1 : NrziInv l { a.nrzi with postCounter := a.nrzi.postCounter + 1 } :=
        ⟨h.nrzi.nsym, by simp; omega, h.nrzi.missed, h.nrzi.clk⟩
      have hpc := nrziPostCell_inv l.ntrks (symOf l.ntrks m) (!m.isEmpty) (pendingMean m a)
        (fAdd a.nrzi.tLastclock a.nrzi.clk.value) hz1
      refine And.imp id (fun f2 => f1.trans f2) (i1.setNrzi hz (z := _) ?_ ?_)
      · exact ⟨hpc.1.nsym, hpc.1.post, hpc.1.missed, hpc.1.clk⟩
      · rw [hzz]; exact hpc.2

/-- A midbit clears the pending flags of its tracks alone. -/
theorem clearPending_tr {m : List (Fin 9)} (hm : m.Nodup) (a : Attempt) (k : Fin 9) :
    (clearPending m a).tr k = if k ∈ m then { a.tr k with pending := false } else a.tr k :=
  (foldl_modTr (fun t => { t with pending := false }) m hm a).1 k

theorem clearPending_rest (m : List (Fin 9)) (a : Attempt) :
    clearPending m a = { a with trk := (clearPending m a).trk } := by
  induction m generalizing a with
  | nil => rfl
  | cons k m ih => exact ih _

/-- What a cell of the tail does: cell 4 of a 9-track tape gives the CRC, cell 8 the LRC (rule R286). -/
theorem nrziPostCell_cases (n : Nat) (sym : Sym) (hit : Bool) (avg tExp : F64) (z : Nrzi) :
    nrziPostCell n sym hit avg tExp z =
      if hit = true ∧ z.postCounter = 4 ∧ n = 9 then { z with crc := sym, tLastclock := avg }
      else if hit = true ∧ z.postCounter = 8 then { z with lrc := sym, tLastclock := avg }
      else { z with tLastclock := tExp } := by
  unfold nrziPostCell
  simp only [Config.nrziCrcPos, Config.nrziLrcPos, Bool.and_eq_true, beq_iff_eq, and_assoc]

/-- The symbol of a midbit has a 1 for each of its tracks and for no other. -/
theorem symOf_bits {n : Nat} (hn : n ≤ 9) {m : List (Fin 9)} (hm : ∀ k ∈ m, k.val < n) {k : Fin 9}
    (hk : k.val < n) : symBit n (symOf n m) k = decide (k ∈ m) := by
  have key : ∀ (m : List (Fin 9)), (∀ k ∈ m, k.val < n) → ∀ sym : Sym,
      symBit n (m.foldl (setBit n) sym) k = (symBit n sym k || decide (k ∈ m)) := by
    intro m
    induction m with
    | nil => intro _ sym; simp
    | cons j m ih =>
      intro h sym
      rw [List.foldl_cons, ih (fun i hi => h i (List.mem_cons_of_mem _ hi)), setBit_eq_putBit]
      by_cases hj : k = j
      · subst hj
        rw [symBit_putBit_same hn]
        simp
      · rw [symBit_putBit_other (h j List.mem_cons_self) hk hj]
        simp [hj]
  rw [symOf, key m hm]
  simp [symBit]

/-- A midbit does not unset datablock. -/
theorem nrziMidbit_datablock {c : CfgFile} {n : Nat} {a : Attempt} {x : Attempt × Bool}
    (ha : nrziMidbit c n a = .ok x) : x.1.nrzi.datablock = a.nrzi.datablock := by
  have hz : ∀ m, (clearPending m a).nrzi = a.nrzi := fun m => clearPending_nrzi m a
  simp only [nrziMidbit] at ha
  generalize midbitTracks n (fAdd a.nrzi.tLastclock (midbitSpan c a.nrzi)) a = m at ha
  have hzm := hz m
  split at ha
  · split at ha
    · cases ha; rfl
    · rw [andThen_eq_ok] at ha
      obtain ⟨a2, h2, h3⟩ := ha
      cases h3
      simp only [nrziDataCell, andThen_eq_ok] at h2
      obtain ⟨a3, h4, h5⟩ := h2
      cases h5
      obtain ⟨-, rfl⟩ := nrziAppend_eq_ok.mp h4
      change (clearPending m a).nrzi.datablock = _
      rw [hzm]
  · split at ha
    · cases ha; rfl
    · cases ha
      simp only [nrziPostCell]
      split
      · rfl
      · split <;> rfl

/-! ## The midbit loop -/

/-- What is left for the loop to do: tracks to take and post cells to count (rule R284). -/
def midbitMeasure (n : Nat) (a : Attempt) : Nat := pendingCount n a + (9 - a.nrzi.postCounter)

theorem midbitMeasure_lt {c : CfgFile} {n : Nat} {a : Attempt} {x : Attempt × Bool}
    (ha : nrziMidbit c n a = .ok x) (hx : x.2 = false) : midbitMeasure n x.1 < midbitMeasure n a := by
  have := nrziMidbit_step ha
  rw [hx] at this
  simp only [Bool.false_eq_true, if_false] at this
  unfold midbitMeasure
  omega

/-- More fuel than the measure changes nothing (rule R284). -/
theorem nrziLoop_fuel (c : CfgFile) (n : Nat) (now : F64) {f f' : Nat} {a : Attempt}
    (hf : midbitMeasure n a < f) (hf' : midbitMeasure n a < f') :
    nrziLoop c n now f a = nrziLoop c n now f' a := by
  induction f generalizing f' a with
  | zero => omega
  | succ f ih =>
    obtain ⟨f', rfl⟩ : ∃ g, f' = g + 1 := ⟨f' - 1, by omega⟩
    rw [nrziLoop, nrziLoop]
    split
    · cases hm : nrziMidbit c n a with
      | error r => rfl
      | ok x =>
        rw [andThen_ok_left, andThen_ok_left]
        cases hx : x.2
        · have := midbitMeasure_lt hm hx
          simp only [Bool.false_eq_true, if_false]
          exact ih (by omega) (by omega)
        · rfl
    · rfl

theorem midbitMeasure_lt_bound (n : Nat) (a : Attempt) : midbitMeasure n a < midbitBound n a := by
  unfold midbitMeasure midbitBound pendingCount
  omega

/-- The sample step of a block that has started is the loop of rule R284, without its bound. -/
theorem nrziSampleStep_loop {c : CfgFile} {n : Nat} {now : F64} {a : Attempt}
    (hd : a.nrzi.datablock = true) : nrziSampleStep c n now a =
      if midbitDue c now a.nrzi then
        andThen (nrziMidbit c n a) fun x => if x.2 then .ok x else nrziSampleStep c n now x.1
      else .ok (a, false) := by
  rw [nrziSampleStep, if_pos hd, midbitBound, nrziLoop]
  split
  · cases hm : nrziMidbit c n a with
    | error r => rfl
    | ok x =>
      rw [andThen_ok_left, andThen_ok_left]
      cases hx : x.2
      · simp only [Bool.false_eq_true, if_false]
        rw [nrziSampleStep, if_pos ((nrziMidbit_datablock hm).trans hd)]
        refine nrziLoop_fuel c n now ?_ (midbitMeasure_lt_bound n x.1)
        have h1 := midbitMeasure_lt hm hx
        have h2 := midbitMeasure_lt_bound n a
        unfold midbitBound at h2
        omega
      · rfl
  · rfl

theorem nrziLoop_inv {l : Latched} (hz : l.runs .nrzi = true) {c : CfgFile} {now : F64} {f : Nat}
    {a : Attempt} {x : Attempt × Bool} (h : AttemptInv l a) (h9 : a.nrzi.postCounter ≤ 8)
    (ha : nrziLoop c l.ntrks now f a = .ok x) :
    AttemptInv l x.1 ∧ DecodeFrame l a x.1 ∧ (x.2 = false → x.1.nrzi.postCounter ≤ 8) := by
  induction f generalizing a with
  | zero => cases ha; exact ⟨h, DecodeFrame.refl l _, fun _ => h9⟩
  | succ f ih =>
    rw [nrziLoop] at ha
    split at ha
    · rw [andThen_eq_ok] at ha
      obtain ⟨y, h1, h2⟩ := ha
      obtain ⟨i1, f1⟩ := nrziMidbit_inv hz h h9 h1
      have hs := nrziMidbit_step h1
      cases hy : y.2
      · rw [hy] at h2 hs
        simp only [Bool.false_eq_true, if_false] at h2 hs
        obtain ⟨i2, f2, e2⟩ := ih i1 (by omega) h2
        exact ⟨i2, f1.trans f2, e2⟩
      · rw [hy] at h2
        cases h2
        exact ⟨i1, f1, fun e => by rw [hy] at e; cases e⟩
    · cases ha
      exact ⟨h, DecodeFrame.refl l _, fun _ => h9⟩

theorem nrziSampleStep_inv {l : Latched} (hz : l.runs .nrzi = true) {c : CfgFile} {now : F64}
    {a : Attempt} {x : Attempt × Bool} (h : AttemptInv l a) (h9 : a.nrzi.postCounter ≤ 8)
    (ha : nrziSampleStep c l.ntrks now a = .ok x) :
    AttemptInv l x.1 ∧ DecodeFrame l a x.1 ∧ (x.2 = false → x.1.nrzi.postCounter ≤ 8) := by
  unfold nrziSampleStep at ha
  split at ha
  · exact nrziLoop_inv hz h h9 ha
  · cases ha
    exact ⟨h, DecodeFrame.refl l _, fun _ => h9⟩

/-! ## Room -/

theorem nrziMidbit_answers {c : CfgFile} {n : Nat} {a : Attempt}
    (h : a.nrzi.nsym < Config.databuf ∨ pendingCount n a = 0) : ∃ x, nrziMidbit c n a = .ok x := by
  have hc := pendingCount_clear n (fAdd a.nrzi.tLastclock (midbitSpan c a.nrzi)) a
  have hz : (clearPending (midbitTracks n (fAdd a.nrzi.tLastclock (midbitSpan c a.nrzi)) a) a).nrzi
      = a.nrzi := clearPending_nrzi _ a
  simp only [nrziMidbit]
  generalize midbitTracks n (fAdd a.nrzi.tLastclock (midbitSpan c a.nrzi)) a = m at hc hz
  split
  · split
    · exact ⟨_, rfl⟩
    · rename_i hne
      have hpos : 0 < m.length := by
        cases m with
        | nil => exact absurd rfl hne
        | cons k m => simp
      have hlt : (clearPending m a).nrzi.nsym < Config.databuf := by rw [hz]; omega
      have := nrziAppend_answers hlt (symOf n m)
      change ∃ x, andThen (nrziDataCell c (symOf n m) _ _ (clearPending m a)) _ = _
      rw [nrziDataCell, this]
      exact ⟨_, rfl⟩
  · split <;> exact ⟨_, rfl⟩

/-- The loop answers where the buffer has room for a symbol per pending track. -/
theorem nrziLoop_answers {c : CfgFile} {n : Nat} {now : F64} {f : Nat} {a : Attempt}
    (h : a.nrzi.nsym + pendingCount n a ≤ Config.databuf) : ∃ x, nrziLoop c n now f a = .ok x := by
  induction f generalizing a with
  | zero => exact ⟨_, rfl⟩
  | succ f ih =>
    rw [nrziLoop]
    split
    · obtain ⟨x, hx⟩ := nrziMidbit_answers (c := c) (n := n) (a := a) (by omega)
      have hs := nrziMidbit_step hx
      rw [hx, andThen_ok_left]
      cases hx2 : x.2
      · rw [hx2] at hs
        simp only [Bool.false_eq_true, if_false] at hs ⊢
        exact ih (by omega)
      · exact ⟨_, rfl⟩
    · exact ⟨_, rfl⟩

/-- A peak is decoded without a fault where the buffer has room for one symbol, of which it takes at
most one, and only when post_counter is 1. -/
theorem nrziPeak_answers {c : CfgFile} {n : Nat} {k : Fin 9} {pk : Peak} {a : Attempt}
    (h : a.nrzi.nsym < Config.databuf ∨ a.nrzi.postCounter ≠ 1) :
    ∃ a', nrziPeak c n k pk a = .ok a' ∧
      ((a'.nrzi.nsym = a.nrzi.nsym ∧ a'.nrzi.postCounter = a.nrzi.postCounter) ∨
       (a'.nrzi.nsym = a.nrzi.nsym + 1 ∧ a'.nrzi.postCounter = 0 ∧ a.nrzi.postCounter = 1)) ∧
      (∀ j, j ≠ k → a'.tr j = a.tr j) := by
  have hb : (nrziBlockStart pk a.nrzi).nsym = a.nrzi.nsym ∧
      (nrziBlockStart pk a.nrzi).postCounter = a.nrzi.postCounter := by
    unfold nrziBlockStart; split <;> exact ⟨rfl, rfl⟩
  have hsr : ∀ z, (speedResetPeak c k pk z).nsym = z.nsym ∧
      (speedResetPeak c k pk z).postCounter = z.postCounter := by
    intro z
    unfold speedResetPeak
    split
    · split
      · split <;> exact ⟨rfl, rfl⟩
      · split <;> exact ⟨rfl, rfl⟩
    · exact ⟨rfl, rfl⟩
  simp only [nrziPeak]
  split
  · simp only [nrziLatePeak]
    split
    · refine ⟨_, rfl, .inl ⟨(hsr _).1.trans ?_, (hsr _).2.trans ?_⟩, fun j _ => ?_⟩
      · simp only [nrziLateData]; split <;> exact hb.1
      · simp only [nrziLateData]; split <;> exact hb.2
      · simp only [nrziLateData]; split <;> rfl
    · split
      · rename_i h1
        rw [nrziAppend_answers (by simp only [hb.1, hb.2] at h1 ⊢; omega)]
        refine ⟨_, rfl, .inr ⟨(hsr _).1.trans ?_, (hsr _).2, ?_⟩, fun j _ => rfl⟩
        · exact congrArg (· + 1) hb.1
        · exact hb.2.symm.trans h1
      · exact ⟨_, rfl, .inl ⟨(hsr _).1.trans hb.1, (hsr _).2.trans hb.2⟩, fun j _ => rfl⟩
  · refine ⟨_, rfl, .inl ⟨(hsr _).1.trans hb.1, (hsr _).2.trans hb.2⟩, fun j hj => ?_⟩
    exact Attempt.tr_setTr_other _ _ hj

/-- The loop ends the block exactly when post_counter passes 8, and else leaves no midbit due. -/
theorem nrziLoop_ends {c : CfgFile} {n : Nat} {now : F64} {f : Nat} {a : Attempt} {x : Attempt × Bool}
    (hf : midbitMeasure n a < f) (h8 : a.nrzi.postCounter ≤ 8) (h : nrziLoop c n now f a = .ok x) :
    (x.2 = true ↔ 8 < x.1.nrzi.postCounter) ∧ (x.2 = false → midbitDue c now x.1.nrzi = false) := by
  induction f generalizing a with
  | zero => omega
  | succ f ih =>
    simp only [nrziLoop] at h
    split at h
    · obtain ⟨y, hy, h⟩ := andThen_eq_ok.1 h
      have hs := nrziMidbit_step hy
      split at h
      · rename_i hy2
        cases h
        rw [if_pos hy2] at hs
        refine ⟨⟨fun _ => by omega, fun _ => hy2⟩, fun h => by rw [hy2] at h; cases h⟩
      · rename_i hy2
        rw [if_neg hy2] at hs
        have hm := midbitMeasure_lt hy (by simpa using hy2)
        exact ih (by omega) (by omega) h
    · rename_i hd
      cases h
      refine ⟨⟨fun h => (by cases h), fun h => ?_⟩, fun _ => by simpa using hd⟩
      simp only at h; omega

/-- The step back of the CRC register. -/
def crcInv (y : Sym) : Sym := let x := y.rotateLeft 1; if x.getLsbD 0 then x ^^^ 0x0F0 else x

/-- The step of the CRC register on what it and the symbol add up to. -/
def crcG (x : Sym) : Sym := (if x.getLsbD 0 then x ^^^ 0x0F0 else x).rotateRight 1

set_option maxRecDepth 100000 in
/-- The CRC step can be undone. -/
theorem crcInv_crcG : ∀ x : Sym, crcInv (crcG x) = x := by decide

/-- The CRC step depends on the exclusive OR alone. -/
theorem crcStep_eq (acc d : Sym) : nrziCrcStep acc d = crcG (acc ^^^ d) := rfl

/-- The CRC step is one to one. -/
theorem crcG_inj {x y : Sym} (h : crcG x = crcG y) : x = y := by rw [← crcInv_crcG x, h, crcInv_crcG]

/-- Exclusive OR can be undone. -/
theorem xor_right_inj9 {a b c : Sym} (h : a ^^^ c = b ^^^ c) : a = b := by
  have := congrArg (· ^^^ c) h; simpa [BitVec.xor_assoc] using this

/-- Exclusive OR can be undone. -/
theorem xor_left_inj9 {a b c : Sym} (h : c ^^^ a = c ^^^ b) : a = b := by
  rw [BitVec.xor_comm c a, BitVec.xor_comm c b] at h; exact xor_right_inj9 h

/-- A run of the CRC is one to one in where it starts. -/
theorem foldl_crc_inj {ds : List Sym} {a b : Sym} (h : ds.foldl nrziCrcStep a = ds.foldl nrziCrcStep b) : a = b := by
  induction ds generalizing a b with
  | nil => exact h
  | cons d ds ih => have := ih h; rw [crcStep_eq, crcStep_eq] at this; exact xor_right_inj9 (crcG_inj this)

end Sys2Proof.Machine
end

