-- ==== Sys2Proof/Laws/Pe.lean ====
section
/-! SUPPORT. The PE decoder keeps the attempt's invariant and stores only its track's new bits (rules
R240 to R252), and appends without a fault where there is room (rules R247, R248). -/

namespace Sys2Proof.Machine

/-! ## One bit of one track in the data buffer -/

/-- Entry `i` with track `k`'s symbol bit and faked bit replaced. -/
def writeBits (n : Nat) (k : Fin 9) (b f : Bool) (i : Nat) (buf : Buf) : Buf :=
  bufWrite buf i { sym := putBit n (bufRead buf i).sym k b, fmask := putBit n (bufRead buf i).fmask k f }

theorem writeBits_read {buf : Buf} (hw : Memory.wf buf = true) (n : Nat) (k : Fin 9) (b f : Bool)
    (i i' : Nat) : bufRead (writeBits n k b f i buf) i' =
      if i' = i then { sym := putBit n (bufRead buf i).sym k b, fmask := putBit n (bufRead buf i).fmask k f }
      else bufRead buf i' := bufRead_bufWrite hw i i' _

/-- Only the one bit of the one entry changes. -/
theorem writeBits_bits {buf : Buf} (hw : Memory.wf buf = true) {n : Nat} (hn : n ≤ 9) {k j : Fin 9}
    (hk : k.val < n) (hj : j.val < n) (b f : Bool) (i i' : Nat) :
    symBit n (bufRead (writeBits n k b f i buf) i').sym j =
      (if i' = i ∧ j = k then b else symBit n (bufRead buf i').sym j) ∧
    symBit n (bufRead (writeBits n k b f i buf) i').fmask j =
      (if i' = i ∧ j = k then f else symBit n (bufRead buf i').fmask j) := by
  rw [writeBits_read hw]
  by_cases hi : i' = i
  · subst hi
    by_cases hjk : j = k
    · subst hjk; simp [symBit_putBit_same hn]
    · simp [hjk, symBit_putBit_other hk hj hjk]
  · simp [hi]

theorem writeBits_width {buf : Buf} (hw : Memory.wf buf = true) {n : Nat} {k : Fin 9} (hk : k.val < n)
    (b f : Bool) (i : Nat)
    (h : ∀ i j, n ≤ j → (bufRead buf i).sym.getLsbD j = false ∧ (bufRead buf i).fmask.getLsbD j = false)
    (i' j : Nat) (hj : n ≤ j) :
    (bufRead (writeBits n k b f i buf) i').sym.getLsbD j = false ∧
    (bufRead (writeBits n k b f i buf) i').fmask.getLsbD j = false := by
  rw [writeBits_read hw]
  by_cases hi : i' = i
  · rw [if_pos hi, getLsbD_putBit_other _ _ (by omega), getLsbD_putBit_other _ _ (by omega)]
    exact h i j hj
  · rw [if_neg hi]; exact h i' j hj

theorem fakedIn_succ (n : Nat) (k : Fin 9) (b : Buf) (m : Nat) :
    fakedIn n k b (m + 1) = fakedIn n k b m + boolNat (symBit n (bufRead b m).fmask k) := by
  unfold fakedIn
  rw [List.range_succ, List.filter_append, List.length_append]
  cases h : symBit n (bufRead b m).fmask k <;> simp [List.filter, boolNat, h]

theorem fakedIn_congr {n : Nat} {k : Fin 9} {b b' : Buf} {m : Nat}
    (h : ∀ i, i < m → symBit n (bufRead b i).fmask k = symBit n (bufRead b' i).fmask k) :
    fakedIn n k b m = fakedIn n k b' m := by
  induction m with
  | zero => rfl
  | succ m ih =>
    rw [fakedIn_succ, fakedIn_succ, ih fun i hi => h i (by omega), h m (by omega)]

/-! ## Appending a bit -/

/-- What pe_append leaves when it has room (rule R248). -/
def peAppended (n : Nat) (k : Fin 9) (b f : Bool) (a : Attempt) : Attempt :=
  { a with buf := writeBits n k b f (a.tr k).datacount a.buf }.setTr k
    { a.tr k with datacount := (a.tr k).datacount + 1 }

theorem peAppended_tr_other (n : Nat) {k j : Fin 9} (b f : Bool) (a : Attempt) (hj : j ≠ k) :
    (peAppended n k b f a).tr j = a.tr j := Attempt.tr_setTr_other _ _ hj

/-- Everything pe_append can do. -/
theorem peAppend_eq (n : Nat) (k : Fin 9) (b f : Bool) (a : Attempt) :
    peAppend n k b f a = if Config.databuf ≤ (a.tr k).datacount
      then .error ⟨.bufferOverflow, BitVec.ofNat 16 k.val⟩ else .ok (peAppended n k b f a) := rfl

theorem peAppend_eq_ok {n : Nat} {k : Fin 9} {b f : Bool} {a a' : Attempt} :
    peAppend n k b f a = .ok a' ↔ (a.tr k).datacount < Config.databuf ∧ a' = peAppended n k b f a := by
  rw [peAppend_eq]
  split
  · simp; omega
  · simp; exact ⟨fun h => ⟨by omega, h.symm⟩, fun h => h.2.symm⟩

/-- The attempt with `d` more faked bits counted for track `k`. -/
def bumpFaked (k : Fin 9) (d : Nat) (a : Attempt) : Attempt :=
  a.modTr k fun t => { t with faked := t.faked + d }

theorem bumpFaked_zero (k : Fin 9) (a : Attempt) : bumpFaked k 0 a = a := by
  exact Attempt.setTr_tr a k

/-- One more bit: the invariant, with the faked bits counted ahead, and the frame. -/
theorem peAppend_inv {l : Latched} (hl : LatFacts l) (hp : l.runs .pe = true) {k : Fin 9}
    (hk : k.val < l.ntrks) {b f : Bool} {d : Nat} {a a' : Attempt}
    (h : AttemptInv l (bumpFaked k d a)) (ha : peAppend l.ntrks k b f a = .ok a') :
    AttemptInv l (bumpFaked k (d + boolNat f) a') ∧ DecodeFrame l a a' := by
  obtain ⟨hdc, rfl⟩ := peAppend_eq_ok.mp ha
  have hn := hl.ntrks_le
  have hwf : Memory.wf a.buf = true := h.buf.wf
  have hg : l.runs .gcr = false := by
    obtain ⟨hs, hm⟩ := runs_iff.mp hp; simp [Latched.runs, hm]
  have hz : l.runs .nrzi = false := by
    obtain ⟨hs, hm⟩ := runs_iff.mp hp; simp [Latched.runs, hm]
  have hs : l.scan = false := (runs_iff.mp hp).1
  have hbits := fun j hj i' => writeBits_bits hwf hn hk (j := j) hj b f (a.tr k).datacount i'
  have hcol := fun j hj => h.buf.pe hp j hj
  refine ⟨⟨fun j => ?_, h.nrzi, ⟨?_, ?_, ?_, ?_, ?_, ?_, ?_⟩, h.gcrNsym⟩, ?_⟩
  · have hj := h.tracks j
    simp only [bumpFaked, Attempt.tr_modTr, peAppended, Attempt.tr_setTr] at hj ⊢
    by_cases hjk : j = k
    · simp only [hjk, if_true] at hj ⊢
      exact ⟨hj.fifo, hj.win, hj.blackout, hj.hwin, by simp only; omega,
        by have := hj.bits; rw [hg] at this ⊢; exact this, hj.resync, hj.gain, hj.clk⟩
    · simp only [hjk, if_false] at hj ⊢; exact hj
  · exact bufWrite_wf hwf hdc _
  · exact fun i j hj => writeBits_width hwf hk b f _ h.buf.width i j hj
  · intro e; rw [hp] at e; cases e
  · intro _ j hj
    have hc := hcol j hj
    have hb := hbits j hj
    by_cases hjk : j = k
    · subst hjk
      have hc1 : ∀ i, (a.tr j).datacount ≤ i → symBit l.ntrks (bufRead a.buf i).sym j = false ∧
          symBit l.ntrks (bufRead a.buf i).fmask j = false := by
        have := hc.clear
        simpa [bumpFaked, Attempt.tr_modTr] using this
      have hc2 : (a.tr j).faked + d = fakedIn l.ntrks j a.buf (a.tr j).datacount := by
        have := hc.faked
        simpa [bumpFaked, Attempt.tr_modTr] using this
      constructor
      · intro i hi
        simp [bumpFaked, Attempt.tr_modTr, peAppended, Attempt.tr_setTr] at hi
        have := hb i
        rw [if_neg (by omega), if_neg (by omega)] at this
        simp only [bumpFaked, Attempt.modTr_buf, peAppended, Attempt.setTr_buf]
        rw [this.1, this.2]
        exact hc1 i (by omega)
      · simp only [bumpFaked, Attempt.tr_modTr, peAppended, Attempt.tr_setTr, if_true,
          Attempt.modTr_buf, Attempt.setTr_buf]
        rw [fakedIn_succ, (hb _).2, if_pos ⟨rfl, rfl⟩,
          fakedIn_congr (b' := a.buf) fun i hi => by
            rw [(hb i).2, if_neg (by omega)], ← hc2]
        omega
    · have hc1 : ∀ i, (a.tr j).datacount ≤ i → symBit l.ntrks (bufRead a.buf i).sym j = false ∧
          symBit l.ntrks (bufRead a.buf i).fmask j = false := by
        have := hc.clear
        simpa [bumpFaked, Attempt.tr_modTr, hjk] using this
      have hc2 : (a.tr j).faked = fakedIn l.ntrks j a.buf (a.tr j).datacount := by
        have := hc.faked
        simpa [bumpFaked, Attempt.tr_modTr, hjk] using this
      have hb' : ∀ i, symBit l.ntrks (bufRead (writeBits l.ntrks k b f (a.tr k).datacount a.buf) i).sym j
            = symBit l.ntrks (bufRead a.buf i).sym j ∧
          symBit l.ntrks (bufRead (writeBits l.ntrks k b f (a.tr k).datacount a.buf) i).fmask j
            = symBit l.ntrks (bufRead a.buf i).fmask j := by
        intro i
        have := hb i
        rwa [if_neg (fun e => hjk e.2), if_neg (fun e => hjk e.2)] at this
      constructor
      · intro i hi
        simp [bumpFaked, Attempt.tr_modTr, peAppended, Attempt.tr_setTr, hjk] at hi
        simp only [bumpFaked, Attempt.modTr_buf, peAppended, Attempt.setTr_buf]
        rw [(hb' i).1, (hb' i).2]
        exact hc1 i hi
      · simp only [bumpFaked, Attempt.tr_modTr, peAppended, Attempt.tr_setTr, hjk, if_false,
          Attempt.modTr_buf, Attempt.setTr_buf]
        change (a.tr j).faked = _
        rw [hc2]
        exact fakedIn_congr fun i _ => (hb' i).2.symm
  · intro e; rw [hz] at e; cases e
  · intro e; rw [hg] at e; cases e
  · intro e; rw [hs] at e; cases e
  · refine ⟨⟨fun j hj => ?_, fun j => ?_, fun _ => rfl, Nat.le_refl _, rfl, ?_, ?_, ?_⟩, fun j => ?_,
      rfl, rfl, rfl⟩
    · exact Attempt.tr_setTr_other _ _ (fun e => by subst e; omega)
    · by_cases hjk : j = k
      · subst hjk
        simp only [peAppended, Attempt.tr_setTr_same]
        exact ⟨fun e => (by rw [hp] at e; cases e), fun _ => rfl, fun e => (by rw [hp] at e; cases e),
          fun _ => rfl, fun _ => rfl, Nat.le_succ _⟩
      · simp only [peAppended, Attempt.tr_setTr, hjk, if_false]
        exact TrackFrame.refl l _
    · intro _ j i hj hi
      have := hbits j hj i
      simp only [peAppended, Attempt.setTr_buf, Attempt.tr_setTr] at hi ⊢
      have hne : ¬ (i = (a.tr k).datacount ∧ j = k) := by
        rintro ⟨e1, e2⟩
        subst e2
        simp at hi
        omega
      rwa [if_neg hne, if_neg hne] at this
    · intro e; rw [hz] at e; cases e
    · intro e; rw [hp] at e; cases e
    · by_cases hjk : j = k
      · subst hjk; simp only [peAppended, Attempt.tr_setTr_same]; rfl
      · rw [peAppended_tr_other _ _ _ _ hjk]

theorem peAppend_inv_real {l : Latched} (hl : LatFacts l) (hp : l.runs .pe = true) {k : Fin 9}
    (hk : k.val < l.ntrks) {b : Bool} {a a' : Attempt}
    (h : AttemptInv l a) (ha : peAppend l.ntrks k b false a = .ok a') :
    AttemptInv l a' ∧ DecodeFrame l a a' := by
  have := peAppend_inv hl hp hk (d := 0) (by rwa [bumpFaked_zero]) ha
  rwa [boolNat, if_neg (by simp), Nat.zero_add, bumpFaked_zero] at this

/-! ## Track steps that append nothing -/

/-- A PE track's decoder moves on without appending. -/
structure PeStep (l : Latched) (t t' : Track) : Prop where
  rest : restFields t' = restFields t
  gcr : gcrFields t' = gcrFields t
  nrzi : pendingFields t' = pendingFields t
  count : t'.datacount = t.datacount ∧ t'.faked = t.faked
  clk : ClockInv l t.clk → ClockInv l t'.clk

theorem PeStep.front_inv {l : Latched} {t t' : Track} (h : PeStep l t t') (ht : FrontInv l t) :
    FrontInv l t' := by
  obtain ⟨e1, e2, e3, e4, e5, e6⟩ := restFields_front h.rest
  exact ⟨e1 ▸ ht.fifo, e2 ▸ ht.win, e3 ▸ ht.blackout, e4 ▸ ht.hwin, fun x => by
    rw [e5, e6]; exact ht.gain x⟩

theorem PeStep.inv {l : Latched} (hp : l.runs .pe = true) {t t' : Track} (h : PeStep l t t')
    (ht : TrackInv l t) : TrackInv l t' := by
  have hg : l.runs .gcr = false := by
    obtain ⟨hs, hm⟩ := runs_iff.mp hp; simp [Latched.runs, hm]
  have hf := h.front_inv ht.front
  have h2 := h.gcr
  simp only [gcrFields, Prod.mk.injEq] at h2
  refine ⟨hf.fifo, hf.win, hf.blackout, hf.hwin, h.count.1 ▸ ht.datacount, ?_, ?_, hf.gain, h.clk ht.clk⟩
  · have := ht.bits
    rw [hg] at this ⊢
    rw [h2.1]; exact this
  · rw [h2.2.2.2.1, h2.2.2.2.2.1]; exact ht.resync

theorem PeStep.frame {l : Latched} (hp : l.runs .pe = true) {t t' : Track} (h : PeStep l t t') :
    TrackFrame l t t' :=
  ⟨fun e => (by rw [hp] at e; cases e), fun _ => h.gcr, fun e => (by rw [hp] at e; cases e),
    fun _ => h.nrzi, fun e => (by rw [(runs_iff.mp hp).1] at e; cases e), Nat.le_of_eq h.count.1.symm⟩

theorem PeStep.attempt {l : Latched} (hp : l.runs .pe = true) {k : Fin 9} (hk : k.val < l.ntrks)
    {a : Attempt} {t : Track} (h : PeStep l (a.tr k) t) (ha : AttemptInv l a) :
    AttemptInv l (a.setTr k t) ∧ DecodeFrame l a (a.setTr k t) :=
  ⟨ha.setTr (h.inv hp (ha.tracks k)) fun _ => h.count, DecodeFrame.setTr hk (h.frame hp) h.rest⟩

theorem peReference_step (l : Latched) (time adj : F64) (b : Bool) (t : Track) :
    PeStep l t (peReference time adj b t) := ⟨rfl, rfl, rfl, ⟨rfl, rfl⟩, id⟩

theorem peDataClock_step (c : CfgFile) (l : Latched) (pk : Peak) (t : Track) :
    PeStep l t (peDataClock c pk t) := ⟨rfl, rfl, rfl, ⟨rfl, rfl⟩, clkAdjust_inv _ _⟩

theorem pePreamble_step (c : CfgFile) (l : Latched) (pk : Peak) (t : Track) :
    PeStep l t (pePreamble c pk t).1 := by
  simp only [pePreamble]
  split
  · exact ⟨rfl, rfl, rfl, ⟨rfl, rfl⟩, id⟩
  · split
    · exact ⟨rfl, rfl, rfl, ⟨rfl, rfl⟩, clkAdjust_inv _ _⟩
    · exact ⟨rfl, rfl, rfl, ⟨rfl, rfl⟩, id⟩

/-! ## The per-peak machine -/

/-- The fill: each turn appends one faked bit (rule R247). -/
theorem peFill_inv {l : Latched} (hl : LatFacts l) (hp : l.runs .pe = true) {k : Fin 9}
    (hk : k.val < l.ntrks) {b : Bool} {m d : Nat} {a a' : Attempt}
    (h : AttemptInv l (bumpFaked k d a))
    (ha : repeatTimes (peAppend l.ntrks k b true) m a = .ok a') :
    AttemptInv l (bumpFaked k (d + m) a') ∧ DecodeFrame l a a' := by
  induction m generalizing d a with
  | zero => cases ha; exact ⟨h, DecodeFrame.refl l _⟩
  | succ m ih =>
    simp only [repeatTimes] at ha
    split at ha
    · cases ha
    · rename_i a1 h1
      obtain ⟨i1, f1⟩ := peAppend_inv hl hp hk h h1
      obtain ⟨i2, f2⟩ := ih i1 ha
      refine ⟨?_, f1.trans f2⟩
      have : d + boolNat true + m = d + (m + 1) := by simp [boolNat]; omega
      rwa [this] at i2

theorem peReturn_inv {l : Latched} (hl : LatFacts l) (hp : l.runs .pe = true) {c : CfgFile}
    {k : Fin 9} (hk : k.val < l.ntrks) {pk : Peak} {a a' : Attempt} (h : AttemptInv l a)
    (ha : peReturn c l.ntrks k pk a = .ok a') : AttemptInv l a' ∧ DecodeFrame l a a' := by
  simp only [peReturn, andThen_eq_ok] at ha
  obtain ⟨a1, h1, a2, h2, h3⟩ := ha
  cases h3
  obtain ⟨i1, f1⟩ := peFill_inv hl hp hk (d := 0) (by rwa [bumpFaked_zero]) h1
  rw [Nat.zero_add] at i1
  obtain ⟨i2, f2⟩ := peAppend_inv_real hl hp hk i1 h2
  obtain ⟨i3, f3⟩ := (peReference_step l pk.t 0 (polTop pk.pol) (a2.tr k)).attempt hp hk i2
  have fb : DecodeFrame l a1 (bumpFaked k (peFillCount c l.ntrks k a) a1) :=
    DecodeFrame.setTr hk ⟨fun e => (by rw [hp] at e; cases e), fun _ => rfl,
      fun e => (by rw [hp] at e; cases e), fun _ => rfl, fun _ => rfl, Nat.le_refl _⟩ rfl
  exact ⟨i3, ((f1.trans fb).trans f2).trans f3⟩

theorem peData_inv {l : Latched} (hl : LatFacts l) (hp : l.runs .pe = true) {c : CfgFile}
    {k : Fin 9} (hk : k.val < l.ntrks) {pk : Peak} {a a' : Attempt} (h : AttemptInv l a)
    (ha : peData c l.ntrks k pk a = .ok a') : AttemptInv l a' ∧ DecodeFrame l a a' := by
  simp only [peData] at ha
  split at ha
  · rw [andThen_eq_ok] at ha
    obtain ⟨a1, h1, h2⟩ := ha
    cases h2
    obtain ⟨i1, f1⟩ := peAppend_inv_real hl hp hk h h1
    obtain ⟨i2, f2⟩ := (peDataClock_step c l pk (a1.tr k)).attempt hp hk i1
    exact ⟨i2, f1.trans f2⟩
  · cases ha
    exact PeStep.attempt hp hk ⟨rfl, rfl, rfl, ⟨rfl, rfl⟩, id⟩ h

theorem pePeak_inv {l : Latched} (hl : LatFacts l) (hp : l.runs .pe = true) {c : CfgFile}
    {k : Fin 9} (hk : k.val < l.ntrks) {pk : Peak} {a : Attempt} {x : Attempt × Bool}
    (h : AttemptInv l a) (ha : pePeak c l.ntrks k pk a = .ok x) :
    AttemptInv l x.1 ∧ DecodeFrame l a x.1 := by
  obtain ⟨i1, f1⟩ := PeStep.attempt (t := { a.tr k with idle := false }) hp hk
    ⟨rfl, rfl, rfl, ⟨rfl, rfl⟩, id⟩ h
  simp only [pePeak] at ha
  split at ha
  · cases ha
    obtain ⟨i2, f2⟩ := PeStep.attempt
      (t := { (a.modTr k fun t => { t with idle := false }).tr k with phase := .preamble }) hp hk
      ⟨rfl, rfl, rfl, ⟨rfl, rfl⟩, id⟩ i1
    exact ⟨i2, f1.trans f2⟩
  · cases ha
    obtain ⟨i2, f2⟩ := (pePreamble_step c l pk
      ((a.modTr k fun t => { t with idle := false }).tr k)).attempt hp hk i1
    exact ⟨i2, f1.trans f2⟩
  · rw [andThen_eq_ok] at ha
    obtain ⟨a2, h2, h3⟩ := ha
    cases h3
    split at h2
    · obtain ⟨i2, f2⟩ := peReturn_inv hl hp hk i1 h2
      exact ⟨i2, f1.trans f2⟩
    · obtain ⟨i2, f2⟩ := peData_inv hl hp hk i1 h2
      exact ⟨i2, f1.trans f2⟩

/-! ## The per-sample step -/

theorem idleTimeout_fields (factor now : F64) (started : Bool) (t : Track) :
    idleTimeout factor now started t = t ∨ idleTimeout factor now started t = { t with idle := true } := by
  unfold idleTimeout; split
  · exact .inr rfl
  · exact .inl rfl

/-- A change of every track, each of which keeps its invariant and frame, without the buffer. -/
theorem eachTrack_inv {l : Latched} {f : Track → Track} {a : Attempt} (h : AttemptInv l a)
    (hi : ∀ t, TrackInv l t → TrackInv l (f t)) (hf : ∀ t, TrackFrame l t (f t))
    (hd : ∀ t, (f t).datacount = t.datacount ∧ (f t).faked = t.faked)
    (hr : ∀ t, restFields (f t) = restFields t) :
    AttemptInv l (eachTrack l.ntrks f a) ∧ DecodeFrame l a (eachTrack l.ntrks f a) := by
  have key : ∀ ks : List (Fin 9), (∀ k ∈ ks, k.val < l.ntrks) → ∀ a, AttemptInv l a →
      AttemptInv l (ks.foldl (fun a k => a.modTr k f) a) ∧
      DecodeFrame l a (ks.foldl (fun a k => a.modTr k f) a) := by
    intro ks
    induction ks with
    | nil => exact fun _ a h => ⟨h, DecodeFrame.refl l a⟩
    | cons k ks ih =>
      intro hk a h
      have h1 : AttemptInv l (a.modTr k f) := h.setTr (hi _ (h.tracks k)) fun _ => hd _
      have f1 : DecodeFrame l a (a.modTr k f) := DecodeFrame.setTr (hk k List.mem_cons_self) (hf _) (hr _)
      obtain ⟨h2, f2⟩ := ih (fun j hj => hk j (List.mem_cons_of_mem _ hj)) _ h1
      exact ⟨h2, f1.trans f2⟩
  exact key _ (fun k hk => mem_tracks.mp hk) a h

theorem peSampleStep_inv {l : Latched} (hp : l.runs .pe = true) (c : CfgFile) (now : F64)
    {a : Attempt} (h : AttemptInv l a) :
    AttemptInv l (peSampleStep c l.ntrks now a).1 ∧ DecodeFrame l a (peSampleStep c l.ntrks now a).1 := by
  have hs : ∀ t, PeStep l t (idleTimeout (c.get .peIdleFactor) now (t.phase != .pre0) t) := by
    intro t
    rcases idleTimeout_fields (c.get .peIdleFactor) now (t.phase != .pre0) t with e | e <;> rw [e] <;>
      exact ⟨rfl, rfl, rfl, ⟨rfl, rfl⟩, id⟩
  exact eachTrack_inv h (fun t ht => (hs t).inv hp ht) (fun t => (hs t).frame hp) (fun t => (hs t).count)
    fun t => (hs t).rest

/-! ## Room -/

theorem peAppend_answers {n : Nat} {k : Fin 9} {a : Attempt} (h : (a.tr k).datacount < Config.databuf)
    (b f : Bool) : peAppend n k b f a = .ok (peAppended n k b f a) := by
  rw [peAppend_eq, if_neg (by omega)]

/-- The fill answers as long as it stays inside the buffer. -/
theorem peFill_answers {n : Nat} {k : Fin 9} {b : Bool} (m : Nat) (a : Attempt)
    (h : (a.tr k).datacount + m ≤ Config.databuf) :
    ∃ a', repeatTimes (peAppend n k b true) m a = .ok a' ∧
      (a'.tr k).datacount = (a.tr k).datacount + m ∧ ∀ j, j ≠ k → a'.tr j = a.tr j := by
  induction m generalizing a with
  | zero => exact ⟨a, rfl, rfl, fun _ _ => rfl⟩
  | succ m ih =>
    have h1 : ((peAppended n k b true a).tr k).datacount = (a.tr k).datacount + 1 := by
      simp [peAppended]
    obtain ⟨a2, h2, h3, h4⟩ := ih (peAppended n k b true a) (by omega)
    refine ⟨a2, ?_, by omega, fun j hj => (h4 j hj).trans (Attempt.tr_setTr_other _ _ hj)⟩
    rw [repeatTimes, peAppend_answers (by omega)]
    exact h2

theorem foldl_min_le {cs : List Nat} {x m : Nat} (h : x ≤ m) : cs.foldl min x ≤ m := by
  induction cs generalizing x with
  | nil => exact h
  | cons c cs ih => exact ih (Nat.le_trans (Nat.min_le_left _ _) h)

theorem foldl_max_le {cs : List Nat} {x m : Nat} (h : x ≤ m) (hc : ∀ c ∈ cs, c ≤ m) :
    cs.foldl max x ≤ m := by
  induction cs generalizing x with
  | nil => exact h
  | cons c cs ih =>
    exact ih (Nat.max_le.mpr ⟨h, hc c List.mem_cons_self⟩) fun d hd => hc d (List.mem_cons_of_mem _ hd)

theorem sum_le_mul {cs : List Nat} {m : Nat} (hc : ∀ c ∈ cs, c ≤ m) : cs.sum ≤ cs.length * m := by
  induction cs with
  | nil => simp
  | cons c cs ih =>
    have h1 := hc c List.mem_cons_self
    have h2 := ih fun d hd => hc d (List.mem_cons_of_mem _ hd)
    simp only [List.sum_cons, List.length_cons, Nat.add_mul]
    omega

/-- The fill's target is no more than the greatest of the other tracks' counts (rule R247). -/
theorem peFillTarget_le {target m : Nat} {cs : List Nat} (hne : cs ≠ []) (hc : ∀ c ∈ cs, c ≤ m) :
    peFillTarget target cs ≤ m := by
  have hlen : 0 < cs.length := List.length_pos_iff.mpr hne
  unfold peFillTarget
  split
  · refine foldl_min_le ?_
    cases cs with
    | nil => exact absurd rfl hne
    | cons c cs => exact hc c List.mem_cons_self
  · exact foldl_max_le (Nat.zero_le _) hc
  · refine Nat.div_le_of_le_mul ?_
    exact sum_le_mul hc

/-- A peak is decoded without a fault where its track's buffer column is not full, and no other
track's count at the start of the SAMPLE fills the buffer. -/
theorem pePeak_answers {c : CfgFile} {n : Nat} {k : Fin 9} {pk : Peak} {a : Attempt}
    (hk : (a.tr k).datacount < Config.databuf)
    (hd : ∀ j : Fin 9, j.val < n → (a.tr j).dcStart < Config.databuf) :
    ∃ x, pePeak c n k pk a = .ok x ∧ ∀ j, j ≠ k → x.1.tr j = a.tr j := by
  simp only [pePeak]
  split
  · refine ⟨_, rfl, fun j hj => ?_⟩
    simp [Attempt.tr_modTr, hj]
  · refine ⟨_, rfl, fun j hj => ?_⟩
    simp [Attempt.tr_modTr, Attempt.tr_setTr, hj]
  · generalize ha1 : (a.modTr k fun t => { t with idle := false }) = a1
    have hk1 : (a1.tr k).datacount < Config.databuf := by subst ha1; simpa [Attempt.tr_modTr] using hk
    have hd1 : ∀ j : Fin 9, j.val < n → (a1.tr j).dcStart < Config.databuf := by
      intro j hj
      subst ha1
      have := hd j hj
      rw [Attempt.tr_modTr]
      split
      · rename_i e; subst e; exact this
      · exact this
    have ho : ∀ j, j ≠ k → a1.tr j = a.tr j := by
      intro j hj; subst ha1; simp [Attempt.tr_modTr, hj]
    split
    · -- the track returns from a dropout
      have hfill : (a1.tr k).datacount + peFillCount c n k a1 < Config.databuf := by
        unfold peFillCount
        simp only []
        split
        · simpa using hk1
        · rename_i hne
          have hT : peFillTarget (c.nat .peFakeTarget)
              ((peOthers n k a1).map fun j => (a1.tr j).dcStart) ≤ Config.databuf - 1 := by
            refine peFillTarget_le ?_ ?_
            · intro e; rw [List.map_eq_nil_iff] at e; rw [e] at hne; exact hne rfl
            · intro x hx
              obtain ⟨j, hj, rfl⟩ := List.mem_map.mp hx
              have hjn : j.val < n := mem_tracks.mp (List.mem_filter.mp hj).1
              have := hd1 j hjn
              omega
          omega
      obtain ⟨a2, h2, h3, h4⟩ := peFill_answers (n := n) (k := k) (b := (a1.tr k).lastbit)
        (peFillCount c n k a1) a1 (Nat.le_of_lt hfill)
      have h5 : ((a2.modTr k fun t => { t with faked := t.faked + peFillCount c n k a1 }).tr k).datacount
          < Config.databuf := by rw [Attempt.tr_modTr_same]; exact h3 ▸ hfill
      refine ⟨_, by
        simp only [peReturn, h2, andThen_ok_left]
        rw [peAppend_answers h5]
        rfl, fun j hj => ?_⟩
      simp [Attempt.tr_modTr, peAppended_tr_other, hj]
      exact (h4 j hj).trans (ho j hj)
    · simp only [peData]
      split
      · refine ⟨_, by rw [peAppend_answers hk1]; rfl, fun j hj => ?_⟩
        simp [Attempt.tr_modTr, peAppended_tr_other, hj]
        exact ho j hj
      · refine ⟨_, rfl, fun j hj => ?_⟩
        simp [Attempt.tr_setTr, hj]
        exact ho j hj

end Sys2Proof.Machine
end

