-- ==== Sys2Proof/Laws/Gcr.lean ====
section
/-! SUPPORT. The GCR decoder keeps the attempt's invariant and changes nothing but its own track
fields while the block runs (rules R320 to R328); the block decode gives no more than half as many
pairs as groups (rule R335), and writes inside the data buffer (rule R340). -/

namespace Sys2Proof.Machine

/-! ## Bit extraction -/

/-- A GCR track's decoder moves on. -/
structure GcrStep (l : Latched) (t t' : Track) : Prop where
  pe : peFields t' = peFields t
  nrzi : pendingFields t' = pendingFields t
  count : t.datacount ≤ t'.datacount
  rest : restFields t' = restFields t
  inv : TrackInv l t → TrackInv l t'

theorem GcrStep.refl (l : Latched) (t : Track) : GcrStep l t t := ⟨rfl, rfl, Nat.le_refl _, rfl, id⟩

theorem GcrStep.trans {l : Latched} {t t' t'' : Track} (h : GcrStep l t t') (h' : GcrStep l t' t'') :
    GcrStep l t t'' :=
  ⟨h'.pe.trans h.pe, h'.nrzi.trans h.nrzi, Nat.le_trans h.count h'.count,
    h'.rest.trans h.rest, fun i => h'.inv (h.inv i)⟩

theorem gcr_not_others {l : Latched} (hg : l.runs .gcr = true) :
    l.runs .pe = false ∧ l.runs .nrzi = false ∧ l.scan = false := by
  obtain ⟨hs, hm⟩ := runs_iff.mp hg
  simp [Latched.runs, hm, hs]

theorem GcrStep.attempt {l : Latched} (hg : l.runs .gcr = true) {k : Fin 9} (hk : k.val < l.ntrks)
    {a : Attempt} {t : Track} (h : GcrStep l (a.tr k) t) (ha : AttemptInv l a) :
    AttemptInv l (a.setTr k t) ∧ DecodeFrame l a (a.setTr k t) := by
  obtain ⟨hp, -, hs⟩ := gcr_not_others hg
  exact ⟨ha.setTr (h.inv (ha.tracks k)) fun e => (by rw [hp] at e; cases e),
    DecodeFrame.setTr hk ⟨fun _ => h.pe, fun e => (by rw [hg] at e; cases e),
      fun _ e => (by rw [hg] at e; cases e), fun _ => h.nrzi, fun e => (by rw [hs] at e; cases e), h.count⟩
      h.rest⟩

/-- The resync machine changes only its own fields and the clock (rule R325). -/
theorem gcrResyncBit_step (l : Latched) (bit : Option F64) (t : Track) :
    GcrStep l t (gcrResyncBit bit t) ∧ (gcrResyncBit bit t).datacount = t.datacount := by
  have arm : ∀ t, GcrStep l t (gcrResyncArm bit t) ∧ (gcrResyncArm bit t).datacount = t.datacount := by
    intro t
    unfold gcrResyncArm
    split
    · exact ⟨⟨rfl, rfl, Nat.le_refl _, rfl, fun h => ⟨h.fifo, h.win, h.blackout, h.hwin, h.datacount, h.bits,
        by simp, h.gain, h.clk⟩⟩, rfl⟩
    · exact ⟨GcrStep.refl l t, rfl⟩
  have one : ∀ time, t.resyncActive = true → GcrStep l t (gcrResyncOne time t) ∧
      (gcrResyncOne time t).datacount = t.datacount := by
    intro time hact
    simp only [gcrResyncOne]
    split
    · rename_i hn
      refine ⟨⟨rfl, rfl, Nat.le_refl _, rfl, fun h => ⟨h.fifo, h.win, h.blackout, h.hwin, h.datacount, h.bits,
        ?_, h.gain, clkForce_inv _ h.clk⟩⟩, rfl⟩
      simp [hn]
    · rename_i hn
      refine ⟨⟨rfl, rfl, Nat.le_refl _, rfl, fun h => ⟨h.fifo, h.win, h.blackout, h.hwin, h.datacount, h.bits,
        ?_, h.gain, h.clk⟩⟩, rfl⟩
      have := h.resync
      simp only [hact, if_true] at this ⊢
      omega
  unfold gcrResyncBit
  split
  · rename_i hact
    split
    · refine ⟨GcrStep.trans (t' := { t with resyncActive := false }) ⟨rfl, rfl, Nat.le_refl _, rfl, fun h =>
        ⟨h.fifo, h.win, h.blackout, h.hwin, h.datacount, h.bits, ?_, h.gain, h.clk⟩⟩ (arm _).1, (arm _).2⟩
      have := h.resync
      simp only [hact, if_true] at this
      simp only [Bool.false_eq_true, if_false]
      omega
    · rename_i time
      exact ⟨(one time hact).1.trans (arm _).1, (arm _).2.trans (one time hact).2⟩
  · exact arm t

/-- What gcr_bit leaves when it has room (rule R322). -/
def gcrBitted (bit : Option F64) (t : Track) : Track :=
  gcrResyncBit bit { t with
    bits := t.bits ++ [bit.isSome]
    datacount := t.datacount + 1
    last5 := (t.last5 <<< 1) ||| (if bit.isSome then 1 else 0) }

/-- Everything gcr_bit can do. -/
theorem gcrBit_eq (k : Fin 9) (bit : Option F64) (t : Track) : gcrBit k bit t =
    if Config.gcrMaxbits ≤ t.datacount then .error ⟨.bufferOverflow, BitVec.ofNat 16 k.val⟩
    else .ok (gcrBitted bit t) := rfl

theorem gcrBit_eq_ok {k : Fin 9} {bit : Option F64} {t t' : Track} :
    gcrBit k bit t = .ok t' ↔ t.datacount < Config.gcrMaxbits ∧ t' = gcrBitted bit t := by
  rw [gcrBit_eq]
  split
  · simp; omega
  · simp; exact ⟨fun h => ⟨by omega, h.symm⟩, fun h => h.2.symm⟩

theorem gcrBitted_datacount (bit : Option F64) (t : Track) :
    (gcrBitted bit t).datacount = t.datacount + 1 :=
  (gcrResyncBit_step Latched.reset bit _).2

theorem gcrBit_step {l : Latched} (hg : l.runs .gcr = true) {k : Fin 9} {bit : Option F64}
    {t t' : Track} (h : gcrBit k bit t = .ok t') : GcrStep l t t' := by
  obtain ⟨hlt, rfl⟩ := gcrBit_eq_ok.mp h
  refine GcrStep.trans (t' := { t with
    bits := t.bits ++ [bit.isSome]
    datacount := t.datacount + 1
    last5 := (t.last5 <<< 1) ||| (if bit.isSome then 1 else 0) })
    ⟨rfl, rfl, Nat.le_succ _, rfl, fun h => ⟨h.fifo, h.win, h.blackout, h.hwin, hlt, ?_, h.resync, h.gain, h.clk⟩⟩
    (gcrResyncBit_step l bit _).1
  have := h.bits
  rw [if_pos hg] at this ⊢
  simp [this]

theorem gcrClock_step (l : Latched) (c : CfgFile) (nz : Nat) (t : Track) : GcrStep l t (gcrClock c nz t) := by
  by_cases hnz : nz = 0 <;> simp only [gcrClock, hnz, if_true, if_false] <;> split
  · exact ⟨rfl, rfl, Nat.le_refl _, rfl, fun h => ⟨h.fifo, h.win, h.blackout, h.hwin, h.datacount, h.bits,
      h.resync, h.gain, clkAdjust_inv _ _ h.clk⟩⟩
  · exact ⟨rfl, rfl, Nat.le_refl _, rfl, fun h => ⟨h.fifo, h.win, h.blackout, h.hwin, h.datacount, h.bits,
      h.resync, h.gain, h.clk⟩⟩
  · exact ⟨rfl, rfl, Nat.le_refl _, rfl, fun h => ⟨h.fifo, h.win, h.blackout, h.hwin, h.datacount, h.bits,
      h.resync, h.gain, clkAdjust_inv _ _ h.clk⟩⟩
  · exact ⟨rfl, rfl, Nat.le_refl _, rfl, fun h => ⟨h.fifo, h.win, h.blackout, h.hwin, h.datacount, h.bits,
      h.resync, h.gain, h.clk⟩⟩

/-- A change of fields that no bound speaks of. -/
theorem GcrStep.plain (l : Latched) {t t' : Track} (hp : peFields t' = peFields t)
    (hn : pendingFields t' = pendingFields t) (hf : restFields t' = restFields t)
    (hg : (t'.bits, t'.resyncActive, t'.resyncBitcount) = (t.bits, t.resyncActive, t.resyncBitcount))
    (hd : t'.datacount = t.datacount) (hc : t'.clk = t.clk) : GcrStep l t t' := by
  simp only [Prod.mk.injEq] at hg
  obtain ⟨e1, e2, e3, e4, e5, e6⟩ := restFields_front hf
  obtain ⟨g1, g2, g3⟩ := hg
  exact ⟨hp, hn, Nat.le_of_eq hd.symm, hf, fun h => ⟨e1 ▸ h.fifo, e2 ▸ h.win, e3 ▸ h.blackout, e4 ▸ h.hwin,
    hd ▸ h.datacount, by rw [g1, hd]; exact h.bits, by rw [g2, g3]; exact h.resync,
    by rw [e5, e6]; exact h.gain, hc ▸ h.clk⟩⟩

theorem gcrPeak_step {l : Latched} (hg : l.runs .gcr = true) {c : CfgFile} {k : Fin 9} {pk : Peak}
    {t t' : Track} (h : gcrPeak c k pk t = .ok t') : GcrStep l t t' := by
  have h0 : GcrStep l t { t with idle := false } := GcrStep.plain l rfl rfl rfl rfl rfl rfl
  simp only [gcrPeak] at h
  split at h
  · rw [andThen_eq_ok] at h
    obtain ⟨t1, h1, h2⟩ := h
    cases h2
    exact (h0.trans (gcrBit_step hg h1)).trans (GcrStep.plain l rfl rfl rfl rfl rfl rfl)
  · simp only [gcrNextPeak, andThen_eq_ok] at h
    obtain ⟨t1, h1, t2, h2, h3⟩ := h
    cases h3
    have hz : GcrStep l { t with idle := false } t1 :=
      repeatTimes_inv (P := fun x => GcrStep l { t with idle := false } x)
        (fun s s' hs he => hs.trans (gcrBit_step hg he)) (GcrStep.refl l _) h1
    refine GcrStep.trans ?_ (gcrClock_step l c _ _)
    exact ((h0.trans hz).trans (gcrBit_step hg h2)).trans (GcrStep.plain l rfl rfl rfl rfl rfl rfl)

theorem gcrSampleStep_inv {l : Latched} (hg : l.runs .gcr = true) (c : CfgFile) (now : F64)
    {a : Attempt} (h : AttemptInv l a) :
    AttemptInv l (gcrSampleStep c l.ntrks now a).1 ∧
    DecodeFrame l a (gcrSampleStep c l.ntrks now a).1 := by
  obtain ⟨hp, -, hs⟩ := gcr_not_others hg
  have hst : ∀ t, GcrStep l t (idleTimeout (c.get .gcrIdleFactor) now t.haveLast t) ∧
      (idleTimeout (c.get .gcrIdleFactor) now t.haveLast t).datacount = t.datacount ∧
      (idleTimeout (c.get .gcrIdleFactor) now t.haveLast t).faked = t.faked := by
    intro t
    rcases idleTimeout_fields (c.get .gcrIdleFactor) now t.haveLast t with e | e <;> rw [e] <;>
      exact ⟨GcrStep.plain l rfl rfl rfl rfl rfl rfl, rfl, rfl⟩
  exact eachTrack_inv h (fun t ht => (hst t).1.inv ht)
    (fun t => ⟨fun _ => (hst t).1.pe, fun e => (by rw [hg] at e; cases e),
      fun _ e => (by rw [hg] at e; cases e), fun _ => (hst t).1.nrzi, fun e => (by rw [hs] at e; cases e),
      (hst t).1.count⟩) (fun t => (hst t).2) fun t => (hst t).1.rest

/-! ## Room -/

theorem gcrZeros_le (c : CfgFile) (time : F64) (t : Track) : gcrZeros c time t ≤ 2 := by
  simp only [gcrZeros]
  split
  · omega
  · split <;> omega

/-- Bits without a time, one after the other, answer as long as they fit. -/
theorem gcrBits_answers (k : Fin 9) (m : Nat) (t : Track) (h : t.datacount + m ≤ Config.gcrMaxbits) :
    ∃ t', repeatTimes (gcrBit k none) m t = .ok t' ∧ t'.datacount = t.datacount + m := by
  induction m generalizing t with
  | zero => exact ⟨t, rfl, rfl⟩
  | succ m ih =>
    have h1 : gcrBit k none t = .ok (gcrBitted none t) := gcrBit_eq_ok.mpr ⟨by omega, rfl⟩
    have h2 := gcrBitted_datacount none t
    obtain ⟨t', h3, h4⟩ := ih (gcrBitted none t) (by omega)
    exact ⟨t', by rw [repeatTimes, h1]; exact h3, by omega⟩

/-- A peak is decoded without a fault where the track has room for three bits. -/
theorem gcrPeak_answers {c : CfgFile} {k : Fin 9} {pk : Peak} {t : Track}
    (h : t.datacount + 3 ≤ Config.gcrMaxbits) : ∃ t', gcrPeak c k pk t = .ok t' := by
  simp only [gcrPeak]
  split
  · rw [gcrBit_eq_ok.mpr ⟨by simp only; omega, rfl⟩]
    exact ⟨_, rfl⟩
  · simp only [gcrNextPeak]
    have hz := gcrZeros_le c pk.t { t with idle := false }
    obtain ⟨t1, h1, h2⟩ := gcrBits_answers k (gcrZeros c pk.t { t with idle := false })
      { t with idle := false } (by simp only; omega)
    have h3 : gcrBit k (some pk.t) t1 = .ok (gcrBitted (some pk.t) t1) :=
      gcrBit_eq_ok.mpr ⟨by simp only at h2; omega, rfl⟩
    rw [h1, andThen_ok_left, h3]
    exact ⟨_, rfl⟩

/-! ## Block decode -/

@[simp] theorem GroupRun.bad_pairs (r : GroupRun) : r.bad.pairs = r.pairs := rfl

@[simp] theorem GroupRun.badIf_pairs (b : Bool) (r : GroupRun) :
    (if b = true then r.bad else r).pairs = r.pairs := by cases b <;> rfl

/-- The group machine makes a pair of two groups (rule R335). -/
theorem groupMachine_pairs (rows : List (List Code)) (ph : GroupPhase) (r : GroupRun) :
    2 * (groupMachine rows ph r).pairs.length ≤ 2 * r.pairs.length + rows.length := by
  fun_induction groupMachine rows ph r <;> simp_all +zetaDelta <;> omega

/-- What the resync machine leaves alone. -/
theorem resyncBit_keeps (bit : Option F64) (t : Track) :
    (gcrResyncBit bit t).bits = t.bits ∧ (gcrResyncBit bit t).datacount = t.datacount ∧ (gcrResyncBit bit t).tPulseAdj = t.tPulseAdj ∧
    (gcrResyncBit bit t).onesRun = t.onesRun ∧ (gcrResyncBit bit t).idle = t.idle ∧ (gcrResyncBit bit t).tLast = t.tLast ∧ (gcrResyncBit bit t).tLast2 = t.tLast2 := by
  unfold gcrResyncBit gcrResyncArm gcrResyncOne
  cases t.resyncActive <;> cases bit <;> simp <;> (repeat' split) <;> simp

/-- One bit appended. -/
theorem gcrBit_spec (k : Fin 9) (bit : Option F64) (t : Track) (h : t.datacount < 65536) :
    ∃ t', gcrBit k bit t = .ok t' ∧ t'.bits = t.bits ++ [bit.isSome] ∧ t'.datacount = t.datacount + 1 ∧ t'.tPulseAdj = t.tPulseAdj ∧
      t'.onesRun = t.onesRun ∧ t'.idle = t.idle ∧ t'.tLast = t.tLast ∧ t'.tLast2 = t.tLast2 := by
  unfold gcrBit
  rw [if_neg (by simp [Config.gcrMaxbits]; omega)]
  obtain ⟨h1, h2, h3, h4, h5, h6, h7⟩ := resyncBit_keeps bit { t with bits := t.bits ++ [bit.isSome], datacount := t.datacount + 1, last5 := (t.last5 <<< 1) ||| (if bit.isSome then 1 else 0) }
  exact ⟨_, rfl, h1, h2, h3, h4, h5, h6, h7⟩

/-- A run of 0-bits appended. -/
theorem gcrZerosLoop_spec (k : Fin 9) (m : Nat) (t : Track) (h : t.datacount + m ≤ 65536) :
    ∃ t', repeatTimes (gcrBit k none) m t = .ok t' ∧ t'.bits = t.bits ++ List.replicate m false ∧ t'.datacount = t.datacount + m ∧ t'.tPulseAdj = t.tPulseAdj ∧
      t'.onesRun = t.onesRun ∧ t'.idle = t.idle ∧ t'.tLast = t.tLast ∧ t'.tLast2 = t.tLast2 := by
  induction m generalizing t with
  | zero => exact ⟨t, rfl, by simp, rfl, rfl, rfl, rfl, rfl, rfl⟩
  | succ m ih =>
    obtain ⟨t1, g1, g2, g3, g4, g5, g6, g7, g8⟩ := gcrBit_spec k none t (by omega)
    obtain ⟨t', e1, e2, e3, e4, e5, e6, e7, e8⟩ := ih t1 (by omega)
    refine ⟨t', by simp only [repeatTimes, g1]; exact e1, ?_, by omega, by rw [e4, g4], by rw [e5, g5], by rw [e6, g6], by rw [e7, g7], by rw [e8, g8]⟩
    rw [e2, g2]; simp [List.replicate_succ]

/-- 1-bits inside a burst that only count. -/
theorem resyncOnes_count (times : List F64) (t : Track) (ha : t.resyncActive = true) (h1 : 0 < t.resyncBitcount)
    (h : t.resyncBitcount + times.length < 70) :
    resyncOnes times t = { t with resyncBitcount := t.resyncBitcount + times.length } := by
  induction times generalizing t with
  | nil => rfl
  | cons x xs ih =>
    have e : gcrResyncBit (some x) t = { t with resyncBitcount := t.resyncBitcount + 1 } := by
      unfold gcrResyncBit gcrResyncArm gcrResyncOne
      simp only [ha, if_true, List.length_cons, Config.gcrResyncOnes] at h ⊢
      rw [if_neg (by omega : ¬ t.resyncBitcount + 1 = 70), if_neg (by omega : ¬ t.resyncBitcount + 1 = 1)]
      simp [ha]
    simp only [List.length_cons] at h ⊢
    have : resyncOnes (x :: xs) t = resyncOnes xs (gcrResyncBit (some x) t) := rfl
    rw [this, e, ih { t with resyncBitcount := t.resyncBitcount + 1 } ha (by simp) (by simp; omega)]
    simp; omega

/-- The first 1-bit of a burst. -/
theorem resyncFirst (x : F64) (t : Track) (ha : t.resyncActive = true) (h0 : t.resyncBitcount = 0) :
    gcrResyncBit (some x) t = { t with resyncBitcount := 1, tResyncFirst := x } := by
  unfold gcrResyncBit gcrResyncArm gcrResyncOne
  simp [ha, h0, Config.gcrResyncOnes]

/-- The class of a group that is a special code on every track. -/
theorem groupClass_same (n : Nat) (code : Code) (hn : 0 < n) :
    (code = 0b00111 → groupClass (sameGroup n code) = .mark1) ∧ (code = 0b11100 → groupClass (sameGroup n code) = .mark2) ∧
    (code = 0b11111 → groupClass (sameGroup n code) = .sync) := by
  have h : ∀ x : Code, (sameGroup n code).all (· == x) = (code == x) := by
    intro x; unfold sameGroup
    cases n with
    | zero => omega
    | succ n => simp [List.replicate_succ]; intro hx; simp [List.all_replicate, hx]
  refine ⟨?_, ?_, ?_⟩ <;> rintro rfl <;> unfold groupClass <;> simp only [h] <;> rfl

/-- The machine reads pairs of data groups. -/
theorem groupMachine_pairRows (ps : List (List Code × List Code)) (rest : List (List Code)) (r : GroupRun)
    (h : ∀ p ∈ ps, groupClass p.1 = .data ∧ groupClass p.2 = .data) :
    groupMachine (pairRows ps ++ rest) none r = groupMachine rest none { r with pairs := r.pairs ++ ps } := by
  induction ps generalizing r with
  | nil => simp [pairRows]
  | cons p ps ih =>
    obtain ⟨h1, h2⟩ := h p (by simp)
    have e : pairRows (p :: ps) ++ rest = p.1 :: p.2 :: (pairRows ps ++ rest) := rfl
    rw [e, groupMachine.eq_def]
    simp only [h1, h2, Option.isSome_none, Bool.false_eq_true, if_false, if_true]
    rw [ih _ fun p hp => h p (by simp [hp])]
    simp

/-- The machine reads the SYNC groups of a burst. -/
theorem groupMachine_syncs (n : Nat) (hn : 0 < n) (m rs : Nat) (rest : List (List Code)) (r : GroupRun) (h : rs + m = 14) (hm : 0 < m) :
    groupMachine (List.replicate m (sameGroup n 0b11111) ++ rest) (some rs) r = groupMachine rest none r := by
  have hc := (groupClass_same n 0b11111 hn).2.2 rfl
  induction m generalizing rs with
  | zero => omega
  | succ m ih =>
    rw [List.replicate_succ, List.cons_append, groupMachine.eq_def]
    simp only [hc]
    by_cases hm0 : m = 0
    · subst hm0; rw [if_pos (by omega)]; rfl
    · rw [if_neg (by omega)]; exact ih (rs + 1) (by omega) (by omega)

/-- The machine reads a whole burst. -/
theorem groupMachine_resync (n : Nat) (hn : 0 < n) (rest : List (List Code)) (r : GroupRun) :
    groupMachine (resyncRows n ++ rest) none r = groupMachine rest none r := by
  have hc := (groupClass_same n 0b11100 hn).2.1 rfl
  have e : resyncRows n ++ rest = sameGroup n 0b11100 :: (List.replicate 14 (sameGroup n 0b11111) ++ rest) := rfl
  rw [e, groupMachine.eq_def]
  simp only [hc]
  exact groupMachine_syncs n hn 14 0 rest r rfl (by omega)

/-- The machine reads stretches of pairs with bursts between them. -/
theorem groupMachine_blockRows (n : Nat) (hn : 0 < n) (ss : List (List (List Code × List Code))) (hne : ss ≠ []) (rest : List (List Code)) (r : GroupRun)
    (h : ∀ ps ∈ ss, ∀ p ∈ ps, groupClass p.1 = .data ∧ groupClass p.2 = .data) :
    groupMachine (blockRows n ss ++ rest) none r = groupMachine rest none { r with pairs := r.pairs ++ ss.flatten } := by
  induction ss generalizing r with
  | nil => exact absurd rfl hne
  | cons ps ss ih =>
    cases ss with
    | nil =>
      simp only [blockRows]
      rw [groupMachine_pairRows ps rest r (h ps (by simp))]; simp
    | cons qs ss =>
      simp only [blockRows]
      rw [List.append_assoc, List.append_assoc, groupMachine_pairRows ps _ r (h ps (by simp)), groupMachine_resync n hn]
      rw [ih (by simp) _ fun p hp => h p (by simp at hp ⊢; tauto)]
      simp [List.append_assoc]

/-- A bit of a decoded byte. -/
theorem rowByte_bits {n : Nat} (hn : n ≤ 9) (table : Code → Option (BitVec 4)) (row : List Code) (j : Nat) (k : Fin 9) (hk : k.val < n) :
    symBit n (rowByte n table row j) k = ((table (row.getD k.val 0)).getD 0).getLsbD (3 - j) := by
  unfold rowByte
  have : ∀ (ks : List (Fin 9)) (s : Sym), (∀ j ∈ ks, j.val < n) → ks.Nodup → (k ∈ ks ∨ symBit n s k = ((table (row.getD k.val 0)).getD 0).getLsbD (3 - j)) →
      symBit n (ks.foldl (fun sym k => putBit n sym k (((table (row.getD k.val 0)).getD 0).getLsbD (3 - j))) s) k = ((table (row.getD k.val 0)).getD 0).getLsbD (3 - j) := by
    intro ks
    induction ks with
    | nil => intro s _ _ h; simpa using h
    | cons x ks ih =>
      intro s hl hnd h
      simp only [List.foldl_cons]
      apply ih _ (fun j hj => hl j (by simp [hj])) (List.nodup_cons.1 hnd).2
      by_cases hx : k = x
      · subst hx; right; exact symBit_putBit_same hn _ _
      · rcases h with h | h
        · left; simp [hx] at h; exact h
        · right; rw [symBit_putBit_other (hl x (by simp)) hk hx]; exact h
  exact this _ _ (fun j hj => mem_tracks.1 hj) (tracks_nodup n) (.inl (mem_tracks.2 hk))

end Sys2Proof.Machine
end

