-- ==== Sys2Proof/Laws/Finalize.lean ====
section
/-! SUPPORT. Finalisation keeps the attempt's invariant, changes only what its mode may, and leaves
results that agree with each other (rules R250, R251, R330 to R343, R370 to R387). -/

namespace Sys2Proof.Machine

/-! ## Frames compose -/

theorem FinalFrame.refl (l : Latched) (a : Attempt) : FinalFrame l a a :=
  ⟨rfl, rfl, rfl, rfl, fun _ => rfl, fun _ => rfl, fun _ _ => rfl, fun _ => Nat.le_refl _,
    fun _ _ _ _ _ => ⟨rfl, rfl⟩, fun _ _ _ => rfl, fun _ _ => rfl⟩

/-- PE frames compose: the other modes finalise in one step. -/
theorem FinalFrame.trans_pe {l : Latched} (hp : l.runs .pe = true) {a a' a'' : Attempt}
    (h : FinalFrame l a a') (h' : FinalFrame l a' a'') : FinalFrame l a a'' where
  nrzi := h'.nrzi.trans h.nrzi
  tPrev := h'.tPrev.trans h.tPrev
  nsamples := h'.nsamples.trans h.nsamples
  anyPeak := h'.anyPeak.trans h.anyPeak
  gcrNsym e := (h'.gcrNsym e).trans (h.gcrNsym e)
  tracks k := by rw [h'.tracks k, h.tracks k]
  counts k e := (h'.counts k e).trans (h.counts k e)
  strip k := Nat.le_trans (h'.strip k) (h.strip k)
  peBuf e k i hk hi := by
    have m := h.strip k
    have m' := h'.strip k
    have e1 := h.peBuf e k i hk (by omega)
    have e2 := h'.peBuf e k i hk (by omega)
    exact ⟨e2.1.trans e1.1, e2.2.trans e1.2⟩
  gcrBuf e := by
    have := (gcr_not_others e).1
    rw [hp] at this; cases this
  otherBuf e := by rw [hp] at e; cases e

/-! ## The PE postamble strip -/

/-- One removal: the invariant and the frame (rule R251). -/
theorem peStripBit_inv {l : Latched} (hl : LatFacts l) (hp : l.runs .pe = true) {k : Fin 9}
    (hk : k.val < l.ntrks) {a : Attempt} (h : AttemptInv l a) (hpos : 0 < (a.tr k).datacount) :
    AttemptInv l (peStripBit l.ntrks k a).1 ∧ FinalFrame l a (peStripBit l.ntrks k a).1 := by
  have hn := hl.ntrks_le
  have hwf := h.buf.wf
  have hg : l.runs .gcr = false := by
    obtain ⟨hs, hm⟩ := runs_iff.mp hp; simp [Latched.runs, hm]
  have hz : l.runs .nrzi = false := by
    obtain ⟨hs, hm⟩ := runs_iff.mp hp; simp [Latched.runs, hm]
  have hs : l.scan = false := (runs_iff.mp hp).1
  have hdc := (h.tracks k).datacount
  have hcolk := h.buf.pe hp k hk
  generalize hi : (a.tr k).datacount - 1 = i
  have hid : (a.tr k).datacount = i + 1 := by omega
  have hbits := fun j hj i' => writeBits_bits hwf hn hk (j := j) hj false false i i'
  have hfk : (a.tr k).faked = fakedIn l.ntrks k a.buf i
      + boolNat (symBit l.ntrks (bufRead a.buf i).fmask k) := by
    rw [hcolk.faked, hid, fakedIn_succ]
  have hform : (peStripBit l.ntrks k a).1 =
      { a with buf := writeBits l.ntrks k false false i a.buf }.setTr k
        { a.tr k with datacount := i, faked := fakedIn l.ntrks k a.buf i } := by
    simp only [peStripBit, hi]
    congr 2
    cases hf : symBit l.ntrks (bufRead a.buf i).fmask k <;> simp [hf, boolNat] at hfk ⊢ <;> omega
  rw [hform]
  refine ⟨⟨fun j => ?_, h.nrzi, ⟨?_, ?_, ?_, ?_, ?_, ?_, ?_⟩, h.gcrNsym⟩, ?_⟩
  · have hj := h.tracks j
    rw [Attempt.tr_setTr]
    split
    · rename_i e
      subst e
      exact ⟨hj.fifo, hj.win, hj.blackout, hj.hwin, by simp only; omega,
        by have := hj.bits; rw [hg] at this ⊢; exact this, hj.resync, hj.gain, hj.clk⟩
    · exact hj
  · exact bufWrite_wf hwf (by simp only [Config.databuf] at *; omega) _
  · exact fun i j hj => writeBits_width hwf hk false false _ h.buf.width i j hj
  · intro e; rw [hp] at e; cases e
  · intro _ j hj
    have hc := h.buf.pe hp j hj
    have hb := hbits j hj
    by_cases hjk : j = k
    · subst hjk
      constructor
      · intro i' hi'
        rw [Attempt.tr_setTr_same] at hi'
        simp only [Attempt.setTr_buf]
        rw [(hb i').1, (hb i').2]
        by_cases e : i' = i
        · simp [e]
        · simp only [e, false_and, if_false]
          exact hc.clear i' (by simp only at hi'; omega)
      · rw [Attempt.tr_setTr_same]
        simp only [Attempt.setTr_buf]
        refine fakedIn_congr fun i' hi' => ?_
        rw [(hb i').2, if_neg (by omega)]
    · have hb' : ∀ i', symBit l.ntrks (bufRead (writeBits l.ntrks k false false i a.buf) i').sym j
            = symBit l.ntrks (bufRead a.buf i').sym j ∧
          symBit l.ntrks (bufRead (writeBits l.ntrks k false false i a.buf) i').fmask j
            = symBit l.ntrks (bufRead a.buf i').fmask j := by
        intro i'
        have := hb i'
        rwa [if_neg (fun e => hjk e.2), if_neg (fun e => hjk e.2)] at this
      constructor
      · intro i' hi'
        rw [Attempt.tr_setTr_other _ _ hjk] at hi'
        simp only [Attempt.setTr_buf]
        rw [(hb' i').1, (hb' i').2]
        exact hc.clear i' hi'
      · rw [Attempt.tr_setTr_other _ _ hjk]
        simp only [Attempt.setTr_buf]
        change (a.tr j).faked = _
        rw [hc.faked]
        exact fakedIn_congr fun i' _ => (hb' i').2.symm
  · intro e; rw [hz] at e; cases e
  · intro e; rw [hg] at e; cases e
  · intro e; rw [hs] at e; cases e
  · refine ⟨rfl, rfl, rfl, rfl, fun _ => rfl, fun j => ?_, fun j hj => ?_, fun j => ?_, ?_, ?_, ?_⟩
    · by_cases hjk : j = k
      · subst hjk; rw [Attempt.tr_setTr_same]
      · rw [Attempt.tr_setTr_other _ _ hjk]; rfl
    · refine Attempt.tr_setTr_other _ _ fun e => ?_
      subst e
      rcases hj with hj | hj
      · rw [hp] at hj; cases hj
      · omega
    · by_cases hjk : j = k
      · subst hjk; rw [Attempt.tr_setTr_same]; simp only; omega
      · rw [Attempt.tr_setTr_other _ _ hjk]; exact Nat.le_refl _
    · intro _ j i' hj hi'
      have := hbits j hj i'
      have hne : ¬ (i' = i ∧ j = k) := by
        rintro ⟨e1, e2⟩
        subst e2
        rw [Attempt.tr_setTr_same] at hi'
        simp only at hi'
        omega
      rw [if_neg hne, if_neg hne] at this
      exact this
    · intro e; rw [hg] at e; cases e
    · intro e; rw [hp] at e; cases e

theorem peStripFrom_inv {l : Latched} (hl : LatFacts l) (hp : l.runs .pe = true) (c : CfgFile)
    {k : Fin 9} (hk : k.val < l.ntrks) (left removed : Nat) {a : Attempt} (h : AttemptInv l a) :
    AttemptInv l (peStripFrom c l.ntrks k left removed a) ∧
    FinalFrame l a (peStripFrom c l.ntrks k left removed a) := by
  induction left generalizing removed a with
  | zero => exact ⟨h, FinalFrame.refl l a⟩
  | succ left ih =>
    rw [peStripFrom]
    split
    · exact ⟨h, FinalFrame.refl l a⟩
    · obtain ⟨i1, f1⟩ := peStripBit_inv hl hp hk h (by omega)
      simp only []
      split
      · exact ⟨i1, f1⟩
      · obtain ⟨i2, f2⟩ := ih (removed + 1) i1
        exact ⟨i2, f1.trans_pe hp f2⟩

theorem peFinalize_inv {l : Latched} (hl : LatFacts l) (hp : l.runs .pe = true) (c : CfgFile)
    {a : Attempt} (h : AttemptInv l a) :
    AttemptInv l (peFinalize c l.ntrks a).1 ∧ FinalFrame l a (peFinalize c l.ntrks a).1 := by
  have key : ∀ ks : List (Fin 9), (∀ k ∈ ks, k.val < l.ntrks) → ∀ a, AttemptInv l a →
      AttemptInv l (ks.foldl (fun a k => peStrip c l.ntrks k a) a) ∧
      FinalFrame l a (ks.foldl (fun a k => peStrip c l.ntrks k a) a) := by
    intro ks
    induction ks with
    | nil => exact fun _ a h => ⟨h, FinalFrame.refl l a⟩
    | cons k ks ih =>
      intro hk a h
      obtain ⟨i1, f1⟩ := peStripFrom_inv hl hp c (hk k List.mem_cons_self) (c.nat .maxPostambleBits) 0 h
      obtain ⟨i2, f2⟩ := ih (fun j hj => hk j (List.mem_cons_of_mem _ hj)) _ i1
      exact ⟨i2, f1.trans_pe hp f2⟩
  exact key _ (fun k hk => mem_tracks.mp hk) a h

/-! ## The GCR block decode -/

theorem allSome_mem {α : Type} {l : List (Option α)} {xs : List α} (h : allSome l = some xs) {x : α}
    (hx : x ∈ xs) : some x ∈ l := by
  induction l generalizing xs with
  | nil => cases h; cases hx
  | cons y l ih =>
    cases y with
    | none => cases h
    | some y =>
      rw [allSome] at h
      split at h
      · cases h
      · rename_i ys hys
        cases h
        rcases List.mem_cons.mp hx with rfl | hx
        · exact List.mem_cons_self
        · exact List.mem_cons_of_mem _ (ih hys hx)

theorem afterMark1_length {bs r : List Bool} (h : afterMark1 bs = some r) : r.length + 5 ≤ bs.length := by
  induction bs with
  | nil => cases h
  | cons b bs ih =>
    rw [afterMark1] at h
    split at h
    · rename_i hc
      obtain rfl := Option.some.inj h
      simp only [Bool.and_eq_true, beq_iff_eq] at hc
      have := congrArg List.length hc.2
      simp at this
      simp; omega
    · have := ih h
      simp; omega

theorem groupsOf_length (bs : List Bool) : 5 * (groupsOf bs).length ≤ bs.length := by
  fun_induction groupsOf bs <;> simp <;> omega

/-- The aligned groups are no more than a fifth of any track's bits (rule R332). -/
theorem gcrAlign_length {n : Nat} {a : Attempt} {rows : List (List Code)} {m : Nat}
    (hb : ∀ k, (a.tr k).bits.length ≤ m) (h : gcrAlign n a = some rows) : 5 * rows.length ≤ m := by
  unfold gcrAlign at h
  split at h
  · cases h
  · rename_i streams hs
    obtain rfl := Option.some.inj h
    have hcol : ∀ col ∈ streams.map groupsOf, 5 * col.length ≤ m := by
      intro col hc
      obtain ⟨st, hst, rfl⟩ := List.mem_map.mp hc
      obtain ⟨k, -, hk⟩ := List.mem_map.mp (allSome_mem hs hst)
      have h1 := afterMark1_length hk
      have h2 := groupsOf_length st
      have h3 := hb k
      omega
    simp only [groupRows, List.length_map, List.length_range]
    have h1 : (List.map List.length (streams.map groupsOf)).foldl min
        ((streams.map groupsOf).headD []).length ≤ ((streams.map groupsOf).headD []).length :=
      foldl_min_le (Nat.le_refl _)
    refine Nat.le_trans (Nat.mul_le_mul_left 5 h1) ?_
    cases hc : streams.map groupsOf with
    | nil => simp
    | cons col cols => exact hcol col (by rw [hc]; exact List.mem_cons_self)

theorem flatten_take_length (pairs : List (List Sym)) :
    ((pairs.map (·.take 7)).flatten).length ≤ 7 * pairs.length := by
  induction pairs with
  | nil => simp
  | cons p pairs ih =>
    simp only [List.map_cons, List.flatten_cons, List.length_append, List.length_take, List.length_cons]
    omega

theorem gcrAssemble_length (terminal : Bool) (pairs : List (List Sym)) :
    (gcrAssemble terminal pairs).1.length ≤ 7 * pairs.length := by
  unfold gcrAssemble
  split
  · simp only [List.length_take]
    have := flatten_take_length pairs.dropLast
    simp only [List.length_dropLast] at this
    omega
  · exact flatten_take_length pairs

/-- The symbols of a block are at most 7/10 of a track's raw bits, so they fit the data buffer
(rule R340). -/
theorem gcrDecode_length {n : Nat} {table : Code → Option (BitVec 4)} {ecc : List Sym → Bool}
    {a : Attempt} {m : Nat} (hb : ∀ k, (a.tr k).bits.length ≤ m) :
    10 * (gcrDecode n table ecc a).syms.length ≤ 7 * m := by
  unfold gcrDecode
  split
  · simp [GcrBlock.empty]
  · rename_i rows hr
    have h1 := gcrAlign_length hb hr
    have h2 := groupMachine_pairs rows none { pairs := [], seq := 0, terminal := false }
    have h3 : (runGroups rows).pairs.length
        = (groupMachine rows none { pairs := [], seq := 0, terminal := false }).pairs.length := by
      simp only [runGroups]; split <;> rfl
    have h4 := gcrAssemble_length (runGroups rows).terminal ((runGroups rows).pairs.map (pairBytes n table))
    simp only [List.length_map] at h4
    simp only [gcrDecodeRows]
    simp only [List.length_nil] at h2
    omega

theorem symFits_putBit {n : Nat} {k : Fin 9} (hk : k.val < n) (b : Bool) {sym : Sym} (h : symFits n sym) :
    symFits n (putBit n sym k b) := fun j hj => by
  rw [getLsbD_putBit_other _ _ (by omega)]; exact h j hj

theorem symFits_rowByte (n : Nat) (table : Code → Option (BitVec 4)) (row : List Code) (j : Nat) :
    symFits n (rowByte n table row j) := by
  have key : ∀ ks : List (Fin 9), (∀ k ∈ ks, k.val < n) → ∀ sym, symFits n sym → symFits n (ks.foldl
      (fun sym k => putBit n sym k (((table (row.getD k.val 0)).getD 0).getLsbD (3 - j))) sym) := by
    intro ks
    induction ks with
    | nil => exact fun _ _ h => h
    | cons k ks ih =>
      exact fun hk sym h => ih (fun i hi => hk i (List.mem_cons_of_mem _ hi)) _
        (symFits_putBit (hk k List.mem_cons_self) _ h)
  exact key _ (fun k hk => mem_tracks.mp hk) 0 (symFits_zero n)

theorem symFits_pairBytes {n : Nat} {table : Code → Option (BitVec 4)} {p : List Code × List Code}
    {s : Sym} (hs : s ∈ pairBytes n table p) : symFits n s := by
  simp only [pairBytes, List.mem_cons, List.not_mem_nil, or_false] at hs
  rcases hs with rfl | rfl | rfl | rfl | rfl | rfl | rfl | rfl <;> exact symFits_rowByte _ _ _ _

theorem gcrAssemble_mem {terminal : Bool} {pairs : List (List Sym)} {s : Sym}
    (h : s ∈ (gcrAssemble terminal pairs).1) : ∃ p ∈ pairs, s ∈ p := by
  unfold gcrAssemble at h
  split at h
  · obtain ⟨l, hl, hs⟩ := List.mem_flatten.mp (List.mem_of_mem_take h)
    obtain ⟨p, hp, rfl⟩ := List.mem_map.mp hl
    exact ⟨p, List.dropLast_subset _ hp, List.mem_of_mem_take hs⟩
  · obtain ⟨l, hl, hs⟩ := List.mem_flatten.mp h
    obtain ⟨p, hp, rfl⟩ := List.mem_map.mp hl
    exact ⟨p, hp, List.mem_of_mem_take hs⟩

theorem gcrDecode_fits {n : Nat} {table : Code → Option (BitVec 4)} {ecc : List Sym → Bool}
    {a : Attempt} {s : Sym} (h : s ∈ (gcrDecode n table ecc a).syms) : symFits n s := by
  unfold gcrDecode at h
  split at h
  · cases h
  · obtain ⟨p, hp, hs⟩ := gcrAssemble_mem h
    obtain ⟨q, -, rfl⟩ := List.mem_map.mp hp
    exact symFits_pairBytes hs

/-- Symbols written from index `i` up: what the buffer reads as. -/
theorem bufWriteSyms_read {ss : List Sym} {i : Nat} {b : Buf} (hb : Memory.wf b = true)
    (h : i + ss.length ≤ Config.databuf) :
    Memory.wf (bufWriteSyms i ss b) = true ∧
    ∀ j, bufRead (bufWriteSyms i ss b) j =
      if i ≤ j ∧ j < i + ss.length then { sym := ss.getD (j - i) 0, fmask := 0 } else bufRead b j := by
  induction ss generalizing i b with
  | nil => exact ⟨hb, fun j => (if_neg (by simp)).symm⟩
  | cons s ss ih =>
    simp only [List.length_cons] at h
    have hw := bufWrite_wf hb (i := i) (by omega) { sym := s, fmask := 0 }
    obtain ⟨h1, h2⟩ := ih hw (i := i + 1) (by omega)
    refine ⟨h1, fun j => ?_⟩
    rw [bufWriteSyms, h2 j, bufRead_bufWrite hb]
    simp only [List.length_cons]
    by_cases hj : j = i
    · subst hj
      rw [if_neg (by omega), if_pos rfl, if_pos (by omega)]
      simp
    · by_cases hin : i + 1 ≤ j ∧ j < i + 1 + ss.length
      · rw [if_pos hin, if_pos (by omega)]
        have : j - i = (j - (i + 1)) + 1 := by omega
        rw [this]
        simp
      · rw [if_neg hin, if_neg hj, if_neg (by omega)]

theorem gcrFinalize_inv {l : Latched} (hg : l.runs .gcr = true) (c : CfgFile) {a : Attempt}
    (h : AttemptInv l a) (h0 : a.gcrNsym = 0) :
    AttemptInv l (gcrFinalize c l.ntrks a).1 ∧ FinalFrame l a (gcrFinalize c l.ntrks a).1 := by
  obtain ⟨hp, hz, hs⟩ := gcr_not_others hg
  simp only [gcrFinalize]
  split
  · exact ⟨h, FinalFrame.refl l a⟩
  · have hlen : 10 * (gcrDecode l.ntrks gcrDgroupTable Config.gcrEccOk a).syms.length
        ≤ 7 * Config.gcrMaxbits := by
      refine gcrDecode_length fun k => ?_
      have h1 := (h.tracks k).bits
      have h2 := (h.tracks k).datacount
      rw [if_pos hg] at h1
      rw [h1]; exact h2
    have hfit : ∀ s ∈ (gcrDecode l.ntrks gcrDgroupTable Config.gcrEccOk a).syms, symFits l.ntrks s :=
      fun s hs => gcrDecode_fits hs
    simp only []
    generalize (gcrDecode l.ntrks gcrDgroupTable Config.gcrEccOk a).syms = ss at hlen hfit
    obtain ⟨h1, h2⟩ := bufWriteSyms_read (ss := ss) (i := 0) h.buf.wf
      (by simp only [Config.gcrMaxbits, Config.databuf] at *; omega)
    have hz' : ∀ i, bufRead a.buf i = Entry.zero := fun i => h.buf.gcr hg i (by omega)
    refine ⟨⟨h.tracks, h.nrzi, ⟨h1, ?_, ?_, ?_, ?_, ?_, ?_⟩, ?_⟩,
      ⟨rfl, rfl, rfl, rfl, ?_, fun _ => rfl, fun _ _ => rfl, fun _ => Nat.le_refl _, ?_, ?_, ?_⟩⟩
    · intro i j hj
      rw [h2 i]
      split
      · rename_i hi
        refine ⟨?_, by simp⟩
        have hlt : i - 0 < ss.length := by omega
        simp only [List.getD_eq_getElem?_getD, List.getElem?_eq_getElem hlt, Option.getD_some]
        exact hfit _ (List.getElem_mem hlt) j hj
      · exact h.buf.width i j hj
    · intro _ i
      rw [h2 i]
      split
      · rfl
      · exact h.buf.unfaked hp i
    · intro e; rw [hp] at e; cases e
    · intro e; rw [hz] at e; cases e
    · intro _ i hi
      rw [h2 i, if_neg (by simp only at hi; omega)]
      exact hz' i
    · intro e; rw [hs] at e; cases e
    · simp only [Config.gcrMaxbits, Config.databuf] at *; omega
    · intro e; rw [hg] at e; cases e
    · intro e; rw [hp] at e; cases e
    · intro _ i hi
      rw [h2 i, if_neg (by simp only at hi; omega)]
    · intro _ e; rw [hg] at e; cases e

/-! ## The results -/

theorem le_foldl_max {cs : List Nat} {x : Nat} : x ≤ cs.foldl max x := by
  induction cs generalizing x with
  | nil => exact Nat.le_refl _
  | cons c cs ih => exact Nat.le_trans (Nat.le_max_left x c) ih

theorem minCount_le_maxCount (n : Nat) (a : Attempt) : minCount n a ≤ maxCount n a := by
  unfold minCount maxCount
  generalize (tracks n).map (fun k => (a.tr k).datacount) = cs
  cases cs with
  | nil => exact Nat.le_refl _
  | cons c cs =>
    have h1 : (c :: cs).foldl min ((c :: cs).headD 0) ≤ c := foldl_min_le (Nat.le_refl _)
    have h2 : c ≤ (c :: cs).foldl max 0 := by
      rw [List.foldl_cons]
      exact Nat.le_trans (Nat.le_max_right 0 c) le_foldl_max
    exact Nat.le_trans h1 h2

theorem resultsInv_zero : ResultsInv Results.zero := by
  refine ⟨rfl, fun _ => ⟨by decide, rfl⟩, fun h => ?_, Nat.le_refl _⟩
  cases h

theorem resultsInv_scan : ResultsInv scanResults := by
  refine ⟨rfl, fun _ => ⟨by decide, rfl⟩, fun h => ?_, Nat.le_refl _⟩
  cases h

/-- The results of a decoding attempt agree with each other. -/
theorem resultsOf_inv (l : Latched) (x : Attempt × PreResults) (h : x.2.minbits ≤ x.2.maxbits) :
    ResultsInv (resultsOf l x).2 := by
  simp only [resultsOf, tapemarkClear]
  split
  · rename_i e
    exact ⟨rfl, fun hn => absurd e hn, fun _ => ⟨rfl, rfl⟩, h⟩
  · rename_i e
    refine ⟨rfl, fun _ => ⟨?_, rfl⟩, fun he => absurd he e, h⟩
    simp [commonResults]

theorem resultsOf_warncount (l : Latched) (x : Attempt × PreResults) :
    (resultsOf l x).2.warncount = x.1.nrzi.missedMidbits + (resultsOf l x).2.fakedBits := by
  simp only [resultsOf, tapemarkClear]
  split <;> rfl

/-- Everything finalisation does (rule R370). -/
theorem finalize_inv {l : Latched} (hl : LatFacts l) (c : CfgFile) {a : Attempt} (h : AttemptInv l a)
    (h0 : a.gcrNsym = 0) :
    AttemptInv l (finalize c l a).1 ∧ FinalFrame l a (finalize c l a).1 ∧
    ResultsInv (finalize c l a).2 ∧
    (finalize c l a).2.warncount = (finalize c l a).1.nrzi.missedMidbits + (finalize c l a).2.fakedBits := by
  unfold finalize
  split
  · rename_i hs
    refine ⟨h, FinalFrame.refl l a, resultsInv_scan, ?_⟩
    · have := h.nrzi.missed (runs_false_of_scan hs _)
      rw [this]; rfl
  · rename_i hs
    have hs' : l.scan = false := by simpa using hs
    split
    · rename_i hm
      have hp : l.runs .pe = true := runs_iff.mpr ⟨hs', hm⟩
      obtain ⟨i1, f1⟩ := peFinalize_inv hl hp c h
      exact ⟨i1, f1, resultsOf_inv _ _ (minCount_le_maxCount _ _), resultsOf_warncount _ _⟩
    · exact ⟨h, FinalFrame.refl l a, resultsOf_inv _ _ (Nat.le_refl _), resultsOf_warncount _ _⟩
    · rename_i hm
      have hg : l.runs .gcr = true := runs_iff.mpr ⟨hs', hm⟩
      obtain ⟨i1, f1⟩ := gcrFinalize_inv hg c h h0
      exact ⟨i1, f1, resultsOf_inv _ _ (minCount_le_maxCount _ _), resultsOf_warncount _ _⟩
    · rename_i hm
      refine ⟨h, FinalFrame.refl l a, resultsInv_zero, ?_⟩
      have := h.nrzi.missed (by simp [Latched.runs, hm])
      rw [this]; rfl

/-- Outside a tapemark nothing is cleared. -/
theorem tapemarkClear_not {r : Results} (h : (tapemarkClear r).blktype ≠ .tapemark) : tapemarkClear r = r := by
  unfold tapemarkClear at *; split
  · rename_i h'; rw [if_pos h'] at h; exact absurd h' h
  · rfl

/-- What a tapemark clears. -/
theorem tapemarkClear_yes {r : Results} (h : (tapemarkClear r).blktype = .tapemark) :
    tapemarkClear r = { r with vparityErrs := 0, trackMismatch := false, mismatchSpan := 0, crcBad := false, lrcBad := false, eccErrs := 0, badDgroups := 0, seqErrs := 0, errcount := 0 } := by
  unfold tapemarkClear at *; split
  · rfl
  · rename_i h'; rw [if_neg h'] at h; exact absurd h h'

/-- A flag that counts 0 is off. -/
theorem boolNat_zero {b : Bool} (h : boolNat b = 0) : b = false := by revert h; cases b <;> decide

/-- The clearing keeps the block type. -/
theorem clear_blk (r : Results) : (tapemarkClear r).blktype = r.blktype := by unfold tapemarkClear; split <;> rfl

/-- The block type of the common results. -/
theorem blk_common (l : Latched) (a : Attempt) (p : PreResults) : (tapemarkClear (commonResults l a p)).blktype = blkTypeOf p.tapemark a.anyPeak p.nsymbols := by
  rw [clear_blk]; rfl

/-- The block type is TAPEMARK exactly by the test. -/
theorem blkTypeOf_tm {t p n} : blkTypeOf t p n = .tapemark ↔ t = true := by
  unfold blkTypeOf; cases t <;> cases p <;> simp <;> split <;> simp

/-- The block type is TAPEMARK exactly by the mode's test. -/
theorem finalize_tm {c : CfgFile} {l : Latched} {a : Attempt} (hs : l.scan = false) :
    (l.mode = .pe → ((finalize c l a).2.blktype = .tapemark ↔ peTapemark c a = true)) ∧
    (l.mode = .gcr → ((finalize c l a).2.blktype = .tapemark ↔ gcrTapemark c a = true)) ∧
    (l.mode = .nrzi → ((finalize c l a).2.blktype = .tapemark ↔ nrziTapemark l.ntrks (bufSyms a.buf a.nrzi.nsym) a.nrzi.crc a.nrzi.lrc = true)) := by
  refine ⟨fun hm => ?_, fun hm => ?_, fun hm => ?_⟩
  · simp only [finalize, hs, hm, resultsOf, blk_common, blkTypeOf_tm, Bool.false_eq_true, if_false]; rfl
  · simp only [finalize, hs, hm, resultsOf, blk_common, blkTypeOf_tm, Bool.false_eq_true, if_false]
    unfold gcrPre gcrFinalize
    cases hg : gcrTapemark c a <;> simp
  · simp only [finalize, hs, hm, resultsOf, blk_common, blkTypeOf_tm, Bool.false_eq_true, if_false]; rfl

/-- The tapemark pattern, track by track. -/
theorem pattern_iff (mask : Word) (f : Track → Bool) (a : Attempt) : tapemarkPattern mask f a = true ↔
    ∀ k : Fin 9, if mask.getLsbD k.val then f (a.tr k) = true else (a.tr k).peakcount ≤ 2 := by
  unfold tapemarkPattern
  rw [List.all_eq_true]
  have : ∀ k : Fin 9, k ∈ allTracks := by decide
  constructor
  · intro h k; have := h k (this k); split <;> simp_all
  · intro h k _; have := h k; split <;> simp_all

/-- A buffer of one symbol. -/
theorem bufSyms_single (b : Buf) (n : Nat) (x : Sym) : (bufSyms b n == [x]) = true ↔ n = 1 ∧ (bufRead b 0).sym = x := by
  unfold bufSyms
  rw [beq_iff_eq]
  constructor
  · intro h
    have hl := congrArg List.length h
    simp at hl; subst hl
    simp [List.range_succ] at h; exact ⟨rfl, h⟩
  · rintro ⟨rfl, h⟩; simp [List.range_succ, h]

/-- The results of any mode are the common ones over some pre-step. -/
theorem finalize_pre {c : CfgFile} {l : Latched} {a : Attempt} (hs : l.scan = false) (hm : l.mode ≠ .unset) :
    ∃ p : PreResults, (finalize c l a).2 = tapemarkClear (commonResults l (finalize c l a).1 p) ∧
      (finalize c l a).1.anyPeak = a.anyPeak ∧ (finalize c l a).1.nrzi = a.nrzi := by
  have pe : ∀ ks : List (Fin 9), ∀ a : Attempt, (ks.foldl (fun a k => peStrip c l.ntrks k a) a).anyPeak = a.anyPeak ∧ (ks.foldl (fun a k => peStrip c l.ntrks k a) a).nrzi = a.nrzi := by
    have one : ∀ L r k, ∀ a : Attempt, (peStripFrom c l.ntrks k L r a).anyPeak = a.anyPeak ∧ (peStripFrom c l.ntrks k L r a).nrzi = a.nrzi := by
      intro L
      induction L with
      | zero => intro r k a; exact ⟨rfl, rfl⟩
      | succ L ih =>
        intro r k a; rw [peStripFrom]; split
        · exact ⟨rfl, rfl⟩
        · simp only; split
          · exact ⟨rfl, rfl⟩
          · exact ih _ _ _
    intro ks
    induction ks with
    | nil => intro a; exact ⟨rfl, rfl⟩
    | cons k ks ih => intro a; simp only [List.foldl_cons]; rw [(ih _).1, (ih _).2]; exact one _ _ _ _
  cases h : l.mode
  · exact absurd h hm
  · have : finalize c l a = resultsOf l (pePre c l a) := by simp [finalize, hs, h]
    rw [this]; exact ⟨(pePre c l a).2, rfl, pe _ _⟩
  · have : finalize c l a = resultsOf l (a, nrziPre c l a) := by simp [finalize, hs, h]
    rw [this]; exact ⟨_, rfl, rfl, rfl⟩
  · have : finalize c l a = resultsOf l (gcrPre c l a) := by simp [finalize, hs, h]
    rw [this]; refine ⟨_, rfl, ?_⟩
    simp only [resultsOf, gcrPre, gcrFinalize]; split <;> exact ⟨rfl, rfl⟩

/-- A least value is a bound and is reached. -/
theorem foldl_min_spec (cs : List Nat) (x : Nat) : (∀ c ∈ cs, cs.foldl min x ≤ c) ∧ cs.foldl min x ≤ x ∧ (cs.foldl min x = x ∨ cs.foldl min x ∈ cs) := by
  induction cs generalizing x with
  | nil => simp
  | cons c cs ih =>
    obtain ⟨h1, h2, h3⟩ := ih (min x c)
    simp only [List.foldl_cons, List.mem_cons]
    refine ⟨?_, by omega, ?_⟩
    · rintro d (rfl | hd)
      · omega
      · exact h1 d hd
    · rcases h3 with h3 | h3
      · rcases Nat.le_total x c with h | h
        · left; omega
        · right; left; omega
      · right; right; exact h3

/-- A greatest value is a bound and is reached. -/
theorem foldl_max_spec (cs : List Nat) (x : Nat) : (∀ c ∈ cs, c ≤ cs.foldl max x) ∧ x ≤ cs.foldl max x ∧ (cs.foldl max x = x ∨ cs.foldl max x ∈ cs) := by
  induction cs generalizing x with
  | nil => simp
  | cons c cs ih =>
    obtain ⟨h1, h2, h3⟩ := ih (max x c)
    simp only [List.foldl_cons, List.mem_cons]
    refine ⟨?_, by omega, ?_⟩
    · rintro d (rfl | hd)
      · omega
      · exact h1 d hd
    · rcases h3 with h3 | h3
      · rcases Nat.le_total x c with h | h
        · right; left; omega
        · left; omega
      · right; right; exact h3

/-- MINBITS and MAXBITS bound the tracks' counts and are reached. -/
theorem counts_spec (n : Nat) (h1 : 1 ≤ n) (h9 : n ≤ 9) (a : Attempt) :
    (∀ k : Fin 9, k.val < n → minCount n a ≤ (a.tr k).datacount ∧ (a.tr k).datacount ≤ maxCount n a) ∧
    (∃ k : Fin 9, k.val < n ∧ (a.tr k).datacount = minCount n a) ∧ (∃ k : Fin 9, k.val < n ∧ (a.tr k).datacount = maxCount n a) := by
  let cs := (tracks n).map fun k => (a.tr k).datacount
  have hmem : ∀ k : Fin 9, k.val < n → (a.tr k).datacount ∈ cs := fun k hk => List.mem_map_of_mem (mem_tracks.2 hk)
  have hin : ∀ x ∈ cs, ∃ k : Fin 9, k.val < n ∧ (a.tr k).datacount = x := by
    intro x hx; obtain ⟨k, hk, rfl⟩ := List.mem_map.1 hx; exact ⟨k, mem_tracks.1 hk, rfl⟩
  have h0 := hmem 0 (by simp; omega)
  obtain ⟨m1, m2, m3⟩ := foldl_min_spec cs (cs.headD 0)
  obtain ⟨x1, x2, x3⟩ := foldl_max_spec cs 0
  refine ⟨fun k hk => ⟨m1 _ (hmem k hk), x1 _ (hmem k hk)⟩, hin _ ?_, hin _ ?_⟩
  · rcases m3 with m3 | m3
    · unfold minCount; simp only; rw [show cs.foldl min (cs.headD 0) = _ from m3]
      cases hc : cs with
      | nil => rw [hc] at h0; simp at h0
      | cons x xs => simp
    · exact m3
  · rcases x3 with x3 | x3
    · have := x1 _ h0; 
      have e : maxCount n a = (a.tr 0).datacount := by show cs.foldl max 0 = _; omega
      rw [e]; exact h0
    · exact x3

end Sys2Proof.Machine
end

