-- ==== Sys2Proof/Laws/Align.lean ====
section
/-! SUPPORT. The alignment and the assembly of a GCR block, and the clock and the resync state a
GCR peak leaves (rules R321, R322, R325, R332 to R340). -/

namespace Sys2Proof.Machine

/-! ## MARK1 -/

/-- MARK1 stands at index `i` of a bit stream (rule R332). -/
def mark1At (bits : List Bool) (i : Nat) : Prop :=
  (bits.drop i).take 5 = [false, false, true, true, true]

theorem mark1At_zero {b : Bool} {bs : List Bool} :
    mark1At (b :: bs) 0 ↔ (!b && bs.take 4 == [false, true, true, true]) = true := by
  cases b <;> simp [mark1At]

theorem mark1At_succ {b : Bool} {bs : List Bool} {i : Nat} : mark1At (b :: bs) (i + 1) ↔ mark1At bs i := by
  simp [mark1At]

/-- The search finds the first MARK1. -/
theorem afterMark1_first {bits : List Bool} {i : Nat} (h : mark1At bits i)
    (hf : ∀ j, j < i → ¬ mark1At bits j) : afterMark1 bits = some (bits.drop (i + 5)) := by
  induction bits generalizing i with
  | nil => simp [mark1At] at h
  | cons b bs ih =>
    rw [afterMark1]
    cases i with
    | zero => rw [if_pos (mark1At_zero.1 h)]; simp
    | succ i =>
      rw [if_neg fun hc => hf 0 (Nat.succ_pos i) (mark1At_zero.2 hc)]
      rw [ih (mark1At_succ.1 h) fun j hj hm => hf (j + 1) (by omega) (mark1At_succ.2 hm)]
      rfl

theorem afterMark1_none {bits : List Bool} (h : ∀ i, ¬ mark1At bits i) : afterMark1 bits = none := by
  induction bits with
  | nil => rfl
  | cons b bs ih =>
    rw [afterMark1, if_neg fun hc => h 0 (mark1At_zero.2 hc)]
    exact ih fun i hm => h (i + 1) (mark1At_succ.2 hm)

/-! ## Groups -/

theorem codeOf_bit (b0 b1 b2 b3 b4 : Bool) {j : Nat} (hj : j < 5) :
    (codeOf b0 b1 b2 b3 b4).getLsbD (4 - j) = [b0, b1, b2, b3, b4].getD j false := by
  revert hj
  cases b0 <;> cases b1 <;> cases b2 <;> cases b3 <;> cases b4 <;> revert j <;> decide

theorem groupsOf_count (bs : List Bool) : (groupsOf bs).length = bs.length / 5 := by
  fun_induction groupsOf bs with
  | case1 b0 b1 b2 b3 b4 rest ih => simp only [List.length_cons, ih]; omega
  | case2 bs h =>
    match bs, h with
    | [], _ => rfl
    | [_], _ => simp
    | [_, _], _ => simp
    | [_, _, _], _ => simp
    | [_, _, _, _], _ => simp
    | b0 :: b1 :: b2 :: b3 :: b4 :: rest, h => exact absurd rfl (h b0 b1 b2 b3 b4 rest)

/-- Bit `j` of group `g` is bit `5g + j` of the stream. -/
theorem groupsOf_bit (bs : List Bool) {g j : Nat} (hg : g < (groupsOf bs).length) (hj : j < 5) :
    ((groupsOf bs).getD g 0).getLsbD (4 - j) = bs.getD (5 * g + j) false := by
  fun_induction groupsOf bs generalizing g with
  | case1 b0 b1 b2 b3 b4 rest ih =>
    cases g with
    | zero =>
      rw [List.getD_cons_zero, codeOf_bit _ _ _ _ _ hj]
      interval_cases j <;> rfl
    | succ g =>
      rw [List.getD_cons_succ, ih (by simpa using hg)]
      rw [show 5 * (g + 1) + j = (5 * g + j) + 5 by omega]
      rfl
  | case2 bs h => simp at hg

theorem allSome_map {α : Type} (xs : List α) : allSome (xs.map some) = some xs := by
  induction xs with
  | nil => rfl
  | cons x xs ih => rw [List.map_cons, allSome, ih]

theorem allSome_none {α : Type} {xs : List (Option α)} (h : none ∈ xs) : allSome xs = none := by
  induction xs with
  | nil => cases h
  | cons x xs ih =>
    cases x with
    | none => rfl
    | some x =>
      rw [allSome, ih ((List.mem_cons.1 h).resolve_left (by simp))]

theorem tracks_getElem {n : Nat} (hn : n ≤ 9) : (tracks n).length = n ∧
    ∀ k : Fin 9, k.val < n → (tracks n)[k.val]? = some k := by
  interval_cases n <;> decide

/-- The rows of the aligned groups: as many as the shortest column has, row `g` the entries `g`. -/
theorem groupRows_spec {n : Nat} (h1 : 1 ≤ n) (hn : n ≤ 9) (col : Fin 9 → List Code) :
    let rows := groupRows ((tracks n).map col)
    (∀ k : Fin 9, k.val < n → rows.length ≤ (col k).length) ∧
    (∃ k : Fin 9, k.val < n ∧ rows.length = (col k).length) ∧
    ∀ g row, rows[g]? = some row → row.length = n ∧
      ∀ k : Fin 9, k.val < n → row.getD k.val 0 = (col k).getD g 0 := by
  intro rows
  obtain ⟨t1, t2⟩ := tracks_getElem hn
  have hlen : rows.length = (((tracks n).map col).map List.length).foldl min
      (((tracks n).map col).headD []).length := by
    simp [rows, groupRows]
  obtain ⟨m1, m2, m3⟩ := foldl_min_spec (((tracks n).map col).map List.length)
    (((tracks n).map col).headD []).length
  have h0 : (tracks n)[0]? = some 0 := t2 0 (by simp; omega)
  have hhead : (((tracks n).map col).headD []) = col 0 := by
    rw [List.headD_eq_head?_getD, List.head?_eq_getElem?, List.getElem?_map, h0]; rfl
  refine ⟨fun k hk => ?_, ?_, fun g row hg => ?_⟩
  · rw [hlen]
    exact m1 _ (List.mem_map_of_mem (List.mem_map_of_mem (mem_tracks.2 hk)))
  · rw [hlen]
    rcases m3 with h | h
    · exact ⟨0, by simp; omega, by rw [h, hhead]⟩
    · obtain ⟨x, hx, he⟩ := List.mem_map.1 h
      obtain ⟨k, hk, rfl⟩ := List.mem_map.1 hx
      exact ⟨k, mem_tracks.1 hk, he.symm⟩
  · simp only [rows, groupRows, List.getElem?_map] at hg
    obtain ⟨i, hi, rfl⟩ := Option.map_eq_some_iff.1 hg
    have hig : i = g := by
      obtain ⟨hlt, he⟩ := List.getElem?_eq_some_iff.1 hi
      rw [← he, List.getElem_range]
    subst hig
    refine ⟨by simp [t1], fun k hk => ?_⟩
    rw [List.getD_eq_getElem?_getD, List.getElem?_map, List.getElem?_map, t2 k hk]
    rfl

/-- A track without MARK1 ends the decode. -/
theorem gcrDecode_unaligned {n : Nat} {a : Attempt} {k : Fin 9} (hk : k.val < n)
    (h : ∀ i, ¬ mark1At (a.tr k).bits i) (table : Code → Option (BitVec 4)) (ecc : List Sym → Bool) :
    gcrDecode n table ecc a = GcrBlock.empty 1 := by
  have : gcrAlign n a = none := by
    rw [gcrAlign, allSome_none]
    exact List.mem_map.2 ⟨k, mem_tracks.2 hk, afterMark1_none h⟩
  rw [gcrDecode, this]

/-- The rows of an aligned block. -/
theorem gcrDecode_aligned {n : Nat} (h1 : 1 ≤ n) (hn : n ≤ 9) {a : Attempt} {start : Fin 9 → Nat}
    (h : ∀ k : Fin 9, k.val < n → mark1At (a.tr k).bits (start k) ∧
      ∀ i, i < start k → ¬ mark1At (a.tr k).bits i) :
    let groups := fun k : Fin 9 => ((a.tr k).bits.length - start k - 5) / 5
    ∃ rows, (∀ table ecc, gcrDecode n table ecc a = gcrDecodeRows n table ecc rows) ∧
      (∀ k : Fin 9, k.val < n → rows.length ≤ groups k) ∧
      (∃ k : Fin 9, k.val < n ∧ rows.length = groups k) ∧
      ∀ g row, rows[g]? = some row → row.length = n ∧
        ∀ (k : Fin 9) (j : Nat), k.val < n → j < 5 → (row.getD k.val 0).getLsbD (4 - j) =
          (a.tr k).bits.getD (start k + 5 + 5 * g + j) false := by
  intro groups
  let col := fun k : Fin 9 => groupsOf ((a.tr k).bits.drop (start k + 5))
  have hal : gcrAlign n a = some (groupRows ((tracks n).map col)) := by
    have : (tracks n).map (fun k => afterMark1 (a.tr k).bits) =
        ((tracks n).map fun k => (a.tr k).bits.drop (start k + 5)).map some := by
      rw [List.map_map]
      refine List.map_congr_left fun k hk => ?_
      obtain ⟨m1, m2⟩ := h k (mem_tracks.1 hk)
      exact afterMark1_first m1 m2
    rw [gcrAlign, this, allSome_map]
    simp only [List.map_map]
    rfl
  have hc : ∀ k, (col k).length = groups k := by
    intro k
    simp only [col, groups, groupsOf_count, List.length_drop, Nat.sub_add_eq]
  obtain ⟨r1, r2, r3⟩ := groupRows_spec h1 hn col
  refine ⟨groupRows ((tracks n).map col), fun table ecc => by rw [gcrDecode, hal], fun k hk => ?_, ?_,
    fun g row hg => ?_⟩
  · rw [← hc k]; exact r1 k hk
  · obtain ⟨k, hk, he⟩ := r2
    exact ⟨k, hk, by rw [he, hc k]⟩
  · obtain ⟨e1, e2⟩ := r3 g row hg
    refine ⟨e1, fun k j hk hj => ?_⟩
    have hlt : g < (col k).length :=
      Nat.lt_of_lt_of_le (List.getElem?_eq_some_iff.1 hg).1 (r1 k hk)
    rw [e2 k hk, groupsOf_bit _ hlt hj]
    simp only [List.getD_eq_getElem?_getD, List.getElem?_drop]
    rw [show start k + 5 + (5 * g + j) = start k + 5 + 5 * g + j by omega]

/-! ## The clock of a peak -/

/-- A 0-bit leaves the clock, and leaves no 1-bit counted in a burst. -/
theorem gcrBitted_zero_clk (t : Track) : (gcrBitted none t).clk = t.clk ∧
    ((gcrBitted none t).resyncActive = true → (gcrBitted none t).resyncBitcount = 0) := by
  unfold gcrBitted gcrResyncBit gcrResyncArm
  cases t.resyncActive <;> simp <;> split <;> simp

/-- A 1-bit forces the clock when it is the 70th of a burst, and leaves it otherwise. -/
theorem gcrBitted_one_clk (time : F64) (t : Track) : (gcrBitted (some time) t).clk =
    if t.resyncActive = true ∧ t.resyncBitcount = 69
    then clkForce (fDiv (fSub time t.tResyncFirst) (fOfNat 69)) t.clk else t.clk := by
  unfold gcrBitted gcrResyncBit gcrResyncArm
  cases ht : t.resyncActive
  · simp
  · simp only [gcrResyncOne, Config.gcrResyncOnes, Option.isNone_some, Bool.and_false, Bool.false_and,
      Bool.false_eq_true, if_false, if_true, true_and]
    by_cases h : t.resyncBitcount = 69
    · rw [if_pos h, if_pos (by omega), if_neg (by omega)]
    · rw [if_neg h, if_neg (by omega)]

/-- 0-bits in a row: the clock stays, and after one or more no 1-bit is counted in a burst. -/
theorem gcrZeros_clk (k : Fin 9) (m : Nat) (t t' : Track)
    (h : repeatTimes (gcrBit k none) m t = .ok t') : t'.clk = t.clk ∧
    (m = 0 → t' = t) ∧ (0 < m → t'.resyncActive = true → t'.resyncBitcount = 0) := by
  induction m generalizing t with
  | zero => cases h; exact ⟨rfl, fun _ => rfl, fun h => absurd h (Nat.lt_irrefl 0)⟩
  | succ m ih =>
    simp only [repeatTimes] at h
    split at h
    · cases h
    · rename_i t1 h1
      obtain ⟨-, rfl⟩ := gcrBit_eq_ok.1 h1
      obtain ⟨z1, z2⟩ := gcrBitted_zero_clk t
      obtain ⟨i1, i2, i3⟩ := ih _ h
      refine ⟨i1.trans z1, fun h => by omega, fun _ => ?_⟩
      rcases Nat.eq_zero_or_pos m with hm | hm
      · rw [i2 hm]; exact z2
      · exact i3 hm

/-- What a 0-bit leaves of the resync machine: armed exactly where it ends MARK2 (rules R322, R325). -/
theorem gcrBitted_zero_resync (t : Track) : (gcrBitted none t).last5 = t.last5 <<< 1 ∧
    (gcrBitted none t).resyncActive = decide (t.last5 <<< 1 = 0b11100) ∧
    ((gcrBitted none t).resyncActive = true → (gcrBitted none t).resyncBitcount = 0) := by
  unfold gcrBitted gcrResyncBit gcrResyncArm
  by_cases h : t.last5 <<< 1 = 28#5 <;> cases ha : t.resyncActive <;> simp [h, ha]

/-- What a 1-bit leaves of the resync machine: a burst counts it, and ends with the 70th (rules R322,
R325). -/
theorem gcrBitted_one_resync (time : F64) (t : Track) :
    let t' := gcrBitted (some time) t
    t'.last5 = (t.last5 <<< 1) ||| 1 ∧
    (t.resyncActive = false → t'.resyncActive = false ∧ t'.resyncBitcount = t.resyncBitcount ∧
      t'.tResyncFirst = t.tResyncFirst) ∧
    (t.resyncActive = true → t'.resyncActive = decide (t.resyncBitcount ≠ 69) ∧
      t'.resyncBitcount = t.resyncBitcount + 1 ∧
      t'.tResyncFirst = if t.resyncBitcount = 0 then time else t.tResyncFirst) := by
  unfold gcrBitted gcrResyncBit gcrResyncArm gcrResyncOne
  by_cases h : t.resyncBitcount = 69 <;> cases ha : t.resyncActive <;> simp [h, ha, Config.gcrResyncOnes]

/-- 0-bits in a row, where the track has room for them, are appended one by one. -/
theorem gcrZeros_fold (k : Fin 9) (m : Nat) (t : Track) (h : t.datacount + m ≤ Config.gcrMaxbits) :
    repeatTimes (gcrBit k none) m t =
      .ok ((List.replicate m none).foldl (fun u bit => gcrBitted bit u) t) := by
  induction m generalizing t with
  | zero => rfl
  | succ m ih =>
    have h1 : gcrBit k none t = .ok (gcrBitted none t) := gcrBit_eq_ok.mpr ⟨by omega, rfl⟩
    rw [repeatTimes, h1, List.replicate_succ, List.foldl_cons]
    exact ih _ (by rw [gcrBitted_datacount]; omega)

/-- What 0-bits in a row leave of the resync machine: armed exactly where the last of them ends MARK2. -/
theorem gcrZeros_resync (m : Nat) (t : Track) :
    let t' := (List.replicate m none).foldl (fun u bit => gcrBitted bit u) t
    t'.last5 = t.last5 <<< m ∧ (m = 0 → t' = t) ∧
    (0 < m → t'.resyncActive = decide (t.last5 <<< m = 0b11100) ∧
      (t'.resyncActive = true → t'.resyncBitcount = 0)) := by
  induction m generalizing t with
  | zero => exact ⟨by simp, fun _ => rfl, fun h => absurd h (Nat.lt_irrefl 0)⟩
  | succ m ih =>
    simp only [List.replicate_succ, List.foldl_cons]
    obtain ⟨i1, i2, i3⟩ := ih (gcrBitted none t)
    obtain ⟨b1, b2, b3⟩ := gcrBitted_zero_resync t
    have hs : ∀ x : BitVec 5, (x <<< 1) <<< m = x <<< (m + 1) := fun x => by
      rw [← BitVec.shiftLeft_add, Nat.add_comm]
    rw [b1, hs] at i1 i3
    refine ⟨i1, fun h => by omega, fun _ => ?_⟩
    rcases Nat.eq_zero_or_pos m with rfl | hm
    · rw [i2 rfl]; exact ⟨b2, b3⟩
    · exact i3 hm

/-! ## The assembly -/

/-- The group machine reads a whole block: its pairs in order, without a sequence error, whatever
follows its closing SYNC group (rules R333, R334). -/
theorem runGroups_blockRows {n : Nat} (hn : 0 < n) {ss : List (List (List Code × List Code))}
    (hne : ss ≠ []) (h : ∀ ps ∈ ss, ∀ p ∈ ps, groupClass p.1 = .data ∧ groupClass p.2 = .data)
    (tail : List (List Code)) :
    runGroups (blockRows n ss ++ sameGroup n 0b11111 :: tail) =
      { pairs := ss.flatten, seq := 0, terminal := true } := by
  have e : groupMachine (blockRows n ss ++ sameGroup n 0b11111 :: tail) none
      { pairs := [], seq := 0, terminal := false } =
        { pairs := ss.flatten, seq := 0, terminal := true } := by
    rw [groupMachine_blockRows n hn ss hne _ _ h, groupMachine.eq_def]
    simp only [(groupClass_same n 0b11111 hn).2.2 rfl]; rfl
  unfold runGroups
  simp only [e, if_true]

/-- The parity errors of the pairs are those of all their bytes (rule R338). -/
theorem oddParityErrs_flatten (bs : List (List Sym)) :
    (bs.map oddParityErrs).sum = oddParityErrs bs.flatten := by
  induction bs with
  | nil => rfl
  | cons b bs ih =>
    simp only [List.map_cons, List.sum_cons, List.flatten_cons, ih, oddParityErrs, List.filter_append,
      List.length_append]

/-- An unfinished block keeps every pair's seven bytes (rule R340). -/
theorem gcrAssemble_open (bs : List (List Sym)) :
    gcrAssemble false bs = ((bs.map (·.take 7)).flatten, 0) := by
  rw [gcrAssemble, if_neg (fun h => Bool.noConfusion h.1)]; rfl

/-- A finished block of fewer than two pairs counts a sequence error (rule R340). -/
theorem gcrAssemble_short {bs : List (List Sym)} (h : bs.length < 2) :
    gcrAssemble true bs = ((bs.map (·.take 7)).flatten, 1) := by
  rw [gcrAssemble, if_neg (fun h' => absurd h'.2 (by omega))]; rfl

/-- The last pair of a finished block is its CRC pair, whose residual count trims the rest (rule
R340). -/
theorem gcrAssemble_closed {body : List (List Sym)} (h : body ≠ []) (crc : List Sym) :
    gcrAssemble true (body ++ [crc]) =
      ((body.map (·.take 7)).flatten.take ((body.map (·.take 7)).flatten.length -
        ((crc.getD 6 0).extractLsb' 6 3).toNat), 0) := by
  have := List.length_pos_iff.2 h
  rw [gcrAssemble, if_pos ⟨rfl, by rw [List.length_append]; simp only [List.length_singleton]; omega⟩]
  simp only [List.dropLast_concat, List.getLastD_concat]

end Sys2Proof.Machine
end

