-- ==== Sys2Proof/Laws/Decode.lean ====
section
/-! SUPPORT. Lemmas of the decoder and the encoder: the fields of a command word, the payload words
taken from the stream, and one command's words decoded. -/

namespace Sys2Proof

theorem cmdOp_cmdWord (o r : BitVec 8) (a : BitVec 16) : cmdOp (cmdWord o r a) = o := by
  apply BitVec.eq_of_getLsbD_eq; intro i hi
  unfold cmdOp cmdWord
  rw [BitVec.getLsbD_extractLsb']
  erw [BitVec.getLsbD_append, BitVec.getLsbD_append]
  rw [if_neg (by omega), if_neg (by omega), show 24 + i - 16 - 8 = i by omega]; simp [hi]
theorem cmdRsv_cmdWord (o r : BitVec 8) (a : BitVec 16) : cmdRsv (cmdWord o r a) = r := by
  apply BitVec.eq_of_getLsbD_eq; intro i hi
  unfold cmdRsv cmdWord
  rw [BitVec.getLsbD_extractLsb']
  erw [BitVec.getLsbD_append, BitVec.getLsbD_append]
  rw [if_neg (by omega), if_pos (by omega), show 16 + i - 16 = i by omega]; simp [hi]
theorem cmdA_cmdWord (o r : BitVec 8) (a : BitVec 16) : cmdA (cmdWord o r a) = a := by
  apply BitVec.eq_of_getLsbD_eq; intro i hi
  unfold cmdA cmdWord
  rw [BitVec.getLsbD_extractLsb']
  erw [BitVec.getLsbD_append]
  rw [if_pos (by omega)]; simp [hi]
theorem cmdWord_fields (w : CmdWord) : cmdWord (cmdOp w) (cmdRsv w) (cmdA w) = w := by
  apply BitVec.eq_of_getLsbD_eq; intro i hi
  unfold cmdWord cmdOp cmdRsv cmdA
  erw [BitVec.getLsbD_append, BitVec.getLsbD_append]
  split
  · rw [BitVec.getLsbD_extractLsb']; simp_all
  · split
    · rw [BitVec.getLsbD_extractLsb', show 16 + (i - 16) = i by omega]; simp_all
    · rw [BitVec.getLsbD_extractLsb', show 24 + (i - 16 - 8) = i by omega]
      have : i - 16 - 8 < 8 := by omega
      simp_all

theorem takeData_map (p : List Word) (rest : List InWord) :
    takeData p.length (p.map .data ++ rest) = .words p rest := by
  induction p with
  | nil => rfl
  | cons d p ih => simp [takeData, ih]

theorem takeData_words {n : Nat} {ws : List InWord} {p : List Word} {rest : List InWord}
    (h : takeData n ws = .words p rest) : p.length = n ∧ ws = p.map .data ++ rest := by
  induction n generalizing ws p with
  | zero => simp [takeData] at h; obtain ⟨rfl, rfl⟩ := h; simp
  | succ n ih =>
    cases ws with
    | nil => simp [takeData] at h
    | cons x ws =>
      cases x with
      | cmd w => simp [takeData] at h
      | data d =>
        simp only [takeData] at h
        split at h <;> simp at h
        obtain ⟨rfl, rfl⟩ := h
        rename_i q r hq
        obtain ⟨h1, h2⟩ := ih hq
        simp [h1, h2]

theorem decode_command {w : CmdWord} {p : List Word} {rest : List InWord} (h : p.length = payloadLen w) :
    decode (.cmd w :: (p.map .data ++ rest)) =
      match classify w p with
      | .error r => .reject r rest
      | .ok i => .instr i rest := by
  simp only [decode, ← h, takeData_map] <;> rfl

theorem payloadLen_cmdWord (o r : BitVec 8) (a : BitVec 16) :
    payloadLen (cmdWord o r a) = match o.toNat with | 2 => 1 | 5 => 1 + a.toNat | _ => 0 := by
  simp only [payloadLen, cmdOp_cmdWord, cmdA_cmdWord] <;> rfl

end Sys2Proof
end

