-- ==== Sys2Proof/Laws/Sample.lean ====
section
/-! SUPPORT. SAMPLE keeps the attempt's invariant, changes only what its mode may, reports its peaks
in track order, and answers without a fault where the buffers have room (rules R98, R131, R170,
R171, R402). -/

namespace Sys2Proof.Machine

/-! ## The facts a SAMPLE runs under -/

/-- What a legal configuration gives the front end. -/
structure SampleFacts (c : CfgFile) (l : Latched) : Prop where
  lat : LatFacts l
  deskew : ∀ k, c.nat (.deskew k) ≤ Config.deskewMax
  agcWindow : c.nat .agcWindow ≤ Config.agcKMax

theorem legal_sampleFacts {c : CfgFile} (h : cfgInvalid c = none) : SampleFacts c (latchOf c) :=
  ⟨legal_latFacts (.inr ⟨c, h, rfl⟩), legal_deskew h, legal_agcWindow h⟩

/-! ## Fields the decoders never read -/

/-- The invariant does not speak of the attempt's own counters. -/
theorem AttemptInv.setCounters {l : Latched} {a : Attempt} (h : AttemptInv l a) (p : Option F64)
    (m : Nat) (b : Bool) : AttemptInv l { a with tPrev := p, nsamples := m, anyPeak := b } :=
  ⟨h.tracks, h.nrzi, ⟨h.buf.wf, h.buf.width, h.buf.unfaked,
    fun e k hk => ⟨(h.buf.pe e k hk).clear, (h.buf.pe e k hk).faked⟩, h.buf.nrzi, h.buf.gcr, h.buf.scan⟩,
    h.gcrNsym⟩

theorem AttemptFrame.setCounters (l : Latched) (a : Attempt) (p : Option F64) (m : Nat) (b : Bool) :
    AttemptFrame l a { a with tPrev := p, nsamples := m, anyPeak := b } :=
  ⟨fun _ _ => rfl, fun _ => TrackFrame.refl l _, fun _ => rfl, Nat.le_refl _, rfl,
    fun _ _ _ _ _ => ⟨rfl, rfl⟩, fun _ _ _ => rfl, fun _ _ => rfl⟩

/-! ## The start of a SAMPLE -/

theorem sampleBegin_tr (n : Nat) (t : F64) (a : Attempt) (k : Fin 9) :
    (sampleBegin n t a).tr k =
      if k.val < n then { a.tr k with dcStart := (a.tr k).datacount } else a.tr k :=
  eachTrack_tr n _ _ k

theorem sampleBegin_same (n : Nat) (t : F64) (a : Attempt) (k : Fin 9) :
    SameDecode (a.tr k) ((sampleBegin n t a).tr k) ∧
    (restFields ((sampleBegin n t a).tr k)).front = (restFields (a.tr k)).front ∧
    (restFields ((sampleBegin n t a).tr k)).last = (restFields (a.tr k)).last ∧
    (restFields ((sampleBegin n t a).tr k)).peakcount = (restFields (a.tr k)).peakcount ∧
    (restFields ((sampleBegin n t a).tr k)).agc = (restFields (a.tr k)).agc := by
  rw [sampleBegin_tr]
  split <;> exact ⟨⟨rfl, rfl, rfl, rfl⟩, rfl, rfl, rfl, rfl⟩

theorem sampleBegin_inv {l : Latched} (t : F64) {a : Attempt} (h : AttemptInv l a) :
    AttemptInv l (sampleBegin l.ntrks t a) ∧ AttemptFrame l a (sampleBegin l.ntrks t a) := by
  have hb : (sampleBegin l.ntrks t a).buf = a.buf := eachTrack_buf _ _ _
  have hz : (sampleBegin l.ntrks t a).nrzi = a.nrzi := eachTrack_nrzi _ _ _
  have hg : (sampleBegin l.ntrks t a).gcrNsym = a.gcrNsym := eachTrack_gcrNsym _ _ _
  have hs := fun k => sampleBegin_same l.ntrks t a k
  refine ⟨⟨fun k => ?_, hz ▸ h.nrzi, ⟨hb ▸ h.buf.wf, hb ▸ h.buf.width, hb ▸ h.buf.unfaked, ?_, ?_, ?_,
    hb ▸ h.buf.scan⟩, hg ▸ h.gcrNsym⟩, ⟨fun k hk => ?_, fun k => ?_, fun _ => hz, ?_, hg, ?_, ?_, fun _ _ => hb⟩⟩
  · refine (h.tracks k).of_same (hs k).1 ?_
    rw [sampleBegin_tr]
    have f := (h.tracks k).front
    split <;> exact ⟨f.fifo, f.win, f.blackout, f.hwin, f.gain⟩
  · intro e k hk
    have hc := h.buf.pe e k hk
    refine ⟨?_, ?_⟩
    · rw [hb, (hs k).1.datacount]; exact hc.clear
    · rw [hb, (hs k).1.datacount, (hs k).1.faked]; exact hc.faked
  · intro e i hi
    rw [hb]; rw [hz] at hi
    exact h.buf.nrzi e i hi
  · intro e i hi
    rw [hb]; rw [hg] at hi
    exact h.buf.gcr e i hi
  · rw [sampleBegin_tr, if_neg (by omega)]
  · exact (hs k).1.frame l fun _ => (hs k).2.2.2.2
  · rw [hz]
  · intro _ k i _ _
    rw [hb]; exact ⟨rfl, rfl⟩
  · intro _ i _
    rw [hb]

/-! ## A peak -/

theorem decoderPeak_inv {c : CfgFile} {l : Latched} (hl : LatFacts l) (hs : l.scan = false) {k : Fin 9}
    (hk : k.val < l.ntrks) {pk : Peak} {a : Attempt} {x : Attempt × Bool} (h : AttemptInv l a)
    (hx : decoderPeak c l k pk a = .ok x) :
    AttemptInv l x.1 ∧ DecodeFrame l a x.1 ∧ x.1.nrzi.postCounter ≤ a.nrzi.postCounter := by
  unfold decoderPeak at hx
  split at hx
  · rename_i hm
    have hp : l.runs .pe = true := runs_iff.mpr ⟨hs, hm⟩
    obtain ⟨i, f⟩ := pePeak_inv hl hp hk h hx
    refine ⟨i, f, Nat.le_of_eq ?_⟩
    rw [f.nrzi (by simp [Latched.runs, hm])]
  · rename_i hm
    have hz : l.runs .nrzi = true := runs_iff.mpr ⟨hs, hm⟩
    rw [andThen_eq_ok] at hx
    obtain ⟨a1, h1, h2⟩ := hx
    cases h2
    obtain ⟨i, f⟩ := nrziPeak_inv hz hk h h1
    exact ⟨i, f, nrziPeak_post h1⟩
  · rename_i hm
    have hg : l.runs .gcr = true := runs_iff.mpr ⟨hs, hm⟩
    rw [andThen_eq_ok] at hx
    obtain ⟨t, h1, h2⟩ := hx
    cases h2
    obtain ⟨i, f⟩ := (gcrPeak_step hg h1).attempt hg hk h
    exact ⟨i, f, Nat.le_refl _⟩
  · cases hx
    exact ⟨h, DecodeFrame.refl l _, Nat.le_refl _⟩

/-- What a dispatched peak does beside the decoding: the record, the counts and the flag (rule
R170). -/
structure Dispatched (k : Fin 9) (pk : Peak) (a a' : Attempt) : Prop where
  last : lastPeak (a'.tr k) = (true, pk.t, pk.v, pk.pol, (a.tr k).tLast)
  peakcount : (a'.tr k).peakcount = (a.tr k).peakcount + 1
  dcStart : (a'.tr k).dcStart = (a.tr k).dcStart
  front : (restFields (a'.tr k)).front = (restFields (a.tr k)).front
  others : ∀ j, j ≠ k → restFields (a'.tr j) = restFields (a.tr j)
  anyPeak : a'.anyPeak = true
  tPrev : a'.tPrev = a.tPrev
  nsamples : a'.nsamples = a.nsamples

theorem keepPeak_same (pk : Peak) (t : Track) : SameDecode t (keepPeak pk t) := ⟨rfl, rfl, rfl, rfl⟩

theorem FrontInv.keepPeak {l : Latched} {t : Track} (h : FrontInv l t) (pk : Peak) :
    FrontInv l (keepPeak pk t) := ⟨h.fifo, h.win, h.blackout, h.hwin, h.gain⟩

theorem agcPeak_rest (c : CfgFile) (l : Latched) (h : Option F64) (sod : Bool) (t : Track) :
    (restFields (agcPeak c l h sod t)).front = (restFields t).front ∧
    (restFields (agcPeak c l h sod t)).last = (restFields t).last ∧
    (restFields (agcPeak c l h sod t)).peakcount = (restFields t).peakcount ∧
    (restFields (agcPeak c l h sod t)).dcStart = (restFields t).dcStart := by
  unfold agcPeak
  split
  · unfold agcBaseline
    split
    · exact ⟨rfl, rfl, rfl, rfl⟩
    · split
      · exact ⟨rfl, rfl, rfl, rfl⟩
      · simp only []
        split <;> exact ⟨rfl, rfl, rfl, rfl⟩
  · split
    · exact ⟨rfl, rfl, rfl, rfl⟩
    · unfold agcKeepMax gainUpdate
      split <;> exact ⟨rfl, rfl, rfl, rfl⟩

/-- A track's change that leaves every decoder field alone. -/
theorem modTr_same {l : Latched} {k : Fin 9} (hk : k.val < l.ntrks) {f : Track → Track}
    {a : Attempt} (h : AttemptInv l a) (hs : SameDecode (a.tr k) (f (a.tr k)))
    (hf : FrontInv l (f (a.tr k))) (hagc : l.scan = true → agcFields (f (a.tr k)) = agcFields (a.tr k)) :
    AttemptInv l (a.modTr k f) ∧ AttemptFrame l a (a.modTr k f) :=
  ⟨h.setTr ((h.tracks k).of_same hs hf) fun _ => ⟨hs.datacount, hs.faked⟩,
    AttemptFrame.setTr hk (hs.frame l hagc)⟩

theorem dispatchPeak_inv {c : CfgFile} {l : Latched} (hf : SampleFacts c l) {k : Fin 9}
    (hk : k.val < l.ntrks) {pk : Peak} {a a' : Attempt} (h : AttemptInv l a)
    (ha : dispatchPeak c l k pk a = .ok a') :
    AttemptInv l a' ∧ AttemptFrame l a a' ∧ a'.nrzi.postCounter ≤ a.nrzi.postCounter ∧
    Dispatched k pk a a' := by
  have hfr := (h.tracks k).front
  obtain ⟨i0, f0⟩ := modTr_same (f := fun t => { t with peakcount := t.peakcount + 1 }) hk h
    ⟨rfl, rfl, rfl, rfl⟩ ⟨hfr.fifo, hfr.win, hfr.blackout, hfr.hwin, hfr.gain⟩ fun _ => rfl
  have i1 := i0.setCounters a.tPrev a.nsamples true
  have f1 := f0.trans (AttemptFrame.setCounters l (a.modTr k fun t => { t with peakcount := t.peakcount + 1 })
    a.tPrev a.nsamples true)
  simp only [dispatchPeak] at ha
  have e1 : ∀ j, ({ a.modTr k (fun t => { t with peakcount := t.peakcount + 1 }) with
      anyPeak := true } : Attempt).tr j = if j = k then { a.tr k with peakcount := (a.tr k).peakcount + 1 }
        else a.tr j := fun j => Attempt.tr_modTr a k j fun t => { t with peakcount := t.peakcount + 1 }
  change AttemptInv l { a.modTr k (fun t => { t with peakcount := t.peakcount + 1 }) with
    anyPeak := true } at i1
  change AttemptFrame l a { a.modTr k (fun t => { t with peakcount := t.peakcount + 1 }) with
    anyPeak := true } at f1
  have n1 : ({ a.modTr k (fun t => { t with peakcount := t.peakcount + 1 }) with
      anyPeak := true } : Attempt).nrzi = a.nrzi := rfl
  have c1 : ({ a.modTr k (fun t => { t with peakcount := t.peakcount + 1 }) with
      anyPeak := true } : Attempt).tPrev = a.tPrev ∧
      ({ a.modTr k (fun t => { t with peakcount := t.peakcount + 1 }) with
      anyPeak := true } : Attempt).nsamples = a.nsamples ∧
      ({ a.modTr k (fun t => { t with peakcount := t.peakcount + 1 }) with
      anyPeak := true } : Attempt).anyPeak = true := ⟨rfl, rfl, rfl⟩
  generalize ({ a.modTr k (fun t => { t with peakcount := t.peakcount + 1 }) with
      anyPeak := true } : Attempt) = a1 at ha e1 i1 f1 n1 c1
  have ek : a1.tr k = { a.tr k with peakcount := (a.tr k).peakcount + 1 } := by rw [e1, if_pos rfl]
  split at ha
  · rename_i hs
    cases ha
    obtain ⟨i2, f2⟩ := modTr_same (f := keepPeak pk) hk i1 (keepPeak_same pk _)
      ((i1.tracks k).front.keepPeak pk) fun _ => rfl
    refine ⟨i2, f1.trans f2, by rw [← n1]; exact Nat.le_refl _, ?_⟩
    refine ⟨?_, ?_, ?_, ?_, fun j hj => ?_, c1.2.2, c1.1, c1.2.1⟩
    · rw [Attempt.tr_modTr_same, ek]; rfl
    · rw [Attempt.tr_modTr_same, ek]; rfl
    · rw [Attempt.tr_modTr_same, ek]; rfl
    · rw [Attempt.tr_modTr_same, ek]; rfl
    · rw [Attempt.tr_modTr, if_neg hj, e1, if_neg hj]
  · rename_i hs
    have hs' : l.scan = false := by simpa using hs
    rw [andThen_eq_ok] at ha
    obtain ⟨x, h1, h2⟩ := ha
    cases h2
    obtain ⟨i2, f2, p2⟩ := decoderPeak_inv hf.lat hs' hk i1 h1
    generalize peakHeight pk (a.tr k) = hh
    obtain ⟨i3, f3⟩ := modTr_same (f := fun t => keepPeak pk (agcPeak c l hh x.2 t)) hk i2
      ((agcPeak_same c l hh x.2 _).trans (keepPeak_same pk _))
      ((agcPeak_front hf.agcWindow hs' hh x.2 (i2.tracks k).front).keepPeak pk)
      (fun e => by rw [hs'] at e; cases e)
    refine ⟨i3, (f1.trans f2.toAttemptFrame).trans f3, by rw [← n1]; exact p2, ?_⟩
    have hr := agcPeak_rest c l hh x.2 (x.1.tr k)
    have hk2 := f2.rest k
    refine ⟨?_, ?_, ?_, ?_, fun j hj => ?_, f2.anyPeak.trans c1.2.2, f2.tPrev.trans c1.1,
      f2.nsamples.trans c1.2.1⟩
    · rw [Attempt.tr_modTr_same]
      have : (agcPeak c l hh x.2 (x.1.tr k)).tLast = (a.tr k).tLast := by
        have e3 := congrArg (·.2.1) hr.2.1
        have e4 := congrArg (fun r => r.last.2.1) hk2
        rw [ek] at e4
        exact e3.trans e4
      simp only [lastPeak, keepPeak, this]
    · rw [Attempt.tr_modTr_same]
      have e4 := congrArg RestFields.peakcount hk2
      rw [ek] at e4
      exact hr.2.2.1.trans e4
    · rw [Attempt.tr_modTr_same]
      have e4 := congrArg RestFields.dcStart hk2
      rw [ek] at e4
      exact hr.2.2.2.trans e4
    · rw [Attempt.tr_modTr_same]
      have e4 := congrArg RestFields.front hk2
      rw [ek] at e4
      exact hr.1.trans e4
    · rw [Attempt.tr_modTr, if_neg hj, f2.rest j, e1, if_neg hj]

/-! ## One track -/

theorem deskew_rest (d : Nat) (v : F64) (t : Track) :
    (restFields (deskew d v t).2).last = (restFields t).last ∧
    (restFields (deskew d v t).2).peakcount = (restFields t).peakcount ∧
    (restFields (deskew d v t).2).dcStart = (restFields t).dcStart := by
  unfold deskew; split <;> exact ⟨rfl, rfl, rfl⟩

theorem peakStep_rest (c : CfgFile) (l : Latched) (time u : F64) (t : Track) :
    (restFields (peakStep c l time u t).1).last = (restFields t).last ∧
    (restFields (peakStep c l time u t).1).peakcount = (restFields t).peakcount ∧
    (restFields (peakStep c l time u t).1).dcStart = (restFields t).dcStart := by
  rcases peakStep_cases c l time u t with ⟨-, h⟩ | ⟨-, -, h⟩ | ⟨-, -, h⟩ | ⟨-, -, m, pk, -, -, h⟩ <;>
    rw [h] <;> exact ⟨rfl, rfl, rfl⟩

/-- What one track of a SAMPLE does to the events and the records. -/
structure TrackDone (k : Fin 9) (x y : Attempt × List Event) : Prop where
  others : ∀ j, j ≠ k → restFields (y.1.tr j) = restFields (x.1.tr j)
  dcStart : (y.1.tr k).dcStart = (x.1.tr k).dcStart
  tPrev : y.1.tPrev = x.1.tPrev
  nsamples : y.1.nsamples = x.1.nsamples
  event :
    (y.2 = x.2 ∧ lastPeak (y.1.tr k) = lastPeak (x.1.tr k) ∧
      (y.1.tr k).peakcount = (x.1.tr k).peakcount ∧ y.1.anyPeak = x.1.anyPeak) ∨
    (∃ pk, y.2 = x.2 ++ [⟨k, pk⟩] ∧
      lastPeak (y.1.tr k) = (true, pk.t, pk.v, pk.pol, (x.1.tr k).tLast) ∧
      (y.1.tr k).peakcount = (x.1.tr k).peakcount + 1 ∧ y.1.anyPeak = true)

theorem sampleTrack_inv {c : CfgFile} {l : Latched} (hf : SampleFacts c l) {t : F64} {vs : List F64}
    {k : Fin 9} (hk : k.val < l.ntrks) {x y : Attempt × List Event} (h : AttemptInv l x.1)
    (hy : sampleTrack c l t vs k x = .ok y) :
    AttemptInv l y.1 ∧ AttemptFrame l x.1 y.1 ∧ y.1.nrzi.postCounter ≤ x.1.nrzi.postCounter ∧
    TrackDone k x y := by
  simp only [sampleTrack] at hy
  have d1 := deskew_same (c.nat (.deskew k)) (laneOf vs k) (x.1.tr k)
  have d2 := deskew_front (hf.deskew k) (laneOf vs k) (h.tracks k).front
  have d3 := deskew_agc (c.nat (.deskew k)) (laneOf vs k) (x.1.tr k)
  have d4 := deskew_rest (c.nat (.deskew k)) (laneOf vs k) (x.1.tr k)
  generalize deskew (c.nat (.deskew k)) (laneOf vs k) (x.1.tr k) = d at hy d1 d2 d3 d4
  have p1 := peakStep_same c l t d.1 d.2
  have p2 := peakStep_front (c := c) hf.lat.w t d.1 d2
  have p3 := peakStep_agc c l t d.1 d.2
  have p4 := peakStep_rest c l t d.1 d.2
  generalize peakStep c l t d.1 d.2 = p at hy p1 p2 p3 p4
  have hsd := d1.trans p1
  have i1 : AttemptInv l (x.1.setTr k p.1) :=
    h.setTr ((h.tracks k).of_same hsd p2) fun _ => ⟨hsd.datacount, hsd.faked⟩
  have f1 : AttemptFrame l x.1 (x.1.setTr k p.1) :=
    AttemptFrame.setTr hk (hsd.frame l fun _ => p3.trans d3)
  have l1 : lastPeak p.1 = lastPeak (x.1.tr k) := p4.1.trans d4.1
  have c1 : p.1.peakcount = (x.1.tr k).peakcount := p4.2.1.trans d4.2.1
  have s1 : p.1.dcStart = (x.1.tr k).dcStart := p4.2.2.trans d4.2.2
  split at hy
  · cases hy
    refine ⟨i1, f1, Nat.le_refl _, ⟨fun j hj => ?_, ?_, rfl, rfl, .inl ⟨rfl, ?_, ?_, rfl⟩⟩⟩
    · rw [Attempt.tr_setTr_other _ _ hj]
    · rw [Attempt.tr_setTr_same]; exact s1
    · rw [Attempt.tr_setTr_same]; exact l1
    · rw [Attempt.tr_setTr_same]; exact c1
  · rename_i pk _
    rw [andThen_eq_ok] at hy
    obtain ⟨a2, h2, h3⟩ := hy
    cases h3
    obtain ⟨i2, f2, q2, r2⟩ := dispatchPeak_inv hf hk i1 h2
    refine ⟨i2, f1.trans f2, q2, ⟨fun j hj => ?_, ?_, r2.tPrev, r2.nsamples,
      .inr ⟨pk, rfl, ?_, ?_, r2.anyPeak⟩⟩⟩
    · rw [r2.others j hj, Attempt.tr_setTr_other _ _ hj]
    · rw [r2.dcStart, Attempt.tr_setTr_same]; exact s1
    · rw [r2.last, Attempt.tr_setTr_same]
      have : p.1.tLast = (x.1.tr k).tLast := congrArg (·.2.1) l1
      rw [this]
    · rw [r2.peakcount, Attempt.tr_setTr_same, c1]

/-! ## All tracks -/

/-- What the tracks of a SAMPLE have done when `ks` are left. -/
structure TracksDone (l : Latched) (a : Attempt) (ks : List (Fin 9)) (x : Attempt × List Event) : Prop where
  inv : AttemptInv l x.1
  frame : AttemptFrame l a x.1
  post : x.1.nrzi.postCounter ≤ a.nrzi.postCounter
  tPrev : x.1.tPrev = a.tPrev
  nsamples : x.1.nsamples = a.nsamples
  dcStart : ∀ k, (x.1.tr k).dcStart = (a.tr k).dcStart
  events : EventsOf l.ntrks a x.1 x.2
  before : ∀ e ∈ x.2, ∀ k ∈ ks, e.k < k
  sorted : ks.Pairwise (· < ·)
  lanes : ∀ k ∈ ks, k.val < l.ntrks

theorem tracksDone_begin {l : Latched} {a : Attempt} (h : AttemptInv l a) :
    TracksDone l a (tracks l.ntrks) (a, []) where
  inv := h
  frame := AttemptFrame.refl l a
  post := Nat.le_refl _
  tPrev := rfl
  nsamples := rfl
  dcStart _ := rfl
  events := ⟨List.Pairwise.nil, fun _ h => (by cases h), fun _ h => (by cases h),
    fun _ _ => ⟨rfl, rfl⟩, by simp⟩
  before _ h := by cases h
  sorted := by
    have : allTracks.Pairwise (· < ·) := by decide
    exact this.filter _
  lanes _ hk := mem_tracks.mp hk

theorem tracksDone_step {c : CfgFile} {l : Latched} (hf : SampleFacts c l) {t : F64} {vs : List F64}
    {k : Fin 9} {ks : List (Fin 9)} {a : Attempt} {x y : Attempt × List Event}
    (h : TracksDone l a (k :: ks) x) (hy : sampleTrack c l t vs k x = .ok y) :
    TracksDone l a ks y := by
  have hk := h.lanes k List.mem_cons_self
  obtain ⟨i1, f1, p1, d1⟩ := sampleTrack_inv hf hk h.inv hy
  obtain ⟨hlt, hks⟩ := List.pairwise_cons.mp h.sorted
  have hxk : ∀ e ∈ x.2, e.k < k := fun e he => h.before e he k List.mem_cons_self
  have hot : ∀ j, j ≠ k → lastPeak (y.1.tr j) = lastPeak (x.1.tr j) ∧
      (y.1.tr j).peakcount = (x.1.tr j).peakcount ∧ (y.1.tr j).dcStart = (x.1.tr j).dcStart := by
    intro j hj
    have := d1.others j hj
    exact ⟨congrArg RestFields.last this, congrArg RestFields.peakcount this,
      congrArg RestFields.dcStart this⟩
  have huk := h.events.unseen k fun e he => ne_of_lt (hxk e he)
  refine ⟨i1, h.frame.trans f1, Nat.le_trans p1 h.post, d1.tPrev.trans h.tPrev,
    d1.nsamples.trans h.nsamples, fun j => ?_, ?_, ?_, hks, fun j hj => h.lanes j (List.mem_cons_of_mem _ hj)⟩
  · by_cases hj : j = k
    · subst hj; rw [d1.dcStart]; exact h.dcStart j
    · rw [(hot j hj).2.2]; exact h.dcStart j
  · rcases d1.event with ⟨e0, e1, e2, e3⟩ | ⟨pk, e0, e1, e2, e3⟩
    · rw [e0]
      refine ⟨h.events.order, h.events.lanes, fun e he => ?_, fun j hj => ?_, ?_⟩
      · have hne : e.k ≠ k := ne_of_lt (hxk e he)
        rw [(hot e.k hne).1, (hot e.k hne).2.1]
        exact h.events.seen e he
      · by_cases hjk : j = k
        · subst hjk
          rw [e1, e2]; exact huk
        · rw [(hot j hjk).1, (hot j hjk).2.1]
          exact h.events.unseen j hj
      · rw [e3]; exact h.events.anyPeak
    · rw [e0]
      refine ⟨?_, fun e he => ?_, fun e he => ?_, fun j hj => ?_, ?_⟩
      · rw [List.map_append, List.map_singleton, List.pairwise_append]
        refine ⟨h.events.order, List.pairwise_singleton _ _, fun b hb j hj => ?_⟩
        obtain ⟨e, he, rfl⟩ := List.mem_map.mp hb
        rw [List.mem_singleton.mp hj]
        exact hxk e he
      · rcases List.mem_append.mp he with he | he
        · exact h.events.lanes e he
        · rw [List.mem_singleton.mp he]; exact hk
      · rcases List.mem_append.mp he with he | he
        · have hne : e.k ≠ k := ne_of_lt (hxk e he)
          rw [(hot e.k hne).1, (hot e.k hne).2.1]
          exact h.events.seen e he
        · rw [List.mem_singleton.mp he]
          have htl : (x.1.tr k).tLast = (a.tr k).tLast := congrArg (·.2.1) huk.1
          exact ⟨by rw [e1, htl], by rw [e2, huk.2]⟩
      · have hjk : j ≠ k := fun e => hj ⟨k, pk⟩ (List.mem_append.mpr (.inr (List.mem_singleton.mpr rfl))) e.symm
        rw [(hot j hjk).1, (hot j hjk).2.1]
        exact h.events.unseen j fun e he => hj e (List.mem_append.mpr (.inl he))
      · rw [e3]; simp
  · intro e he j hj
    rcases d1.event with ⟨e0, -⟩ | ⟨pk, e0, -⟩
    · rw [e0] at he; exact h.before e he j (List.mem_cons_of_mem _ hj)
    · rw [e0] at he
      rcases List.mem_append.mp he with he | he
      · exact h.before e he j (List.mem_cons_of_mem _ hj)
      · rw [List.mem_singleton.mp he]; exact hlt j hj

theorem forEach_left {α σ : Type} {f : α → σ → Except Raise σ} {P : List α → σ → Prop}
    {xs : List α} {s s' : σ} (hf : ∀ x xs s s', P (x :: xs) s → f x s = .ok s' → P xs s')
    (hs : P xs s) (h : forEach f xs s = .ok s') : P [] s' := by
  induction xs generalizing s with
  | nil => cases h; exact hs
  | cons x xs ih =>
    simp only [forEach] at h
    split at h
    · cases h
    · rename_i s1 h1
      exact ih (hf x xs s s1 hs h1) h

/-! ## The whole SAMPLE -/

theorem EventsOf.decode {l : Latched} {a a1 a2 : Attempt} {es : List Event}
    (h : EventsOf l.ntrks a a1 es) (f : DecodeFrame l a1 a2) : EventsOf l.ntrks a a2 es := by
  have hr : ∀ k, lastPeak (a2.tr k) = lastPeak (a1.tr k) ∧ (a2.tr k).peakcount = (a1.tr k).peakcount :=
    fun k => ⟨congrArg RestFields.last (f.rest k), congrArg RestFields.peakcount (f.rest k)⟩
  refine ⟨h.order, h.lanes, fun e he => ?_, fun k hk => ?_, by rw [f.anyPeak]; exact h.anyPeak⟩
  · rw [(hr e.k).1, (hr e.k).2]; exact h.seen e he
  · rw [(hr k).1, (hr k).2]; exact h.unseen k hk

theorem sampleStep_inv {c : CfgFile} {l : Latched} {now : F64} {a : Attempt} {x : Attempt × Bool}
    (h : AttemptInv l a) (h8 : a.nrzi.postCounter ≤ 8) (hx : sampleStep c l now a = .ok x) :
    AttemptInv l x.1 ∧ DecodeFrame l a x.1 ∧ (x.2 = false → x.1.nrzi.postCounter ≤ 8) := by
  unfold sampleStep at hx
  split at hx
  · cases hx
    exact ⟨h, DecodeFrame.refl l _, fun _ => h8⟩
  · rename_i hs
    have hs' : l.scan = false := by simpa using hs
    split at hx
    · rename_i hm
      have hp : l.runs .pe = true := runs_iff.mpr ⟨hs', hm⟩
      cases hx
      obtain ⟨i, f⟩ := peSampleStep_inv hp c now h
      refine ⟨i, f, fun _ => ?_⟩
      rw [f.nrzi (by simp [Latched.runs, hm])]; exact h8
    · rename_i hm
      exact nrziSampleStep_inv (runs_iff.mpr ⟨hs', hm⟩) h h8 hx
    · rename_i hm
      have hg : l.runs .gcr = true := runs_iff.mpr ⟨hs', hm⟩
      cases hx
      obtain ⟨i, f⟩ := gcrSampleStep_inv hg c now h
      refine ⟨i, f, fun _ => ?_⟩
      rw [f.nrzi (by simp [Latched.runs, hm])]; exact h8
    · cases hx
      exact ⟨h, DecodeFrame.refl l _, fun _ => h8⟩

/-- What a SAMPLE that runs has done before the block's end is acted on. -/
structure SampleDone (l : Latched) (t : F64) (a a' : Attempt) (ended : Bool) (es : List Event) : Prop where
  inv : AttemptInv l a'
  frame : AttemptFrame l a a'
  live : ended = false → a'.nrzi.postCounter ≤ 8
  tPrev : a'.tPrev = some t
  nsamples : a'.nsamples = a.nsamples + 1
  events : EventsOf l.ntrks a a' es

theorem EventsOf.begin {n : Nat} {t : F64} {a a' : Attempt} {es : List Event}
    (h : EventsOf n (sampleBegin n t a) a' es) : EventsOf n a a' es := by
  have hb : ∀ k, lastPeak ((sampleBegin n t a).tr k) = lastPeak (a.tr k) ∧
      ((sampleBegin n t a).tr k).peakcount = (a.tr k).peakcount := fun k =>
    ⟨(sampleBegin_same n t a k).2.2.1, (sampleBegin_same n t a k).2.2.2.1⟩
  refine ⟨h.order, h.lanes, fun e he => ?_, fun k hk => ?_, ?_⟩
  · have h1 := h.seen e he
    have h2 : ((sampleBegin n t a).tr e.k).tLast = (a.tr e.k).tLast := congrArg (·.2.1) (hb e.k).1
    rwa [h2, (hb e.k).2] at h1
  · have h1 := h.unseen k hk
    rwa [(hb k).1, (hb k).2] at h1
  · have h1 := h.anyPeak
    have h2 : (sampleBegin n t a).anyPeak = a.anyPeak := eachTrack_anyPeak _ _ _
    rwa [h2] at h1

theorem sampleRun_inv {c : CfgFile} {l : Latched} (hf : SampleFacts c l) {t : F64} {vs : List F64}
    {a : Attempt} {x : Attempt × Bool × List Event} (h : AttemptInv l a)
    (h8 : a.nrzi.postCounter ≤ 8) (hx : sampleRun c l t vs a = .ok x) :
    SampleDone l t a x.1 x.2.1 x.2.2 := by
  obtain ⟨i0, f0⟩ := sampleBegin_inv t h
  have hz : (sampleBegin l.ntrks t a).nrzi = a.nrzi := eachTrack_nrzi _ _ _
  simp only [sampleRun, andThen_eq_ok] at hx
  obtain ⟨y, h1, z, h2, h3⟩ := hx
  cases h3
  have hd : TracksDone l (sampleBegin l.ntrks t a) [] y :=
    forEach_left (P := fun ks x => TracksDone l (sampleBegin l.ntrks t a) ks x)
      (fun k ks x x' hp hx => tracksDone_step hf hp hx) (tracksDone_begin i0) h1
  have hp := hd.post
  rw [hz] at hp
  obtain ⟨i2, f2, e2⟩ := sampleStep_inv hd.inv (Nat.le_trans hp h8) h2
  have ht : (sampleBegin l.ntrks t a).tPrev = some t := eachTrack_tPrev _ _ _
  have hn : (sampleBegin l.ntrks t a).nsamples = a.nsamples + 1 := eachTrack_nsamples _ _ _
  exact ⟨i2, (f0.trans hd.frame).trans f2.toAttemptFrame, e2,
    (f2.tPrev.trans hd.tPrev).trans ht, (f2.nsamples.trans hd.nsamples).trans hn,
    (hd.events.decode f2).begin⟩

/-! ## Room -/

/-- The buffers have room for what the tracks `ks` and the midbit loop can still append. -/
structure RoomLeft (l : Latched) (ks : List (Fin 9)) (a : Attempt) : Prop where
  pe : l.runs .pe = true → (∀ k ∈ ks, (a.tr k).datacount < Config.databuf) ∧
    ∀ j : Fin 9, j.val < l.ntrks → (a.tr j).dcStart < Config.databuf
  nrzi : l.runs .nrzi = true →
    a.nrzi.nsym + 9 + boolNat (a.nrzi.postCounter == 1) ≤ Config.databuf
  gcr : l.runs .gcr = true → ∀ k ∈ ks, (a.tr k).datacount + 3 ≤ Config.gcrMaxbits

theorem RoomLeft.of_begin {l : Latched} {t : F64} {a : Attempt} (h : Room l a) :
    RoomLeft l (tracks l.ntrks) (sampleBegin l.ntrks t a) := by
  have hz : (sampleBegin l.ntrks t a).nrzi = a.nrzi := eachTrack_nrzi _ _ _
  have hdc : ∀ k, ((sampleBegin l.ntrks t a).tr k).datacount = (a.tr k).datacount :=
    fun k => (sampleBegin_same l.ntrks t a k).1.datacount
  refine ⟨fun e => ⟨fun k hk => ?_, fun j hj => ?_⟩, fun e => ?_, fun e k hk => ?_⟩
  · rw [hdc]; exact h.1 e k (mem_tracks.mp hk)
  · rw [sampleBegin_tr, if_pos hj]; exact h.1 e j hj
  · have := h.2.1 e
    rw [hz]
    unfold boolNat
    split <;> omega
  · rw [hdc]; exact h.2.2 e k (mem_tracks.mp hk)

theorem sampleTrack_answers {c : CfgFile} {l : Latched} (hf : SampleFacts c l) {t : F64}
    {vs : List F64} {k : Fin 9} {ks : List (Fin 9)} {a : Attempt} {x : Attempt × List Event}
    (hd : TracksDone l a (k :: ks) x) (h : RoomLeft l (k :: ks) x.1) :
    ∃ y, sampleTrack c l t vs k x = .ok y ∧ TracksDone l a ks y ∧ RoomLeft l ks y.1 := by
  have hk := hd.lanes k List.mem_cons_self
  have hnot : ∀ j ∈ ks, j ≠ k := fun j hj => ne_of_gt ((List.pairwise_cons.mp hd.sorted).1 j hj)
  -- it is enough that the track answers, leaves the others' counts and takes at most its symbol
  suffices hy : ∃ y, sampleTrack c l t vs k x = .ok y ∧ (∀ j, j ≠ k → y.1.tr j = x.1.tr j) ∧
      (l.runs .nrzi = true → (y.1.nrzi.nsym = x.1.nrzi.nsym ∧
          y.1.nrzi.postCounter = x.1.nrzi.postCounter) ∨
        (y.1.nrzi.nsym = x.1.nrzi.nsym + 1 ∧ y.1.nrzi.postCounter = 0 ∧ x.1.nrzi.postCounter = 1)) by
    obtain ⟨y, hy1, hy2, hy3⟩ := hy
    have hd' := tracksDone_step hf hd hy1
    refine ⟨y, hy1, hd', ⟨fun e => ⟨fun j hj => ?_, fun j hj => ?_⟩, fun e => ?_, fun e j hj => ?_⟩⟩
    · rw [hy2 j (hnot j hj)]; exact (h.pe e).1 j (List.mem_cons_of_mem _ hj)
    · rw [hd'.dcStart j, ← hd.dcStart j]; exact (h.pe e).2 j hj
    · have h1 := h.nrzi e
      rcases hy3 e with ⟨e1, e2⟩ | ⟨e1, e2, e3⟩
      · rw [e1, e2]; exact h1
      · rw [e3] at h1
        rw [e1, e2]
        simp [boolNat] at h1 ⊢
        omega
    · rw [hy2 j (hnot j hj)]; exact h.gcr e j (List.mem_cons_of_mem _ hj)
  simp only [sampleTrack]
  have d1 := deskew_same (c.nat (.deskew k)) (laneOf vs k) (x.1.tr k)
  have d4 := deskew_rest (c.nat (.deskew k)) (laneOf vs k) (x.1.tr k)
  generalize deskew (c.nat (.deskew k)) (laneOf vs k) (x.1.tr k) = d at d1 d4
  have p1 := peakStep_same c l t d.1 d.2
  have p4 := peakStep_rest c l t d.1 d.2
  generalize peakStep c l t d.1 d.2 = p at p1 p4
  have hdc : p.1.datacount = (x.1.tr k).datacount := (d1.trans p1).datacount
  have hds : p.1.dcStart = (x.1.tr k).dcStart := p4.2.2.trans d4.2.2
  split
  · exact ⟨_, rfl, fun j hj => Attempt.tr_setTr_other _ _ hj, fun _ => .inl ⟨rfl, rfl⟩⟩
  · rename_i pk _
    simp only [dispatchPeak]
    have e1 : ∀ j, ({ (x.1.setTr k p.1).modTr k (fun t => { t with peakcount := t.peakcount + 1 }) with
        anyPeak := true } : Attempt).tr j = if j = k then { p.1 with peakcount := p.1.peakcount + 1 }
          else x.1.tr j := by
      intro j
      change ((x.1.setTr k p.1).modTr k (fun t => { t with peakcount := t.peakcount + 1 })).tr j = _
      rw [Attempt.tr_modTr, Attempt.tr_setTr_same]
      split
      · rfl
      · rename_i hj; exact Attempt.tr_setTr_other _ _ hj
    have n1 : ({ (x.1.setTr k p.1).modTr k (fun t => { t with peakcount := t.peakcount + 1 }) with
        anyPeak := true } : Attempt).nrzi = x.1.nrzi := rfl
    generalize ({ (x.1.setTr k p.1).modTr k (fun t => { t with peakcount := t.peakcount + 1 }) with
        anyPeak := true } : Attempt) = a1 at e1 n1
    have ek : a1.tr k = { p.1 with peakcount := p.1.peakcount + 1 } := by rw [e1, if_pos rfl]
    have eo : ∀ j, j ≠ k → a1.tr j = x.1.tr j := fun j hj => by rw [e1, if_neg hj]
    cases hs : l.scan
    · simp only [Bool.false_eq_true, if_false, decoderPeak]
      cases hm : l.mode
      · exact ⟨_, rfl, fun j hj => (Attempt.tr_setTr_other _ _ hj).trans (eo j hj),
          fun e => by rw [Latched.runs, hm] at e; simp at e⟩
      · have hp : l.runs .pe = true := runs_iff.mpr ⟨hs, hm⟩
        obtain ⟨z, hz1, hz2⟩ := pePeak_answers (c := c) (n := l.ntrks) (k := k) (pk := pk) (a := a1)
          (by rw [ek]; simp only [hdc]; exact (h.pe hp).1 k List.mem_cons_self)
          (by
            intro j hj
            by_cases hjk : j = k
            · subst hjk; rw [ek]; simp only [hds]; exact (h.pe hp).2 j hj
            · rw [eo j hjk]; exact (h.pe hp).2 j hj)
        simp only [hz1, andThen_ok_left]
        refine ⟨_, rfl, fun j hj => ?_, fun e => by rw [Latched.runs, hm] at e; simp at e⟩
        rw [Attempt.tr_modTr, if_neg hj, hz2 j hj, eo j hj]
      · have hz : l.runs .nrzi = true := runs_iff.mpr ⟨hs, hm⟩
        have hroom := h.nrzi hz
        obtain ⟨z, hz1, hz2, hz3⟩ := nrziPeak_answers (c := c) (n := l.ntrks) (k := k) (pk := pk) (a := a1)
          (by rw [n1]; left; omega)
        simp only [hz1, andThen_ok_left]
        refine ⟨_, rfl, fun j hj => ?_, fun _ => ?_⟩
        · rw [Attempt.tr_modTr, if_neg hj, hz3 j hj, eo j hj]
        · rw [n1] at hz2; exact hz2
      · have hg : l.runs .gcr = true := runs_iff.mpr ⟨hs, hm⟩
        obtain ⟨z, hz1⟩ := gcrPeak_answers (c := c) (k := k) (pk := pk) (t := a1.tr k)
          (by rw [ek]; simp only [hdc]; exact h.gcr hg k List.mem_cons_self)
        simp only [hz1, andThen_ok_left]
        refine ⟨_, rfl, fun j hj => ?_, fun e => by rw [Latched.runs, hm] at e; simp at e⟩
        rw [Attempt.tr_modTr, if_neg hj, Attempt.tr_setTr_other _ _ hj, eo j hj]
    · simp only [if_true]
      refine ⟨_, rfl, fun j hj => ?_, fun e => by rw [runs_false_of_scan hs] at e; cases e⟩
      rw [Attempt.tr_modTr, if_neg hj, eo j hj]

/-- A SAMPLE that passed its checks runs where the buffers have room (rules R131, R402). -/
theorem sampleRun_answers {c : CfgFile} {l : Latched} (hf : SampleFacts c l) {t : F64} {vs : List F64}
    {a : Attempt} (h : AttemptInv l a) (hr : Room l a) : ∃ x, sampleRun c l t vs a = .ok x := by
  obtain ⟨i0, -⟩ := sampleBegin_inv t h
  obtain ⟨y, hy, hd, hl⟩ := forEach_answers
    (f := sampleTrack c l t vs)
    (P := fun ks x => TracksDone l (sampleBegin l.ntrks t a) ks x ∧ RoomLeft l ks x.1)
    (fun k ks x hp => by
      obtain ⟨y, h1, h2, h3⟩ := sampleTrack_answers (c := c) (t := t) (vs := vs) hf hp.1 hp.2
      exact ⟨y, h1, h2, h3⟩)
    ⟨tracksDone_begin i0, RoomLeft.of_begin hr⟩
  simp only [sampleRun, hy, andThen_ok_left]
  unfold sampleStep
  split
  · exact ⟨_, rfl⟩
  · rename_i hs
    have hs' : l.scan = false := by simpa using hs
    split
    · exact ⟨_, rfl⟩
    · rename_i hm
      have hroom := hl.nrzi (runs_iff.mpr ⟨hs', hm⟩)
      have hp := pendingCount_le l.ntrks y.1
      unfold nrziSampleStep
      split
      · obtain ⟨z, hz⟩ := nrziLoop_answers (c := c) (n := l.ntrks) (now := t)
          (f := midbitBound l.ntrks y.1) (a := y.1) (by omega)
        rw [hz]; exact ⟨_, rfl⟩
      · exact ⟨_, rfl⟩
    · exact ⟨_, rfl⟩
    · exact ⟨_, rfl⟩

/-- An `n`-track tape has at most `n` lanes. -/
theorem tracks_length_le_n (n : Nat) : (tracks n).length ≤ n ∧ (tracks n).length ≤ 9 := by
  refine ⟨?_, tracks_length_le n⟩
  by_cases h : n < 9
  · interval_cases n <;> decide
  · exact Nat.le_trans (tracks_length_le n) (by omega)

/-- Each track of a SAMPLE adds at most one event. -/
theorem forEach_events {c : CfgFile} {l : Latched} {t : F64} {vs : List F64} {ks : List (Fin 9)}
    {x y : Attempt × List Event} (h : forEach (sampleTrack c l t vs) ks x = .ok y) :
    y.2.length ≤ x.2.length + ks.length := by
  induction ks generalizing x with
  | nil => cases h; simp
  | cons k ks ih =>
    simp only [forEach] at h
    split at h
    · cases h
    · rename_i z hz
      have := ih h
      have hz2 : z.2.length ≤ x.2.length + 1 := by
        simp only [sampleTrack] at hz
        split at hz
        · cases hz; simp
        · obtain ⟨a2, -, h2⟩ := andThen_eq_ok.1 hz
          cases h2; simp
      simp; omega

/-- A SAMPLE reports at most one event a track (rule R98). -/
theorem sampleRun_events {c : CfgFile} {l : Latched} {t : F64} {vs : List F64} {a : Attempt}
    {y : Attempt × Bool × List Event} (h : sampleRun c l t vs a = .ok y) :
    y.2.2.length ≤ l.ntrks ∧ y.2.2.length ≤ 9 := by
  unfold sampleRun at h
  obtain ⟨x, h1, h2⟩ := andThen_eq_ok.1 h
  obtain ⟨z, h3, h4⟩ := andThen_eq_ok.1 h2
  cases h4
  have := forEach_events h1
  have := tracks_length_le_n l.ntrks
  simp at *; omega

/-- The length of a SAMPLE response (rule R98). -/
theorem sampleResponse_length (es : List Event) (e : Bool) : (sampleResponse es e).length = 1 + 3 * es.length := by
  have : ((es.map eventWords).flatten).length = 3 * es.length := by
    induction es with
    | nil => rfl
    | cons x es ih => simp [eventWords] at ih ⊢; omega
  simp [sampleResponse, this]; omega

end Sys2Proof.Machine
end

