-- ==== Sys2Proof/Laws/Overflow.lean ====
section
/-! SUPPORT. What a SAMPLE that has passed its checks can raise: BUFFER_OVERFLOW, and nothing else
(rules R80, R400, R402). -/

namespace Sys2Proof.Machine

theorem forEach_error {α σ : Type} {f : α → σ → Except Raise σ} {xs : List α} {s : σ} {r : Raise}
    (h : forEach f xs s = .error r) : ∃ x ∈ xs, ∃ s', f x s' = .error r := by
  induction xs generalizing s with
  | nil => cases h
  | cons x xs ih =>
    simp only [forEach] at h
    split at h
    · cases h; exact ⟨x, by simp, s, by assumption⟩
    · obtain ⟨y, hy, s', hs⟩ := ih h; exact ⟨y, by simp [hy], s', hs⟩

theorem repeatTimes_error {σ : Type} {f : σ → Except Raise σ} {n : Nat} {s : σ} {r : Raise}
    (h : repeatTimes f n s = .error r) : ∃ s', f s' = .error r := by
  induction n generalizing s with
  | zero => cases h
  | succ n ih =>
    simp only [repeatTimes] at h
    split at h
    · cases h; exact ⟨s, by assumption⟩
    · exact ih h

theorem peAppend_error {n : Nat} {k : Fin 9} {b f : Bool} {a : Attempt} {r : Raise}
    (h : peAppend n k b f a = .error r) : r = ⟨.bufferOverflow, BitVec.ofNat 16 k.val⟩ := by
  rw [peAppend_eq] at h; split at h <;> cases h; rfl

theorem pePeak_error {c : CfgFile} {n : Nat} {k : Fin 9} {pk : Peak} {a : Attempt} {r : Raise}
    (h : pePeak c n k pk a = .error r) : r = ⟨.bufferOverflow, BitVec.ofNat 16 k.val⟩ := by
  unfold pePeak at h
  split at h
  · cases h
  · cases h
  · rcases andThen_eq_error.1 h with h | ⟨_, _, h⟩
    · split at h
      · unfold peReturn at h
        rcases andThen_eq_error.1 h with h | ⟨_, _, h⟩
        · obtain ⟨_, h⟩ := repeatTimes_error h; exact peAppend_error h
        · rcases andThen_eq_error.1 h with h | ⟨_, _, h⟩
          · exact peAppend_error h
          · cases h
      · simp only [peData] at h
        split at h
        · rcases andThen_eq_error.1 h with h | ⟨_, _, h⟩
          · exact peAppend_error h
          · cases h
        · cases h
    · cases h

theorem nrziAppend_error {sym : Sym} {a : Attempt} {r : Raise} (h : nrziAppend sym a = .error r) :
    r = ⟨.bufferOverflow, 0xFFFF⟩ := by
  unfold nrziAppend at h; split at h <;> cases h; rfl

theorem nrziPeak_error {c : CfgFile} {n : Nat} {k : Fin 9} {pk : Peak} {a : Attempt} {r : Raise}
    (h : nrziPeak c n k pk a = .error r) : r = ⟨.bufferOverflow, 0xFFFF⟩ := by
  unfold nrziPeak at h
  rcases andThen_eq_error.1 h with h | ⟨_, _, h⟩
  · split at h
    · unfold nrziLatePeak at h
      split at h
      · cases h
      · split at h
        · rcases andThen_eq_error.1 h with h | ⟨_, _, h⟩
          · exact nrziAppend_error h
          · cases h
        · cases h
    · cases h
  · cases h

theorem nrziMidbit_error {c : CfgFile} {n : Nat} {a : Attempt} {r : Raise}
    (h : nrziMidbit c n a = .error r) : r = ⟨.bufferOverflow, 0xFFFF⟩ := by
  simp only [nrziMidbit] at h
  split at h
  · split at h
    · cases h
    · rcases andThen_eq_error.1 h with h | ⟨_, _, h⟩
      · unfold nrziDataCell at h
        rcases andThen_eq_error.1 h with h | ⟨_, _, h⟩
        · exact nrziAppend_error h
        · cases h
      · cases h
  · split at h <;> cases h

theorem nrziLoop_error {c : CfgFile} {n : Nat} {now : F64} {fuel : Nat} {a : Attempt} {r : Raise}
    (h : nrziLoop c n now fuel a = .error r) : r = ⟨.bufferOverflow, 0xFFFF⟩ := by
  induction fuel generalizing a with
  | zero => cases h
  | succ m ih =>
    simp only [nrziLoop] at h
    split at h
    · rcases andThen_eq_error.1 h with h | ⟨_, _, h⟩
      · exact nrziMidbit_error h
      · split at h
        · cases h
        · exact ih h
    · cases h

theorem gcrBit_error {k : Fin 9} {bit : Option F64} {t : Track} {r : Raise} (h : gcrBit k bit t = .error r) :
    r = ⟨.bufferOverflow, BitVec.ofNat 16 k.val⟩ := by
  unfold gcrBit at h; split at h <;> cases h; rfl

theorem gcrPeak_error {c : CfgFile} {k : Fin 9} {pk : Peak} {t : Track} {r : Raise}
    (h : gcrPeak c k pk t = .error r) : r = ⟨.bufferOverflow, BitVec.ofNat 16 k.val⟩ := by
  unfold gcrPeak at h
  simp only at h
  split at h
  · rcases andThen_eq_error.1 h with h | ⟨_, _, h⟩
    · exact gcrBit_error h
    · cases h
  · unfold gcrNextPeak at h
    rcases andThen_eq_error.1 h with h | ⟨_, _, h⟩
    · obtain ⟨_, h⟩ := repeatTimes_error h; exact gcrBit_error h
    · rcases andThen_eq_error.1 h with h | ⟨_, _, h⟩
      · exact gcrBit_error h
      · cases h

/-- What a SAMPLE past its checks can raise. -/
def RaisesOverflow (l : Latched) (r : Raise) : Prop :=
  r.code = .bufferOverflow ∧ l.scan = false ∧
    (if l.mode = .nrzi then r.info = 0xFFFF else ∃ k : Fin 9, k.val < l.ntrks ∧ r.info = BitVec.ofNat 16 k.val)

theorem sampleRun_error {c : CfgFile} {l : Latched} {t : F64} {vs : List F64} {a : Attempt} {r : Raise}
    (h : sampleRun c l t vs a = .error r) : RaisesOverflow l r := by
  unfold sampleRun at h
  rcases andThen_eq_error.1 h with h | ⟨x, _, h⟩
  · obtain ⟨k, hk, s, h⟩ := forEach_error h
    have hk := mem_tracks.1 hk
    unfold sampleTrack at h
    simp only at h
    split at h
    · cases h
    · rcases andThen_eq_error.1 h with h | ⟨_, _, h⟩
      · unfold dispatchPeak at h
        split at h
        · cases h
        · rename_i hs
          rcases andThen_eq_error.1 h with h | ⟨_, _, h⟩
          · unfold decoderPeak at h
            split at h
            · rename_i hm
              cases pePeak_error h; exact ⟨rfl, by simpa using hs, by rw [hm]; exact ⟨k, hk, rfl⟩⟩
            · rename_i hm
              rcases andThen_eq_error.1 h with h | ⟨_, _, h⟩
              · cases nrziPeak_error h; exact ⟨rfl, by simpa using hs, by simp [hm]⟩
              · cases h
            · rename_i hm
              rcases andThen_eq_error.1 h with h | ⟨_, _, h⟩
              · cases gcrPeak_error h; exact ⟨rfl, by simpa using hs, by rw [hm]; exact ⟨k, hk, rfl⟩⟩
              · cases h
            · cases h
          · cases h
      · cases h
  · rcases andThen_eq_error.1 h with h | ⟨_, _, h⟩
    · unfold sampleStep at h
      split at h
      · cases h
      · rename_i hs
        split at h
        · cases h
        · rename_i hm
          unfold nrziSampleStep at h
          split at h
          · cases nrziLoop_error h; exact ⟨rfl, by simpa using hs, by simp [hm]⟩
          · cases h
        · cases h
        · cases h
    · cases h

theorem sampleBody_error {a : BitVec 16} {t : F64} {vs : List F64} {s : State} {r : Raise}
    (h : sampleBody a t vs s = .error r) :
    r.code = .payloadMismatch ∨ r.code = .nonfiniteSample ∨ r.code = .timeOrder ∨ r.code = .bufferOverflow := by
  unfold sampleBody at h
  split at h
  · rename_i h'
    cases h
    unfold sampleCheck at h'
    split at h'
    · cases h'; simp
    · split at h'
      · cases h'; simp
      · split at h'
        · cases h'
        · split at h' <;> cases h'; simp
  · rcases andThen_eq_error.1 h with h | ⟨_, _, h⟩
    · have := (sampleRun_error h).1; simp [this]
    · cases h

end Sys2Proof.Machine
end

