-- ==== Sys2Proof/Laws/Commands.lean ====
section
/-! SUPPORT. What a command can do and what a step can do, each said once: every next state of exec
and of step is one of the cases of ExecCase and StepCase. The laws about steps go through these. -/

namespace Sys2Proof.Machine

/-! ## The shared parts -/

theorem placeholder_eq (op : BitVec 8) : placeholder op =
    if op = 3 ∨ op = 5 ∨ op = 7 ∨ op = 8 then [0] else [] := by
  revert op; decide

theorem placeholder_short (op : BitVec 8) : placeholder op = [] ∨ placeholder op = [0] := by
  rw [placeholder_eq]; split
  · exact .inr rfl
  · exact .inl rfl

theorem errNumber_range (c : ErrCode) : 1 ≤ (errNumber c).toNat ∧ (errNumber c).toNat ≤ 9 := by
  cases c <;> decide

theorem errNumber_injective {c c' : ErrCode} (h : errNumber c = errNumber c') : c = c' := by
  revert h; cases c <;> cases c' <;> decide

/-- Each address is the one of the register it names. -/
theorem cfgRegAt_addr {a : BitVec 16} {r : CfgReg} (h : cfgRegAt a = some r) : a = cfgAddr r := by
  unfold cfgRegAt at h
  split at h <;> cases h <;> apply BitVec.eq_of_toNat_eq <;> (rename_i h; rw [h]; rfl)

theorem cfgRegAt_cfgAddr (r : CfgReg) : cfgRegAt (cfgAddr r) = some r := by
  cases r with
  | deskew k => revert k; decide
  | _ => rfl

/-- A configuration operand names a register, or raises BAD_ADDRESS (rules R123, R124). -/
theorem cfgOperand_cases (a : BitVec 16) :
    (∃ r, cfgRegAt a = some r ∧ cfgOperand a = .ok r) ∨
    (cfgRegAt a = none ∧ cfgOperand a = .error ⟨.badAddress, a⟩) := by
  unfold cfgOperand
  cases cfgRegAt a with
  | none => exact .inr ⟨rfl, rfl⟩
  | some r => exact .inl ⟨r, rfl, rfl⟩

/-- The finite-word check finds nothing exactly when every word is finite. -/
theorem firstNonfinite_none {i : Nat} {xs : List F64} :
    firstNonfinite i xs = none ↔ ∀ x ∈ xs, fFinite x = true := by
  induction xs generalizing i with
  | nil => simp [firstNonfinite]
  | cons x xs ih =>
    simp only [firstNonfinite]
    split <;> rename_i h
    · rw [ih]; simp [h]
    · simp [h]

/-- It finds the first word that is not finite. -/
theorem firstNonfinite_some {i : Nat} {pre : List F64} {v : F64} {post : List F64}
    (h : ∀ x ∈ pre, fFinite x = true) (hv : fFinite v = false) :
    firstNonfinite i (pre ++ v :: post) = some (i + pre.length) := by
  induction pre generalizing i with
  | nil => simp [firstNonfinite, hv]
  | cons x pre ih =>
    have := h x (by simp)
    simp only [List.cons_append, firstNonfinite, this, if_true, List.length_cons]
    rw [ih fun x hx => h x (by simp [hx])]; congr 1; omega

/-- A SAMPLE passes its argument checks (rule R132). -/
theorem sampleCheck_none {n : Nat} {p : Option F64} {a : BitVec 16} {t : F64} {vs : List F64}
    (h1 : 1 ≤ a.toNat) (h2 : a.toNat ≤ 9) (h3 : a.toNat = n) (ht : fFinite t = true)
    (hv : ∀ v ∈ vs, fFinite v = true) (hp : ∀ q, p = some q → fLt t q = false) :
    sampleCheck n p a t vs = none := by
  unfold sampleCheck; rw [if_neg (by simp; omega)]
  have : firstNonfinite 0 (t :: vs) = none := firstNonfinite_none.2 (by simpa [ht] using hv)
  rw [this]
  cases p with
  | none => rfl
  | some q => simp [hp q rfl]

/-- The state after a SAMPLE that ran, its response apart (rule R131). -/
def sampleNext (s : State) (y : Attempt × Bool × List Event) : State :=
  if y.2.1 then finishBlock { s with att := y.1 } else { s with att := y.1 }

/-- SAMPLE past its checks answers what its run gives. -/
theorem sampleBody_ok {a : BitVec 16} {t : F64} {vs : List F64} {s : State} {x : State × List Word}
    (h : sampleBody a t vs s = .ok x) : ∃ y, sampleRun s.cfg s.lat t vs s.att = .ok y ∧
      sampleCheck s.lat.ntrks s.att.tPrev a t vs = none ∧
      x = (sampleNext s y, sampleResponse y.2.2 y.2.1) := by
  unfold sampleBody at h
  split at h
  · cases h
  · rename_i hc
    obtain ⟨y, hy, h⟩ := andThen_eq_ok.1 h
    cases h
    exact ⟨y, hy, hc, rfl⟩

/-! ## A command -/

/-- What a command can do. -/
inductive ExecCase : Instr → State → State → Prop where
  /-- RESET. -/
  | reset (s : State) : ExecCase .reset s (resetCore s)
  /-- FAULT: nothing but a response of zero words or of one (rule R406). -/
  | ignored (i : Instr) (s : State) (ws : List Word) (hf : s.core = .fault) (hl : ws.length ≤ 1) :
      ExecCase i s (respond s ws)
  /-- Fault entry, with the placeholder response (rule R403). -/
  | raised (i : Instr) (s : State) (r : Raise) (hf : s.core ≠ .fault)
      (hr : r.code = .wrongState → allowed (opcode i) s.core = false) :
      ExecCase i s (respond (raise s r) (placeholder (opcode i)))
  /-- NOP, and the reads: nothing but the response. -/
  | answered (i : Instr) (s : State) (ws : List Word) (hf : s.core ≠ .fault) (hl : ws.length ≤ 1) :
      ExecCase i s (respond s ws)
  /-- CFG_WR. -/
  | wrote (a : BitVec 16) (v : Word) (s : State) (r : CfgReg) (hc : s.core = .idle ∨ s.core = .done)
      (ha : cfgRegAt a = some r) : ExecCase (.cfgWr a v) s { s with cfg := s.cfg.set r v }
  /-- BLK_START with a legal configuration. -/
  | started (s : State) (hc : s.core = .idle ∨ s.core = .done) (hl : cfgInvalid s.cfg = none) :
      ExecCase .blkStart s (startBlock s)
  /-- SAMPLE past its checks. -/
  | sampled (a : BitVec 16) (t : F64) (vs : List F64) (s : State) (y : Attempt × Bool × List Event)
      (hc : s.core = .run) (ha : sampleCheck s.lat.ntrks s.att.tPrev a t vs = none)
      (hy : sampleRun s.cfg s.lat t vs s.att = .ok y) :
      ExecCase (.sample a t vs) s (respond (sampleNext s y) (sampleResponse y.2.2 y.2.1))
  /-- EOF in RUN. -/
  | finished (s : State) (hc : s.core = .run) :
      ExecCase .eof s (finishBlock { s with eofSeen := true })
  /-- EOF in IDLE and DONE. -/
  | noted (s : State) (hc : s.core = .idle ∨ s.core = .done) : ExecCase .eof s { s with eofSeen := true }

theorem placeholder_length (op : BitVec 8) : (placeholder op).length ≤ 1 := by
  rcases placeholder_short op with h | h <;> simp [h]

/-- A command in its frame: FAULT ignores it, or it raises, or it does what its body says. -/
theorem runCommand_case {i : Instr} {s : State} {body : Except Raise (State × List Word)}
    (he : ∀ r, body = .error r → r.code ≠ .wrongState)
    (ho : ∀ x, s.core ≠ .fault → allowed (opcode i) s.core = true → body = .ok x →
      ExecCase i s (respond x.1 x.2)) :
    ExecCase i s (runCommand (opcode i) s body) := by
  rcases runCommand_cases (opcode i) s body with
    ⟨hf, h⟩ | ⟨hf, hw, h⟩ | ⟨hf, -, r, hr, h⟩ | ⟨hf, hw, x, hx, h⟩ <;> rw [h]
  · exact .ignored i s _ hf (placeholder_length _)
  · exact .raised i s _ hf fun _ => hw
  · exact .raised i s r hf fun h => absurd h (he r hr)
  · exact ho x hf hw hx

theorem respond_nil (s : State) : respond s [] = s := by simp [respond]

theorem idle_or_done {s : State} (hf : s.core ≠ .fault) (hr : s.core ≠ .run) :
    s.core = .idle ∨ s.core = .done := by
  cases h : s.core <;> simp_all

/-- Every command answers a next state, and its next state is one of the cases. -/
theorem exec_cases (i : Instr) (s : State) : ∃ s', exec i s = .next s' ∧ ExecCase i s s' := by
  cases i with
  | nop =>
    exact ⟨_, rfl, runCommand_case (i := .nop) (fun r h => nomatch h)
      fun x hf _ h => by cases h; exact .answered _ s [] hf (by simp)⟩
  | reset => exact ⟨_, rfl, .reset s⟩
  | cfgWr a v =>
    refine ⟨_, rfl, runCommand_case (i := .cfgWr a v) (fun r h => ?_) fun x hf hw h => ?_⟩
    · rcases cfgOperand_cases a with ⟨r', -, ho⟩ | ⟨-, ho⟩ <;> rw [cfgWrBody, ho] at h <;> cases h
      simp
    · rcases cfgOperand_cases a with ⟨r', ha, ho⟩ | ⟨-, ho⟩ <;> rw [cfgWrBody, ho] at h <;> cases h
      rw [respond_nil]
      exact .wrote a v s r' (idle_or_done hf (by simpa [allowed, opcode] using hw)) ha
  | cfgRd a =>
    refine ⟨_, rfl, runCommand_case (i := .cfgRd a) (fun r h => ?_) fun x hf hw h => ?_⟩
    · rcases cfgOperand_cases a with ⟨r', -, ho⟩ | ⟨-, ho⟩ <;> rw [cfgRdBody, ho] at h <;> cases h
      simp
    · rcases cfgOperand_cases a with ⟨r', ha, ho⟩ | ⟨-, ho⟩ <;> rw [cfgRdBody, ho] at h <;> cases h
      exact .answered _ s _ hf (by simp)
  | blkStart =>
    refine ⟨_, rfl, runCommand_case (i := .blkStart) (fun r h => ?_) fun x hf hw h => ?_⟩
    · unfold blkStartBody at h; split at h <;> cases h; simp
    · unfold blkStartBody at h; split at h <;> cases h
      rw [respond_nil]
      exact .started s (idle_or_done hf (by simpa [allowed, opcode] using hw)) ‹_›
  | sample a t vs =>
    refine ⟨_, rfl, runCommand_case (i := .sample a t vs) (fun r h => ?_) fun x hf hw h => ?_⟩
    · rcases sampleBody_error h with h | h | h | h <;> simp [h]
    · obtain ⟨y, hy, hc, rfl⟩ := sampleBody_ok h
      exact .sampled a t vs s y (by simpa [allowed, opcode] using hw) hc hy
  | eof =>
    refine ⟨_, rfl, runCommand_case (i := .eof) (fun r h => nomatch h) fun x hf hw h => ?_⟩
    cases h
    rw [respond_nil]
    by_cases hr : s.core = .run
    · rw [if_pos hr]; exact .finished s hr
    · rw [if_neg hr]; exact .noted s (idle_or_done hf hr)
  | resRd a =>
    by_cases hf : s.core = .fault
    · exact ⟨_, by simp only [exec, execResRd, if_pos hf]; rfl, .ignored _ s _ hf (by simp)⟩
    · refine ⟨_, by simp only [exec, execResRd, if_neg hf]; rfl,
        runCommand_case (i := .resRd a) (fun r h => ?_) fun x hf hw h => ?_⟩
      · unfold resRdBody at h; split at h <;> cases h; simp
      · unfold resRdBody at h; split at h <;> cases h
        exact .answered _ s _ hf (by simp)
  | dataRd a =>
    exact ⟨_, rfl, runCommand_case (i := .dataRd a) (fun r h => nomatch h)
      fun x hf _ h => by cases h; exact .answered _ s _ hf (by simp)⟩

/-- The next state of a command is one of the cases. -/
theorem execCase_of_next {i : Instr} {s s' : State} (h : exec i s = .next s') : ExecCase i s s' := by
  obtain ⟨t, ht, hc⟩ := exec_cases i s
  rw [h] at ht; cases ht; exact hc

/-! ## A step -/

/-- What a step can do. -/
inductive StepCase : State → State → Prop where
  /-- The reset input (rule R431). -/
  | resetInput (s : State) (hr : s.resetIn = true) : StepCase s (resetByInput s)
  /-- No whole command has been sent. -/
  | waited (s : State) (hr : s.resetIn = false) (hd : decode s.input = .wait) : StepCase s s
  /-- A rejected command word in FAULT (rule R406). -/
  | rejectIgnored (s : State) (r : Reject) (rest : List InWord) (hr : s.resetIn = false)
      (hd : decode s.input = .reject r rest) (hf : s.core = .fault) :
      StepCase s (respond { s with input := rest } (placeholder (rejectOp r)))
  /-- A rejected command word raises (rules R95, R96). -/
  | rejectRaised (s : State) (r : Reject) (rest : List InWord) (hr : s.resetIn = false)
      (hd : decode s.input = .reject r rest) (hf : s.core ≠ .fault) :
      StepCase s (respond (raise { s with input := rest } (rejectRaise r)) (placeholder (rejectOp r)))
  /-- A command runs. -/
  | ran (s s' : State) (i : Instr) (rest : List InWord) (hr : s.resetIn = false)
      (hd : decode s.input = .instr i rest) (hx : ExecCase i { s with input := rest } s') : StepCase s s'

/-- The next state of a step is one of the cases. -/
theorem stepCase_of_next {s s' : State} (h : step s = .next s') : StepCase s s' := by
  unfold step at h
  by_cases hr' : s.resetIn = true
  · rw [if_pos hr'] at h
    cases h; exact .resetInput s hr'
  · rw [if_neg hr'] at h
    have hr : s.resetIn = false := by simpa using hr'
    split at h
    · cases h; exact .waited s hr ‹_›
    · cases h
    · rename_i r rest hd
      unfold rejectCommand at h
      by_cases hf : s.core = .fault
      · rw [if_pos hf] at h; cases h; exact .rejectIgnored s r rest hr hd hf
      · rw [if_neg hf] at h; cases h; exact .rejectRaised s r rest hr hd hf
    · rename_i i rest hd
      exact .ran s s' i rest hr hd (execCase_of_next h)

end Sys2Proof.Machine
end

