-- ==== Sys2Proof/Laws/Round.lean ====
section
/-! SUPPORT. The one rounding of binary64 arithmetic is to nearest, ties to even (rule R14): for a
magnitude, for a signed value, and what the sum and the quotient hand to it. Values are counted in
units of 2^-1074. -/

namespace Sys2Proof.Machine

/-- Rounding an integer: within half a unit, and at half a unit to an even one. -/
theorem roundOff_near (m : Nat) {k : Nat} (hk : 0 < k) :
    roundOff m k * 2 ^ k ≤ m + 2 ^ (k - 1) ∧ m ≤ roundOff m k * 2 ^ k + 2 ^ (k - 1) ∧
    (roundOff m k * 2 ^ k = m + 2 ^ (k - 1) ∨ m = roundOff m k * 2 ^ k + 2 ^ (k - 1) → roundOff m k % 2 = 0) := by
  obtain ⟨j, rfl⟩ : ∃ j, k = j + 1 := ⟨k - 1, by omega⟩
  have hpos : 0 < 2 ^ j := Nat.pow_pos (by decide)
  have hr : roundOff m (j + 1) = if 2 ^ j < m % 2 ^ (j + 1) ∨ (m % 2 ^ (j + 1) = 2 ^ j ∧ m / 2 ^ (j + 1) % 2 = 1) then m / 2 ^ (j + 1) + 1 else m / 2 ^ (j + 1) := by
    have h2 : 2 ^ (j + 1) / 2 = 2 ^ j := by rw [Nat.pow_succ]; omega
    unfold roundOff
    simp only [Nat.shiftRight_eq_div_pow, h2, Bool.or_eq_true, Bool.and_eq_true, beq_iff_eq, decide_eq_true_eq]
    rw [if_neg (by omega)]
  have hd := Nat.div_add_mod m (2 ^ (j + 1))
  have hl := Nat.mod_lt m (show 2 ^ (j + 1) > 0 from Nat.pow_pos (by decide))
  rw [hr, Nat.add_one_sub_one]
  generalize m / 2 ^ (j + 1) = q at *
  generalize m % 2 ^ (j + 1) = r at *
  have hp : 2 ^ (j + 1) = 2 * 2 ^ j := by rw [Nat.pow_succ]; omega
  rw [hp] at hd hl ⊢
  generalize 2 ^ j = h at *
  have e1 : (q + 1) * (2 * h) = q * (2 * h) + 2 * h := by ring
  have e2 : 2 * h * q = q * (2 * h) := by ring
  rw [e2] at hd
  split
  · rw [e1]
    generalize q * (2 * h) = qh at *
    refine ⟨by omega, by omega, by omega⟩
  · rename_i hc
    generalize q * (2 * h) = qh at *
    refine ⟨by omega, by omega, fun h3 => ?_⟩
    rcases h3 with h3 | h3
    · omega
    · have : r = h := by omega
      have : ¬ q % 2 = 1 := fun h => hc (.inr ⟨this, h⟩)
      omega

/-- The magnitude encoding of `mant × 2 ^ x`. -/
theorem magValue_encode {mant x : Nat} (h1 : mant ≤ 2 ^ 53) (h2 : 0 < x → 2 ^ 52 ≤ mant) :
    magValue (mant + x * 2 ^ 52) = mant * 2 ^ x := by
  unfold magValue
  by_cases hx : x = 0
  · subst hx
    simp only [Nat.zero_mul, Nat.add_zero, Nat.pow_zero, Nat.mul_one]
    by_cases ha : mant < 2 ^ 52
    · rw [if_pos (Nat.div_eq_of_lt ha), Nat.mod_eq_of_lt ha]
    · by_cases hb : mant < 2 ^ 53
      · have hq : mant / 2 ^ 52 = 1 := by omega
        rw [hq]; simp; omega
      · have : mant = 2 ^ 53 := by omega
        subst this; decide
  · have h2 := h2 (by omega)
    by_cases hb : mant < 2 ^ 53
    · have hq : (mant + x * 2 ^ 52) / 2 ^ 52 = x + 1 := by omega
      have hr : (mant + x * 2 ^ 52) % 2 ^ 52 = mant - 2 ^ 52 := by omega
      rw [hq, hr, if_neg (by omega)]; simp only [Nat.add_one_sub_one]; congr 1; omega
    · have : mant = 2 ^ 53 := by omega
      subst this
      have hq : (2 ^ 53 + x * 2 ^ 52) / 2 ^ 52 = x + 2 := by omega
      have hr : (2 ^ 53 + x * 2 ^ 52) % 2 ^ 52 = 0 := by omega
      rw [hq, hr, if_neg (by omega)]; simp only [Nat.add_one_sub_one, Nat.zero_add, show x + 2 - 1 = x + 1 by omega, Nat.pow_succ]; ring

/-- A magnitude is a multiple of `2 ^ x`, or smaller than every significand of that scale. -/
theorem magValue_scale (y x : Nat) : (∃ z, magValue y = z * 2 ^ x) ∨ magValue y < 2 ^ 52 * 2 ^ x := by
  unfold magValue
  have hm : y % 2 ^ 52 < 2 ^ 52 := Nat.mod_lt _ (by decide)
  generalize y % 2 ^ 52 = f at *
  split
  · by_cases hx : x = 0
    · subst hx; exact .inl ⟨f, by simp⟩
    · right
      have : 1 ≤ 2 ^ x := Nat.one_le_two_pow
      calc f < 2 ^ 52 * 1 := by omega
        _ ≤ _ := Nat.mul_le_mul_left _ this
  · generalize y / 2 ^ 52 - 1 = s
    by_cases hs : x ≤ s
    · left
      refine ⟨(f + 2 ^ 52) * 2 ^ (s - x), ?_⟩
      rw [Nat.mul_assoc, ← Nat.pow_add, show s - x + x = s by omega]
    · right
      have : 2 ^ (s + 1) ≤ 2 ^ x := Nat.pow_le_pow_right (by decide) (by omega)
      calc (f + 2 ^ 52) * 2 ^ s < 2 ^ 53 * 2 ^ s := Nat.mul_lt_mul_of_pos_right (by omega) (Nat.pow_pos (by decide))
        _ = 2 ^ 52 * 2 ^ (s + 1) := by rw [Nat.pow_succ]; ring
        _ ≤ _ := Nat.mul_le_mul_left _ this

/-- What `roundMag` rounds to: a significand and its scale. -/
theorem roundMag_parts {m e base : Nat} (hm : 0 < m) :
    ∃ mant q, q = max (e + (m.log2 + 1) - 53) (base - 1074) ∧ mant ≤ 2 ^ 53 ∧ (base - 1074 < q → 2 ^ 52 ≤ mant) ∧
      (q ≤ e → mant = m * 2 ^ (e - q)) ∧ (e < q → mant = roundOff m (q - e)) ∧
      roundMag m e base = min infMag (mant + (q - (base - 1074)) * 2 ^ 52) := by
  have hlo : 2 ^ m.log2 ≤ m := Nat.log2_self_le (by omega)
  have hhi : m < 2 ^ (m.log2 + 1) := Nat.lt_log2_self
  refine ⟨_, _, rfl, ?_, ?_, ?_, ?_, rfl⟩
  all_goals generalize hq : max (e + (m.log2 + 1) - 53) (base - 1074) = q
  all_goals generalize m.log2 = n at *
  · split
    · rename_i h
      rw [Nat.shiftLeft_eq]
      have h1 : n + 1 + (e - q) ≤ 53 := by omega
      have : m * 2 ^ (e - q) ≤ 2 ^ (n + 1) * 2 ^ (e - q) := Nat.mul_le_mul_right _ (by omega)
      rw [← Nat.pow_add] at this
      exact Nat.le_trans this (Nat.pow_le_pow_right (by decide) h1)
    · rename_i h
      have h1 : n + 1 ≤ 53 + (q - e) := by omega
      have hs : m >>> (q - e) < 2 ^ 53 := by
        rw [Nat.shiftRight_eq_div_pow, Nat.div_lt_iff_lt_mul (Nat.pow_pos (by decide)), ← Nat.pow_add]
        exact Nat.lt_of_lt_of_le hhi (Nat.pow_le_pow_right (by decide) h1)
      unfold roundOff; simp only; rw [if_neg (by omega)]; split <;> omega
  · intro hlt
    split
    · rename_i h
      rw [Nat.shiftLeft_eq]
      have h1 : 52 ≤ n + (e - q) := by omega
      have : 2 ^ n * 2 ^ (e - q) ≤ m * 2 ^ (e - q) := Nat.mul_le_mul_right _ hlo
      rw [← Nat.pow_add] at this
      exact Nat.le_trans (Nat.pow_le_pow_right (by decide) h1) this
    · rename_i h
      have h1 : 52 + (q - e) ≤ n := by omega
      have hs : 2 ^ 52 ≤ m >>> (q - e) := by
        rw [Nat.shiftRight_eq_div_pow, Nat.le_div_iff_mul_le (Nat.pow_pos (by decide)), ← Nat.pow_add]
        exact Nat.le_trans (Nat.pow_le_pow_right (by decide) h1) hlo
      unfold roundOff; simp only; rw [if_neg (by omega)]; split <;> omega
  · intro h; rw [if_pos h, Nat.shiftLeft_eq]
  · intro h; rw [if_neg (by omega)]

/-- `N / D` is the exact value that `m` stands for: `m` itself, or, with `m` odd and two bits to be
rounded away, a value strictly between its neighbours. -/
def Stands (m e q N D : Nat) : Prop :=
  N = m * D ∨ (m % 2 = 1 ∧ (m - 1) * D < N ∧ N < (m + 1) * D ∧ e + 2 ≤ q)

/-- Above the least scale the exact value has a full significand. -/
theorem exact_lower {m e q N D : Nat} (hm : 0 < m) (hq : q + 53 = e + (m.log2 + 1)) (hs : Stands m e q N D) :
    2 ^ 52 * 2 ^ q * D ≤ N * 2 ^ e := by
  have hself := Nat.log2_self_le (n := m) (by omega)
  by_cases hqe : q ≤ e
  · have hN : N = m * D := by
      rcases hs with h | h
      · exact h
      · omega
    have : 2 ^ 52 * 2 ^ q ≤ m * 2 ^ e := by
      calc 2 ^ 52 * 2 ^ q = 2 ^ (52 + q) := (Nat.pow_add 2 52 q).symm
        _ ≤ 2 ^ (m.log2 + e) := Nat.pow_le_pow_right (by decide) (by omega)
        _ = 2 ^ m.log2 * 2 ^ e := Nat.pow_add 2 _ _
        _ ≤ m * 2 ^ e := Nat.mul_le_mul_right _ hself
    rw [hN, Nat.mul_right_comm m D]; exact Nat.mul_le_mul_right _ this
  · have hlo : 2 ^ 52 * 2 ^ (q - e) ≤ m := by
      rw [← Nat.pow_add]
      exact Nat.le_trans (Nat.pow_le_pow_right (by decide) (by omega)) hself
    have hN' : 2 ^ 52 * 2 ^ (q - e) * D ≤ N := by
      rcases hs with h | ⟨ho, h1, -, h2⟩
      · rw [h]; exact Nat.mul_le_mul_right _ hlo
      · have hev : 2 ^ 52 * 2 ^ (q - e) % 2 = 0 := by generalize 2 ^ (q - e) = w; omega
        exact Nat.le_trans (Nat.mul_le_mul_right D (show 2 ^ 52 * 2 ^ (q - e) ≤ m - 1 by omega)) (Nat.le_of_lt h1)
    have he : 2 ^ q = 2 ^ (q - e) * 2 ^ e := by rw [← Nat.pow_add, Nat.sub_add_cancel (by omega)]
    calc 2 ^ 52 * 2 ^ q * D = 2 ^ 52 * 2 ^ (q - e) * D * 2 ^ e := by rw [he]; ring
      _ ≤ N * 2 ^ e := Nat.mul_le_mul_right _ hN'

/-- The rounded significand is the integer nearest to the exact value, and even where another is as
near. -/
theorem roundOff_nearest {m e q N D : Nat} (hD : 0 < D) (hq : e < q) (hs : Stands m e q N D) :
    let r : Int := roundOff m (q - e)
    let u : Int := 2 ^ (q - e) * D
    2 * |r * u - N| ≤ u ∧ (2 * |r * u - N| = u → roundOff m (q - e) % 2 = 0) := by
  obtain ⟨h1, h2, h3⟩ := roundOff_near m (k := q - e) (by omega)
  have hp : 2 ^ (q - e) = 2 * 2 ^ (q - e - 1) := by rw [← Nat.pow_succ']; congr 1; omega
  intro r u
  have hu : u = 2 * ((2 ^ (q - e - 1) : Nat) * D : Int) := by
    simp only [u]; rw [show ((2 : Int) ^ (q - e)) = ((2 ^ (q - e) : Nat) : Int) by push_cast; rfl, hp, Nat.cast_mul]; ring
  have hru : r * u = ((roundOff m (q - e) * 2 ^ (q - e) : Nat) : Int) * D := by
    simp only [r, u]; rw [Nat.cast_mul, Nat.cast_pow]; push_cast; ring
  rw [hru, hu]
  have hev : e + 2 ≤ q → 2 ^ (q - e) % 2 = 0 ∧ 2 ^ (q - e - 1) % 2 = 0 := by
    intro h
    refine ⟨by omega, ?_⟩
    rw [show q - e - 1 = (q - e - 2) + 1 by omega, Nat.pow_succ]; omega
  have hm0 : roundOff m (q - e) * 2 ^ (q - e) % 2 = (roundOff m (q - e) * (2 ^ (q - e) % 2)) % 2 := by
    exact (Nat.mul_mod_mod _ _ _).symm
  generalize roundOff m (q - e) * 2 ^ (q - e) = s at *
  generalize 2 ^ (q - e - 1) = h at *
  have hD' : (0 : Int) < D := by exact_mod_cast hD
  rcases hs with hN | ⟨ho, hn1, hn2, he⟩
  · have e1 : ((s : Nat) : Int) * D - N = (s - m) * D := by rw [hN]; push_cast; ring
    have hb : |(s : Int) - m| ≤ h := by rw [abs_le]; omega
    rw [e1, abs_mul, abs_of_pos hD']
    constructor
    · have := mul_le_mul_of_nonneg_right hb (le_of_lt hD'); linarith
    · intro heq
      apply h3
      have : |(s : Int) - m| = h := by
        have : (|(s : Int) - m| - h) * D = 0 := by linarith
        rcases mul_eq_zero.1 this with h | h <;> [linarith; omega]
      rcases abs_choice ((s : Int) - m) with hc | hc <;> omega
  · obtain ⟨p1, p2⟩ := hev he
    rw [p1] at hm0; simp at hm0
    have b1 : (s : Int) ≤ m - 1 + h := by omega
    have b2 : (m : Int) + 1 ≤ s + h := by omega
    have n1 : ((m : Int) - 1) * D < N := by
      have : ((m - 1 : Nat) : Int) = (m : Int) - 1 := by omega
      rw [← this]; exact_mod_cast hn1
    have n2 : (N : Int) < (m + 1) * D := by exact_mod_cast hn2
    have hb : |((s : Nat) : Int) * D - N| < h * D := by
      have c1 := mul_le_mul_of_nonneg_right b1 (le_of_lt hD')
      have c2 := mul_le_mul_of_nonneg_right b2 (le_of_lt hD')
      rw [abs_lt]; constructor <;> linarith
    constructor
    · linarith
    · intro heq; linarith

/-- The magnitude `roundMag` gives is nearest to the exact value among the finite ones, and even
where another is as near. -/
theorem roundMag_nearest {m e base N D : Nat} (hm : 0 < m) (hD : 0 < D)
    (hs : Stands m e (max (e + (m.log2 + 1) - 53) (base - 1074)) N D) (hf : roundMag m e base < infMag) (y : Nat) :
    let exact : Int := N * 2 ^ e
    let val := fun x : Nat => (magValue x * 2 ^ (base - 1074) * D : Int)
    |val (roundMag m e base) - exact| ≤ |val y - exact| ∧
    (|val (roundMag m e base) - exact| = |val y - exact| → magValue y ≠ magValue (roundMag m e base) →
      roundMag m e base % 2 = 0) := by
  obtain ⟨mant, q, hq, hm1, hm2, hle, hlt, hr⟩ := roundMag_parts (e := e) (base := base) hm
  rw [← hq] at hs
  have htq : base - 1074 ≤ q := by omega
  have hR : roundMag m e base = mant + (q - (base - 1074)) * 2 ^ 52 := by omega
  have hV : magValue (roundMag m e base) = mant * 2 ^ (q - (base - 1074)) := by
    rw [hR]; exact magValue_encode hm1 fun h => hm2 (by omega)
  intro exact val
  have hval : val (roundMag m e base) = mant * 2 ^ q * D := by
    simp only [val]; rw [hV]; push_cast
    rw [mul_assoc (mant : Int), ← pow_add, show q - (base - 1074) + (base - 1074) = q by omega]
  have hD' : (0 : Int) < D := by exact_mod_cast hD
  have hpos : ∀ n : Nat, (0 : Int) < 2 ^ n := fun n => by positivity
  have hinj : val y = val (roundMag m e base) → magValue y = magValue (roundMag m e base) := by
    intro h
    simp only [val] at h
    have := mul_right_cancel₀ (ne_of_gt hD') h
    have := mul_right_cancel₀ (ne_of_gt (hpos _)) this
    exact_mod_cast this
  by_cases hqe : q ≤ e
  · have hN : N = m * D := by
      rcases hs with h | h
      · exact h
      · omega
    have : val (roundMag m e base) = exact := by
      rw [hval, hle hqe]; simp only [exact]; rw [hN]; push_cast
      rw [mul_assoc (m : Int), ← pow_add, show e - q + q = e by omega, mul_right_comm]
    rw [this]
    simp only [sub_self, abs_zero]
    refine ⟨abs_nonneg _, fun h hne => absurd ?_ hne⟩
    apply hinj
    rw [this]
    have := abs_eq_zero.1 h.symm
    linarith
  · have hn := roundOff_nearest hD (by omega) hs
    rw [← hlt (by omega)] at hn
    obtain ⟨n1, n2⟩ := hn
    have he : (2 : Int) ^ q = 2 ^ (q - e) * 2 ^ e := by rw [← pow_add, Nat.sub_add_cancel (by omega)]
    have hdist : ∀ z : Int, |z * 2 ^ q * D - exact| = |z * (2 ^ (q - e) * D) - N| * 2 ^ e := by
      intro z
      have : z * 2 ^ q * D - exact = (z * (2 ^ (q - e) * D) - N) * 2 ^ e := by simp only [exact]; rw [he]; ring
      rw [this, abs_mul, abs_of_pos (hpos e)]
    have hu : (0 : Int) < 2 ^ (q - e) * D := mul_pos (hpos _) hD'
    have near : ∀ z : Int, z ≠ mant → |(mant : Int) * (2 ^ (q - e) * D) - N| ≤ |z * (2 ^ (q - e) * D) - N| ∧
        (|(mant : Int) * (2 ^ (q - e) * D) - N| = |z * (2 ^ (q - e) * D) - N| → mant % 2 = 0) := by
      intro z hz
      generalize (2 : Int) ^ (q - e) * D = u at *
      have h1 : u ≤ |z * u - mant * u| := by
        rw [← sub_mul, abs_mul, abs_of_pos hu]
        have : 1 ≤ |z - mant| := Int.one_le_abs (sub_ne_zero.2 hz)
        have := mul_le_mul_of_nonneg_right this (le_of_lt hu)
        linarith
      have h2 : |z * u - mant * u| ≤ |z * u - N| + |mant * u - N| := by
        have h3 := abs_add_le (z * u - N) (-(mant * u - N))
        rw [abs_neg] at h3
        have e3 : z * u - N + -(mant * u - N) = z * u - mant * u := by ring
        rw [e3] at h3; exact h3
      constructor
      · linarith
      · intro h; apply n2; linarith
    have near' : ∀ z : Int, |val (roundMag m e base) - exact| ≤ |z * 2 ^ q * D - exact| := by
      intro z
      rw [hval]
      by_cases hz : z = mant
      · rw [hz]
      · rw [hdist, hdist]; exact mul_le_mul_of_nonneg_right (near z hz).1 (le_of_lt (hpos e))
    have hcase : (∃ z, magValue y = z * 2 ^ (q - (base - 1074))) ∨
        (base - 1074 < q ∧ magValue y < 2 ^ 52 * 2 ^ (q - (base - 1074))) := by
      by_cases h : base - 1074 < q
      · exact (magValue_scale y _).imp id fun h' => ⟨h, h'⟩
      · exact .inl ⟨magValue y, by rw [show q - (base - 1074) = 0 by omega, Nat.pow_zero, Nat.mul_one]⟩
    rcases hcase with ⟨z, hz⟩ | ⟨hqt, hsmall⟩
    · have hvy : val y = z * 2 ^ q * D := by
        simp only [val]; rw [hz]; push_cast
        rw [mul_assoc (z : Int), ← pow_add, show q - (base - 1074) + (base - 1074) = q by omega]
      rw [hvy]
      refine ⟨near' z, fun heq hne => ?_⟩
      have hzm : (z : Int) ≠ mant := by
        intro h; apply hne
        have : z = mant := by exact_mod_cast h
        rw [hz, hV, this]
      rw [hval, hdist, hdist] at heq
      have := (near z hzm).2 (mul_right_cancel₀ (ne_of_gt (hpos e)) heq)
      rw [hR]; omega
    · -- a smaller scale: 2^52 at scale q lies between
      have hy : val y < 2 ^ 52 * 2 ^ q * D := by
        have h1 : (magValue y : Int) < 2 ^ 52 * 2 ^ (q - (base - 1074)) := by exact_mod_cast hsmall
        have h2 : (magValue y : Int) * 2 ^ (base - 1074) < 2 ^ 52 * 2 ^ q := by
          calc (magValue y : Int) * 2 ^ (base - 1074) < 2 ^ 52 * 2 ^ (q - (base - 1074)) * 2 ^ (base - 1074) :=
                mul_lt_mul_of_pos_right h1 (hpos _)
            _ = 2 ^ 52 * 2 ^ q := by
                rw [mul_assoc, ← pow_add, show q - (base - 1074) + (base - 1074) = q by omega]
        exact mul_lt_mul_of_pos_right h2 hD'
      have hx : (2 ^ 52 : Int) * 2 ^ q * D ≤ exact := by
        simp only [exact]; exact_mod_cast exact_lower hm (by omega) hs
      have h1 := near' (2 ^ 52)
      have h2 : |val y - exact| = exact - val y := by rw [abs_of_neg (by linarith)]; ring
      have h3 : |(2 ^ 52 : Int) * 2 ^ q * D - exact| = exact - 2 ^ 52 * 2 ^ q * D := by
        rw [abs_of_nonpos (by linarith)]; ring
      rw [h3] at h1
      rw [h2]
      exact ⟨by linarith, fun h => by linarith⟩

/-- Where the rounding overflows, the exact value is at least half a unit past the largest finite
one. -/
theorem roundMag_overflow {m e base N D : Nat} (hm : 0 < m) (hD : 0 < D)
    (hs : Stands m e (max (e + (m.log2 + 1) - 53) (base - 1074)) N D) (hf : ¬ roundMag m e base < infMag) :
    (2 ^ 54 - 1) * 2 ^ 2044 * 2 ^ (base - 1074) * D ≤ N * 2 ^ e := by
  obtain ⟨mant, q, hq, hm1, hm2, hle, hlt, hr⟩ := roundMag_parts (e := e) (base := base) hm
  rw [← hq] at hs
  obtain ⟨x, hx⟩ : ∃ x, q = base - 1074 + x := ⟨q - (base - 1074), by omega⟩
  rw [show q - (base - 1074) = x by omega] at hr
  have hge : infMag ≤ mant + x * 2 ^ 52 := by omega
  have hinf : infMag = 2047 * 2 ^ 52 := by decide
  rw [hinf] at hge
  have hx2 : 2045 ≤ x := by omega
  have hmant : 2 ^ 52 ≤ mant := hm2 (by omega)
  -- twice the exact value is at least (2 mant - 1) units
  have hlow : (2 * mant - 1) * 2 ^ q * D ≤ 2 * (N * 2 ^ e) := by
    by_cases hqe : q ≤ e
    · have hN : N = m * D := by
        rcases hs with h | h
        · exact h
        · omega
      have : mant * 2 ^ q = m * 2 ^ e := by
        rw [hle hqe, Nat.mul_assoc, ← Nat.pow_add, Nat.sub_add_cancel hqe]
      calc (2 * mant - 1) * 2 ^ q * D ≤ 2 * mant * 2 ^ q * D :=
            Nat.mul_le_mul_right _ (Nat.mul_le_mul_right _ (by omega))
        _ = 2 * (N * 2 ^ e) := by rw [Nat.mul_assoc 2, this, hN]; ring
    · have hn := (roundOff_nearest hD (by omega) hs).1
      rw [← hlt (by omega)] at hn
      have h1 := le_abs_self ((mant : Int) * (2 ^ (q - e) * D) - N)
      have h2 : (2 * (mant : Int) - 1) * (2 ^ (q - e) * D) ≤ 2 * N := by linarith
      have h3 : ((2 * mant - 1 : Nat) : Int) = 2 * (mant : Int) - 1 := by omega
      have h4 : (2 * mant - 1) * (2 ^ (q - e) * D) ≤ 2 * N := by
        rw [← h3] at h2; exact_mod_cast h2
      have he : 2 ^ q = 2 ^ (q - e) * 2 ^ e := by rw [← Nat.pow_add, Nat.sub_add_cancel (by omega)]
      calc (2 * mant - 1) * 2 ^ q * D = (2 * mant - 1) * (2 ^ (q - e) * D) * 2 ^ e := by rw [he]; ring
        _ ≤ 2 * N * 2 ^ e := Nat.mul_le_mul_right _ h4
        _ = 2 * (N * 2 ^ e) := by ring
  by_cases h45 : x = 2045
  · have hmant2 : mant = 2 ^ 53 := by omega
    subst h45 hmant2
    have hp : 2 ^ q = 2 ^ (base - 1074) * (2 ^ 2044 * 2) := by
      rw [hx, show base - 1074 + 2045 = base - 1074 + (2044 + 1) from rfl, Nat.pow_add, Nat.pow_succ 2 2044]
    have hn : 2 * 2 ^ 53 - 1 = 2 ^ 54 - 1 := rfl
    rw [hp, hn] at hlow
    have e1 : (2 ^ 54 - 1) * (2 ^ (base - 1074) * (2 ^ 2044 * 2)) * D =
        2 * ((2 ^ 54 - 1) * 2 ^ 2044 * 2 ^ (base - 1074) * D) := by
      generalize (2 ^ 54 - 1) = u; generalize 2 ^ 2044 = w; ring
    rw [e1] at hlow
    exact Nat.le_of_mul_le_mul_left hlow (by decide)
  · have h1 := exact_lower hm (by omega) hs
    refine Nat.le_trans ?_ h1
    have hp : 2 ^ 2044 * 4 * 2 ^ (base - 1074) ≤ 2 ^ q := by
      rw [show (4 : Nat) = 2 ^ 2 from rfl, ← Nat.pow_add, ← Nat.pow_add]
      exact Nat.pow_le_pow_right (by decide) (by omega)
    apply Nat.mul_le_mul_right
    refine Nat.le_trans ?_ (Nat.mul_le_mul_left (2 ^ 52) hp)
    rw [← Nat.mul_assoc, ← Nat.mul_assoc, Nat.mul_right_comm (2 ^ 52) (2 ^ 2044) 4]
    exact Nat.mul_le_mul_right _ (Nat.mul_le_mul_right _ (by decide))

/-- Where the rounding does not overflow, the exact value is less than half a unit past the largest
finite one. -/
theorem roundMag_finite {m e base N D : Nat} (hm : 0 < m) (hD : 0 < D)
    (hs : Stands m e (max (e + (m.log2 + 1) - 53) (base - 1074)) N D) (hf : roundMag m e base < infMag) :
    N * 2 ^ e < (2 ^ 54 - 1) * 2 ^ 2044 * 2 ^ (base - 1074) * D := by
  obtain ⟨mant, q, hq, hm1, hm2, hle, hlt, hr⟩ := roundMag_parts (e := e) (base := base) hm
  rw [← hq] at hs
  obtain ⟨x, hx⟩ : ∃ x, q = base - 1074 + x := ⟨q - (base - 1074), by omega⟩
  rw [show q - (base - 1074) = x by omega] at hr
  have hinf : infMag = 2047 * 2 ^ 52 := by decide
  have hge : mant + x * 2 ^ 52 < 2047 * 2 ^ 52 := by omega
  have hpos : 0 < 2 ^ q * D := Nat.mul_pos (Nat.pow_pos (by decide)) hD
  -- twice the exact value is at most (2 mant + 1) units, and less where mant is odd
  have hhigh : 2 * (N * 2 ^ e) ≤ (2 * mant + 1) * (2 ^ q * D) ∧
      (mant % 2 = 1 → 2 * (N * 2 ^ e) < (2 * mant + 1) * (2 ^ q * D)) := by
    by_cases hqe : q ≤ e
    · have hN : N = m * D := by
        rcases hs with h | h
        · exact h
        · omega
      have h1 : N * 2 ^ e = mant * (2 ^ q * D) := by
        have : mant * 2 ^ q = m * 2 ^ e := by
          rw [hle hqe, Nat.mul_assoc, ← Nat.pow_add, Nat.sub_add_cancel hqe]
        calc N * 2 ^ e = m * 2 ^ e * D := by rw [hN]; ring
          _ = mant * (2 ^ q * D) := by rw [← this]; ring
      have h2 : (2 * mant + 1) * (2 ^ q * D) = 2 * (mant * (2 ^ q * D)) + 2 ^ q * D := by ring
      rw [h1, h2]
      omega
    · obtain ⟨hn, ht⟩ := roundOff_nearest hD (by omega) hs
      rw [← hlt (by omega)] at hn ht
      have h1 := neg_abs_le ((mant : Int) * (2 ^ (q - e) * D) - N)
      have he : 2 ^ q = 2 ^ (q - e) * 2 ^ e := by rw [← Nat.pow_add, Nat.sub_add_cancel (by omega)]
      have hE : 0 < 2 ^ e := Nat.pow_pos (by decide)
      have conv : (2 * mant + 1) * (2 ^ q * D) = (2 * mant + 1) * (2 ^ (q - e) * D) * 2 ^ e := by rw [he]; ring
      have conv2 : 2 * (N * 2 ^ e) = 2 * N * 2 ^ e := by ring
      rw [conv, conv2]
      refine ⟨Nat.mul_le_mul_right _ ?_, fun hodd => Nat.mul_lt_mul_of_pos_right ?_ hE⟩
      · have h2 : 2 * (N : Int) ≤ (2 * (mant : Int) + 1) * (2 ^ (q - e) * D) := by linarith
        exact_mod_cast h2
      · have hne : 2 * |(mant : Int) * (2 ^ (q - e) * D) - N| ≠ 2 ^ (q - e) * D := fun h => by
          have := ht h; omega
        have h2 : 2 * (N : Int) < (2 * (mant : Int) + 1) * (2 ^ (q - e) * D) := by
          have := lt_of_le_of_ne hn hne
          linarith
        exact_mod_cast h2
  have hB : 0 < 2 ^ (base - 1074) * D := Nat.mul_pos (Nat.pow_pos (by decide)) hD
  have target : 2 * ((2 ^ 54 - 1) * 2 ^ 2044 * 2 ^ (base - 1074) * D) =
      (2 ^ 54 - 1) * 2 * (2 ^ 2044 * (2 ^ (base - 1074) * D)) := by
    generalize (2 ^ 54 - 1) = u; generalize 2 ^ 2044 = w; ring
  have hq2 : 2 ^ q * D = 2 ^ x * (2 ^ (base - 1074) * D) := by rw [hx, Nat.pow_add]; ring
  rw [hq2] at hhigh
  generalize 2 ^ (base - 1074) * D = B at *
  apply Nat.lt_of_mul_lt_mul_left (a := 2)
  rw [target]
  by_cases h45 : x = 2045
  · subst h45
    have e2 : (2 ^ 54 - 1) * 2 * (2 ^ 2044 * B) = (2 ^ 54 - 1) * (2 ^ 2045 * B) := by
      rw [Nat.pow_succ 2 2044]; generalize (2 ^ 54 - 1) = u; generalize 2 ^ 2044 = w; ring
    rw [e2]
    have hpos : 0 < 2 ^ 2045 * B := Nat.mul_pos (Nat.pow_pos (by decide)) hB
    generalize 2 ^ 2045 * B = P at *
    by_cases hmax : mant = 2 ^ 53 - 1
    · have := hhigh.2 (by omega)
      rw [hmax] at this
      exact this
    · refine Nat.lt_of_le_of_lt hhigh.1 (Nat.mul_lt_mul_of_pos_right ?_ hpos)
      omega
  · have hx2 : x ≤ 2044 := by omega
    have hP : 2 ^ x * B ≤ 2 ^ 2044 * B := Nat.mul_le_mul_right _ (Nat.pow_le_pow_right (by decide) hx2)
    have hpos : 0 < 2 ^ 2044 * B := Nat.mul_pos (Nat.pow_pos (by decide)) hB
    refine Nat.lt_of_le_of_lt (Nat.le_trans hhigh.1 (Nat.mul_le_mul_left _ hP)) (Nat.mul_lt_mul_of_pos_right ?_ hpos)
    omega

/-- A magnitude with a sign. -/
def signed (s : Bool) (n : Nat) : Int := if s then -(n : Int) else n

theorem fValue_eq (x : F64) : fValue x = signed (fSign x) (magValue (fMag x)) := rfl

theorem magValue_zero : magValue 0 = 0 := by decide

theorem signed_mul (s : Bool) (n : Nat) (T : Int) : signed s n * T = if s then -((n : Int) * T) else n * T := by
  cases s
  · rfl
  · exact neg_mul _ _

theorem sign_dist (b s : Bool) {V X : Int} (hV : 0 ≤ V) (hX : 0 ≤ X) :
    |(if b then -V else V) - (if s then -X else X)| = if b = s then |V - X| else V + X := by
  cases b <;> cases s
  · rfl
  · show |V - -X| = V + X
    rw [abs_of_nonneg (by linarith)]; ring
  · show |-V - X| = V + X
    rw [abs_of_nonpos (by linarith)]; ring
  · show |-V - -X| = |V - X|
    rw [← abs_neg]; congr 1; ring

/-- A rounded value is nearest to the exact one, `± N × 2 ^ e / D` in units of `2 ^ (base − 1074)`
parts, among all finite values, and even where another is as near. -/
theorem fRound_nearest {s : Bool} {m e base N D : Nat} (hm : 0 < m) (hD : 0 < D)
    (hs : Stands m e (max (e + (m.log2 + 1) - 53) (base - 1074)) N D) (hf : fFinite (fRound s m e base) = true) (y : F64) :
    let exact : Int := signed s (N * 2 ^ e)
    let val := fun x : F64 => fValue x * ((2 ^ (base - 1074) * D : Nat) : Int)
    |val (fRound s m e base) - exact| ≤ |val y - exact| ∧
    (|val (fRound s m e base) - exact| = |val y - exact| → fValue y ≠ fValue (fRound s m e base) →
      (fRound s m e base).getLsbD 0 = false) := by
  have hr : fRound s m e base = fWithSign s (roundMag m e base) := by rw [fRound, if_neg (by omega)]
  have hle := roundMag_le m e base
  have hlt : roundMag m e base < 2 ^ 63 := Nat.lt_of_le_of_lt hle infMag_lt
  have hmag : fMag (fRound s m e base) = roundMag m e base := by rw [hr]; exact fMag_fWithSign s hlt
  have hsg : fSign (fRound s m e base) = s := fSign_fRound s m e base
  have hfin : roundMag m e base < infMag := by rw [fFinite_iff, hmag] at hf; exact hf
  have hpar : roundMag m e base % 2 = 0 → (fRound s m e base).getLsbD 0 = false := by
    intro h
    rw [BitVec.getLsbD, hr, fWithSign_toNat s hlt]
    split
    · rw [Nat.testBit_zero]; simp; omega
    · rw [Nat.testBit_zero]; simp; omega
  have near := roundMag_nearest hm hD hs hfin
  simp only at near
  generalize roundMag m e base = R at *
  intro exact val
  have hex : exact = signed s (N * 2 ^ e) := rfl
  have hvd : ∀ x, val x = fValue x * ((2 ^ (base - 1074) * D : Nat) : Int) := fun _ => rfl
  clear_value exact val
  have hT : (0 : Int) < ((2 ^ (base - 1074) * D : Nat) : Int) := by
    have : 0 < 2 ^ (base - 1074) * D := Nat.mul_pos (Nat.pow_pos (by decide)) hD
    exact_mod_cast this
  have hT2 : ((2 ^ (base - 1074) * D : Nat) : Int) = 2 ^ (base - 1074) * D := by push_cast; rfl
  have hE : ((N * 2 ^ e : Nat) : Int) = N * 2 ^ e := by push_cast; rfl
  have hnear : ∀ z : Nat, |(magValue R : Int) * ((2 ^ (base - 1074) * D : Nat) : Int) - (N * 2 ^ e : Nat)| ≤
      |(magValue z : Int) * ((2 ^ (base - 1074) * D : Nat) : Int) - (N * 2 ^ e : Nat)| ∧
      (|(magValue R : Int) * ((2 ^ (base - 1074) * D : Nat) : Int) - (N * 2 ^ e : Nat)| =
      |(magValue z : Int) * ((2 ^ (base - 1074) * D : Nat) : Int) - (N * 2 ^ e : Nat)| → magValue z ≠ magValue R → R % 2 = 0) := by
    intro z
    have := near z
    rw [hT2, hE, ← mul_assoc, ← mul_assoc]; exact this
  generalize ((2 ^ (base - 1074) * D : Nat) : Int) = T at *
  have hX : (0 : Int) ≤ ((N * 2 ^ e : Nat) : Int) := Int.natCast_nonneg _
  generalize (N * 2 ^ e) = X at *
  have hval : ∀ (b : Bool) (x : F64), fSign x = b → |val x - exact| =
      if b = s then |(magValue (fMag x) : Int) * T - X| else (magValue (fMag x) : Int) * T + X := by
    intro b x hb
    have hnn : (0 : Int) ≤ (magValue (fMag x) : Int) * T := mul_nonneg (Int.natCast_nonneg _) (le_of_lt hT)
    rw [hvd, hex, fValue_eq, hb, signed_mul]
    exact sign_dist b s hnn hX
  have hR := hval s (fRound s m e base) hsg
  rw [if_pos rfl, hmag] at hR
  rw [hR]
  rcases hy : (fSign y == s) with _ | _
  · have hne : fSign y ≠ s := by simpa using hy
    have hyv := hval (fSign y) y rfl
    rw [if_neg hne] at hyv
    rw [hyv]
    have h0 := hnear 0
    rw [magValue_zero] at h0
    simp only [Nat.cast_zero, zero_mul, zero_sub, abs_neg, abs_of_nonneg hX] at h0
    have hnn : (0 : Int) ≤ (magValue (fMag y) : Int) * T := mul_nonneg (Int.natCast_nonneg _) (le_of_lt hT)
    refine ⟨by linarith [h0.1], fun heq hv => hpar (h0.2 (by linarith [h0.1]) ?_)⟩
    have hy0 : (magValue (fMag y) : Int) * T = 0 := by linarith [h0.1]
    have : (magValue (fMag y) : Int) = 0 := by
      rcases mul_eq_zero.1 hy0 with h | h
      · exact h
      · exact absurd h (ne_of_gt hT)
    intro hc
    apply hv
    rw [fValue_eq, fValue_eq, hmag, ← hc]
    have : magValue (fMag y) = 0 := by exact_mod_cast this
    rw [this]; simp [signed]
  · have heqs : fSign y = s := by simpa using hy
    have hyv := hval s y heqs
    rw [if_pos rfl] at hyv
    rw [hyv]
    refine ⟨(hnear _).1, fun heq hv => hpar ((hnear _).2 heq fun hc => hv ?_)⟩
    rw [fValue_eq, fValue_eq, hmag, heqs, hsg, hc]

theorem fValue_parts (x : F64) : magValue (fMag x) = fMant x * 2 ^ fScale x := by
  unfold magValue fMant fScale
  rw [← fExp_eq_mag, ← fFrac_eq_mag]
  by_cases h : fExp x = 0
  · simp [h]
  · simp [h]

theorem stands_exact (m e q : Nat) : Stands m e q m 1 := .inl (by omega)

theorem fAdd_finite {a b : F64} (ha : fFinite a = true) (hb : fFinite b = true) : fAdd a b = fAddFin a b := by
  simp [fAdd, fIsNaN_of_finite ha, fIsNaN_of_finite hb, fIsInf_of_finite ha, fIsInf_of_finite hb]

theorem fValue_zero (s : Bool) : fValue (fZero s) = 0 := by cases s <;> decide

/-- The sum of two finite values is the rounding of their exact sum. -/
theorem fAddFin_cases (a b : F64) :
    (fValue a + fValue b = 0 ∧ fAddFin a b = fZero (fSign a && fSign b) ) ∨
    ∃ s m e, 0 < m ∧ fAddFin a b = fRound s m e 1074 ∧ fValue a + fValue b = signed s (m * 2 ^ e) := by
  have hA : ∀ x : F64, ∀ e, e ≤ fScale x → fValue x = signed (fSign x) (fMant x <<< (fScale x - e) * 2 ^ e) := by
    intro x e he
    rw [fValue_eq, fValue_parts, Nat.shiftLeft_eq, Nat.mul_assoc, ← Nat.pow_add, Nat.sub_add_cancel he]
  have h1 := hA a (min (fScale a) (fScale b)) (by omega)
  have h2 := hA b (min (fScale a) (fScale b)) (by omega)
  unfold fAddFin
  simp only
  generalize min (fScale a) (fScale b) = e at *
  generalize fMant a <<< (fScale a - e) = ma at *
  generalize fMant b <<< (fScale b - e) = mb at *
  rw [h1, h2]
  by_cases hss : fSign a = fSign b
  · rw [if_pos hss, ← hss]
    by_cases hz : ma + mb = 0
    · have : ma = 0 := by omega
      have : mb = 0 := by omega
      subst ma mb
      left; refine ⟨by simp [signed], by simp [fRound]⟩
    · right
      refine ⟨fSign a, ma + mb, e, by omega, rfl, ?_⟩
      unfold signed; split <;> push_cast <;> ring
  · rw [if_neg hss]
    have hb : fSign b = !fSign a := by revert hss; cases fSign a <;> cases fSign b <;> decide
    rw [hb]
    by_cases hlt : mb < ma
    · rw [if_pos hlt]; right
      refine ⟨fSign a, ma - mb, e, by omega, rfl, ?_⟩
      have : ((ma - mb : Nat) : Int) = (ma : Int) - mb := by omega
      unfold signed; cases fSign a <;> simp [this] <;> ring
    · rw [if_neg hlt]
      by_cases hgt : ma < mb
      · rw [if_pos hgt]; right
        refine ⟨!fSign a, mb - ma, e, by omega, rfl, ?_⟩
        have : ((mb - ma : Nat) : Int) = (mb : Int) - ma := by omega
        unfold signed; cases fSign a <;> simp [this] <;> ring
      · rw [if_neg hgt]; left
        have : ma = mb := by omega
        subst this
        refine ⟨by unfold signed; cases fSign a <;> simp, by cases fSign a <;> rfl⟩

/-- The two constants as powers of two, proved without evaluating them. -/
theorem fUnits_eq : fUnits = 2 ^ 1074 := by unfold fUnits; with_reducible rfl
theorem fOverflow_eq : fOverflow = (2 ^ 54 - 1) * 2 ^ 2044 := by unfold fOverflow; with_reducible rfl

theorem natAbs_signed (s : Bool) (n : Nat) : (signed s n).natAbs = n := by cases s <;> simp [signed]

theorem fRound_overflow {s : Bool} {m e base N D : Nat} (hm : 0 < m) (hD : 0 < D)
    (hs : Stands m e (max (e + (m.log2 + 1) - 53) (base - 1074)) N D) (hf : fFinite (fRound s m e base) = false) :
    fOverflow * 2 ^ (base - 1074) * D ≤ N * 2 ^ e := by
  rw [fOverflow_eq]
  apply roundMag_overflow hm hD hs
  have hle := roundMag_le m e base
  have hlt : roundMag m e base < 2 ^ 63 := Nat.lt_of_le_of_lt hle infMag_lt
  intro h
  have : fFinite (fRound s m e base) = true := by
    rw [fFinite_iff, fRound, if_neg (by omega), fMag_fWithSign s hlt]; exact h
  rw [this] at hf; cases hf

/-- A rounding is finite exactly where the exact value is below the overflow limit. -/
theorem fRound_finite_iff {s : Bool} {m e base N D : Nat} (hm : 0 < m) (hD : 0 < D)
    (hs : Stands m e (max (e + (m.log2 + 1) - 53) (base - 1074)) N D) :
    fFinite (fRound s m e base) = true ↔ N * 2 ^ e < fOverflow * 2 ^ (base - 1074) * D := by
  have hlt : roundMag m e base < 2 ^ 63 := Nat.lt_of_le_of_lt (roundMag_le m e base) infMag_lt
  rw [fFinite_iff, fRound, if_neg (by omega), fMag_fWithSign s hlt, fOverflow_eq]
  refine ⟨roundMag_finite hm hD hs, fun h => ?_⟩
  by_contra hf
  exact absurd h (Nat.not_lt.2 (roundMag_overflow hm hD hs hf))

/-- A rounding that is not finite is an infinity. -/
theorem fRound_infinite {s : Bool} {m e base : Nat} (h : fFinite (fRound s m e base) = false) :
    fRound s m e base = fInf s := by
  have hle := roundMag_le m e base
  have hlt : roundMag m e base < 2 ^ 63 := Nat.lt_of_le_of_lt hle infMag_lt
  by_cases hm : m = 0
  · rw [fRound, if_pos hm] at h
    cases s <;> simp [fZero, fWithSign, fFinite, fExp] at h
  · rw [← Bool.not_eq_true, fFinite_iff, fRound, if_neg hm, fMag_fWithSign s hlt] at h
    rw [fRound, if_neg hm, show roundMag m e base = infMag by omega]; rfl

/-- `fRound` is the rounding of the exact value its arguments stand for. -/
theorem fRound_rounded (s : Bool) {m e base N D : Nat} (hm : 0 < m) (hD : 0 < D)
    (hs : Stands m e (max (e + (m.log2 + 1) - 53) (base - 1074)) N D) :
    Rounded (fun x => fValue x * ((2 ^ (base - 1074) * D : Nat) : Int)) (signed s (N * 2 ^ e))
      (fOverflow * 2 ^ (base - 1074) * D) s (fRound s m e base) := by
  refine ⟨by rw [natAbs_signed]; exact fRound_finite_iff hm hD hs, fun h => ?_, fun h y _ => ?_⟩
  · rw [fRound_infinite h]; cases s <;> rfl
  · have := fRound_nearest hm hD hs h y
    simp only [Int.abs_eq_natAbs] at this
    exact ⟨by exact_mod_cast this.1, fun he => this.2 (by exact_mod_cast he)⟩

/-- The sign of a rounding. -/
theorem fRound_sign (s : Bool) (m e base : Nat) : fSign (fRound s m e base) = s := by
  unfold fRound
  split
  · cases s <;> decide
  · exact fSign_fWithSign s (Nat.lt_of_le_of_lt (roundMag_le m e base) infMag_lt)

/-- The negation changes the sign of a value and nothing else. -/
theorem fNeg_spec (a : F64) : fSign (fNeg a) = !fSign a ∧ fMag (fNeg a) = fMag a ∧ fValue (fNeg a) = -fValue a := by
  have h1 : fSign (fNeg a) = !fSign a := by unfold fSign fNeg; simp
  have h2 : fMag (fNeg a) = fMag a := by
    unfold fMag fNeg
    have e : ∀ x : BitVec 64, x.toNat % 2 ^ 63 = (x.setWidth 63).toNat := fun x => (BitVec.toNat_setWidth 63 x).symm
    rw [e, e]
    congr 1
    ext i hi
    have hc : BitVec.getLsbD (0x8000000000000000 : F64) i = false := by
      rw [show (0x8000000000000000 : F64) = 1#64 <<< 63 from rfl, BitVec.getLsbD_shiftLeft]; simp; omega
    simp only [BitVec.getElem_setWidth, BitVec.getLsbD_xor, hc, Bool.xor_false]
  refine ⟨h1, h2, ?_⟩
  rw [fValue_eq, fValue_eq, h1, h2]
  cases fSign a <;> simp [signed]

theorem fZero_finite (s : Bool) : fFinite (fZero s) = true := by cases s <;> decide

theorem signed_mul_signed (s t : Bool) (m n : Nat) : signed s m * signed t n = signed (s != t) (m * n) := by
  cases s <;> cases t <;> simp [signed]

/-- The quotient's integer part, with its sticky bit, stands for the exact quotient. -/
theorem divStands {n d : Nat} (hd : 0 < d) (e q : Nat) (hq : e + 2 ≤ q) :
    Stands (2 * (n / d) + if n % d = 0 then 0 else 1) e q (2 * n) d := by
  have h := Nat.div_add_mod n d
  have hlt := Nat.mod_lt n hd
  generalize n / d = k at *
  generalize n % d = r at *
  subst h
  by_cases hr : r = 0
  · left; rw [if_pos hr, hr]; ring
  · right
    rw [if_neg hr]
    refine ⟨by omega, ?_, ?_, hq⟩
    · rw [show 2 * k + 1 - 1 = 2 * k by omega]; nlinarith [Nat.pos_of_ne_zero hr]
    · nlinarith

theorem fMant_pos {x : F64} (h : fIsZero x = false) : 0 < fMant x := by
  have h0 : fMag x ≠ 0 := by
    intro h'; simp [fIsZero, h'] at h
  unfold fMant
  split
  · rename_i he
    rw [fExp_eq_mag] at he; rw [fFrac_eq_mag]; omega
  · omega
theorem fMant_lt (x : F64) : fMant x < 2 ^ 53 := by
  unfold fMant; have : fFrac x < 2 ^ 52 := Nat.mod_lt _ (by decide)
  split <;> omega
theorem fScale_le (x : F64) : fScale x ≤ 2046 := by
  unfold fScale; have : fExp x < 2 ^ 11 := Nat.mod_lt _ (by decide)
  omega

theorem signed_eq (s : Bool) (n : Nat) : signed s n = (if s then -1 else 1) * (n : Int) := by cases s <;> simp [signed]

theorem pow_div {sa sb : Nat} (h : sb ≤ sa + 2046) :
    2 ^ sa * fUnits * 2 ^ 1081 = 2 ^ 109 * 2 ^ (sa + 2046 - sb) * 2 ^ sb := by
  rw [fUnits_eq, ← Nat.pow_add, ← Nat.pow_add, ← Nat.pow_add, ← Nat.pow_add]
  congr 1; omega

/-- What `fDivFin` rounds, for operands that are not 0. -/
theorem fDivFin_parts {a b : F64} (hb : fIsZero b = false) (ha : fMant a ≠ 0) :
    ∃ m, 0 < m ∧ fDivFin a b = fRound (fSign a != fSign b) m (fScale a + 2046 - fScale b) 2155 ∧
      Stands m (fScale a + 2046 - fScale b)
        (max (fScale a + 2046 - fScale b + (m.log2 + 1) - 53) (2155 - 1074)) (fMant a * 2 ^ 109) (fMant b) := by
  have hd := fMant_pos hb
  have hdl := fMant_lt b
  have hbig : 2 ^ 55 ≤ fMant a <<< 108 / fMant b := by
    rw [Nat.le_div_iff_mul_le hd, Nat.shiftLeft_eq]
    calc 2 ^ 55 * fMant b ≤ 2 ^ 55 * 2 ^ 53 := Nat.mul_le_mul_left _ (by omega)
      _ = 1 * 2 ^ 108 := rfl
      _ ≤ fMant a * 2 ^ 108 := Nat.mul_le_mul_right _ (by omega)
  refine ⟨_, ?_, rfl, ?_⟩
  · omega
  · have h2 : fMant a * 2 ^ 109 = 2 * (fMant a <<< 108) := by
      rw [Nat.shiftLeft_eq, Nat.pow_succ 2 108, ← Nat.mul_assoc, Nat.mul_comm]
    rw [h2]
    apply divStands hd
    have : 2 ^ 56 ≤ 2 * (fMant a <<< 108 / fMant b) + if fMant a <<< 108 % fMant b = 0 then 0 else 1 := by omega
    have : 56 ≤ (2 * (fMant a <<< 108 / fMant b) + if fMant a <<< 108 % fMant b = 0 then 0 else 1).log2 :=
      (Nat.le_log2 (by omega)).2 this
    omega

/-- The negation keeps what its operand is: finite, an infinity or a NaN. -/
theorem fNeg_kind (a : F64) :
    fFinite (fNeg a) = fFinite a ∧ fIsInf (fNeg a) = fIsInf a ∧ fIsNaN (fNeg a) = fIsNaN a := by
  have h := (fNeg_spec a).2.1
  refine ⟨?_, ?_, ?_⟩ <;>
    rw [Bool.eq_iff_iff] <;> simp only [fFinite_iff, fIsInf_iff, fIsNaN_iff, h]

/-- A free NaN is a NaN, whatever its free bits are. -/
theorem fNaN_isNaN (op : Config.NanSource) (a b : F64) : fIsNaN (fNaN op a b) = true := by
  rw [fIsNaN_iff, fNaN]
  generalize (Config.nanBits op a b).toNat = n
  have h : n % 2 ^ 51 < 2 ^ 51 := Nat.mod_lt _ (by decide)
  rw [fMag_fWithSign _ (by unfold infMag; omega)]
  omega

/-- An infinity is its sign. -/
theorem fInf_of_isInf {a : F64} (h : fIsInf a = true) : a = fInf (fSign a) := by
  rw [fIsInf_iff] at h
  apply BitVec.eq_of_toNat_eq
  rw [fInf, fWithSign_toNat _ (by decide), ← h, fSign_eq]
  have := a.isLt
  unfold fMag
  by_cases hs : 2 ^ 63 ≤ a.toNat
  · rw [decide_eq_true hs, if_pos rfl]; omega
  · rw [decide_eq_false hs]; simp only [Bool.false_eq_true, if_false]; omega

/-- A rounding said in other units. -/
theorem rounded_scale {f : F64 → Int} {x c : Int} {l : Nat} {s : Bool} {r : F64} (hc : c ≠ 0) :
    Rounded (fun y => f y * c) (x * c) (l * c.natAbs) s r ↔ Rounded f x l s r := by
  have hp := Int.natAbs_pos.2 hc
  unfold Rounded
  simp only [← Int.sub_mul, Int.natAbs_mul, Nat.mul_lt_mul_right hp, Nat.mul_le_mul_right_iff hp,
    Nat.mul_left_inj (Nat.pos_iff_ne_zero.1 hp)]

/-- A zero is the rounding of an exact zero. -/
theorem rounded_zero {f : F64 → Int} {l : Nat} {s t : Bool} (hl : 0 < l)
    (h0 : ∀ y, f y = 0 ↔ fValue y = 0) : Rounded f 0 l s (fZero t) := by
  have hz := (h0 (fZero t)).2 (fValue_zero t)
  refine ⟨by simp [fZero_finite, hl], fun h => (by rw [fZero_finite] at h; cases h), fun _ y _ => ?_⟩
  rw [hz]
  refine ⟨by simp, fun he hne => absurd ?_ hne⟩
  rw [fValue_zero]
  exact (h0 y).1 (by simpa using he.symm)

end Sys2Proof.Machine
end

