-- ==== Sys2Proof/Laws/Compare.lean ====
section
/-! SUPPORT. Comparisons, minimum, maximum, absolute value and whole part are exact (rule R14), and the
first greatest and first least of a list are what their names say (rule R13). -/

namespace Sys2Proof.Machine

/-- The value of a magnitude grows with it. -/
theorem magValue_lt {m m' : Nat} (h : m < m') : magValue m < magValue m' := by
  obtain ⟨d, rfl⟩ : ∃ d, m' = m + 1 + d := ⟨m' - m - 1, by omega⟩
  have step : ∀ m, magValue m < magValue (m + 1) := by
    intro m
    unfold magValue
    have hr : m % 2 ^ 52 < 2 ^ 52 := Nat.mod_lt _ (by decide)
    by_cases hm : m % 2 ^ 52 + 1 = 2 ^ 52
    · have h1 : (m + 1) % 2 ^ 52 = 0 := by omega
      have h2 : (m + 1) / 2 ^ 52 = m / 2 ^ 52 + 1 := by omega
      rw [h1, h2, if_neg (show ¬ m / 2 ^ 52 + 1 = 0 by omega)]
      by_cases h0 : m / 2 ^ 52 = 0
      · rw [if_pos h0, h0]; simp; omega
      · rw [if_neg h0]
        obtain ⟨e, he⟩ : ∃ e, m / 2 ^ 52 = e + 1 := ⟨m / 2 ^ 52 - 1, by omega⟩
        rw [he]
        simp only [Nat.add_sub_cancel, Nat.zero_add]
        have hp : 0 < 2 ^ e := Nat.pow_pos (by decide)
        have : 2 ^ 52 * 2 ^ (e + 1) = (2 ^ 53) * 2 ^ e := by rw [Nat.pow_succ]; ring
        rw [this]
        exact Nat.mul_lt_mul_of_pos_right (by omega) hp
    · have h1 : (m + 1) % 2 ^ 52 = m % 2 ^ 52 + 1 := by omega
      have h2 : (m + 1) / 2 ^ 52 = m / 2 ^ 52 := by omega
      rw [h1, h2]
      by_cases h0 : m / 2 ^ 52 = 0
      · rw [if_pos h0, if_pos h0]; omega
      · rw [if_neg h0, if_neg h0]
        exact Nat.mul_lt_mul_of_pos_right (by omega) (Nat.pow_pos (by decide))
  clear h
  induction d with
  | zero => exact step m
  | succ d ih => exact Nat.lt_trans ih (step _)

theorem magValue_lt_iff {m m' : Nat} : magValue m < magValue m' ↔ m < m' := by
  refine ⟨fun h => ?_, magValue_lt⟩
  by_contra hn
  rcases Nat.lt_or_ge m' m with h' | h'
  · exact absurd (magValue_lt h') (by omega)
  · rw [show m = m' by omega] at h; omega

theorem magValue_eq_iff {m m' : Nat} : magValue m = magValue m' ↔ m = m' := by
  refine ⟨fun h => ?_, fun h => by rw [h]⟩
  rcases Nat.lt_trichotomy m m' with h' | h' | h'
  · exact absurd (magValue_lt h') (by omega)
  · exact h'
  · exact absurd (magValue_lt h') (by omega)

theorem magValue_pos {m : Nat} : 0 < magValue m ↔ 0 < m := by
  have := magValue_lt_iff (m := 0) (m' := m)
  rwa [magValue_zero] at this

/-- The order of the bit patterns is the order of their values. -/
theorem fOrd_lt {a b : F64} : fOrd a < fOrd b ↔ fValue a < fValue b := by
  have ha := fMag_lt a
  have hb := fMag_lt b
  have h1 := magValue_lt_iff (m := fMag a) (m' := fMag b)
  have h2 := magValue_lt_iff (m := fMag b) (m' := fMag a)
  have h3 := magValue_pos (m := fMag a)
  have h4 := magValue_pos (m := fMag b)
  simp only [fOrd, fValue]
  generalize magValue (fMag a) = va at *
  generalize magValue (fMag b) = vb at *
  cases fSign a <;> cases fSign b <;> simp only [Bool.false_eq_true, if_true, if_false] <;> omega

theorem fOrd_eq {a b : F64} : fOrd a = fOrd b ↔ fValue a = fValue b := by
  have h1 := fOrd_lt (a := a) (b := b)
  have h2 := fOrd_lt (a := b) (b := a)
  omega

/-- Comparisons of finite values are exact. -/
theorem compare_finite {a b : F64} (ha : fFinite a = true) (hb : fFinite b = true) :
    (fLt a b = true ↔ fValue a < fValue b) ∧ (fLe a b = true ↔ fValue a ≤ fValue b) ∧
    (fEq a b = true ↔ fValue a = fValue b) := by
  have na := fIsNaN_of_finite ha
  have nb := fIsNaN_of_finite hb
  have h1 := fOrd_lt (a := a) (b := b)
  have h2 := fOrd_lt (a := b) (b := a)
  have h3 := fOrd_eq (a := a) (b := b)
  rw [fLt_iff, fLe_iff, fEq_iff]
  simp only [na, nb, true_and]
  exact ⟨h1, by omega, h3⟩

/-- Comparisons with a NaN are false. -/
theorem compare_nan {a b : F64} (h : fIsNaN a = true ∨ fIsNaN b = true) :
    fLt a b = false ∧ fLe a b = false ∧ fEq a b = false := by
  rcases h with h | h <;> simp [fLt, fLe, fEq, h]

/-- An infinity lies past every finite value on its side. -/
theorem compare_inf {a b : F64} (ha : fIsInf a = true) (hb : fFinite b = true) :
    (fLt a b = fSign a ∧ fLe a b = fSign a ∧ fEq a b = false) ∧
    (fLt b a = !fSign a ∧ fLe b a = !fSign a ∧ fEq b a = false) := by
  have nb := fIsNaN_of_finite hb
  rw [fIsInf_iff] at ha
  have na : fIsNaN a = false := by rw [← Bool.not_eq_true, fIsNaN_iff]; omega
  rw [fFinite_iff] at hb
  have hm := infMag_lt
  simp only [fLt, fLe, fEq, na, nb, Bool.not_false, Bool.true_and, fOrd, ha]
  cases fSign a <;> cases fSign b <;>
    simp only [Bool.false_eq_true, if_true, if_false, Bool.not_true, Bool.not_false,
      decide_eq_true_eq, decide_eq_false_iff_not] <;> omega

theorem compare_infs {a b : F64} (ha : fIsInf a = true) (hb : fIsInf b = true) :
    fLt a b = (fSign a && !fSign b) ∧ fLe a b = (fSign a || !fSign b) ∧
    fEq a b = (fSign a == fSign b) := by
  rw [fIsInf_iff] at ha hb
  have na : fIsNaN a = false := by rw [← Bool.not_eq_true, fIsNaN_iff]; omega
  have nb : fIsNaN b = false := by rw [← Bool.not_eq_true, fIsNaN_iff]; omega
  simp only [fLt, fLe, fEq, na, nb, Bool.not_false, Bool.true_and, fOrd, ha, hb]
  cases fSign a <;> cases fSign b <;> decide

/-- The minimum and the maximum of two values that are no NaN. -/
theorem minMax_spec {a b : F64} (ha : fIsNaN a = false) (hb : fIsNaN b = false) :
    (fMin a b = a ∨ fMin a b = b) ∧ fLe (fMin a b) a = true ∧ fLe (fMin a b) b = true ∧
    (fMax a b = a ∨ fMax a b = b) ∧ fLe a (fMax a b) = true ∧ fLe b (fMax a b) = true := by
  have hlt : ∀ x y : F64, fIsNaN x = false → fIsNaN y = false → (fLt x y = true ↔ fOrd x < fOrd y) := by
    intro x y hx hy; simp [fLt_iff, hx, hy]
  have hle : ∀ x y : F64, fIsNaN x = false → fIsNaN y = false → (fLe x y = true ↔ fOrd x ≤ fOrd y) := by
    intro x y hx hy; simp [fLe_iff, hx, hy]
  simp only [fMin, fMax, ha, hb, Bool.or_self, Bool.false_eq_true, if_false]
  refine ⟨?_, ?_, ?_, ?_, ?_, ?_⟩
  · split <;> simp
  · split
    · rename_i h; rw [hlt _ _ hb ha] at h; rw [hle _ _ hb ha]; omega
    · rw [hle _ _ ha ha]
  · split
    · rw [hle _ _ hb hb]
    · rename_i h; rw [hlt _ _ hb ha] at h; rw [hle _ _ ha hb]; omega
  · split <;> simp
  · split
    · rename_i h; rw [hlt _ _ ha hb] at h; rw [hle _ _ ha hb]; omega
    · rw [hle _ _ ha ha]
  · split
    · rw [hle _ _ hb hb]
    · rename_i h; rw [hlt _ _ ha hb] at h; rw [hle _ _ hb ha]; omega

/-- A choice of the better of two, folded over a list, gives a best element of it. -/
theorem foldl_best {α : Type} {ok : α → Prop} {R : α → α → Prop} {op : α → α → α}
    (refl : ∀ x, ok x → R x x) (trans : ∀ x y z, R x y → R y z → R x z)
    (hop : ∀ x y, ok x → ok y → (op x y = x ∨ op x y = y) ∧ R x (op x y) ∧ R y (op x y))
    (xs : List α) (x : α) (hx : ok x) (hxs : ∀ y ∈ xs, ok y) :
    xs.foldl op x ∈ x :: xs ∧ ∀ y ∈ x :: xs, R y (xs.foldl op x) := by
  induction xs generalizing x with
  | nil => exact ⟨List.mem_singleton_self x, fun y hy => by rw [List.mem_singleton.1 hy]; exact refl x hx⟩
  | cons y ys ih =>
    have hy := hxs y (List.mem_cons_self ..)
    obtain ⟨m1, m2, m3⟩ := hop x y hx hy
    have hm : ok (op x y) := by rcases m1 with h | h <;> rw [h] <;> assumption
    obtain ⟨i1, i2⟩ := ih (op x y) hm fun z hz => hxs z (List.mem_cons_of_mem _ hz)
    have i0 := i2 _ (List.mem_cons_self ..)
    refine ⟨?_, fun z hz => ?_⟩
    · rcases List.mem_cons.1 i1 with h | h
      · rw [List.foldl_cons, h]
        rcases m1 with h' | h' <;> rw [h'] <;> simp
      · exact List.mem_cons_of_mem _ (List.mem_cons_of_mem _ h)
    · rcases List.mem_cons.1 hz with rfl | hz
      · exact trans _ _ _ m2 i0
      · rcases List.mem_cons.1 hz with rfl | hz
        · exact trans _ _ _ m3 i0
        · exact i2 z (List.mem_cons_of_mem _ hz)

theorem fLe_refl {x : F64} (h : fIsNaN x = false) : fLe x x = true := fLe_iff.2 ⟨h, h, Nat.le_refl _⟩

theorem fLe_trans {x y z : F64} (h : fLe x y = true) (h' : fLe y z = true) : fLe x z = true := by
  rw [fLe_iff] at *
  exact ⟨h.1, h'.2.1, Nat.le_trans h.2.2 h'.2.2⟩

/-- The greatest of a list without a NaN. -/
theorem fMaxList_spec {xs : List F64} (hne : xs ≠ []) (hn : ∀ x ∈ xs, fIsNaN x = false) :
    fMaxList xs ∈ xs ∧ ∀ x ∈ xs, fLe x (fMaxList xs) = true := by
  cases xs with
  | nil => exact absurd rfl hne
  | cons x xs =>
    exact foldl_best (ok := fun x => fIsNaN x = false) (R := fun x y => fLe x y = true)
      (fun _ h => fLe_refl h) (fun _ _ _ h h' => fLe_trans h h')
      (fun x y hx hy => (minMax_spec hx hy).2.2.2) xs x (hn x (List.mem_cons_self ..))
      fun y hy => hn y (List.mem_cons_of_mem _ hy)

/-- The least of a list without a NaN. -/
theorem fMinList_spec {xs : List F64} (hne : xs ≠ []) (hn : ∀ x ∈ xs, fIsNaN x = false) :
    fMinList xs ∈ xs ∧ ∀ x ∈ xs, fLe (fMinList xs) x = true := by
  cases xs with
  | nil => exact absurd rfl hne
  | cons x xs =>
    exact foldl_best (ok := fun x => fIsNaN x = false) (R := fun x y => fLe y x = true)
      (fun _ h => fLe_refl h) (fun _ _ _ h h' => fLe_trans h' h)
      (fun x y hx hy => let m := minMax_spec hx hy; ⟨m.1, m.2.1, m.2.2.1⟩) xs x
      (hn x (List.mem_cons_self ..)) fun y hy => hn y (List.mem_cons_of_mem _ hy)

/-- The first element equal to a member `best` of a list without a NaN. -/
theorem findIdx_best {xs : List F64} (hn : ∀ x ∈ xs, fIsNaN x = false) {best : F64} (hb : best ∈ xs) :
    let m := xs.findIdx fun x => fEq x best
    m < xs.length ∧ fOrd (xs.getD m 0) = fOrd best ∧ xs.getD m 0 ∈ xs ∧
      ∀ i, i < m → fOrd (xs.getD i 0) ≠ fOrd best ∧ xs.getD i 0 ∈ xs := by
  intro m
  have hnb := hn best hb
  have hm : m < xs.length := List.findIdx_lt_length_of_exists ⟨best, hb, fEq_iff.2 ⟨hnb, hnb, rfl⟩⟩
  have hget : ∀ i, (hi : i < xs.length) → xs.getD i 0 = xs[i] := fun i hi => by simp [hi]
  have hp := List.findIdx_getElem (p := fun x => fEq x best) (xs := xs) (w := hm)
  refine ⟨hm, ?_, ?_, fun i hi => ?_⟩
  · rw [hget m hm]; exact (fEq_iff.1 hp).2.2
  · rw [hget m hm]; exact List.getElem_mem _
  · have hi' : i < xs.length := Nat.lt_trans hi hm
    rw [hget i hi']
    refine ⟨fun h => ?_, List.getElem_mem _⟩
    have hq := List.not_of_lt_findIdx hi
    rw [fEq_iff.2 ⟨hn _ (List.getElem_mem _), hnb, h⟩] at hq
    cases hq

/-- The first greatest of a list without a NaN (rule R13). -/
theorem argmaxFirst_spec {xs : List F64} (hne : xs ≠ []) (hn : ∀ x ∈ xs, fIsNaN x = false) :
    argmaxFirst xs < xs.length ∧ (∀ x ∈ xs, fLe x (xs.getD (argmaxFirst xs) 0) = true) ∧
      ∀ i, i < argmaxFirst xs → fLt (xs.getD i 0) (xs.getD (argmaxFirst xs) 0) = true := by
  obtain ⟨hb, hle⟩ := fMaxList_spec hne hn
  obtain ⟨h1, h2, h3, h4⟩ := findIdx_best hn hb
  refine ⟨h1, fun x hx => ?_, fun i hi => ?_⟩
  · have := fLe_iff.1 (hle x hx)
    exact fLe_iff.2 ⟨this.1, hn _ h3, h2 ▸ this.2.2⟩
  · have := fLe_iff.1 (hle _ (h4 i hi).2)
    exact fLt_iff.2 ⟨this.1, hn _ h3, h2 ▸ Nat.lt_of_le_of_ne this.2.2 (h4 i hi).1⟩

/-- The first least of a list without a NaN (rule R13). -/
theorem argminFirst_spec {xs : List F64} (hne : xs ≠ []) (hn : ∀ x ∈ xs, fIsNaN x = false) :
    argminFirst xs < xs.length ∧ (∀ x ∈ xs, fLe (xs.getD (argminFirst xs) 0) x = true) ∧
      ∀ i, i < argminFirst xs → fLt (xs.getD (argminFirst xs) 0) (xs.getD i 0) = true := by
  obtain ⟨hb, hle⟩ := fMinList_spec hne hn
  obtain ⟨h1, h2, h3, h4⟩ := findIdx_best hn hb
  refine ⟨h1, fun x hx => ?_, fun i hi => ?_⟩
  · have := fLe_iff.1 (hle x hx)
    exact fLe_iff.2 ⟨hn _ h3, this.2.1, h2 ▸ this.2.2⟩
  · have := fLe_iff.1 (hle _ (h4 i hi).2)
    exact fLt_iff.2 ⟨hn _ h3, this.2.1, h2 ▸ Nat.lt_of_le_of_ne this.2.2 (Ne.symm (h4 i hi).1)⟩

/-- The absolute value. -/
theorem fAbs_spec (a : F64) : fSign (fAbs a) = false ∧ fMag (fAbs a) = fMag a := by
  have h : (fAbs a).toNat = fMag a := by
    simp only [fAbs, BitVec.toNat_and, fMag]
    have := Nat.and_two_pow_sub_one_eq_mod a.toNat 63
    simpa using this
  have hm := fMag_lt a
  constructor
  · rw [fSign_eq, h]; simp; omega
  · rw [fMag, h, Nat.mod_eq_of_lt hm]

/-- The whole part of a value ≥ 0. -/
theorem fFloorNat_spec (a : F64) :
    fFloorNat a * fUnits ≤ magValue (fMag a) ∧ magValue (fMag a) < (fFloorNat a + 1) * fUnits := by
  rw [fValue_parts, fUnits_eq]
  unfold fFloorNat
  split
  · rename_i h
    have : fMant a <<< (fScale a - 1074) * 2 ^ 1074 = fMant a * 2 ^ fScale a := by
      rw [Nat.shiftLeft_eq, Nat.mul_assoc, ← Nat.pow_add, show fScale a - 1074 + 1074 = fScale a by omega]
    have hp : 0 < 2 ^ 1074 := Nat.pow_pos (by decide)
    generalize 2 ^ 1074 = U at *
    rw [Nat.add_mul, this]
    omega
  · rename_i h
    obtain ⟨d, hd⟩ : ∃ d, fScale a + d = 1074 := ⟨1074 - fScale a, by omega⟩
    have hu : 2 ^ 1074 = 2 ^ d * 2 ^ fScale a := by rw [← Nat.pow_add, ← hd, Nat.add_comm]
    rw [show 1074 - fScale a = d by omega, Nat.shiftRight_eq_div_pow, hu]
    have hd0 : 0 < 2 ^ d := Nat.pow_pos (by decide)
    have hs0 : 0 < 2 ^ fScale a := Nat.pow_pos (by decide)
    have e := Nat.div_add_mod (fMant a) (2 ^ d)
    have hr := Nat.mod_lt (fMant a) hd0
    generalize fMant a = m at *
    generalize 2 ^ d = D at *
    generalize 2 ^ fScale a = S at *
    constructor
    · rw [← Nat.mul_assoc]
      exact Nat.mul_le_mul_right _ (Nat.div_mul_le_self m D)
    · rw [← Nat.mul_assoc]
      refine Nat.mul_lt_mul_of_pos_right ?_ hs0
      rw [Nat.add_mul, Nat.one_mul, Nat.mul_comm (m / D) D]
      omega

end Sys2Proof.Machine
end

