-- ==== Sys2Proof/Laws/Front.lean ====
section
/-! SUPPORT. The peaks of a SAMPLE are the ones its tracks' front ends find: a track's deskew and
detection depend on no other track (rules R131, R160, R163). -/

namespace Sys2Proof.Machine

/-- What the front end reads of a track. -/
def frontReads (t : Track) : (List F64 × Bool × List (F64 × F64) × Nat) × F64 × F64 :=
  (frontFields t, t.gain, t.vAvgHeight)

theorem frontReads_of_rest {t t' : Track} (hf : (restFields t').front = (restFields t).front)
    (ha : (restFields t').agc = (restFields t).agc) : frontReads t' = frontReads t := by
  simp only [restFields, agcFields, Prod.mk.injEq] at hf ha
  simp only [frontReads, frontFields, hf, ha]

theorem deskew_congr {d : Nat} {v : F64} {t t' : Track} (h : frontReads t' = frontReads t) :
    (deskew d v t').1 = (deskew d v t).1 ∧
    frontReads (deskew d v t').2 = frontReads (deskew d v t).2 := by
  simp only [frontReads, frontFields, Prod.mk.injEq] at h
  obtain ⟨⟨h1, h2, h3, h4⟩, h5, h6⟩ := h
  unfold deskew
  split
  · exact ⟨rfl, by simp only [frontReads, frontFields, h1, h2, h3, h4, h5, h6]⟩
  · simp only [frontReads, frontFields, h1, h2, h3, h4, h5, h6, and_self]

theorem detectPeak_congr {c : CfgFile} {t t' : Track} (h : frontReads t' = frontReads t) :
    (detectPeak c t').2 = (detectPeak c t).2 ∧
    frontFields (detectPeak c t').1 = frontFields (detectPeak c t).1 := by
  simp only [frontReads, frontFields, Prod.mk.injEq] at h
  obtain ⟨⟨h1, h2, h3, h4⟩, h5, h6⟩ := h
  simp only [detectPeak, requiredRise, h3, h5, h6]
  split
  · exact ⟨rfl, by simp only [frontFields, h1, h2, h3, h4]⟩
  · exact ⟨rfl, by simp only [frontFields, h1, h2, h3]⟩

theorem peakStep_congr {c : CfgFile} {l : Latched} {time u : F64} {t t' : Track}
    (h : frontReads t' = frontReads t) :
    (peakStep c l time u t').2 = (peakStep c l time u t).2 ∧
    frontFields (peakStep c l time u t').1 = frontFields (peakStep c l time u t).1 := by
  have hd := detectPeak_congr (c := c) (t := { t with win := pushBounded l.w t.win (time, u) })
    (t' := { t' with win := pushBounded l.w t'.win (time, u) }) (by
      simp only [frontReads, frontFields, Prod.mk.injEq] at h ⊢
      simp only [h, and_self])
  simp only [frontReads, frontFields, Prod.mk.injEq] at h
  obtain ⟨⟨h1, h2, h3, h4⟩, h5, h6⟩ := h
  simp only [peakStep, h3, h4] at hd ⊢
  split
  · exact ⟨rfl, by simp only [frontFields, h1, h2, h4]⟩
  · split
    · exact ⟨rfl, by simp only [frontFields, h1, h2]⟩
    · exact hd

theorem frontEnd_congr {c : CfgFile} {l : Latched} {time : F64} {vs : List F64} {k : Fin 9}
    {t t' : Track} (h : frontReads t' = frontReads t) :
    (frontEnd c l time vs k t').2 = (frontEnd c l time vs k t).2 ∧
    frontFields (frontEnd c l time vs k t').1 = frontFields (frontEnd c l time vs k t).1 := by
  obtain ⟨h1, h2⟩ := deskew_congr (d := c.nat (.deskew k)) (v := vs.getD k.val 0) h
  simp only [frontEnd, h1]
  exact peakStep_congr h2

/-- What the front ends have done when the tracks `ks` are left. -/
structure FrontsDone (c : CfgFile) (l : Latched) (time : F64) (vs : List F64) (a : Attempt)
    (ks : List (Fin 9)) (x : Attempt × List Event) : Prop where
  left : ∀ k ∈ ks, frontReads (x.1.tr k) = frontReads (a.tr k)
  done : ∀ k : Fin 9, k.val < l.ntrks → k ∉ ks →
    (x.2.find? fun e => e.k = k).map (·.pk) = (frontEnd c l time vs k (a.tr k)).2 ∧
    frontFields (x.1.tr k) = frontFields (frontEnd c l time vs k (a.tr k)).1

/-- One track: its event is its front end's, and its front end's fields stay. -/
theorem sampleTrack_front {c : CfgFile} {l : Latched} (hf : SampleFacts c l) {time : F64}
    {vs : List F64} {k : Fin 9} (hk : k.val < l.ntrks) {x y : Attempt × List Event}
    (h : AttemptInv l x.1) (hy : sampleTrack c l time vs k x = .ok y) :
    frontFields (y.1.tr k) = frontFields (frontEnd c l time vs k (x.1.tr k)).1 ∧
    y.2 = x.2 ++ ((frontEnd c l time vs k (x.1.tr k)).2.map fun pk => ⟨k, pk⟩).toList := by
  simp only [sampleTrack, laneOf] at hy
  have d1 := deskew_same (c.nat (.deskew k)) (vs.getD k.val 0) (x.1.tr k)
  have d2 := deskew_front (hf.deskew k) (vs.getD k.val 0) (h.tracks k).front
  simp only [frontEnd]
  generalize deskew (c.nat (.deskew k)) (vs.getD k.val 0) (x.1.tr k) = d at hy d1 d2
  have p1 := peakStep_same c l time d.1 d.2
  have p2 := peakStep_front (c := c) hf.lat.w time d.1 d2
  generalize peakStep c l time d.1 d.2 = p at hy p1 p2
  have hsd := d1.trans p1
  split at hy
  · rename_i hn
    cases hy
    rw [hn, Attempt.tr_setTr_same]
    exact ⟨rfl, by simp⟩
  · rename_i pk hp
    rw [andThen_eq_ok] at hy
    obtain ⟨a2, h2, h3⟩ := hy
    cases h3
    obtain ⟨-, -, -, r⟩ := dispatchPeak_inv hf hk
      (h.setTr ((h.tracks k).of_same hsd p2) fun _ => ⟨hsd.datacount, hsd.faked⟩) h2
    have hfr := r.front
    rw [Attempt.tr_setTr_same] at hfr
    rw [hp]
    exact ⟨hfr, rfl⟩

theorem find_append_none {es : List Event} {k : Fin 9} (h : ∀ e ∈ es, e.k ≠ k) (o : Option Peak) :
    ((es ++ (o.map fun pk => (⟨k, pk⟩ : Event)).toList).find? fun e => e.k = k).map (·.pk) = o := by
  have : es.find? (fun e => decide (e.k = k)) = none := by
    rw [List.find?_eq_none]
    intro e he; simpa using h e he
  rw [List.find?_append, this]
  cases o <;> simp

theorem frontsDone_step {c : CfgFile} {l : Latched} (hf : SampleFacts c l) {time : F64} {vs : List F64}
    {k : Fin 9} {ks : List (Fin 9)} {a : Attempt} {x y : Attempt × List Event}
    (hd : TracksDone l a (k :: ks) x) (h : FrontsDone c l time vs a (k :: ks) x)
    (hy : sampleTrack c l time vs k x = .ok y) : FrontsDone c l time vs a ks y := by
  have hk := hd.lanes k List.mem_cons_self
  obtain ⟨-, -, -, d1⟩ := sampleTrack_inv hf hk hd.inv hy
  obtain ⟨f1, f2⟩ := sampleTrack_front hf hk hd.inv hy
  obtain ⟨e1, e2⟩ := frontEnd_congr (c := c) (l := l) (time := time) (vs := vs) (k := k)
    (h.left k List.mem_cons_self)
  have hnot : ∀ j ∈ ks, j ≠ k := fun j hj => ne_of_gt ((List.pairwise_cons.mp hd.sorted).1 j hj)
  refine ⟨fun j hj => ?_, fun j hj hjs => ?_⟩
  · rw [← h.left j (List.mem_cons_of_mem _ hj)]
    have hr := d1.others j (hnot j hj)
    exact frontReads_of_rest (congrArg RestFields.front hr) (congrArg RestFields.agc hr)
  · rw [f2]
    by_cases hjk : j = k
    · subst hjk
      refine ⟨?_, by rw [f1, e2]⟩
      rw [find_append_none fun e he => ne_of_lt (hd.before e he j List.mem_cons_self), e1]
    · obtain ⟨g1, g2⟩ := h.done j hj (by simp [hjk, hjs])
      refine ⟨?_, ?_⟩
      · rw [List.find?_append]
        have : (((frontEnd c l time vs k (x.1.tr k)).2.map fun pk => (⟨k, pk⟩ : Event)).toList.find?
            fun e => e.k = j) = none := by
          cases (frontEnd c l time vs k (x.1.tr k)).2
          · rfl
          · simp [Ne.symm hjk]
        rw [this, Option.or_none]; exact g1
      · rw [← g2]
        exact congrArg RestFields.front (d1.others j hjk)

/-- The whole SAMPLE: its events are the front ends', and the decoders leave the front ends alone. -/
theorem sampleRun_front {c : CfgFile} {l : Latched} (hf : SampleFacts c l) {time : F64} {vs : List F64}
    {a : Attempt} {x : Attempt × Bool × List Event} (h : AttemptInv l a)
    (h8 : a.nrzi.postCounter ≤ 8) (hx : sampleRun c l time vs a = .ok x) :
    FrontEndOf c l time vs a x.1 x.2.2 := by
  obtain ⟨i0, -⟩ := sampleBegin_inv time h
  have hz : (sampleBegin l.ntrks time a).nrzi = a.nrzi := eachTrack_nrzi _ _ _
  simp only [sampleRun, andThen_eq_ok] at hx
  obtain ⟨y, h1, z, h2, h3⟩ := hx
  cases h3
  obtain ⟨hd, hfd⟩ := forEach_left
    (P := fun ks x => TracksDone l (sampleBegin l.ntrks time a) ks x ∧
      FrontsDone c l time vs (sampleBegin l.ntrks time a) ks x)
    (fun k ks x x' hp hx => ⟨tracksDone_step hf hp.1 hx, frontsDone_step hf hp.1 hp.2 hx⟩)
    ⟨tracksDone_begin i0, ⟨fun _ _ => rfl, fun k hk hn => absurd (mem_tracks.mpr hk) hn⟩⟩ h1
  have hp := hd.post
  rw [hz] at hp
  obtain ⟨-, f2, -⟩ := sampleStep_inv hd.inv (Nat.le_trans hp h8) h2
  have hc : ∀ k, (frontEnd c l time vs k ((sampleBegin l.ntrks time a).tr k)).2 =
        (frontEnd c l time vs k (a.tr k)).2 ∧
      frontFields (frontEnd c l time vs k ((sampleBegin l.ntrks time a).tr k)).1 =
        frontFields (frontEnd c l time vs k (a.tr k)).1 := fun k => by
    have hs := sampleBegin_same l.ntrks time a k
    exact frontEnd_congr (frontReads_of_rest hs.2.1 hs.2.2.2.2)
  refine ⟨fun k hk => ?_, fun k hk => ?_⟩
  · rw [← (hc k).1]; exact (hfd.done k hk (by simp)).1
  · rw [← (hc k).2, ← (hfd.done k hk (by simp)).2]
    exact congrArg RestFields.front (f2.rest k)

/-- Finalisation leaves the front ends alone. -/
theorem FrontEndOf.final {c : CfgFile} {l : Latched} {time : F64} {vs : List F64}
    {a a1 a2 : Attempt} {es : List Event} (h : FrontEndOf c l time vs a a1 es) (f : FinalFrame l a1 a2) :
    FrontEndOf c l time vs a a2 es :=
  ⟨h.event, fun k hk => by rw [f.tracks k, ← h.track k hk]; rfl⟩

end Sys2Proof.Machine
end

