-- ==== Sys2Proof/Laws/Host.lean ====
section
/-! SUPPORT. What a command does to the core does not depend on the host's side of the state. -/

namespace Sys2Proof.Machine

/-- Two states have the same core when their core fields agree. -/
theorem coreOnly_eq_iff {s t : State} : s.coreOnly = t.coreOnly ↔
    s.core = t.core ∧ s.errCode = t.errCode ∧ s.errInfo = t.errInfo ∧ s.eofSeen = t.eofSeen ∧ s.cfg = t.cfg ∧ s.lat = t.lat ∧
    s.att = t.att ∧ s.res = t.res := by
  simp [State.coreOnly]

/-- A command on a state with another host side does the same to the core and answers the same. -/
theorem exec_congr (i : Instr) (s : State) (inp : List InWord) (out : List Word) (ri : Bool) :
    ∃ (t : State) (r : List Word), exec i { s with input := inp, output := out, resetIn := ri } =
      .next { t with input := inp, output := out ++ r, resetIn := ri } ∧
      exec i s = .next { t with input := s.input, output := s.output ++ r, resetIn := s.resetIn } := by
  have frame : ∀ (op : BitVec 8) (b1 b2 : Except Raise (State × List Word)),
      ((∃ r, b1 = .error r ∧ b2 = .error r) ∨ (∃ (t : State) (w : List Word), b1 = .ok ({ t with input := inp, output := out, resetIn := ri }, w) ∧
        b2 = .ok ({ t with input := s.input, output := s.output, resetIn := s.resetIn }, w))) →
      ∃ (t : State) (r : List Word), runCommand op { s with input := inp, output := out, resetIn := ri } b1 =
         { t with input := inp, output := out ++ r, resetIn := ri } ∧
      runCommand op s b2 = { t with input := s.input, output := s.output ++ r, resetIn := s.resetIn } := by
    intro op b1 b2 h
    unfold runCommand
    by_cases hf : s.core = .fault
    · rw [if_pos hf, if_pos hf]; exact ⟨s, placeholder op, rfl, rfl⟩
    rw [if_neg hf, if_neg hf]
    by_cases ha : (!allowed op s.core) = true
    · rw [if_pos ha, if_pos ha]; exact ⟨raise s _, placeholder op, rfl, rfl⟩
    rw [if_neg ha, if_neg ha]
    rcases h with ⟨r, rfl, rfl⟩ | ⟨t, w, rfl, rfl⟩
    · exact ⟨raise s r, placeholder op, rfl, rfl⟩
    · exact ⟨t, w, rfl, rfl⟩
  have lift : ∀ (f : State → State), (∃ (t : State) (r : List Word), f { s with input := inp, output := out, resetIn := ri } =
         { t with input := inp, output := out ++ r, resetIn := ri } ∧
      f s = { t with input := s.input, output := s.output ++ r, resetIn := s.resetIn }) →
      ∃ (t : State) (r : List Word), (Host.Outcome.next (f { s with input := inp, output := out, resetIn := ri }) : Host.Outcome State Fault Refusal) =
      .next { t with input := inp, output := out ++ r, resetIn := ri } ∧
      (Host.Outcome.next (f s) : Host.Outcome State Fault Refusal) = .next { t with input := s.input, output := s.output ++ r, resetIn := s.resetIn } := by
    rintro f ⟨t, r, h1, h2⟩; exact ⟨t, r, congrArg _ h1, congrArg _ h2⟩
  cases i with
  | nop => exact lift (fun s => runCommand 0x00 s (.ok (s, []))) (frame 0 _ _ (.inr ⟨s, [], rfl, rfl⟩))
  | reset => exact ⟨resetCore s, [], by simp [exec, execReset, resetCore], by simp [exec, execReset, resetCore]⟩
  | cfgWr a v =>
    refine lift (fun s => runCommand 0x02 s (cfgWrBody a v s)) (frame 2 _ _ ?_)
    rcases cfgOperand_cases a with ⟨r, -, h⟩ | ⟨-, h⟩ <;> simp only [cfgWrBody, h]
    · exact .inr ⟨{ s with cfg := s.cfg.set r v }, [], rfl, rfl⟩
    · exact .inl ⟨_, rfl, rfl⟩
  | cfgRd a =>
    refine lift (fun s => runCommand 0x03 s (cfgRdBody a s)) (frame 3 _ _ ?_)
    rcases cfgOperand_cases a with ⟨r, -, h⟩ | ⟨-, h⟩ <;> simp only [cfgRdBody, h]
    · exact .inr ⟨s, _, rfl, rfl⟩
    · exact .inl ⟨_, rfl, rfl⟩
  | blkStart =>
    refine lift (fun s => runCommand 0x04 s (blkStartBody s)) (frame 4 _ _ ?_)
    unfold blkStartBody
    simp only
    cases cfgInvalid s.cfg with
    | some a => exact .inl ⟨_, rfl, rfl⟩
    | none => exact .inr ⟨startBlock s, [], rfl, rfl⟩
  | sample a t vs =>
    refine lift (fun s => runCommand 0x05 s (sampleBody a t vs s)) (frame 5 _ _ ?_)
    unfold sampleBody
    simp only
    cases sampleCheck s.lat.ntrks s.att.tPrev a t vs with
    | some r => exact .inl ⟨_, rfl, rfl⟩
    | none =>
      cases sampleRun s.cfg s.lat t vs s.att with
      | error r => exact .inl ⟨_, rfl, rfl⟩
      | ok y =>
        refine .inr ⟨sampleNext s y, sampleResponse y.2.2 y.2.1, ?_, ?_⟩ <;> simp only [andThen, sampleNext] <;> cases y.2.1 <;> rfl
  | eof =>
    refine lift (fun s => runCommand 0x06 s (eofBody s)) (frame 6 _ _ ?_)
    refine .inr ⟨if s.core = .run then finishBlock { s with eofSeen := true } else { s with eofSeen := true }, [], ?_, ?_⟩ <;>
      unfold eofBody <;> simp only <;> split <;> rfl
  | resRd a =>
    have hr : resRead { s with input := inp, output := out, resetIn := ri } a = resRead s a := rfl
    by_cases hf : s.core = .fault
    · simp only [exec, execResRd, if_pos hf, hr]
      exact ⟨s, _, rfl, rfl⟩
    · simp only [exec, execResRd, if_neg hf]
      refine lift (fun s => runCommand 0x07 s (resRdBody a s)) (frame 7 _ _ ?_)
      simp only [resRdBody, hr]
      cases resRead s a with
      | none => exact .inl ⟨_, rfl, rfl⟩
      | some w => exact .inr ⟨s, _, rfl, rfl⟩
  | dataRd a => exact lift (fun s => runCommand 0x08 s (.ok (s, [entryWord (bufRead s.att.buf a.toNat)]))) (frame 8 _ _ (.inr ⟨s, _, rfl, rfl⟩))

end Sys2Proof.Machine
end

