-- ==== Sys2Proof/Laws/Invariant.lean ====
section
/-! SUPPORT. The parts of the machine's invariant: what meets it at the start, and what the shared
operations keep of it. -/

namespace Sys2Proof.Machine

/-- A track at its init values meets the invariant. -/
theorem trackInv_init {l : Latched} (h : F64) {clk : Clock} (hc : ClockInv l clk) : TrackInv l (Track.init h clk) where
  fifo := by simp [Track.init]
  win := by simp [Track.init]
  blackout := by simp [Track.init]
  hwin := by simp [Track.init]
  datacount := by simp [Track.init]
  bits := by cases l.runs .gcr <;> simp [Track.init]
  resync := by simp [Track.init]
  gain _ := ⟨rfl, rfl⟩
  clk := hc

/-- An attempt at its init values meets the invariant. -/
theorem attemptInv_init {l : Latched} (h : F64) {clk : Clock} (hc : ClockInv l clk) :
    AttemptInv l (Attempt.init h clk) where
  tracks k := by rw [Attempt.tr_init]; exact trackInv_init h hc
  nrzi := { nsym := by simp [Attempt.init, Nrzi.init], post := by simp [Attempt.init, Nrzi.init]
            missed := fun _ => rfl, clk := hc }
  buf :=
    { wf := rfl
      width := fun i j hj => by simp [Attempt.init, bufRead, Entry.zero]
      unfaked := fun _ i => rfl
      pe := fun _ k hk =>
        { clear := fun i hi => by simp [Attempt.init, bufRead, Entry.zero, symBit]
          faked := by rw [Attempt.tr_init]; rfl }
      nrzi := fun _ i hi => rfl
      gcr := fun _ i hi => rfl
      scan := fun _ => rfl }
  gcrNsym := by simp [Attempt.init]

/-- The clock of reset meets the invariant. -/
theorem clockInv_reset : ClockInv Latched.reset Clock.reset := ⟨rfl, by simp [Latched.reset, Clock.reset], fun _ => rfl⟩

/-- BLK_START keeps the invariant. -/
theorem startBlock_inv {s : State} (h : Inv s) (hc : s.core = .idle ∨ s.core = .done) (hl : cfgInvalid s.cfg = none) :
    Inv (startBlock s) where
  control :=
    { fault := by
        have := h.control.fault
        constructor
        · intro h; cases h
        · intro h'; exfalso; have := this.2 h'; rcases hc with hc | hc <;> rw [hc] at this <;> cases this
      info := h.control.info
      code := h.control.code
      lat := .inr ⟨_, hl, rfl⟩
      idle := fun h => by cases h
      run := fun _ => ⟨hl, rfl, rfl⟩
      final := fun _ => rfl }
  attempt := attemptInv_init _ (clkInit_inv (legal_clkWindow hl) (fun h => by
      change cfgClkStrategy s.cfg = .window at h
      unfold cfgClkStrategy at h
      split at h
      · cases h
      · split at h
        · assumption
        · split at h <;> cases h) (fun _ => rfl))
  results := resultsInv_zero
  live _ := ⟨by simp [attemptOf, Attempt.init, Nrzi.init], rfl⟩
  warncount h := by cases h

/-- A response keeps the invariant. -/
theorem Inv.respond {s : State} (h : Inv s) (ws : List Word) : Inv (respond s ws) :=
  ⟨⟨h.control.fault, h.control.info, h.control.code, h.control.lat, h.control.idle, h.control.run, h.control.final⟩,
    h.attempt, h.results, h.live, h.warncount⟩

/-- Words sent by the host keep the invariant. -/
theorem Inv.sent {s : State} (h : Inv s) (ws : List InWord) : Inv { s with input := ws } :=
  ⟨⟨h.control.fault, h.control.info, h.control.code, h.control.lat, h.control.idle, h.control.run, h.control.final⟩,
    h.attempt, h.results, h.live, h.warncount⟩

/-- No error has the number 0. -/
theorem errNumber_ne_zero (c : ErrCode) : errNumber c ≠ 0 := by cases c <;> decide

/-- Fault entry keeps the invariant. -/
theorem Inv.raise {s : State} (h : Inv s) (r : Raise) : Inv (raise s r) where
  control :=
    { fault := ⟨fun _ => errNumber_ne_zero _, fun _ => rfl⟩
      info := fun h' => absurd h' (errNumber_ne_zero _)
      code := (errNumber_range r.code).2
      lat := h.control.lat
      idle := fun h => (by cases h)
      run := fun h => (by cases h)
      final := fun h => (by rcases h with h | h <;> cases h) }
  attempt := h.attempt
  results := h.results
  live h := by cases h
  warncount h := by cases h

/-- Outside FAULT no error is recorded. -/
theorem not_fault_code {s : State} (h : Inv s) (hf : s.core ≠ .fault) : s.errCode = 0 := by
  by_contra h'; exact hf (h.control.fault.2 h')

/-- The end of an attempt keeps the invariant. -/
theorem finish_inv {s : State} {a : Attempt} (e : Bool) (h : Inv s) (hrun : s.core = .run)
    (ha : AttemptInv s.lat a) (h0 : a.gcrNsym = 0) :
    Inv (finishBlock { s with eofSeen := e, att := a }) := by
  obtain ⟨hcfg, hlat, heof⟩ := h.control.run hrun
  have hf : SampleFacts s.cfg s.lat := by rw [hlat]; exact legal_sampleFacts hcfg
  have hfin := finalize_inv hf.lat s.cfg ha h0
  have hc := not_fault_code h (by rw [hrun]; decide)
  exact ⟨⟨⟨fun h => (by cases h), fun h => absurd hc h⟩, h.control.info, h.control.code, h.control.lat, fun h => (by cases h), fun h => (by cases h),
    fun h => (by rcases h with h | h <;> cases h)⟩, hfin.1, hfin.2.2.1, fun h => (by cases h), fun _ => hfin.2.2.2⟩

end Sys2Proof.Machine
end

