-- ==== Sys2Proof/Laws/PeBuffer.lean ====
section
/-! SUPPORT. What the dropout fill and the postamble strip of the PE decoder do to the data buffer,
bit by bit. -/

namespace Sys2Proof.Machine

/-- A run of appended bits: where they land, and what stays. -/
theorem peFill_spec (n : Nat) (k : Fin 9) (b f : Bool) (hn : n ≤ 9) (hk : k.val < n) (m : Nat) (a : Attempt)
    (hw : Memory.wf a.buf = true) (hr : (a.tr k).datacount + m ≤ 65536) :
    ∃ a', repeatTimes (peAppend n k b f) m a = .ok a' ∧ Memory.wf a'.buf = true ∧
      a'.tr k = { a.tr k with datacount := (a.tr k).datacount + m } ∧
      (∀ j, j ≠ k → a'.tr j = a.tr j) ∧
      (∀ (j : Fin 9) (i : Nat), j.val < n →
        symBit n (bufRead a'.buf i).sym j = (if j = k ∧ (a.tr k).datacount ≤ i ∧ i < (a.tr k).datacount + m then b else symBit n (bufRead a.buf i).sym j) ∧
        symBit n (bufRead a'.buf i).fmask j = (if j = k ∧ (a.tr k).datacount ≤ i ∧ i < (a.tr k).datacount + m then f else symBit n (bufRead a.buf i).fmask j)) := by
  induction m generalizing a with
  | zero =>
    refine ⟨a, rfl, hw, by simp, fun _ _ => rfl, fun j i hj => ?_⟩
    rw [if_neg (by omega), if_neg (by omega)]; exact ⟨rfl, rfl⟩
  | succ m ih =>
    simp only [repeatTimes, peAppend_eq]
    rw [if_neg (by simp [Config.databuf]; omega)]
    have hw' : Memory.wf (peAppended n k b f a).buf = true := bufWrite_wf hw (by simp [Config.databuf]; omega) _
    have ht : (peAppended n k b f a).tr k = { a.tr k with datacount := (a.tr k).datacount + 1 } := Attempt.tr_setTr_same _ _ _
    obtain ⟨a', h1, h2, h3, h4, h5⟩ := ih (peAppended n k b f a) hw' (by rw [ht]; simp; omega)
    refine ⟨a', h1, h2, ?_, fun j hj => ?_, fun j i hj => ?_⟩
    · rw [h3, ht]; simp; omega
    · rw [h4 j hj, peAppended_tr_other _ _ _ _ hj]
    · obtain ⟨g1, g2⟩ := h5 j i hj
      obtain ⟨w1, w2⟩ := writeBits_bits hw hn hk hj b f (a.tr k).datacount i
      rw [ht] at g1 g2; simp only at g1 g2
      have e : ∀ x, symBit n (bufRead (peAppended n k b f a).buf i).sym x = symBit n (bufRead (writeBits n k b f (a.tr k).datacount a.buf) i).sym x := fun _ => rfl
      have e' : ∀ x, symBit n (bufRead (peAppended n k b f a).buf i).fmask x = symBit n (bufRead (writeBits n k b f (a.tr k).datacount a.buf) i).fmask x := fun _ => rfl
      rw [g1, g2, e, e', w1, w2]
      constructor
      · split
        · rw [if_pos (by omega)]
        · split
          · rw [if_pos (by omega)]
          · rw [if_neg (by omega)]
      · split
        · rw [if_pos (by omega)]
        · split
          · rw [if_pos (by omega)]
          · rw [if_neg (by omega)]

/-- A least value is below a bound. -/
theorem foldl_min_lt {cs : List Nat} {x m : Nat} (h : x < m) : cs.foldl min x < m := by
  induction cs generalizing x with
  | nil => exact h
  | cons c cs ih => exact ih (by omega)

/-- A greatest value is below a bound. -/
theorem foldl_max_lt {cs : List Nat} {x m : Nat} (h : x < m) (hc : ∀ c ∈ cs, c < m) : cs.foldl max x < m := by
  induction cs generalizing x with
  | nil => exact h
  | cons c cs ih => exact ih (by have := hc c (by simp); omega) fun c h => hc c (by simp [h])

/-- A mean is below a bound. -/
theorem sum_lt {cs : List Nat} {m : Nat} (hne : cs ≠ []) (hc : ∀ c ∈ cs, c < m) : cs.sum / cs.length < m := by
  rw [Nat.div_lt_iff_lt_mul (List.length_pos_of_ne_nil hne)]
  induction cs with
  | nil => simp at hne
  | cons c cs ih =>
    have := hc c (by simp)
    by_cases h : cs = []
    · subst h; simp; omega
    · have := ih h fun c h => hc c (by simp [h])
      simp [Nat.mul_add]; omega

/-- One bit of the postamble strip. -/
theorem peStripBit_spec (n : Nat) (k : Fin 9) (a : Attempt) (hn : n ≤ 9) (hk : k.val < n) (hw : Memory.wf a.buf = true)
    (h0 : 0 < (a.tr k).datacount) (hd : (a.tr k).datacount ≤ 65536) :
    let a' := (peStripBit n k a).1
    Memory.wf a'.buf = true ∧
    (peStripBit n k a).2 = symBit n (bufRead a.buf ((a.tr k).datacount - 1)).sym k ∧
    a'.tr k = { a.tr k with datacount := (a.tr k).datacount - 1, faked := (a'.tr k).faked } ∧
    (∀ j, j ≠ k → a'.tr j = a.tr j) ∧
    (∀ (j : Fin 9) (i : Nat), j.val < n →
        symBit n (bufRead a'.buf i).sym j = (if j = k ∧ i = (a.tr k).datacount - 1 then false else symBit n (bufRead a.buf i).sym j) ∧
        symBit n (bufRead a'.buf i).fmask j = (if j = k ∧ i = (a.tr k).datacount - 1 then false else symBit n (bufRead a.buf i).fmask j)) := by
  intro a'
  refine ⟨bufWrite_wf hw (by simp [Config.databuf]; omega) _, rfl, ?_, ?_, ?_⟩
  · simp only [a', peStripBit, Attempt.tr_setTr_same]
  · intro j hj; exact Attempt.tr_setTr_other _ _ hj
  · intro j i hj
    obtain ⟨w1, w2⟩ := writeBits_bits hw hn hk hj false false ((a.tr k).datacount - 1) i
    have e : a'.buf = writeBits n k false false ((a.tr k).datacount - 1) a.buf := rfl
    rw [e, w1, w2]
    constructor
    · by_cases hh : j = k ∧ i = (a.tr k).datacount - 1
      · rw [if_pos hh, if_pos ⟨hh.2, hh.1⟩]
      · rw [if_neg hh, if_neg (by tauto)]
    · by_cases hh : j = k ∧ i = (a.tr k).datacount - 1
      · rw [if_pos hh, if_pos ⟨hh.2, hh.1⟩]
      · rw [if_neg hh, if_neg (by tauto)]

/-- A run of the postamble strip: how far it goes, what it clears, and what stays. -/
theorem peStripFrom_spec (c : CfgFile) (n : Nat) (k : Fin 9) (hn : n ≤ 9) (hk : k.val < n) (L r : Nat) (a : Attempt) (hw : Memory.wf a.buf = true)
    (hd : (a.tr k).datacount ≤ 65536) :
    let a' := peStripFrom c n k L r a
    let dc := (a.tr k).datacount
    let kept := (a'.tr k).datacount
    let bit := fun i => symBit n (bufRead a.buf i).sym k
    kept ≤ dc ∧ dc - kept ≤ L ∧
    (dc - kept = L ∨ kept = 0 ∨ (1 ≤ dc - kept ∧ c.nat .ignorePostamble ≤ r + (dc - kept) ∧ bit kept = true)) ∧
    (∀ i, kept < i → i < dc → c.nat .ignorePostamble ≤ r + (dc - i) → bit i = false) ∧
    a'.tr k = { a.tr k with datacount := kept, faked := (a'.tr k).faked } ∧
    (∀ j, j ≠ k → a'.tr j = a.tr j) ∧
    (∀ (j : Fin 9) (i : Nat), j.val < n →
        symBit n (bufRead a'.buf i).sym j = (if j = k ∧ kept ≤ i ∧ i < dc then false else symBit n (bufRead a.buf i).sym j) ∧
        symBit n (bufRead a'.buf i).fmask j = (if j = k ∧ kept ≤ i ∧ i < dc then false else symBit n (bufRead a.buf i).fmask j)) := by
  have base : ∀ (r L : Nat) (a : Attempt), (L = 0 ∨ (a.tr k).datacount = 0) → 
      ((a.tr k).datacount ≤ (a.tr k).datacount ∧ (a.tr k).datacount - (a.tr k).datacount ≤ L ∧
    ((a.tr k).datacount - (a.tr k).datacount = L ∨ (a.tr k).datacount = 0 ∨ (1 ≤ (a.tr k).datacount - (a.tr k).datacount ∧ c.nat .ignorePostamble ≤ r + ((a.tr k).datacount - (a.tr k).datacount) ∧ symBit n (bufRead a.buf (a.tr k).datacount).sym k = true)) ∧
    (∀ i, (a.tr k).datacount < i → i < (a.tr k).datacount → c.nat .ignorePostamble ≤ r + ((a.tr k).datacount - i) → symBit n (bufRead a.buf i).sym k = false) ∧
    a.tr k = { a.tr k with datacount := (a.tr k).datacount, faked := (a.tr k).faked } ∧
    (∀ j, j ≠ k → a.tr j = a.tr j) ∧
    (∀ (j : Fin 9) (i : Nat), j.val < n →
        symBit n (bufRead a.buf i).sym j = (if j = k ∧ (a.tr k).datacount ≤ i ∧ i < (a.tr k).datacount then false else symBit n (bufRead a.buf i).sym j) ∧
        symBit n (bufRead a.buf i).fmask j = (if j = k ∧ (a.tr k).datacount ≤ i ∧ i < (a.tr k).datacount then false else symBit n (bufRead a.buf i).fmask j))) := by
    intro r L a h
    refine ⟨by omega, by omega, by omega, fun i h1 h2 => by omega, rfl, fun _ _ => rfl, fun j i hj => ?_⟩
    rw [if_neg (by omega), if_neg (by omega)]; exact ⟨rfl, rfl⟩
  induction L generalizing r a with
  | zero => exact base r 0 a (.inl rfl)
  | succ L ih =>
    by_cases h0 : (a.tr k).datacount = 0
    · have : peStripFrom c n k (L + 1) r a = a := by rw [peStripFrom, if_pos h0]
      rw [this]; exact base r (L + 1) a (.inr h0)
    · obtain ⟨s1, s2, s3, s4, s5⟩ := peStripBit_spec n k a hn hk hw (by omega) hd
      by_cases hs : (decide (c.nat .ignorePostamble ≤ r + 1) && (peStripBit n k a).2) = true
      · have he : peStripFrom c n k (L + 1) r a = (peStripBit n k a).1 := by
          rw [peStripFrom, if_neg h0]; simp only; rw [if_pos (by simpa using hs)]
        rw [he]
        generalize (peStripBit n k a).1 = a' at *
        simp only [Bool.and_eq_true, decide_eq_true_eq] at hs
        have hd' : (a'.tr k).datacount = (a.tr k).datacount - 1 := by rw [s3]
        simp only [hd']
        refine ⟨by omega, by omega, .inr (.inr ⟨by omega, by omega, by rw [← s2]; exact hs.2⟩), fun i h1 h2 => by omega, s3, s4, fun j i hj => ?_⟩
        obtain ⟨g1, g2⟩ := s5 j i hj
        rw [g1, g2]
        have : (j = k ∧ i = (a.tr k).datacount - 1) ↔ (j = k ∧ (a.tr k).datacount - 1 ≤ i ∧ i < (a.tr k).datacount) := by omega
        simp only [this]; exact ⟨trivial, trivial⟩
      · have he : peStripFrom c n k (L + 1) r a = peStripFrom c n k L (r + 1) (peStripBit n k a).1 := by
          rw [peStripFrom, if_neg h0]; simp only; rw [if_neg (by simpa using hs)]
        rw [he]
        generalize ha' : (peStripBit n k a).1 = a' at *
        have hd' : (a'.tr k).datacount = (a.tr k).datacount - 1 := by rw [s3]
        have := ih (r + 1) a' s1 (by omega)
        simp only [hd'] at this
        obtain ⟨i1, i2, i3, i4, i5, i6, i7⟩ := this
        generalize peStripFrom c n k L (r + 1) a' = a'' at *
        simp only
        have hbit : ∀ i, i < (a.tr k).datacount - 1 → symBit n (bufRead a'.buf i).sym k = symBit n (bufRead a.buf i).sym k := by
          intro i hi; rw [(s5 k i hk).1, if_neg (by omega)]
        refine ⟨by omega, by omega, ?_, ?_, ?_, ?_, ?_⟩
        · rcases i3 with h | h | ⟨h1, h2, h3⟩
          · omega
          · exact .inr (.inl h)
          · exact .inr (.inr ⟨by omega, by omega, by rw [← hbit _ (by omega)]; exact h3⟩)
        · intro i h1 h2 h3
          by_cases hi : i = (a.tr k).datacount - 1
          · subst hi
            rw [← s2]
            rw [show r + ((a.tr k).datacount - ((a.tr k).datacount - 1)) = r + 1 by omega] at h3
            simp [h3] at hs; exact hs
          · rw [← hbit i (by omega)]; exact i4 i h1 (by omega) (by omega)
        · rw [i5, s3]
        · intro j hj; rw [i6 j hj, s4 j hj]
        · intro j i hj
          obtain ⟨g1, g2⟩ := s5 j i hj
          obtain ⟨f1, f2⟩ := i7 j i hj
          rw [f1, f2, g1, g2]
          constructor
          · split
            · rw [if_pos (by omega)]
            · split
              · rw [if_pos (by omega)]
              · rw [if_neg (by omega)]
          · split
            · rw [if_pos (by omega)]
            · split
              · rw [if_pos (by omega)]
              · rw [if_neg (by omega)]

end Sys2Proof.Machine
end

