-- ==== Sys2Proof/Laws/Peak.lean ====
section
/-! SUPPORT. The deskew delay over a sequence, the window and the candidates of a peak, the AGC baseline over a
sequence, and the idle timeout. -/

namespace Sys2Proof.Machine

/-- No delay. -/
theorem deskewAll_zero (vs : List F64) (t : Track) : deskewAll 0 vs t = vs := by
  induction vs generalizing t with
  | nil => rfl
  | cons v vs ih => simp [deskewAll, deskew, ih]

/-- A full delay line answers what it holds, then the voltages. -/
theorem deskewAll_primed {d : Nat} (hd : 0 < d) (vs : List F64) (t : Track) (hp : t.primed = true) (hl : t.fifo.length = d) :
    deskewAll d vs t = (t.fifo ++ vs).take vs.length := by
  induction vs generalizing t with
  | nil => simp [deskewAll]
  | cons v vs ih =>
    obtain ⟨x, q, hq⟩ : ∃ x q, t.fifo = x :: q := by
      cases h : t.fifo with
      | nil => rw [h] at hl; simp at hl; omega
      | cons x q => exact ⟨x, q, rfl⟩
    have hd' : d ≠ 0 := by omega
    simp only [deskewAll, deskew, if_neg hd', hp, if_true, hq]
    rw [ih]
    · simp
    · rfl
    · rw [hq] at hl; simp at hl ⊢; omega

/-- A full window stays full. -/
theorem pushBounded_full {α : Type} {n : Nat} {l : List α} (x : α) (h : l.length = n) (hn : 0 < n) :
    (pushBounded n l x).length = n := by
  unfold pushBounded; split <;> simp at * <;> omega

/-- The window after a sample is its last `n` samples (rule R163). -/
theorem pushBounded_eq {α : Type} {n : Nat} {l : List α} (x : α) (h : l.length ≤ n) :
    pushBounded n l x = (l ++ [x]).drop (l.length + 1 - n) := by
  unfold pushBounded
  rw [List.length_append, List.length_singleton]
  split
  · rw [show l.length + 1 - n = 1 by omega, List.drop_one]
  · rw [show l.length + 1 - n = 0 by omega]; rfl

/-- A list's last element by its index. -/
theorem getLastD_eq_getD {α : Type} (l : List α) (d : α) : l.getLastD d = l.getD (l.length - 1) d := by
  cases l with
  | nil => rfl
  | cons x l => simp [List.getLastD_eq_getLast?, List.getLast?_eq_getElem?]

/-- The voltage of a window at an index. -/
theorem getD_map_snd (w : List (F64 × F64)) (i : Nat) : (w.map Prod.snd).getD i 0 = (w.getD i (0, 0)).2 := by
  simp only [List.getD_eq_getElem?_getD, List.getElem?_map]
  cases w[i]? <;> rfl

/-- The time of a window at an index. -/
theorem getD_map_fst (w : List (F64 × F64)) (i : Nat) : (w.map Prod.fst).getD i 0 = (w.getD i (0, 0)).1 := by
  simp only [List.getD_eq_getElem?_getD, List.getElem?_map]
  cases w[i]? <;> rfl

/-- A candidate between the edges, `rise` past the first by `d0` and past the last by `dl`, and past
MIN_PEAK (rule R166). -/
theorem candidate_iff (c : CfgFile) (rise d0 dl vm : F64) (m len : Nat) :
    (decide (0 < m) && decide (m + 1 < len) && fLe rise d0 && fLe rise dl && minPeakMet c vm) = true ↔
      (0 < m ∧ m + 1 < len) ∧ fLe rise d0 = true ∧ fLe rise dl = true ∧
        (fEq (c.get .minPeak) 0 = true ∨ fLt (c.get .minPeak) (fAbs vm) = true) := by
  simp only [minPeakMet, Bool.and_eq_true, Bool.or_eq_true, decide_eq_true_eq, and_assoc]

/-- The baseline of a track over a sequence of heights. -/
theorem agcFeed_baseline (c : CfgFile) (l : Latched) (hs : List F64) (t : Track)
    (h1 : t.hFrozen = false) (h2 : t.hN + hs.length ≤ c.nat .avgHeightCount) (h3 : t.hN < c.nat .avgHeightCount) :
    let t' := agcFeed c l hs t
    let sum := hs.foldl fAdd t.hSum
    t'.hN = t.hN + hs.length ∧ t'.hSum = sum ∧ t'.gain = t.gain ∧ t'.maxGain = t.maxGain ∧
    (t.hN + hs.length < c.nat .avgHeightCount → t'.hFrozen = false ∧ t'.vAvgHeight = t.vAvgHeight) ∧
    (t.hN + hs.length = c.nat .avgHeightCount → t'.hFrozen = true ∧
      t'.vAvgHeight = if fLt 0 sum then fDiv sum (fOfNat (t.hN + hs.length)) else c.get .nominalHeight) := by
  induction hs generalizing t with
  | nil =>
    refine ⟨rfl, rfl, rfl, rfl, fun _ => ⟨h1, rfl⟩, fun h => ?_⟩
    simp at h; omega
  | cons h hs ih =>
    intro t' sum
    have e : t' = agcFeed c l hs (agcPeak c l (some h) false t) := rfl
    simp only [List.length_cons] at h2 ⊢
    have hp : agcPeak c l (some h) false t = if t.hN + 1 = c.nat .avgHeightCount then
        agcFreeze c { t with hSum := fAdd t.hSum h, hN := t.hN + 1 } else { t with hSum := fAdd t.hSum h, hN := t.hN + 1 } := by
      simp [agcPeak, h1, agcBaseline]
    by_cases hN : t.hN + 1 = c.nat .avgHeightCount
    · rw [if_pos hN] at hp
      have : hs = [] := List.eq_nil_of_length_eq_zero (by omega)
      subst this
      have e2 : t' = agcFreeze c { t with hSum := fAdd t.hSum h, hN := t.hN + 1 } := by rw [e, hp]; rfl
      rw [e2]
      refine ⟨rfl, rfl, rfl, rfl, fun h => ?_, fun _ => ⟨rfl, rfl⟩⟩
      simp at h; omega
    · rw [if_neg hN] at hp
      rw [hp] at e
      have := ih { t with hSum := fAdd t.hSum h, hN := t.hN + 1 } h1 (by simp; omega) (by simp; omega)
      simp only at this
      rw [show t.hN + 1 + hs.length = t.hN + (hs.length + 1) by omega] at this
      rw [e]
      exact this

/-- The idle timeout as one field update. -/
theorem idleTimeout_eq (f now : F64) (st : Bool) (t : Track) :
    idleTimeout f now st t = { t with idle := t.idle || (st && fLt (fMul f t.clk.value) (fSub now t.tLast)) } := by
  unfold idleTimeout
  split
  · rename_i h; simp at h; simp [h]
  · rename_i h
    have : (t.idle || (st && fLt (fMul f t.clk.value) (fSub now t.tLast))) = t.idle := by
      revert h; cases t.idle <;> cases st <;> simp
    rw [this]

end Sys2Proof.Machine
end

