-- ==== Sys2Proof/Laws/PerInstr.lean ====
section
/-! SUPPORT. Statements made command by command: the command word of each (rules R91, R93 to R95,
R407). -/

namespace Sys2Proof.Laws.CommandWord

/-- The words of a well-formed command: one command word with the command's OP, RSV 0 and the
command's A, then exactly the payload words that word calls for (rules R91, R93, R94, R95). -/
def Statement (i : Instr) : Prop :=
  i.wellFormed = true → ∃ w : CmdWord, encode i = .cmd w :: (payload i).map .data ∧
    cmdOp w = opcode i ∧ cmdRsv w = 0 ∧ cmdA w = operandA i ∧ (payload i).length = payloadLen w

/-- Every command follows from its payload's length. -/
theorem of_length {i : Instr}
    (h : i.wellFormed = true →
      (payload i).length = payloadLen (cmdWord (opcode i) 0 (operandA i))) : Statement i :=
  fun hw => ⟨cmdWord (opcode i) 0 (operandA i), rfl, cmdOp_cmdWord _ _ _, cmdRsv_cmdWord _ _ _,
    cmdA_cmdWord _ _ _, h hw⟩

theorem nop : Statement .nop := of_length fun _ => by rw [payloadLen_cmdWord]; rfl
theorem reset : Statement .reset := of_length fun _ => by rw [payloadLen_cmdWord]; rfl
theorem cfgWr (a : BitVec 16) (v : Word) : Statement (.cfgWr a v) :=
  of_length fun _ => by rw [payloadLen_cmdWord]; rfl
theorem cfgRd (a : BitVec 16) : Statement (.cfgRd a) := of_length fun _ => by rw [payloadLen_cmdWord]; rfl
theorem blkStart : Statement .blkStart := of_length fun _ => by rw [payloadLen_cmdWord]; rfl
theorem sample (a : BitVec 16) (t : F64) (vs : List F64) : Statement (.sample a t vs) :=
  of_length fun h => by
    have hv : vs.length = a.toNat := by simpa [Instr.wellFormed] using h
    rw [payloadLen_cmdWord]
    change vs.length + 1 = 1 + a.toNat
    omega
theorem eof : Statement .eof := of_length fun _ => by rw [payloadLen_cmdWord]; rfl
theorem resRd (a : BitVec 16) : Statement (.resRd a) := of_length fun _ => by rw [payloadLen_cmdWord]; rfl
theorem dataRd (a : BitVec 16) : Statement (.dataRd a) := of_length fun _ => by rw [payloadLen_cmdWord]; rfl

end Sys2Proof.Laws.CommandWord
end

