-- ==== Sys2Proof/Laws/Run.lean ====
section
/-! SUPPORT. What a SAMPLE does, track after track: the chain of attempts that rule R131 spells out, and
the dispatch of each peak (rules R131, R170). -/

namespace Sys2Proof.Machine

theorem tracks_succ {n : Nat} (h : n < 9) : tracks (n + 1) = tracks n ++ [⟨n, h⟩] := by
  interval_cases n <;> rfl

theorem forEach_append {α σ : Type} (f : α → σ → Except Raise σ) (xs ys : List α) (s : σ) :
    forEach f (xs ++ ys) s = andThen (forEach f xs s) (forEach f ys) := by
  induction xs generalizing s with
  | nil => rfl
  | cons x xs ih =>
    simp only [List.cons_append, forEach]
    cases f x s with
    | error r => rfl
    | ok s' => exact ih s'

/-- A loop over the tracks is a chain, one link a track. -/
theorem forEach_tracks {σ : Type} {f : Fin 9 → σ → Except Raise σ} {n : Nat} (hn : n ≤ 9) {s s' : σ}
    (h : forEach f (tracks n) s = .ok s') :
    ∃ x : Nat → σ, x 0 = s ∧ x n = s' ∧
      ∀ k : Fin 9, k.val < n → f k (x k.val) = .ok (x (k.val + 1)) := by
  induction n generalizing s' with
  | zero =>
    cases h
    exact ⟨fun _ => s, rfl, rfl, fun k hk => absurd hk (Nat.not_lt_zero _)⟩
  | succ n ih =>
    rw [tracks_succ (by omega), forEach_append, andThen_eq_ok] at h
    obtain ⟨s1, h1, h2⟩ := h
    obtain ⟨x, h0, hx, hs⟩ := ih (by omega) h1
    simp only [forEach] at h2
    split at h2
    · cases h2
    · rename_i s2 h3
      cases h2
      refine ⟨fun i => if i ≤ n then x i else s', by simp [h0], by simp, fun k hk => ?_⟩
      simp only
      rw [if_pos (by omega)]
      by_cases hkn : k.val = n
      · rw [if_neg (by omega), hkn, hx]
        rw [show k = ⟨n, by omega⟩ from Fin.ext hkn]
        exact h3
      · rw [if_pos (by omega)]
        exact hs k (by omega)

/-- A change of each track leaves the rest of the attempt. -/
theorem eachTrack_rest (n : Nat) (f : Track → Track) (a : Attempt) :
    eachTrack n f a = { a with trk := (eachTrack n f a).trk } := by
  have h1 := eachTrack_nrzi n f a
  have h2 := eachTrack_buf n f a
  have h3 := eachTrack_tPrev n f a
  have h4 := eachTrack_nsamples n f a
  have h5 := eachTrack_anyPeak n f a
  have h6 := eachTrack_gcrNsym n f a
  generalize eachTrack n f a = b at *
  cases b
  simp_all

/-- Everything the dispatch of a peak can do. -/
theorem dispatchPeak_of {c : CfgFile} {l : Latched} {k : Fin 9} {pk : Peak} {a a' : Attempt}
    (hm : l.scan = false → l.mode ≠ .unset) (h : dispatchPeak c l k pk a = .ok a') :
    DispatchOf c l k pk a a' := by
  simp only [dispatchPeak] at h
  split at h
  · rename_i hs
    cases h
    exact ⟨fun _ => rfl, fun h => by rw [hs] at h; cases h⟩
  · rename_i hs
    rw [andThen_eq_ok] at h
    obtain ⟨⟨b, sod⟩, h1, h2⟩ := h
    cases h2
    refine ⟨fun h => absurd h hs, fun h => ⟨b, sod, ⟨hm h, ?_, ?_, ?_⟩, rfl⟩⟩
    all_goals
      intro he
      simp only [decoderPeak, he] at h1
    · exact h1
    · rw [andThen_eq_ok] at h1
      obtain ⟨b', h3, h4⟩ := h1
      cases h4
      exact ⟨h3, rfl⟩
    · rw [andThen_eq_ok] at h1
      obtain ⟨t, h3, h4⟩ := h1
      cases h4
      exact ⟨rfl, t, h3, rfl⟩

/-- Everything the sample step can do. -/
theorem sampleStep_of {c : CfgFile} {l : Latched} {time : F64} {a : Attempt} {x : Attempt × Bool}
    (hm : l.scan = false → l.mode ≠ .unset) (h : sampleStep c l time a = .ok x) :
    StepOf c l time a x.1 x.2 := by
  unfold sampleStep at h
  split at h
  · rename_i hs
    cases h
    exact ⟨fun _ => ⟨rfl, rfl⟩, fun h => by rw [hs] at h; cases h⟩
  · rename_i hs
    refine ⟨fun h => absurd h hs, fun hf => ⟨hm hf, ?_, ?_, ?_⟩⟩
    all_goals
      intro he
      simp only [he] at h
    · cases h; rfl
    · exact h
    · cases h; rfl

/-- Everything a SAMPLE does of an attempt, once its checks are passed. -/
theorem sampleRun_of {c : CfgFile} {l : Latched} {time : F64} {vs : List F64} {a : Attempt}
    {x : Attempt × Bool × List Event} (hn : l.ntrks ≤ 9) (hm : l.scan = false → l.mode ≠ .unset)
    (h : sampleRun c l time vs a = .ok x) : SampleRunOf c l time vs a x.1 x.2.1 := by
  simp only [sampleRun, andThen_eq_ok] at h
  obtain ⟨y, h1, z, h2, h3⟩ := h
  cases h3
  obtain ⟨f, f0, fn, fs⟩ := forEach_tracks hn h1
  refine ⟨fun i => (f i).1, ?_, ?_, ?_, ?_⟩
  · simp only [f0]
    exact eachTrack_rest _ _ _
  · simp only [f0]
    exact sampleBegin_tr l.ntrks time a
  · intro k hk
    have hk' := fs k hk
    simp only [sampleTrack, laneOf] at hk'
    simp only [frontEnd]
    generalize peakStep c l time _ _ = p at hk' ⊢
    obtain ⟨t, o⟩ := p
    cases o with
    | none =>
      injection hk' with he
      exact (congrArg Prod.fst he).symm
    | some pk =>
      obtain ⟨a2, h4, h5⟩ := andThen_eq_ok.1 hk'
      injection h5 with he
      simp only [← he]
      exact dispatchPeak_of hm h4
  · simp only [fn]
    exact sampleStep_of hm h2

end Sys2Proof.Machine
end

