-- ==== Sys2Proof/Tests/Slice0.lean ====
section
/-! SUPPORT. Tests of the model, each expected value taken from the spec (95_test_vectors.md, or the
example of the rule named), and a witness for the hypotheses of each obligation. -/

namespace Sys2Proof.Machine.Tests

open Sys2Proof Sys2Proof.Machine

set_option maxRecDepth 20000

/-! ## Well-formed commands -/

/-- A SAMPLE is ill formed when its A and its voltages differ in number (rule R93), and no word
sequence decodes to one. -/
theorem test_wellFormed_sample : Instr.wellFormed (.sample 2 0 [0, 0]) = true ∧
    Instr.wellFormed (.sample 2 0 [0]) = false ∧ Instr.wellFormed (.sample 0 0 [0]) = false ∧
    decode (encode (.sample 2 0 [0])) = .wait := by decide

/-! ## Decoding -/

/-- CFG_WR 0x017, 0.55 (rule R123) and RES_RD 0x010, written out bit by bit from rule R91. -/
theorem test_decode_configuration :
    decode [.cmd 0b00000010_00000000_0000000000010111#32, .data 0x3FE199999999999A] = .instr (.cfgWr 0x017 0x3FE199999999999A) [] ∧
    decode [.cmd 0b00000111_00000000_0000000000010000#32] = .instr (.resRd 0x010) [] := by decide

/-- SAMPLE of 2 tracks, the time first and then track 0 (rule R93); the next word stays. -/
theorem test_decode_sample :
    decode [.cmd 0b00000101_00000000_0000000000000010#32, .data 0x3EEA36E2EB1C432D, .data 0x3FF0000000000000, .data 0xBFF0000000000000, .cmd 0] =
      .instr (.sample 2 0x3EEA36E2EB1C432D [0x3FF0000000000000, 0xBFF0000000000000]) [.cmd 0] := by decide

/-- Incomplete input waits; a word of the wrong width does not (assumptions 1 and 2). -/
theorem test_decode_incomplete :
    decode [] = .wait ∧ decode [.cmd 0x05000001, .data 0] = .wait ∧
    decode [.cmd 0x02000000, .cmd 0] = .misframed ∧ decode [.data 0] = .misframed := by decide

/-- Vectors E7 and E8, and the order of rule R122: OP before RSV, RSV before A. -/
theorem test_decode_rejects :
    decode [.cmd 0x09000000] = .reject (.illegalOpcode 9) [] ∧
    decode [.cmd 0xFF010001] = .reject (.illegalOpcode 0xFF) [] ∧
    decode [.cmd 0x00010000] = .reject (.reservedNonzero 0 1) [] ∧
    decode [.cmd 0x00020003] = .reject (.reservedNonzero 0 2) [] ∧
    decode [.cmd 0x04000003] = .reject (.reservedNonzero 4 3) [] ∧
    decode [.cmd 0x02010000, .data 7] = .reject (.reservedNonzero 2 1) [] := by decide

/-- The opcode table's words (spec/opcode_table.json), numbered from the command word's bit 0. -/
theorem test_decodeTableWord :
    decodeTableWord 32 0x01000000 = some .reset ∧ decodeTableWord 32 0x09000000 = none ∧
    decodeTableWord 32 0x05000001 = some (.sample 1 0 [0]) ∧
    decodeTableWord 96 0x3FF0000000000000_02000003 = some (.cfgWr 3 0x3FF0000000000000) := by decide

/-- The pseudo-instructions of rule R101. -/
theorem test_pseudo_instructions :
    asmSetMode 2 9 0x3EEA36E2EB1C432D 0x4089000000000000 0x4049000000000000 0 = [.cfgWr 0 2, .cfgWr 1 9, .cfgWr 2 0x3EEA36E2EB1C432D,
      .cfgWr 3 0x4089000000000000, .cfgWr 4 0x4049000000000000, .cfgWr 5 0] ∧
    asmDeskewAll [1, 2] = [.cfgWr 0x040 1, .cfgWr 0x041 2] ∧
    asmFeed [(0, [0x3FF0000000000000])] = [.sample 1 0 [0x3FF0000000000000]] ∧
    asmResults.head? = some (.resRd 0x002) ∧ asmResults.getLast? = some (.resRd 0x018) ∧
    asmDump 2 = [.dataRd 0, .dataRd 1] := by decide

/-! ## States of the tests -/

/-- Configuration registers written after reset. -/
def writes (ws : List (CfgReg × Word)) : CfgFile := ws.foldl (fun c w => c.set w.1 w.2) CfgFile.reset

/-- What programs 1, 3, 5 and 7 of 95_test_vectors.md write alike. -/
def commonWrites : List (CfgReg × Word) :=
  [(.ntrks, 9), (.pkwwRise, 0x3FE0000000000000), (.peakThreshold, 0x3FB999999999999A), (.agcMax, 0x4010000000000000), (.nominalHeight, 0x4000000000000000),
   (.avgHeightCount, 4)]

/-- The configuration of program 1: NRZI. -/
def nrziCfg : CfgFile := writes (commonWrites ++ [(.mode, 2), (.dt, 0x3EEA36E2EB1C432D), (.bpi, 0x4089000000000000),
  (.ips, 0x4049000000000000), (.clkFactor, 0x3FF0000000000000), (.pkwwBitfrac, 0x3FF8000000000000), (.midbitFraction, 0x3FE3333333333333)])

/-- The configuration of program 3: PE. -/
def peCfg : CfgFile := writes (commonWrites ++ [(.mode, 1), (.dt, 0x3ECA36E2EB1C432D), (.bpi, 0x4099000000000000),
  (.ips, 0x4049000000000000), (.expectedParity, 1), (.clkWindow, 4), (.clkFactor, 0x3FF6666666666666), (.pkwwBitfrac, 0x3FE8000000000000),
  (.peIdleFactor, 0x4008000000000000), (.ignorePostamble, 2), (.maxPostambleBits, 10), (.peTmMask, 0xFC)])

/-- The configuration of program 5: GCR. -/
def gcrCfg : CfgFile := writes (commonWrites ++ [(.mode, 3), (.dt, 0x3EC28E04E59B2AD9),
  (.bpi, 0x40C1A90000000000), (.ips, 0x4039000000000000), (.expectedParity, 1), (.clkFactor, 0x3FF0000000000000), (.pkwwBitfrac, 0x3FF8000000000000),
  (.z1pt, 0x3FF8000000000000), (.z2pt, 0x4004000000000000), (.gcrIdleFactor, 0x4018000000000000), (.gcrTmMask, 0xFC)])

/-- The configuration of program 7: peak scan. -/
def scanCfg : CfgFile := writes (commonWrites ++ [(.mode, 1), (.dt, 0x3ECA36E2EB1C432D), (.ips, 0x4049000000000000),
  (.clkFactor, 0x3FF0000000000000), (.pkwwBitfrac, 0x3FF8000000000000), (.midbitFraction, 0x3FE3333333333333)])

/-- IDLE with a configuration. -/
def idleOf (c : CfgFile) : State := { State.reset with cfg := c }

/-- RUN, right after BLK_START. -/
def runOf (c : CfgFile) : State := startBlock (idleOf c)

/-- FAULT, by CFG_RD 0x006 in IDLE (vector E9). -/
def faultState : State := raise State.reset ⟨.badAddress, 6⟩

/-- DONE, by EOF. -/
def doneState : State := finishBlock { runOf scanCfg with eofSeen := true }

/-- A window that shows a TOP peak of height 1 at 1.25e-05 on the next sample (vector P1, W = 3). -/
def risenWin : List (F64 × F64) := [(0, 0), (0x3EEA36E2EB1C432D, 0x3FF0000000000000)]

/-- Every track of a running attempt changed alike. -/
def withTracks (f : Track → Track) (s : State) : State := { s with att := eachTrack 9 f s.att }

theorem legal_nrziCfg : cfgInvalid nrziCfg = none := by decide
theorem legal_peCfg : cfgInvalid peCfg = none := by decide
theorem legal_gcrCfg : cfgInvalid gcrCfg = none := by decide
theorem legal_scanCfg : cfgInvalid scanCfg = none := by decide

/-! ## Commands -/

/-- The word a command answers, and STATUS and ERR after it. -/
def outcome (i : Instr) (s : State) : List Word × Word × Word :=
  match exec i s with
  | .next t => (t.output.drop s.output.length, statusWord t, errWord t)
  | .fault _ => ([], 0, 0)
  | .refused _ => ([], 0, 0)

/-- The next state of a command or a step. -/
def nextOf (o : Host.Outcome State Fault Refusal) : Option State :=
  match o with
  | .next t => some t
  | .fault _ => none
  | .refused _ => none

/-- Rule R120, and vector E16 for EOF in RUN. -/
theorem test_nop_eof : nextOf (exec .nop (runOf nrziCfg)) = some (runOf nrziCfg) ∧
    outcome .eof (runOf nrziCfg) = ([], 0x26, 0) := by decide

/-- Vectors E1 and E18, and rule R121's example: after RESET, STATUS reads 0. -/
theorem test_reset : outcome .reset faultState = ([], 0, 0) ∧ outcome .reset (runOf peCfg) = ([], 0, 0) := by
  decide

/-- Vectors E2, E4 and E9. -/
theorem test_cfgRd : outcome (.cfgRd 1) State.reset = ([0], 0, 0) ∧
    outcome (.cfgRd 1) faultState = ([0], 3, 0x00060003) ∧
    outcome (.cfgRd 6) State.reset = ([0], 3, 0x00060003) ∧
    outcome (.cfgRd 3) (runOf nrziCfg) = ([0x4089000000000000], 0x21, 0) := by decide

/-- Vector E11, and a register of the parameter set written (rule R123). -/
theorem test_cfgWr : outcome (.cfgWr 0 2) (runOf nrziCfg) = ([], 0x23, 0x00020004) ∧
    nextOf (exec (.cfgWr 0x017 0x3FE199999999999A) State.reset) = some (idleOf (writes [(.pkwwBitfrac, 0x3FE199999999999A)])) := by decide

/-- Rule R128's example, vectors E3 and E15: STATUS 0x21 with program 1's configuration, CFG_INVALID
of MODE with none, and of PKWW_BITFRAC when W is 1. -/
theorem test_blkStart : outcome .blkStart (idleOf nrziCfg) = ([], 0x21, 0) ∧
    outcome .blkStart State.reset = ([], 3, 5) ∧
    outcome .blkStart (idleOf (nrziCfg.set .pkwwBitfrac 0x3FE0000000000000)) = ([], 3, 0x00170005) := by decide

/-- BLK_START in the other modes: STATUS 0x11 (program 3), 0x31 (program 5) and SCAN (rule R30). -/
theorem test_blkStart_modes : outcome .blkStart (idleOf peCfg) = ([], 0x11, 0) ∧
    outcome .blkStart (idleOf gcrCfg) = ([], 0x31, 0) ∧
    outcome .blkStart (idleOf scanCfg) = ([], 0x19, 0) := by decide

/-- Rule R131's example and vectors E10, E12, E13, E14, E17 and E19. -/
theorem test_sample_checks :
    let zeros := List.replicate 9 (0 : F64)
    let later := { runOf nrziCfg with att := { (runOf nrziCfg).att with tPrev := some 0x3FF0000000000000 } }
    outcome (.sample 9 0 zeros) (runOf nrziCfg) = ([0], 0x21, 0) ∧
    outcome (.sample 9 0 zeros) State.reset = ([0], 3, 0x00050004) ∧
    outcome (.sample 7 0 (zeros.take 7)) (runOf nrziCfg) = ([0], 0x23, 0x00070008) ∧
    outcome (.sample 9 0x3FE0000000000000 zeros) later = ([0], 0x23, 6) ∧
    outcome (.sample 9 0x3FF0000000000000 zeros) later = ([0], 0x21, 0) ∧
    outcome (.sample 9 0 [0, 0, 0, 0x7FF8000000000000, 0, 0, 0, 0, 0]) (runOf nrziCfg) =
      ([0], 0x23, 0x00040009) := by decide

/-- Vector P1: the isolated extreme of track 0 is reported with the window's centre, TOP, at its
time. -/
theorem test_sample_peak :
    let s := { runOf nrziCfg with
      att := (runOf nrziCfg).att.modTr 0 fun t => { t with win := risenWin } }
    outcome (.sample 9 0x3EFA36E2EB1C432D (List.replicate 9 0)) s = ([1, 0x10, 0x3EEA36E2EB1C432D, 0x3FF0000000000000], 0x21, 0) := by
  decide

/-- Vectors E5 and E9's address in the result space, and a final register in IDLE. -/
theorem test_resRd : outcome (.resRd 0x7FF) faultState = ([0], 3, 0x00060003) ∧
    outcome (.resRd 0x01F) State.reset = ([0], 3, 0x001F0003) ∧
    outcome (.resRd 0x016) (runOf nrziCfg) = ([3], 0x21, 0) ∧
    outcome (.resRd 0x001) faultState = ([0x00060003], 3, 0x00060003) := by decide

/-- The response word of rule R99, as program 4 reads it: fmask 0x010 and sym 0x1E2 at index 6. -/
theorem test_dataRd :
    let s := { runOf peCfg with att := { (runOf peCfg).att with buf := [(6, ⟨0x1E2, 0x010⟩)] } }
    outcome (.dataRd 6) s = ([0x00000000001001E2], 0x11, 0) ∧ outcome (.dataRd 7) s = ([0], 0x11, 0) := by
  decide

/-- A step runs a fetched opcode-table word as its first instruction; an illegal one faults. -/
theorem test_withFetchWord :
    nextOf (step (State.reset.withFetchWord 32 0x06000000)) = some { State.reset with eofSeen := true } ∧
    nextOf (step (State.reset.withFetchWord 32 0x09000000)) =
      some { State.reset with core := .fault, errCode := 1, errInfo := 9 } := by decide

/-! ## The units -/

/-- Rule R160's example: d = 2, voltages 5, 6, 7, 8. -/
theorem test_deskew : deskewAll 2 [0x4014000000000000, 0x4018000000000000, 0x401C000000000000, 0x4020000000000000] (Track.init 0 Clock.reset) =
    [0x4014000000000000, 0x4014000000000000, 0x4014000000000000, 0x4018000000000000] := by decide

/-- Rule R162's example: W = 5. -/
theorem test_window : cfgWindow ((nrziCfg.set .dt 0x3EC4F8B588E368F1).set .pkwwBitfrac 0x3FE199999999999A) = 5 := by decide

/-- Vectors K1 and K2, the first two values of each. -/
theorem test_clock :
    let w := clkInit .window 4 0x3EFA36E2EB1C432D
    let e := clkInit .ewma 0 0x3EFA36E2EB1C432D
    (clkAdjust 0 0x3EFE68A0D349BE90 w).value = 0x3EFB43526527A206 ∧
    (clkAdjust 0 0x3EF6052502EEC7C9 (clkAdjust 0 0x3EFE68A0D349BE90 w)).value = 0x3EFA36E2EB1C432C ∧
    (clkAdjust 0x3FD0000000000000 0x3EFE68A0D349BE90 e).value = 0x3EFB43526527A206 ∧
    (clkAdjust 0x3FD0000000000000 0x3EF6052502EEC7C9 (clkAdjust 0x3FD0000000000000 0x3EFE68A0D349BE90 e)).value = 0x3EF9F3C70C996B76 := by decide

/-- Vector A1: the first height freezes the baseline, and the window's least height sets the gain. -/
theorem test_agc :
    let c := (nrziCfg.set .agcWindow 3).set .avgHeightCount 1
    let t := Track.init 0x3FF0000000000000 Clock.reset
    (agcFeed c (latchOf c) [0x3FF0000000000000, 0x3FF0000000000000] t).gain = 0x3FF0000000000000 ∧
    (agcFeed c (latchOf c) [0x3FF0000000000000, 0x3FF0000000000000, 0x3FE0000000000000] t).gain = 0x4000000000000000 ∧
    (agcFeed c (latchOf c) [0x3FF0000000000000, 0x3FF0000000000000, 0x3FE0000000000000, 0x3FE999999999999A, 0x3FECCCCCCCCCCCCD, 0x3FF3333333333333] t).gain = 0x3FF4000000000000 ∧
    (agcFeed c (latchOf c) [0x3FF0000000000000, 0x3FF0000000000000, 0x3FE0000000000000, 0x3FE999999999999A, 0x3FECCCCCCCCCCCCD, 0x3FF3333333333333] t).maxGain = 0x4000000000000000 := by decide

/-- Rule R290's example, vectors N1 and N4. -/
theorem test_nrzi_crc : nrziCrc [0x055, 0x0AA] = 0x153 ∧ nrziCrc [0x001] = 0x0D7 ∧
    xorAll [0x055, 0x0AA] ^^^ 0x153 = 0x1AC := by decide

/-- Rule R320's example: 3.0 bit times after the last peak give the bits 0, 0, 1, with no
adjustment. -/
theorem test_gcr_bits :
    let t := { Track.init 0 (clkInit .constant 0 0x3FF0000000000000) with haveLast := true }
    (match gcrPeak (writes [(.z1pt, 0x3FF8000000000000), (.z2pt, 0x4004000000000000), (.pulseAdj, 0x3FE0000000000000)]) 0 ⟨.top, 0x4008000000000000, 0⟩ t with
      | .ok u => (u.bits, u.tPulseAdj)
      | .error _ => ([], 0)) = ([false, false, true], 0) := by decide

/-- Rule R336's example, with the default table: code 11001 for the nibble 0000 and 01111 for 1111. -/
theorem test_gcr_bytes :
    pairBytes 9 gcrDefaultTable (sameGroup 9 0b11001, sameGroup 9 0b01111) =
      [0, 0, 0, 0, 0x1FF, 0x1FF, 0x1FF, 0x1FF] := by decide

/-- The default table of rule R331: 16 data codes and no special one, and the invalid code of program
5. -/
theorem test_gcr_default_table :
    ((List.range 32).filter fun i => (gcrDefaultTable (BitVec.ofNat 5 i)).isSome).length = 16 ∧
    gcrDefaultTable 0b00111 = none ∧ gcrDefaultTable 0b11100 = none ∧ gcrDefaultTable 0b11111 = none ∧
    gcrDefaultTable 0b10010 = some 0x2 ∧ gcrDefaultTable 0b10100 = none := by decide

/-! ## Witnesses: the hypotheses of each obligation can be met -/

/-- Words sent to a state. -/
def sent (ws : List InWord) (s : State) : State := { s with input := ws }

theorem witness_decodeOfEncode : Instr.wellFormed (.sample 9 0 (List.replicate 9 0)) = true ∧
    Instr.wellFormed (.sample 0 0 []) = true ∧ Instr.wellFormed (.dataRd 0xFFFF) = true := by decide

theorem witness_encodeOfDecode :
    decode [.cmd 0x05000000, .data 0, .data 5] = .instr (.sample 0 0 []) [.data 5] ∧
    decode [.cmd 0x0800FFFF] = .instr (.dataRd 0xFFFF) [] := by decide

theorem witness_illegalOpcodeRaises : [0x09000000#32, 0xFF00FFFF#32].all (fun w =>
    let s := sent [.cmd w] State.reset
    decide (s.resetIn = false ∧ s.core ≠ .fault ∧ s.input = [.cmd w] ∧
      9 ≤ (w.extractLsb' 24 8).toNat)) = true := by decide

theorem witness_reservedFieldRaises :
    [(0x02010000#32, [(0 : Word)]), (0x05FF0001#32, [0, 0]), (0x00010000#32, [])].all (fun x =>
      let s := sent (.cmd x.1 :: x.2.map .data) (runOf nrziCfg)
      decide (s.resetIn = false ∧ s.core ≠ .fault ∧ x.2.length = payloadLen x.1 ∧
        (x.1.extractLsb' 24 8).toNat ≤ 8 ∧ x.1.extractLsb' 16 8 ≠ 0)) = true ∧
    [0x00000001#32, 0x01000001#32, 0x04008000#32, 0x0600FFFF#32].all (fun w =>
      let s := sent [.cmd w] (runOf nrziCfg)
      decide (s.resetIn = false ∧ s.core ≠ .fault ∧ 0 = payloadLen w ∧
        (w.extractLsb' 24 8).toNat ≤ 8 ∧ w.extractLsb' 16 8 = 0 ∧ w.extractLsb' 0 16 ≠ 0 ∧
        (w.extractLsb' 24 8 = 0 ∨ w.extractLsb' 24 8 = 1 ∨ w.extractLsb' 24 8 = 4 ∨
          w.extractLsb' 24 8 = 6))) = true := by decide

theorem witness_streamsStayInStep :
    [(0x02000000#32, [(7 : Word)]), (0x05000000#32, [0]), (0x05000002#32, [0, 0, 0]),
      (0x09000000#32, []), (0x07000000#32, [])].all (fun x =>
    let s := sent (.cmd x.1 :: x.2.map .data) faultState
    decide (s.resetIn = false ∧ s.input = .cmd x.1 :: (x.2.map .data ++ []) ∧
      x.2.length = (if x.1.extractLsb' 24 8 = 2 then 1
        else if x.1.extractLsb' 24 8 = 5 then 1 + (x.1.extractLsb' 0 16).toNat else 0))) = true := by
  decide

theorem witness_stepRunsDecoded :
    let s := sent (encode (.cfgWr 0x048 30) ++ [.cmd 0]) State.reset
    s.resetIn = false ∧ decode s.input = .instr (.cfgWr 0x048 30) [.cmd 0] := by decide

theorem witness_stepWaitsOrStops :
    State.reset.resetIn = false ∧ decode State.reset.input = .wait ∧
    decode (sent [.cmd 0x05000001, .data 0] State.reset).input = .wait ∧
    decode (sent [.cmd 0x02000000, .cmd 0] State.reset).input = .misframed := by decide

theorem witness_resetInputResets :
    ∃ s' t', step { faultState with resetIn := true } = .next s' ∧ s'.core ≠ .fault ∧
      step (sent (encode .reset) faultState) = .next t' ∧ t'.core ≠ .fault ∧
      faultState.core = .fault := ⟨_, _, rfl, by decide, rfl, by decide, rfl⟩

theorem witness_cfgWriteEffect :
    State.reset.core = .idle ∧ doneState.core = .done ∧ (runOf nrziCfg).core = .run ∧
    faultState.core = .fault ∧ cfgRegAt 0x000 = some .mode ∧ cfgRegAt 0x048 = some (.deskew 8) ∧
    cfgRegAt 0x049 = none ∧ cfgRegAt 0x006 = none ∧ cfgRegAt 0xFFFF = none := by decide

theorem witness_cfgReadEffect :
    (runOf nrziCfg).core ≠ .fault ∧ cfgRegAt 0x01B = some .z2pt ∧ cfgRegAt 0x01C = none := by decide

theorem witness_cfgAddressMap : cfgRegAt 0x02B = some .gcrTmMask ∧ cfgRegAt 0x02C = none ∧
    cfgRegAt 0x040 = some (.deskew 0) ∧ cfgRegAt 0x048 = some (.deskew 8) ∧ cfgRegAt 0x049 = none := by decide

theorem witness_blkStartStarts :
    ((idleOf nrziCfg).core = .idle ∧ cfgInvalid (idleOf nrziCfg).cfg = none) ∧
    ((idleOf scanCfg).core = .idle ∧ cfgInvalid (idleOf scanCfg).cfg = none) ∧
    (doneState.core = .done ∧ cfgInvalid doneState.cfg = none) := by decide

/-- The first check fails after reset, and the last alone with DESKEW[8] = 31. -/
theorem witness_blkStartRefuses :
    (∃ check post, configRules State.reset.cfg = [] ++ (0x000, check) :: post ∧ ¬ check) ∧
    (let c := nrziCfg.set (.deskew 8) 31
     ∃ pre check, configRules c = pre ++ (0x048, check) :: [] ∧ (∀ x ∈ pre, x.2) ∧ ¬ check) ∧
    (runOf nrziCfg).core = .run := by
  refine ⟨⟨_, _, rfl, by decide⟩, ⟨(configRules (nrziCfg.set (.deskew 8) 31)).take 39, _, rfl, ?_, by decide⟩, rfl⟩
  simp only [configRules, allTracks, List.map_cons, List.map_nil, List.cons_append, List.nil_append,
    List.take_succ_cons, List.take_zero, List.mem_cons, List.not_mem_nil, or_false, forall_eq_or_imp, forall_eq]
  repeat' apply And.intro
  all_goals decide

theorem witness_legalConfigurations :
    cfgInvalid (nrziCfg.set (.deskew 8) 30) = none ∧ cfgInvalid (nrziCfg.set (.deskew 8) 31) = some 0x048 ∧
    cfgInvalid (nrziCfg.set .clkWindow 50) = none ∧ cfgInvalid (nrziCfg.set .clkWindow 51) = some 0x010 ∧
    cfgInvalid (nrziCfg.set .ntrks 7) = none ∧ cfgInvalid (peCfg.set .ntrks 7) = some 0x001 := by decide

theorem witness_windowWidth :
    (cfgInvalid nrziCfg = none ∧ fEq (nrziCfg.get .bpi) 0 = false ∧ cfgWindow nrziCfg = 3) ∧
    (let c := nrziCfg.set .pkwwBitfrac 0x4024000000000000
     cfgInvalid c = none ∧ cfgWindow c = 20) ∧
    (cfgInvalid scanCfg = none ∧ fEq (scanCfg.get .bpi) 0 = true ∧ cfgWindow scanCfg = 8) ∧
    (let c := nrziCfg.set .pkwwBitfrac 0x3FF0000000000000
     cfgInvalid c ≠ none ∧ fEq (c.get .bpi) 0 = false ∧ cfgWindow c = 2) := by decide

theorem witness_wrongStateRaises :
    ∃ s' t', exec .blkStart (runOf nrziCfg) = .next s' ∧ s'.core = .fault ∧ s'.errCode = 4 ∧
      exec (.sample 9 0 []) State.reset = .next t' ∧ t'.core = .fault ∧ t'.errCode = 4 ∧
      (runOf nrziCfg).core = .run ∧ State.reset.core = .idle :=
  ⟨_, _, rfl, by decide, by decide, rfl, by decide, by decide, rfl, rfl⟩

theorem witness_sampleChecks :
    let s := runOf nrziCfg
    s.core = .run ∧ (0#16).toNat < 1 ∧ 9 < (10#16).toNat ∧ (7#16).toNat ≠ s.lat.ntrks ∧
    (9#16).toNat = s.lat.ntrks ∧ fFinite 0x7FF0000000000000 = false ∧
    fFinite 0xFFF8000000000000 = false ∧ fFinite 0x7FEFFFFFFFFFFFFF = true ∧
    (let s' := { s with att := { s.att with tPrev := some 0x3FF0000000000000 } }
     s'.core = .run ∧ s'.att.tPrev = some 0x3FF0000000000000 ∧ fLt 0x3FE0000000000000 0x3FF0000000000000 = true) := by decide

/-- The invariant in IDLE. -/
theorem inv_idleOf {c : CfgFile} (_ : cfgInvalid c = none) : Inv (idleOf c) := by
  refine ⟨⟨?_, ?_, ?_, .inl rfl, fun _ => ⟨rfl, rfl⟩, ?_, fun _ => rfl⟩, attemptInv_init 0 clockInv_reset,
    resultsInv_zero, ?_, ?_⟩
  all_goals simp [idleOf, State.reset]

/-- The invariant in RUN. -/
theorem inv_runOf {c : CfgFile} (h : cfgInvalid c = none) : Inv (runOf c) :=
  startBlock_inv (inv_idleOf h) (.inl rfl) h

theorem room_runOf : Room (runOf nrziCfg).lat (runOf nrziCfg).att ∧ Room (runOf peCfg).lat (runOf peCfg).att ∧
    Room (runOf gcrCfg).lat (runOf gcrCfg).att ∧ Room (runOf scanCfg).lat (runOf scanCfg).att := by
  unfold Room; decide

theorem witness_sampleCompletes :
    (∀ c ∈ [nrziCfg, peCfg, gcrCfg, scanCfg], Inv (runOf c) ∧ Room (runOf c).lat (runOf c).att) ∧
    [nrziCfg, peCfg, gcrCfg, scanCfg].all (fun c => decide
      ((runOf c).core = .run ∧ (9#16).toNat = (runOf c).lat.ntrks ∧ (runOf c).att.tPrev = none)) = true ∧
    (List.replicate 9 (0 : F64)).length = (9#16).toNat ∧
    (List.replicate 9 (0 : F64)).all fFinite = true := by
  refine ⟨?_, by decide⟩
  simp only [List.mem_cons, List.not_mem_nil, or_false, forall_eq_or_imp, forall_eq]
  exact ⟨⟨inv_runOf legal_nrziCfg, room_runOf.1⟩, ⟨inv_runOf legal_peCfg, room_runOf.2.1⟩,
    ⟨inv_runOf legal_gcrCfg, room_runOf.2.2.1⟩, ⟨inv_runOf legal_scanCfg, room_runOf.2.2.2⟩⟩

/-- Attempts at the end of their buffers, with a peak on the way. -/
def fullStates : List State :=
  [withTracks (fun t => { t with win := risenWin, idle := false, phase := .data, datacount := 65536 }) (runOf peCfg),
   withTracks (fun t => { t with win := risenWin, datacount := 65536 }) (runOf gcrCfg),
   let s := withTracks (fun t => { t with win := risenWin }) (runOf nrziCfg)
   { s with att := { s.att with nrzi := { s.att.nrzi with
      nsym := 65536, postCounter := 1, haveBoundary := true, tBoundary := 0x3FF0000000000000, datablock := true } } }]

theorem witness_sampleRaisesOnlyOverflow : fullStates.all (fun s => decide
    (s.core = .run ∧ (9#16).toNat = s.lat.ntrks ∧ s.att.tPrev = none ∧ fFinite 0x3EFA36E2EB1C432D = true ∧
    (nextOf (exec (.sample 9 0x3EFA36E2EB1C432D (List.replicate 9 0)) s)).map (fun t => (t.core, t.errCode, t.errInfo)) =
      some (.fault, 7, if s.lat.mode = .nrzi then 0xFFFF else 0))) = true := by decide

theorem witness_eofEffect : State.reset.core = .idle ∧ doneState.core = .done ∧
    (runOf peCfg).core = .run ∧ Inv (runOf peCfg) := ⟨rfl, rfl, rfl, inv_runOf legal_peCfg⟩

theorem witness_resReadEffect :
    (resRead faultState 0x018).isSome = true ∧ resRead State.reset 0x019 = none ∧
    (resRead State.reset 0x088).isSome = true ∧ resRead State.reset 0x089 = none ∧
    State.reset.core ≠ .fault ∧ resRead faultState 0x7FF = none ∧ faultState.core = .fault := by decide

theorem witness_dataReadEffect : doneState.core ≠ .fault := by decide

theorem witness_faultIgnores :
    faultState.core = .fault ∧ faultState.resetIn = false ∧
    classify 0x09000000 [] = .error (.illegalOpcode 9) ∧
    [(0 : Word), 0].length = payloadLen 0x05010001 ∧
    classify 0x05010001 [0, 0] = .error (.reservedNonzero 5 1) := by decide

theorem witness_faultIsPrecise :
    let s := sent (encode (.cfgRd 6)) State.reset
    ∃ s', step s = .next s' ∧ s.core ≠ .fault ∧ s'.core = .fault := ⟨_, rfl, by decide, by decide⟩

theorem witness_stateTransitions :
    [(Instr.cfgRd 6, State.reset, CoreState.fault), (.reset, faultState, .idle),
      (.blkStart, idleOf nrziCfg, .run), (.blkStart, doneState, .run),
      (.eof, runOf nrziCfg, .done)].all (fun x => decide
    ((nextOf (step (sent (encode x.1) x.2.1))).map (·.core) = some x.2.2 ∧
      x.2.2 ≠ (sent (encode x.1) x.2.1).core)) = true := by decide

theorem witness_configurationFixedInRun :
    let s := sent (encode (.cfgRd 3)) (runOf nrziCfg)
    ∃ s', step s = .next s' ∧ s.core = .run := ⟨_, rfl, rfl⟩

theorem witness_invKeptByStep :
    let s := sent (encode (.sample 9 0 (List.replicate 9 0))) (runOf peCfg)
    ∃ s', Inv s ∧ step s = .next s' := ⟨_, (inv_runOf legal_peCfg).sent _, rfl⟩

theorem witness_hostStreamsUnread :
    let s := { sent [.cmd 0] (runOf nrziCfg) with output := [5] }
    s.coreOnly = (runOf nrziCfg).coreOnly ∧ s ≠ runOf nrziCfg := by decide

theorem witness_retryDeterminism :
    let s₁ := idleOf nrziCfg
    let s₂ := finishBlock { runOf nrziCfg with att := { (runOf nrziCfg).att with nsamples := 3 } }
    s₁.cfg = s₂.cfg ∧ cfgInvalid s₁.cfg = none ∧ s₁.core = .idle ∧ s₂.core = .done ∧
    s₁.errCode = 0 ∧ s₁.errInfo = 0 ∧ s₂.errCode = 0 ∧ s₂.errInfo = 0 ∧ s₁ ≠ s₂ := by decide

theorem witness_deskewDelays :
    (Track.init 0 Clock.reset).fifo = [] ∧ (Track.init 0 Clock.reset).primed = false := by decide

/-- Track 0 of program 1 before the peak of vector P1, and with the sign changed, of P2. -/
def risenTrack (v : F64) : Track :=
  { Track.init 0x4000000000000000 (clkInit .constant 0 0x3EFA36E2EB1C432D) with win := [(0, 0), (0x3EEA36E2EB1C432D, v)] }

theorem witness_peakOfFullWindow :
    let l := latchOf nrziCfg
    (risenTrack 0x3FF0000000000000).win.length ≤ l.w ∧
    (peakStep nrziCfg l 0x3EFA36E2EB1C432D 0 (risenTrack 0x3FF0000000000000)).2 = some ⟨.top, 0x3EEA36E2EB1C432D, 0x3FF0000000000000⟩ ∧
    (peakStep nrziCfg l 0x3EFA36E2EB1C432D 0 (risenTrack 0xBFF0000000000000)).2 = some ⟨.bot, 0x3EEA36E2EB1C432D, 0xBFF0000000000000⟩ ∧
    (peakStep nrziCfg l 0 0 (Track.init 0x4000000000000000 Clock.reset)).1.win.length < l.w ∧
    (peakStep nrziCfg l 0x3EFA36E2EB1C432D 0 (risenTrack 0)).2 = none ∧ ([0x3FF0000000000000] : List F64) ≠ [] ∧
    0 < { risenTrack 0x3FF0000000000000 with blackout := 1 }.blackout := by decide

/-- A window of five samples one second apart, but for the last (PKWW_RISE 0.5). -/
def fiveSamples (v0 v1 v2 v3 : F64) : Track :=
  { Track.init 0x4000000000000000 (clkInit .constant 0 0x3EFA36E2EB1C432D) with
    win := [(0, v0), (0x3FF0000000000000, v1), (0x4000000000000000, v2), (0x4008000000000000, v3)] }

/-- What the last of five samples shows (DT 1, the given thresholds). -/
def fifthSample (threshold minPeak : Word) (t : Track) : Option Peak :=
  (peakStep (((nrziCfg.set .dt 0x3FF0000000000000).set .peakThreshold threshold).set .minPeak minPeak)
    { latchOf nrziCfg with w := 5 } 0x4010000000000000 0 t).2

/-- The example of rule R168 with times in microseconds, the same mirrored, and with a threshold the
flanks do not pass. -/
theorem test_interpolate :
    let c := (nrziCfg.set .dt 0x3FF0000000000000).set .peakThreshold 0x3FC999999999999A
    interpolate c 0x3FF0000000000000 0x4000000000000000 0x3FF0000000000000 0x3FECCCCCCCCCCCCD 0x3FE0000000000000 = 0x3FF8000000000000 ∧ interpolate c 0x3FF0000000000000 0x4000000000000000 0x3FF0000000000000 0x3FE0000000000000 0x3FECCCCCCCCCCCCD = 0x4004000000000000 ∧
    interpolate (c.set .peakThreshold 0x3FE0000000000000) 0x3FF0000000000000 0x4000000000000000 0x3FF0000000000000 0x3FECCCCCCCCCCCCD 0x3FE0000000000000 = 0x4000000000000000 :=
  ⟨by decide, by decide, by decide⟩

/-- Of two valid candidates the older one (rule R167), and none that is not past MIN_PEAK (rule R166). -/
theorem test_peak_choice :
    (fifthSample 0x3FC999999999999A 0 (fiveSamples 0 0x3FF0000000000000 0 0xBFF0000000000000)).map (·.pol) = some .top ∧
    (fifthSample 0x3FC999999999999A 0 (fiveSamples 0 0xBFF0000000000000 0 0x3FF0000000000000)).map (·.pol) = some .bot ∧
    fifthSample 0x3FC999999999999A 0x3FF0000000000000 (fiveSamples 0 0x3FECCCCCCCCCCCCD 0x3FF0000000000000 0x3FE0000000000000) = none :=
  ⟨by decide, by decide, by decide⟩

theorem witness_blackoutSuppresses :
    let l := latchOf nrziCfg
    let t := { risenTrack 0x3FF0000000000000 with win := [(0, 0), (0x3EEA36E2EB1C432D, 0x3FF0000000000000), (0x3EFA36E2EB1C432D, 0)], blackout := 1 }
    t.win.length = l.w ∧ 0 < l.w ∧ [((0 : F64), (0 : F64))].length ≤ t.blackout := by decide

theorem witness_agcBaseline :
    let t := risenTrack 0
    t.hFrozen = false ∧ t.hN = 0 ∧ t.hSum = 0 ∧ [0x3FF0000000000000].length < nrziCfg.nat .avgHeightCount ∧
    [0x3FF0000000000000, 0x3FF0000000000000, 0x3FF0000000000000, 0x3FF0000000000000].length = nrziCfg.nat .avgHeightCount ∧
    (latchOf peCfg).mode = .pe ∧ 1 ≤ { t with hN := 1 }.hN ∧ { t with hFrozen := true }.hFrozen = true ∧
    (latchOf nrziCfg).mode ≠ .pe := by decide

/-- PE's start of data freezes the mean of the heights so far (rule R222). -/
theorem test_agcStartOfData :
    let t := agcPeak peCfg (latchOf peCfg) (some 0x4014000000000000) true { risenTrack 0 with hN := 2, hSum := 0x4008000000000000 }
    (t.hFrozen, t.vAvgHeight, t.hN) = (true, 0x3FF8000000000000, 2) := by decide

theorem witness_agcGain :
    let t := { risenTrack 0 with hFrozen := true, hwin := [0x3FF0000000000000, 0x4000000000000000] }
    let c := nrziCfg.set .agcWindow 2
    t.hFrozen = true ∧ (latchOf c).agc = .window ∧ t.hwin.length ≤ c.nat .agcWindow ∧
    (latchOf (nrziCfg.set .agcAlpha 0x3FE0000000000000)).agc = .ewma ∧ (latchOf nrziCfg).agc = .none := by decide

/-- A PE attempt whose tracks are all in DATA with the given count. -/
def peDataAttempt (count : Nat) : Attempt :=
  let busy := fun t : Track =>
    { t with phase := .data, idle := false, datacount := count, dcStart := count, tLastdata := 0x3F1A36E2EB1C432D }
  (withTracks busy (runOf peCfg)).att

theorem witness_peAppendEffect :
    Memory.wf (peDataAttempt 0).buf = true ∧ 65536 ≤ ((peDataAttempt 65536).tr 8).datacount ∧
    ((peDataAttempt 65535).tr 8).datacount < 65536 ∧ (8 : Fin 9).val < 9 := by decide

/-- The example of rule R247: counts 20, 20, 21, the returning track at 12 with last bit 1. -/
def returning : Attempt :=
  let a := (runOf peCfg).att
  let a1 := a.modTr 0 fun t => { t with phase := .data, idle := false, datacount := 20, dcStart := 20 }
  let a2 := a1.modTr 1 fun t => { t with phase := .data, idle := false, datacount := 20, dcStart := 20 }
  let a3 := a2.modTr 2 fun t => { t with phase := .data, idle := false, datacount := 21, dcStart := 21 }
  a3.modTr 3 fun t => { t with phase := .data, idle := true, datacount := 12, dcStart := 12, lastbit := true }

/-- Vectors PE1 and PE2: at the window exactly a clock transition, just past it a data transition. -/
theorem witness_peDataPeak :
    let t := (peDataAttempt 0).tr 0
    let window := fMul (fMul t.clk.value fHalf) (peCfg.get .clkFactor)
    t.phase = .data ∧ t.idle = false ∧ t.datacount < 65536 ∧ window = 0x3EE2599ED7C6FBD2 ∧
    fLt window (fSub (fAdd (fAdd 0x3F1A36E2EB1C432D 0x3EE2599ED7C6FBD2) t.tPulseAdj) t.tLastdata) = false ∧
    fLt window (fSub (fAdd 0x3F1C8216F210226A t.tPulseAdj) t.tLastdata) = true ∧
    ((peDataAttempt 65536).tr 0).phase = .data ∧ 65536 ≤ ((peDataAttempt 65536).tr 0).datacount ∧
    (returning.tr 3).phase = .data ∧ (returning.tr 3).idle = true ∧
    ((runOf peCfg).att.tr 0).phase = .pre0 ∧
    (let p := { (runOf peCfg).att.tr 0 with phase := .preamble, tLast := 0, polLast := .top }
     p.phase = .preamble ∧ p.clk.value = t.clk.value ∧ fLt window (fSub 0x3EE2599ED7C6FBD2 p.tLast) = false ∧
     fLt window (fSub 0x3EE25EFD3B7F87F6 p.tLast) = true ∧ Polarity.bot ≠ p.polLast ∧ Polarity.top = p.polLast) := by
  decide

theorem witness_peDropoutFill :
    Memory.wf returning.buf = true ∧ (returning.tr 3).datacount + 8 < 65536 ∧
    [(0 : Word), 1, 2].all (fun x => decide ((peCfg.set .peFakeTarget x).nat .peFakeTarget ≤ 2)) = true ∧
    (3 : Fin 9).val < 9 := by decide

/-- A fill clamped to the end of the buffer, whose returning bit overflows (rules R247, R248). -/
theorem test_peReturn_overflow :
    let a := (returning.modTr 3 fun t => { t with datacount := 65534 }).modTr 2
      fun t => { t with dcStart := 65536 }
    let c := peCfg.set .peFakeTarget 1
    (a.tr 3).datacount + peFillCount c 9 3 a = 65536 ∧
    (match peReturn c 9 3 ⟨.bot, 0x3FF0000000000000, 0⟩ a with
      | .ok _ => none
      | .error r => some r) = some ⟨.bufferOverflow, 3⟩ := by decide

/-- Rule R247's example: 8 faked 1-bits at 12 to 19, the real bit at 20. -/
theorem test_peReturn :
    (match peReturn peCfg 9 3 ⟨.bot, 0x3FF0000000000000, 0⟩ returning with
      | .ok a => ((a.tr 3).datacount, (a.tr 3).faked, bufRead a.buf 12, bufRead a.buf 19, bufRead a.buf 20)
      | .error _ => (0, 0, Entry.zero, Entry.zero, Entry.zero)) =
    (21, 8, ⟨0x020, 0x020⟩, ⟨0x020, 0x020⟩, Entry.zero) := by decide

/-- A PE attempt with the bits 1, 0, 0, 0 on track 0 (vector PE8). -/
theorem witness_pePostambleStrip :
    let l := latchOf peCfg
    l.legal ∧ l.runs .pe = true ∧ (0 : Fin 9).val < l.ntrks ∧
    ∃ a, AttemptInv l a ∧ (a.tr 0).datacount = 4 ∧ symBit 9 (bufRead a.buf 0).sym 0 = true ∧
      symBit 9 (bufRead a.buf 3).sym 0 = false := by
  have hl : (latchOf peCfg).legal := .inr ⟨peCfg, legal_peCfg, rfl⟩
  have hp : (latchOf peCfg).runs .pe = true := by decide
  refine ⟨hl, hp, by decide, ?_⟩
  have hn : (0 : Fin 9).val < (latchOf peCfg).ntrks := by decide
  have f := legal_latFacts hl
  have h0 : AttemptInv (latchOf peCfg) (attemptOf peCfg) := (inv_runOf legal_peCfg).attempt
  have h1 := (peAppend_inv_real f hp hn (b := true) h0 rfl).1
  have h2 := (peAppend_inv_real f hp hn (b := false) h1 rfl).1
  have h3 := (peAppend_inv_real f hp hn (b := false) h2 rfl).1
  have h4 := (peAppend_inv_real f hp hn (b := false) h3 rfl).1
  exact ⟨_, h4, by decide, by decide, by decide⟩

theorem witness_idleEndsBlock :
    (peSampleStep peCfg 9 0x3FF0000000000000 { peDataAttempt 1 with anyPeak := true }).2 = true ∧
    (peSampleStep peCfg 9 0 { peDataAttempt 1 with anyPeak := true }).2 = false := by decide

/-- An NRZI attempt in its block. -/
def nrziAttempt (post : Nat) : Attempt :=
  { (runOf nrziCfg).att with nrzi := { (runOf nrziCfg).att.nrzi with datablock := true, postCounter := post } }

/-- An NRZI attempt in its block, with `nsym` symbols and a peak pending on track 0. -/
def pendingAttempt (post nsym : Nat) : Attempt :=
  let a := nrziAttempt post
  { a with nrzi := { a.nrzi with nsym := nsym } }.modTr 0 fun t => { t with pending := true, tPending := 0 }

theorem witness_midbitLoopStops :
    (∃ a', nrziSampleStep nrziCfg 9 0 (nrziAttempt 0) = .ok (a', false)) ∧
    (∃ a', nrziSampleStep nrziCfg 9 0x3FF0000000000000 (nrziAttempt 8) = .ok (a', true)) ∧
    (nrziAttempt 8).nrzi.postCounter ≤ 8 ∧ (nrziAttempt 0).nrzi.datablock = true ∧
    (runOf nrziCfg).att.nrzi.datablock = false ∧ (9 : Nat) ≤ 9 ∧
    [pendingAttempt 0 65535, pendingAttempt 0 65536, pendingAttempt 3 0, pendingAttempt 7 0, pendingAttempt 8 0,
      nrziAttempt 0].all (fun a => Memory.wf a.buf) = true ∧
    [pendingAttempt 0 65535, pendingAttempt 0 65536, pendingAttempt 3 0, pendingAttempt 7 0].all (fun a =>
      let span := fMul (fAdd f64One (nrziCfg.get .midbitFraction)) a.nrzi.clk.value
      (tracks 9).filter (fun k => (a.tr k).pending && fLe (a.tr k).tPending (fAdd a.nrzi.tLastclock span)) = [0])
        = true ∧
    (tracks 9).filter (fun k => ((nrziAttempt 0).tr k).pending) = [] :=
  ⟨⟨_, rfl⟩, ⟨_, rfl⟩, by decide, rfl, rfl, by decide, by decide, by decide, by decide⟩

/-- Cell 4 of the tail gives the CRC and cell 8 the LRC (rule R286). -/
theorem test_tailCells :
    [3, 7, 8].map (fun post => match nrziMidbit nrziCfg 9 (pendingAttempt post 0) with
      | .ok x => (x.1.nrzi.crc, x.1.nrzi.lrc, x.1.nrzi.postCounter, x.2)
      | .error _ => (0, 0, 0, false)) =
    [(0x100, 0, 4, false), (0, 0x100, 8, false), (0, 0, 9, true)] := by decide

theorem witness_nrziLatePeak :
    let at_ := fun (post nsym : Nat) =>
      { nrziAttempt post with
        buf := [(0, ⟨0x100, 0⟩)], nrzi := { (nrziAttempt post).nrzi with nsym := nsym } }
    [(0, 0), (0, 1), (1, 0), (1, 65535), (1, 65536), (2, 1)].all (fun x => decide
      (Memory.wf (at_ x.1 x.2).buf = true ∧ (at_ x.1 x.2).nrzi.nsym ≤ 65536 ∧
      (at_ x.1 x.2).nrzi.postCounter = x.1)) = true ∧
    symBit 9 (bufRead (at_ 0 1).buf 0).sym 0 = true ∧ symBit 9 (bufRead (at_ 0 1).buf 0).sym 8 = false ∧
    (let z := { (nrziAttempt 0).nrzi with haveBoundary := true, tBoundary := 0x3FF0000000000000 }
     z.haveBoundary = true ∧ fLe 0x3FF0000000000000 z.tBoundary = true ∧ fLe 0x3FF8000000000000 z.tBoundary = false) ∧
    (nrziAttempt 0).nrzi.haveBoundary = false ∧ (nrziCfg.set .nrziSpeedReset 1).nat .nrziSpeedReset = 1 := by
  decide

theorem witness_crcDetectsOneSymbol : (0x055 : Sym) ≠ 0x054 := by decide

/-- An NRZI attempt with the data symbols `ds` and the given CRC and LRC. -/
def nrziBlock (ds : List Sym) (crc lrc : Sym) : Attempt :=
  { (runOf nrziCfg).att with
    buf := bufWriteSyms 0 ds [], anyPeak := true
    nrzi := { (runOf nrziCfg).att.nrzi with nsym := ds.length, crc := crc, lrc := lrc } }

/-- Scenarios 1 and 2 of the source, from the symbols on: a tapemark, and a clean block (program 1). -/
theorem witness_nrziResults :
    let l := latchOf nrziCfg
    l.scan = false ∧ l.mode = .nrzi ∧
    ((finalize nrziCfg l (nrziBlock [0x026] 0 0x026)).2.blktype = .tapemark) ∧
    ((finalize nrziCfg l (nrziBlock [0x055, 0x0AA] 0x153 0x1AC)).2.blktype = .block) ∧
    ((finalize nrziCfg l (nrziBlock [0x055, 0x0AA] 0x153 0x1AC)).2.errcount = 0) ∧
    ((finalize nrziCfg l (nrziBlock [0x055, 0x0AA] 0x152 0x1AC)).2.errcount = 2) := by decide

theorem witness_gcrPeakBits :
    let t := Track.init 0 (clkInit .constant 0 0x3FF0000000000000)
    t.datacount + 3 ≤ 65536 ∧ t.haveLast = false ∧ { t with haveLast := true }.haveLast = true ∧
    { t with datacount := 65533 }.datacount + 3 ≤ 65536 ∧ t.resyncActive = false ∧
    { t with resyncActive := true }.resyncActive = true := by decide

/-- A peak two bit times on ends a MARK2 with its first 0-bit, or goes past it with its second
(rules R320, R325). -/
theorem test_gcrPeak_resync :
    let t := { Track.init 0 (clkInit .constant 0 0x3FF0000000000000) with haveLast := true, last5 := 0b11110 }
    [0x4000000000000000, 0x4008000000000000].map (fun time => match gcrPeak gcrCfg 0 ⟨.top, time, 0x3FF0000000000000⟩ t with
      | .ok u => (u.last5, u.resyncActive, u.resyncBitcount, u.tResyncFirst)
      | .error _ => (0, false, 0, 0)) =
    [(0b11001, true, 1, 0x4000000000000000), (0b10001, false, 0, 0)] := by decide

/-- The third 1-bit in a row sets the clock to the interval that ends at the second (rule R321). -/
theorem test_gcrClock :
    let t := { Track.init 0 (clkInit .ewma 0 0x3FF0000000000000) with
      haveLast := true, tLast2 := 0x3FF0000000000000, tLast := 0x4002000000000000, onesRun := 2 }
    let c := (gcrCfg.set .clkAlpha 0x3FF0000000000000)
    [1, 2].map (fun ones => match gcrPeak c 0 ⟨.top, 0x400A000000000000, 0x3FF0000000000000⟩ { t with onesRun := ones } with
      | .ok u => (u.onesRun, u.clk.value, u.bits)
      | .error _ => (0, 0, [])) =
    [(2, 0x3FF0000000000000, [true]), (3, 0x3FF4000000000000, [true])] := by decide

theorem witness_resyncForcesClock :
    let t := Track.init 0 (clkInit .constant 0 0x3FF0000000000000)
    t.resyncActive = false ∧ { t with last5 := 0b11100 }.last5 = 0b11100 ∧ t.last5 ≠ 0b11100 ∧
    { t with resyncActive := true }.resyncBitcount = 0 ∧ { t with resyncActive := true }.last5 ≠ 0b11100 ∧
    { t with resyncActive := true, resyncBitcount := 69 }.resyncBitcount = 69 ∧
    t.datacount < 65536 ∧ 65536 ≤ { t with datacount := 65536 }.datacount ∧
    (List.replicate 68 0x3FF0000000000000).length + 1 < 70 ∧ (List.replicate 68 0x3FF0000000000000).length + 2 = 70 := by decide

/-- A row of data codes, and 9 tracks whose bits hold it after `lead` 1-bits and MARK1. -/
def gcrTracks (lead : Nat) : Attempt :=
  eachTrack 9 (fun t => { t with bits := List.replicate lead true ++ [false, false, true, true, true] ++
    [true, true, false, false, true] ++ [false] }) (runOf gcrCfg).att

theorem witness_groupMachineReadsBlock :
    let p := (sameGroup 9 0b11001, sameGroup 9 0b01111)
    let stretches := [[p], [], [p, p]]
    stretches ≠ [] ∧ stretches.all (fun ps => ps.all fun p => decide
      (groupClass p.1 = .data ∧ groupClass p.2 = .data)) = true ∧ [[p]].flatten.length < 2 ∧
    (runGroups [p.1, p.2]).terminal = false ∧ groupClass (sameGroup 9 0b00111) = .mark1 ∧
    groupClass (sameGroup 9 0b11100) = .mark2 ∧ groupClass (sameGroup 9 0b11111) = .sync ∧
    groupClass p.1 ≠ .sync ∧
    (let run := runGroups [sameGroup 9 0b00111, p.1, p.2, sameGroup 9 0b11111]
     run.terminal = true ∧ run.seq = 1 ∧ run.pairs.length < 2) ∧
    (let run := runGroups [p.1, p.2, sameGroup 9 0b00111, p.1, p.2, sameGroup 9 0b11111]
     run.terminal = true ∧ run.seq = 1 ∧ run.pairs = [p] ++ [p] ∧ [p] ≠ []) ∧
    allTracks.all (fun k => [0, 1, 2].all fun i =>
      ((((gcrTracks 2).tr k).bits.drop i).take 5 == [false, false, true, true, true]) == decide (i = 2)) = true := by
  decide

/-- A track without bits holds MARK1 nowhere. -/
theorem witness_groupMachineUnaligned : ∀ i,
    ¬ ((((runOf gcrCfg).att.tr 0).bits.drop i).take 5 = [false, false, true, true, true]) := by
  intro i; rw [show ((runOf gcrCfg).att.tr 0).bits = [] from rfl]; simp

/-- The sequence errors of rule R334: MARK1 in DATA; a lone A group, before MARK2; a burst broken by a
data group, which is then the A group of a pair; an incomplete pair; the missing terminal SYNC. -/
theorem test_groupMachine_errors :
    let d := sameGroup 9 0b11001
    let mark1 := sameGroup 9 0b00111
    let mark2 := sameGroup 9 0b11100
    let sync := sameGroup 9 0b11111
    [[mark1, sync], [d, mark2, sync], [mark2, sync, d, d, sync], [d], []].map (fun rows =>
      let r := runGroups rows
      (r.pairs.length, r.seq, r.terminal)) =
    [(0, 1, true), (0, 2, false), (1, 1, true), (0, 2, false), (0, 1, false)] := by decide

/-- The five bits after MARK1 are the first group, the last odd bit none (rule R332). -/
theorem test_gcrAlign : gcrAlign 9 (gcrTracks 2) = some [sameGroup 9 0b11001] := by decide

theorem witness_pairBytes : (sameGroup 9 0b11001).length = 9 ∧ (8 : Fin 9).val < 9 := by decide

theorem witness_tapemarkTests :
    ((latchOf peCfg).scan = false ∧ (latchOf peCfg).mode = .pe) ∧
    ((latchOf gcrCfg).scan = false ∧ (latchOf gcrCfg).mode = .gcr) ∧
    ((latchOf nrziCfg).mode = .nrzi ∧ (latchOf nrziCfg).ntrks = 9) ∧
    ((latchOf (nrziCfg.set .ntrks 7)).mode = .nrzi ∧ (latchOf (nrziCfg.set .ntrks 7)).ntrks ≠ 9) := by
  decide

theorem witness_blockTypeAndSums :
    let l := latchOf nrziCfg
    let r := fun a => (finalize nrziCfg l a).2.blktype
    l.scan = false ∧ l.mode ≠ .unset ∧ r (nrziAttempt 0) = .none ∧
    r (nrziBlock [0x101] 0 0) = .noise ∧ r (nrziBlock [0x055, 0x0AA] 0x153 0x1AC) = .block ∧
    r (nrziBlock [0x026] 0 0x026) = .tapemark ∧ 1 ≤ l.ntrks ∧ l.ntrks ≤ 9 ∧
    allTracks.all (fun k => !fIsNaN ((nrziAttempt 0).tr k).maxGain) = true := by decide

theorem witness_peResults :
    let l := latchOf peCfg
    let g := latchOf gcrCfg
    l.scan = false ∧ l.mode = .pe ∧ 1 ≤ l.ntrks ∧ l.ntrks ≤ 9 ∧
    (finalize peCfg l (runOf peCfg).att).2.blktype ≠ .tapemark ∧
    g.scan = false ∧ g.mode = .gcr ∧ 1 ≤ g.ntrks ∧ g.ntrks ≤ 9 ∧
    (finalize gcrCfg g (runOf gcrCfg).att).2.blktype ≠ .tapemark ∧ Memory.wf (gcrTracks 2).buf = true ∧
    allTracks.all (fun k => decide (((gcrTracks 2).tr k).bits.length ≤ 65536)) = true ∧
    (let tape := (tracks 9).foldl (fun a k => a.modTr k fun t =>
       { t with peakcount := if (gcrCfg.get .gcrTmMask).getLsbD k.val then 250 else 0 }) (runOf gcrCfg).att
     (finalize gcrCfg g tape).2.blktype = .tapemark) := by decide

theorem witness_scanResults : (runOf scanCfg).core = .run ∧ (runOf scanCfg).lat.scan = true := by decide

theorem witness_arithmeticRoundsToNearest :
    let most : F64 := 0x7FEFFFFFFFFFFFFF
    let inf : F64 := 0x7FF0000000000000
    let negInf : F64 := 0xFFF0000000000000
    (fFinite 0x3FF0000000000000 = true ∧ fFinite 0x3FB999999999999A = true ∧ fFinite (fAdd 0x3FF0000000000000 0x3FB999999999999A) = true ∧
      fFinite (fSub 0x3FF0000000000000 0x3FB999999999999A) = true ∧ fFinite (fMul 0x3FF8000000000000 0x3FB999999999999A) = true ∧ fIsZero 0x3FB999999999999A = false ∧
      fFinite (fDiv 0x3FF0000000000000 0x3FB999999999999A) = true) ∧
    (fFinite most = true ∧ fFinite (fAdd most most) = false ∧ fFinite (fSub most (fNeg most)) = false ∧
      fFinite (fNeg most) = true ∧ fFinite (fMul most 0x3FF8000000000000) = false ∧ fFinite (fDiv most 0x3FB999999999999A) = false) ∧
    (fValue 0x3FB999999999999A + fValue (fNeg 0x3FB999999999999A) = 0 ∧ fValue 0x3FB999999999999A - fValue 0x3FB999999999999A = 0 ∧ fFinite (fNeg 0x3FB999999999999A) = true) ∧
    (fIsNaN 0x7FF8000000000000 = true ∧ fIsNaN 0x3FF0000000000000 = false) ∧
    (fIsInf inf = true ∧ fIsInf negInf = true ∧ (fSign inf != fSign inf) = false ∧
      (fSign inf != fSign negInf) = true ∧ fIsNaN inf = false) ∧
    (fIsZero 0 = true ∧ fIsNaN 0 = false ∧ fIsZero 0x3FF0000000000000 = false) ∧
    0 ≤ fValue 0x4034800000000000 ∧ [0x3FF0000000000000] ≠ [] ∧ [0x3FF0000000000000].all (fun y => !fIsNaN y) = true ∧
    9007199254740991 < 2 ^ 53 := by
  decide

/-- A difference and its zero, by IEEE 754 (rule R14). -/
theorem test_fSub : fSub 0x3FF0000000000000 0x3FB999999999999A = 0x3FECCCCCCCCCCCCD ∧ fSub 0x3FB999999999999A 0x3FF0000000000000 = 0xBFECCCCCCCCCCCCD ∧ fSub 0x3FB999999999999A 0x3FB999999999999A = 0 := by decide

/-- A sum in index order: (0.1 + 0.2) + 0.3 and not 0.1 + (0.2 + 0.3) (rule R13). -/
theorem test_fSum : fSum [0x3FB999999999999A, 0x3FC999999999999A, 0x3FD3333333333333] = 0x3FE3333333333334 ∧
    fAdd 0x3FB999999999999A (fAdd 0x3FC999999999999A 0x3FD3333333333333) = 0x3FE3333333333333 := by decide

end Sys2Proof.Machine.Tests
end

section
/-! SUPPORT. STATUS and ERR as numbers: each field of the two words is a digit of the sum that builds it
(rules R22, R30, R401). -/

namespace Sys2Proof.Machine

/-! ## A field of a word is a digit of its number -/

/-- The bits of a word from `start` on are the digit of weight `2 ^ start` of its number. -/
theorem extractLsb'_ofNat_eq_of_digit {n start len : Nat} {v : BitVec len} (hn : n < 2 ^ 64)
    (hdigit : n / 2 ^ start % 2 ^ len = v.toNat) :
    (BitVec.ofNat 64 n).extractLsb' start len = v := by
  apply BitVec.eq_of_toNat_eq
  rw [BitVec.extractLsb'_toNat, BitVec.toNat_ofNat, Nat.mod_eq_of_lt hn, Nat.shiftRight_eq_div_pow,
    hdigit]

/-- One bit of a word is a binary digit of its number. -/
theorem getLsbD_ofNat_eq_of_digit {n i : Nat} {b : Bool} (hi : i < 64)
    (hdigit : n / 2 ^ i % 2 = boolNat b) : (BitVec.ofNat 64 n).getLsbD i = b := by
  rw [BitVec.getLsbD_ofNat, Nat.testBit_eq_decide_div_mod_eq, hdigit]
  cases b <;> simp [hi, boolNat]

/-! ## The numbers in STATUS's fields fit them -/

theorem coreNumber_lt (c : CoreState) : coreNumber c < 4 := by cases c <;> decide

theorem modeNumber_lt (m : Mode) : modeNumber m < 4 := by cases m <;> decide

theorem boolNat_lt (b : Bool) : boolNat b < 2 := by cases b <;> decide

/-! ## STATUS -/

/-- The number STATUS holds. -/
def statusNumber (s : State) : Nat :=
  coreNumber s.core + 4 * boolNat s.eofSeen + 8 * boolNat s.lat.scan + 16 * modeNumber s.lat.mode

theorem statusWord_eq_ofNat (s : State) : statusWord s = BitVec.ofNat 64 (statusNumber s) := rfl

/-- The digits of STATUS's number. -/
theorem statusNumber_digits (s : State) :
    statusNumber s % 4 = coreNumber s.core ∧ statusNumber s / 4 % 2 = boolNat s.eofSeen ∧
    statusNumber s / 8 % 2 = boolNat s.lat.scan ∧
    statusNumber s / 16 = modeNumber s.lat.mode := by
  have hcore := coreNumber_lt s.core
  have heof := boolNat_lt s.eofSeen
  have hscan := boolNat_lt s.lat.scan
  unfold statusNumber
  omega

theorem statusNumber_lt (s : State) : statusNumber s < 64 := by
  obtain ⟨-, -, -, hmode⟩ := statusNumber_digits s
  have := modeNumber_lt s.lat.mode
  omega

theorem statusWord_core (s : State) :
    (statusWord s).extractLsb' 0 2 = BitVec.ofNat 2 (coreNumber s.core) := by
  obtain ⟨hcore, -, -, -⟩ := statusNumber_digits s
  have := statusNumber_lt s
  rw [statusWord_eq_ofNat]
  refine extractLsb'_ofNat_eq_of_digit (by omega) ?_
  rw [BitVec.toNat_ofNat]
  omega

theorem statusWord_eofSeen (s : State) : (statusWord s).getLsbD 2 = s.eofSeen := by
  obtain ⟨-, heof, -, -⟩ := statusNumber_digits s
  rw [statusWord_eq_ofNat]
  exact getLsbD_ofNat_eq_of_digit (by decide) heof

theorem statusWord_scan (s : State) : (statusWord s).getLsbD 3 = s.lat.scan := by
  obtain ⟨-, -, hscan, -⟩ := statusNumber_digits s
  rw [statusWord_eq_ofNat]
  exact getLsbD_ofNat_eq_of_digit (by decide) hscan

theorem statusWord_mode (s : State) :
    (statusWord s).extractLsb' 4 4 = BitVec.ofNat 4 (modeNumber s.lat.mode) := by
  obtain ⟨-, -, -, hmode⟩ := statusNumber_digits s
  have := statusNumber_lt s
  rw [statusWord_eq_ofNat]
  refine extractLsb'_ofNat_eq_of_digit (by omega) ?_
  rw [BitVec.toNat_ofNat]
  omega

theorem statusWord_rest (s : State) : (statusWord s).extractLsb' 8 56 = 0 := by
  have := statusNumber_lt s
  rw [statusWord_eq_ofNat]
  refine extractLsb'_ofNat_eq_of_digit (by omega) ?_
  change _ = 0
  omega

/-! ## ERR -/

theorem errWord_fields (s : State) :
    (errWord s).extractLsb' 0 8 = s.errCode ∧ (errWord s).extractLsb' 8 8 = 0 ∧
    (errWord s).extractLsb' 16 16 = s.errInfo ∧ (errWord s).extractLsb' 32 32 = 0 := by
  have hcode : s.errCode.toNat < 2 ^ 8 := s.errCode.isLt
  have hinfo : s.errInfo.toNat < 2 ^ 16 := s.errInfo.isLt
  have hn : s.errCode.toNat + 2 ^ 16 * s.errInfo.toNat < 2 ^ 64 := by omega
  refine ⟨extractLsb'_ofNat_eq_of_digit hn ?code, extractLsb'_ofNat_eq_of_digit hn ?gap,
    extractLsb'_ofNat_eq_of_digit hn ?info, extractLsb'_ofNat_eq_of_digit hn ?rest⟩
  case code => omega
  case gap => change _ = 0; omega
  case info => omega
  case rest => change _ = 0; omega

/-! ## The two result registers -/

@[simp] theorem resRead_status (s : State) : resRead s 0x000 = some (statusWord s) := rfl

@[simp] theorem resRead_err (s : State) : resRead s 0x001 = some (errWord s) := rfl

end Sys2Proof.Machine

namespace Sys2Proof.Proofs

open Sys2Proof Sys2Proof.Machine

/-- Settles O26: both words are read at their addresses in every state, and each field is a digit of
the number the word holds. -/
theorem statusAndErrFields : Obligations.StatusAndErrFields := by
  intro s
  refine ⟨statusWord s, errWord s, resRead_status s, resRead_err s, ?core, statusWord_eofSeen s,
    statusWord_scan s, ?mode, statusWord_rest s, errWord_fields s⟩
  case core =>
    rw [statusWord_core]
    cases s.core <;> rfl
  case mode =>
    rw [statusWord_mode]
    cases s.lat.mode <;> rfl

end Sys2Proof.Proofs
end

section
/-! SUPPORT. The command words that are no commands: what `classify` answers for each, and the one
step that rejects them outside FAULT (rules R95, R96, R122, R400, R403, R407). -/

namespace Sys2Proof

/-! ## Which error a command word has -/

theorem payloadLen_eq_zero_of_illegalOp {w : CmdWord} (hop : 8 < (cmdOp w).toNat) :
    payloadLen w = 0 := by
  unfold payloadLen
  split
  · omega
  · omega
  · rfl

theorem classify_illegalOp {w : CmdWord} (p : List Word) (hop : 8 < (cmdOp w).toNat) :
    classify w p = .error (.illegalOpcode (cmdOp w)) := if_pos hop

theorem classify_nonzeroRsv {w : CmdWord} (p : List Word) (hop : (cmdOp w).toNat ≤ 8)
    (hrsv : cmdRsv w ≠ 0) :
    classify w p = .error (.reservedNonzero (cmdOp w) ((cmdRsv w).setWidth 16)) := by
  rw [classify, if_neg (by omega), if_pos hrsv]

/-- The commands without an operand are NOP, RESET, BLK_START and EOF (rule R95). -/
theorem classify_eq_zeroA {w : CmdWord} (p : List Word) (hrsv : cmdRsv w = 0)
    (hop : cmdOp w = 0 ∨ cmdOp w = 1 ∨ cmdOp w = 4 ∨ cmdOp w = 6) :
    ∃ i, classify w p = zeroA w i := by
  rcases hop with hop | hop | hop | hop
  · exact ⟨.nop, by simp [classify, hop, hrsv]⟩
  · exact ⟨.reset, by simp [classify, hop, hrsv]⟩
  · exact ⟨.blkStart, by simp [classify, hop, hrsv]⟩
  · exact ⟨.eof, by simp [classify, hop, hrsv]⟩

theorem classify_nonzeroA {w : CmdWord} (p : List Word) (hrsv : cmdRsv w = 0) (ha : cmdA w ≠ 0)
    (hop : cmdOp w = 0 ∨ cmdOp w = 1 ∨ cmdOp w = 4 ∨ cmdOp w = 6) :
    classify w p = .error (.reservedNonzero (cmdOp w) (cmdA w)) := by
  obtain ⟨i, hi⟩ := classify_eq_zeroA p hrsv hop
  rw [hi, zeroA, if_neg ha]

end Sys2Proof

namespace Sys2Proof.Machine

/-! ## The step that rejects a command word -/

theorem step_of_classify_error {s : State} {w : CmdWord} {p : List Word} {rest : List InWord}
    {r : Reject} (hreset : s.resetIn = false)
    (hinput : s.input = .cmd w :: (p.map .data ++ rest)) (hlen : p.length = payloadLen w)
    (hclass : classify w p = .error r) :
    step s = .next (rejectCommand r { s with input := rest }) := by
  have hdecode : decode s.input = .reject r rest := by rw [hinput, decode_command hlen, hclass]
  simp [step, hreset, hdecode]

/-- Outside FAULT a rejected command word is taken with its payload and raises (rules R122, R407). -/
theorem step_reject_outside_fault {s : State} {w : CmdWord} {p : List Word} {rest : List InWord}
    {r : Reject} (hreset : s.resetIn = false) (hcore : s.core ≠ .fault)
    (hinput : s.input = .cmd w :: (p.map .data ++ rest)) (hlen : p.length = payloadLen w)
    (hclass : classify w p = .error r) :
    step s = .next { s with
      input := rest, core := .fault, errCode := errNumber (rejectRaise r).code,
      errInfo := (rejectRaise r).info, output := s.output ++ placeholder (rejectOp r) } := by
  rw [step_of_classify_error hreset hinput hlen hclass, rejectCommand, if_neg hcore,
    raiseCommand, raise, respond]

theorem placeholder_eq_nil_of_illegalOp {op : BitVec 8} (hop : 8 < op.toNat) :
    placeholder op = [] := by
  rw [placeholder_eq, if_neg]
  rintro (rfl | rfl | rfl | rfl) <;> simp at hop

end Sys2Proof.Machine

namespace Sys2Proof.Proofs

open Sys2Proof Sys2Proof.Machine

/-- Settles O4: the word has no payload and no response, and `classify` rejects its OP first. -/
theorem illegalOpcodeRaises : Obligations.IllegalOpcodeRaises := by
  intro s w ws hreset hcore hinput hop
  have hlen : ([] : List Word).length = payloadLen w := (payloadLen_eq_zero_of_illegalOp hop).symm
  have hsilent : placeholder (cmdOp w) = [] := placeholder_eq_nil_of_illegalOp hop
  have hstep := step_reject_outside_fault hreset hcore hinput hlen (classify_illegalOp [] hop)
  simp only [rejectOp, hsilent, List.append_nil] at hstep
  exact hstep

/-- Settles O5: RSV is checked before A, and a rejected word answers the placeholder of its OP, which
is empty for the commands whose A must be 0. -/
theorem reservedFieldRaises : Obligations.ReservedFieldRaises := by
  intro s w p rest hreset hcore hinput hlen hop
  refine ⟨fun hrsv => ?rsv, fun hrsv ha hzero => ?a⟩
  case rsv =>
    rw [← placeholder_eq]
    exact step_reject_outside_fault hreset hcore hinput hlen (classify_nonzeroRsv p hop hrsv)
  case a =>
    have hsilent : placeholder (cmdOp w) = [] := by
      rcases hzero with h | h | h | h <;> rw [cmdOp, h] <;> rfl
    have hstep :=
      step_reject_outside_fault hreset hcore hinput hlen (classify_nonzeroA p hrsv ha hzero)
    simp only [rejectOp, hsilent, List.append_nil] at hstep
    exact hstep

end Sys2Proof.Proofs
end

section
/-! SUPPORT. What a command's frame gives in each state, and which commands a state refuses (rules
R122, R127, R403, R406). -/

namespace Sys2Proof.Machine

/-! ## One equation per way through the frame -/

theorem runCommand_in_fault {op : BitVec 8} {s : State} (body : Except Raise (State × List Word))
    (hcore : s.core = .fault) : runCommand op s body = ignoreCommand op s := if_pos hcore

theorem runCommand_refused {op : BitVec 8} {s : State} (body : Except Raise (State × List Word))
    (hcore : s.core ≠ .fault) (hallowed : allowed op s.core = false) :
    runCommand op s body = raiseCommand op s ⟨.wrongState, op.setWidth 16⟩ := by
  simp [runCommand, hcore, hallowed]

theorem runCommand_error {op : BitVec 8} {s : State} (r : Raise) (hcore : s.core ≠ .fault)
    (hallowed : allowed op s.core = true) :
    runCommand op s (.error r) = raiseCommand op s r := by
  simp [runCommand, hcore, hallowed]

theorem runCommand_ok {op : BitVec 8} {s : State} (x : State × List Word) (hcore : s.core ≠ .fault)
    (hallowed : allowed op s.core = true) :
    runCommand op s (.ok x) = respond x.1 x.2 := by
  simp [runCommand, hcore, hallowed]

/-! ## IDLE and DONE -/

theorem not_fault_of_idle_or_done {c : CoreState} (hstopped : c = .idle ∨ c = .done) : c ≠ .fault := by
  rcases hstopped with rfl | rfl <;> simp

theorem allowed_cfgWr_of_idle_or_done {c : CoreState} (hstopped : c = .idle ∨ c = .done) :
    allowed 0x02 c = true := by
  rcases hstopped with rfl | rfl <;> rfl

theorem allowed_sample_of_idle_or_done {c : CoreState} (hstopped : c = .idle ∨ c = .done) :
    allowed 0x05 c = false := by
  rcases hstopped with rfl | rfl <;> rfl

/-! ## Commands without a response -/

theorem raiseCommand_silent {op : BitVec 8} (s : State) (r : Raise) (hop : placeholder op = []) :
    raiseCommand op s r = raise s r := by
  rw [raiseCommand, hop, respond_nil]

theorem ignoreCommand_silent {op : BitVec 8} (s : State) (hop : placeholder op = []) :
    ignoreCommand op s = s := by
  rw [ignoreCommand, hop, respond_nil]

/-! ## The commands a state refuses -/

/-- Rule R127's table: the states that refuse a command. -/
theorem allowed_eq_false_iff (i : Instr) (c : CoreState) : allowed (opcode i) c = false ↔
    (c = .run ∧ ((∃ a v, i = .cfgWr a v) ∨ i = .blkStart)) ∨
    (c ≠ .run ∧ ∃ a t vs, i = .sample a t vs) := by
  cases i <;> simp [allowed, opcode]

/-- A command its state refuses raises WRONG_STATE(OP) (rule R127). -/
theorem exec_refused {i : Instr} {s : State} (hcore : s.core ≠ .fault)
    (hallowed : allowed (opcode i) s.core = false) :
    exec i s = .next (raiseCommand (opcode i) s ⟨.wrongState, (opcode i).setWidth 16⟩) := by
  rcases (allowed_eq_false_iff i s.core).1 hallowed with
    ⟨-, ⟨a, v, rfl⟩ | rfl⟩ | ⟨-, a, t, vs, rfl⟩
  · exact congrArg _ (runCommand_refused (cfgWrBody a v s) hcore hallowed)
  · exact congrArg _ (runCommand_refused (blkStartBody s) hcore hallowed)
  · exact congrArg _ (runCommand_refused (sampleBody a t vs s) hcore hallowed)

theorem sampleNext_core (s : State) (y : Attempt × Bool × List Event) :
    (sampleNext s y).core = if y.2.1 then .done else s.core := by
  unfold sampleNext
  split <;> rfl

/-- The only way a command leads into FAULT is fault entry, and only a refused command enters it with
WRONG_STATE (rules R127, R403). -/
theorem raised_of_enters_fault {i : Instr} {s s' : State} (h : ExecCase i s s')
    (hcore : s.core ≠ .fault) (hcore' : s'.core = .fault) :
    ∃ r : Raise, s' = raiseCommand (opcode i) s r ∧
      (r.code = .wrongState → allowed (opcode i) s.core = false) := by
  cases h with
  | reset => cases hcore'
  | ignored _ _ _ hf => exact absurd hf hcore
  | raised _ _ r _ hr => exact ⟨r, rfl, hr⟩
  | answered => exact absurd hcore' hcore
  | wrote => exact absurd hcore' hcore
  | started => cases hcore'
  | sampled _ _ _ _ y hc =>
    rw [respond_core, sampleNext_core, hc] at hcore'
    split at hcore' <;> cases hcore'
  | finished => cases hcore'
  | noted => exact absurd hcore' hcore

end Sys2Proof.Machine

namespace Sys2Proof.Proofs

open Sys2Proof Sys2Proof.Machine

/-- Settles O19: the frame refuses exactly the combinations of rule R127's table, and no body of a
command raises WRONG_STATE. -/
theorem wrongStateRaises : Obligations.WrongStateRaises := by
  intro s
  refine ⟨fun hrun a v => ?cfgWr, fun hrun => ?blkStart, fun hstopped a t vs => ?sample,
    fun i s' hcore hexec hcore' hcode => ?only⟩
  case cfgWr =>
    rw [exec_refused (by simp [hrun]) (by rw [hrun]; rfl), raiseCommand_silent _ _ rfl]
    rfl
  case blkStart =>
    rw [exec_refused (by simp [hrun]) (by rw [hrun]; rfl), raiseCommand_silent _ _ rfl]
    rfl
  case sample =>
    exact exec_refused (not_fault_of_idle_or_done hstopped) (allowed_sample_of_idle_or_done hstopped)
  case only =>
    obtain ⟨r, rfl, hrefused⟩ := raised_of_enters_fault (execCase_of_next hexec) hcore hcore'
    have hwrong : r.code = .wrongState := errNumber_injective hcode
    exact (allowed_eq_false_iff i s.core).1 (hrefused hwrong)

end Sys2Proof.Proofs
end

section
/-! SUPPORT. The configuration registers by address, and the two commands that reach them (rules R25
to R28, R123 to R125). -/

namespace Sys2Proof.Machine

/-! ## Addresses -/

theorem cfgAddr_implemented (r : CfgReg) :
    (cfgAddr r).toNat ≤ 0x005 ∨ (0x010 ≤ (cfgAddr r).toNat ∧ (cfgAddr r).toNat ≤ 0x01B) ∨
      (0x020 ≤ (cfgAddr r).toNat ∧ (cfgAddr r).toNat ≤ 0x02B) ∨
      (0x040 ≤ (cfgAddr r).toNat ∧ (cfgAddr r).toNat ≤ 0x048) := by
  cases r with
  | deskew k => revert k; decide
  | _ => decide

theorem cfgRegAt_isSome_iff (a : BitVec 16) : (cfgRegAt a).isSome = true ↔
    a.toNat ≤ 0x005 ∨ (0x010 ≤ a.toNat ∧ a.toNat ≤ 0x01B) ∨ (0x020 ≤ a.toNat ∧ a.toNat ≤ 0x02B) ∨
      (0x040 ≤ a.toNat ∧ a.toNat ≤ 0x048) := by
  constructor
  · intro h
    obtain ⟨r, hr⟩ := Option.isSome_iff_exists.1 h
    rw [cfgRegAt_addr hr]
    exact cfgAddr_implemented r
  · intro h
    unfold cfgRegAt
    split
    case h_40 => simp only [imp_false] at *; omega
    all_goals rfl

theorem cfgOperand_of_reg {a : BitVec 16} {r : CfgReg} (hreg : cfgRegAt a = some r) :
    cfgOperand a = .ok r := by simp [cfgOperand, hreg]

theorem cfgOperand_of_no_reg {a : BitVec 16} (hreg : cfgRegAt a = none) :
    cfgOperand a = .error ⟨.badAddress, a⟩ := by simp [cfgOperand, hreg]

/-! ## CFG_WR -/

theorem exec_cfgWr_of_reg {a : BitVec 16} {r : CfgReg} {s : State} (v : Word)
    (hstopped : s.core = .idle ∨ s.core = .done) (hreg : cfgRegAt a = some r) :
    exec (.cfgWr a v) s = .next { s with cfg := s.cfg.set r v } := by
  have hbody : cfgWrBody a v s = .ok ({ s with cfg := s.cfg.set r v }, []) := by
    rw [cfgWrBody, cfgOperand_of_reg hreg]; rfl
  rw [exec, execCfgWr, hbody, runCommand_ok _ (not_fault_of_idle_or_done hstopped)
    (allowed_cfgWr_of_idle_or_done hstopped), respond_nil]

theorem exec_cfgWr_of_no_reg {a : BitVec 16} {s : State} (v : Word)
    (hstopped : s.core = .idle ∨ s.core = .done) (hreg : cfgRegAt a = none) :
    exec (.cfgWr a v) s = .next (raise s ⟨.badAddress, a⟩) := by
  have hbody : cfgWrBody a v s = .error ⟨.badAddress, a⟩ := by
    rw [cfgWrBody, cfgOperand_of_no_reg hreg]; rfl
  rw [exec, execCfgWr, hbody, runCommand_error _ (not_fault_of_idle_or_done hstopped)
    (allowed_cfgWr_of_idle_or_done hstopped), raiseCommand_silent _ _ rfl]

theorem exec_cfgWr_in_fault {s : State} (a : BitVec 16) (v : Word) (hcore : s.core = .fault) :
    exec (.cfgWr a v) s = .next s := by
  rw [exec, execCfgWr, runCommand_in_fault _ hcore, ignoreCommand_silent _ rfl]

/-! ## CFG_RD -/

theorem exec_cfgRd_of_reg {a : BitVec 16} {r : CfgReg} {s : State} (hcore : s.core ≠ .fault)
    (hreg : cfgRegAt a = some r) : exec (.cfgRd a) s = .next (respond s [s.cfg.get r]) := by
  have hbody : cfgRdBody a s = .ok (s, [s.cfg.get r]) := by
    rw [cfgRdBody, cfgOperand_of_reg hreg]; rfl
  rw [exec, execCfgRd, hbody, runCommand_ok _ hcore rfl]

theorem exec_cfgRd_of_no_reg {a : BitVec 16} {s : State} (hcore : s.core ≠ .fault)
    (hreg : cfgRegAt a = none) :
    exec (.cfgRd a) s = .next (raiseCommand 0x03 s ⟨.badAddress, a⟩) := by
  have hbody : cfgRdBody a s = .error ⟨.badAddress, a⟩ := by
    rw [cfgRdBody, cfgOperand_of_no_reg hreg]; rfl
  rw [exec, execCfgRd, hbody, runCommand_error _ hcore rfl]

end Sys2Proof.Machine

namespace Sys2Proof.Proofs

open Sys2Proof Sys2Proof.Machine

/-- Settles O14: the addresses are those of `cfgAddr`, of which `cfgRegAt` is the inverse. -/
theorem cfgAddressMap : Obligations.CfgAddressMap := by
  refine ⟨by decide, fun k => ?deskew, cfgRegAt_isSome_iff, fun a a' r h h' => ?injective⟩
  case deskew =>
    rw [BitVec.ofNat_add]
    exact cfgRegAt_cfgAddr (.deskew k)
  case injective => exact (cfgRegAt_addr h).trans (cfgRegAt_addr h').symm

/-- Settles O12: the write is one `CfgFile.set`, which every other register passes through. -/
theorem cfgWriteEffect : Obligations.CfgWriteEffect := by
  intro a v s
  refine ⟨fun hstopped => ⟨fun r hreg => ?stores, fun hreg => exec_cfgWr_of_no_reg v hstopped hreg⟩,
    fun hrun => (wrongStateRaises s).1 hrun a v, fun hfault => exec_cfgWr_in_fault a v hfault⟩
  case stores =>
    exact ⟨_, exec_cfgWr_of_reg v hstopped hreg, rfl, CfgFile.get_set_same s.cfg r v,
      fun r' hne => CfgFile.get_set_other s.cfg v hne⟩

/-- Settles O13: outside FAULT every state allows CFG_RD, and its one response word is the register
or the placeholder. -/
theorem cfgReadEffect : Obligations.CfgReadEffect := fun _ _ hcore =>
  ⟨fun _ hreg => exec_cfgRd_of_reg hcore hreg, fun hreg => exec_cfgRd_of_no_reg hcore hreg⟩

end Sys2Proof.Proofs
end

section
/-! SUPPORT. Which result addresses are implemented (rules R30 to R32, R136). -/

namespace Sys2Proof.Machine

/-- The banks of per-track view registers (rule R32). -/
theorem trackBank_isSome_iff (s : State) (b : Nat) (k : Fin 9) : (trackBank s b k).isSome = true ↔
    b = 2 ∨ b = 3 ∨ b = 4 ∨ b = 5 ∨ b = 7 ∨ b = 8 := by
  unfold trackBank
  split
  case h_7 => simp only [imp_false] at *; simp [*]
  all_goals simp

/-- The result registers that are not one per track (rules R30 to R32). -/
theorem resRead_isSome_of_shared {a : BitVec 16} (s : State)
    (ha : a.toNat ≤ 0x018 ∨ (0x060 ≤ a.toNat ∧ a.toNat ≤ 0x062)) : (resRead s a).isSome = true := by
  unfold resRead
  split
  case h_29 => simp only [imp_false] at *; omega
  all_goals rfl

/-- At every other address, the bank and the track are the two parts of the address. -/
theorem resRead_isSome_iff_of_not_shared {a : BitVec 16} (s : State)
    (ha : ¬ (a.toNat ≤ 0x018 ∨ (0x060 ≤ a.toNat ∧ a.toNat ≤ 0x062))) :
    (resRead s a).isSome = true ↔ ∃ h : a.toNat % 16 < 9,
      (trackBank s (a.toNat / 16) ⟨a.toNat % 16, h⟩).isSome = true := by
  unfold resRead
  split
  case h_29 => split <;> simp [*]
  all_goals omega

end Sys2Proof.Machine

namespace Sys2Proof.Proofs

open Sys2Proof Sys2Proof.Machine

/-- Settles O25: an address is that of a shared register, or its low digit is a track and the rest of
it a bank. -/
theorem resAddressMap : Obligations.ResAddressMap := by
  intro s a
  by_cases hshared : a.toNat ≤ 0x018 ∨ (0x060 ≤ a.toNat ∧ a.toNat ≤ 0x062)
  · have hsome := resRead_isSome_of_shared s hshared
    simp only [hsome, true_iff]
    omega
  · simp only [resRead_isSome_iff_of_not_shared s hshared, trackBank_isSome_iff, exists_prop]
    omega

end Sys2Proof.Proofs
end

section
/-! SUPPORT. The response word of DATA_RD as a number, of which each field is a digit (rules R99,
R137). -/

namespace Sys2Proof.Machine

theorem entryWord_eq_ofNat (e : Entry) :
    entryWord e = BitVec.ofNat 64 (e.sym.toNat + 2 ^ 16 * e.fmask.toNat) := by
  have hsym : e.sym.toNat < 2 ^ 9 := e.sym.isLt
  have hfmask : e.fmask.toNat < 2 ^ 9 := e.fmask.isLt
  have hor : e.fmask.toNat <<< 16 ||| e.sym.toNat = e.sym.toNat + 2 ^ 16 * e.fmask.toNat := by
    rw [← Nat.shiftLeft_add_eq_or_of_lt (by omega), Nat.shiftLeft_eq]
    omega
  apply BitVec.eq_of_toNat_eq
  rw [entryWord, BitVec.toNat_or, BitVec.toNat_shiftLeft, BitVec.toNat_setWidth,
    BitVec.toNat_setWidth, Nat.mod_eq_of_lt (by omega : e.fmask.toNat < 2 ^ 64),
    Nat.mod_eq_of_lt (by omega : e.sym.toNat < 2 ^ 64),
    Nat.mod_eq_of_lt (by rw [Nat.shiftLeft_eq]; omega), hor, BitVec.toNat_ofNat,
    Nat.mod_eq_of_lt (by omega)]

theorem entryWord_fields (e : Entry) :
    (entryWord e).extractLsb' 0 9 = e.sym ∧ (entryWord e).extractLsb' 16 9 = e.fmask ∧
    (entryWord e).extractLsb' 9 7 = 0 ∧ (entryWord e).extractLsb' 25 39 = 0 := by
  have hsym : e.sym.toNat < 2 ^ 9 := e.sym.isLt
  have hfmask : e.fmask.toNat < 2 ^ 9 := e.fmask.isLt
  have hn : e.sym.toNat + 2 ^ 16 * e.fmask.toNat < 2 ^ 64 := by omega
  rw [entryWord_eq_ofNat]
  refine ⟨extractLsb'_ofNat_eq_of_digit hn ?sym, extractLsb'_ofNat_eq_of_digit hn ?fmask,
    extractLsb'_ofNat_eq_of_digit hn ?gap, extractLsb'_ofNat_eq_of_digit hn ?rest⟩
  case sym => omega
  case fmask => omega
  case gap => change _ = 0; omega
  case rest => change _ = 0; omega

theorem exec_dataRd {s : State} (a : BitVec 16) (hcore : s.core ≠ .fault) :
    exec (.dataRd a) s = .next (respond s [entryWord (bufRead s.att.buf a.toNat)]) := by
  rw [exec, execDataRd, runCommand_ok _ hcore rfl]

end Sys2Proof.Machine

namespace Sys2Proof.Proofs

open Sys2Proof Sys2Proof.Machine

/-- Settles O28: every index reads an entry, and the fields of its word are the entry's. -/
theorem dataReadEffect : Obligations.DataReadEffect := fun a s hcore =>
  ⟨_, exec_dataRd a hcore, entryWord_fields (bufRead s.att.buf a.toNat)⟩

end Sys2Proof.Proofs
end

section
/-! SUPPORT. A track's peak steps while it is in a blackout (rules R164, R169). -/

namespace Sys2Proof.Machine

@[simp] theorem peakSteps_nil (c : CfgFile) (l : Latched) (t : Track) :
    peakSteps c l [] t = (t, []) := rfl

@[simp] theorem peakSteps_cons (c : CfgFile) (l : Latched) (x : F64 × F64) (xs : List (F64 × F64))
    (t : Track) : peakSteps c l (x :: xs) t =
      ((peakSteps c l xs (peakStep c l x.1 x.2 t).1).1,
        (peakStep c l x.1 x.2 t).2 :: (peakSteps c l xs (peakStep c l x.1 x.2 t).1).2) := rfl

/-- A full window stays full under one more sample (rule R163). -/
theorem pushWin_length_of_full {l : Latched} {t : Track} (time u : F64) (hfull : t.win.length = l.w)
    (hw : 0 < l.w) : (pushWin l time u t).win.length = l.w :=
  pushBounded_full (time, u) hfull hw

theorem peakStep_of_blackout (c : CfgFile) {l : Latched} {t : Track} (time u : F64)
    (hfull : t.win.length = l.w) (hw : 0 < l.w) (hb : 0 < t.blackout) :
    peakStep c l time u t = ({ pushWin l time u t with blackout := t.blackout - 1 }, none) := by
  have hlen := pushWin_length_of_full time u hfull hw
  rcases peakStep_cases c l time u t with
    ⟨hshort, -⟩ | ⟨-, -, hcount⟩ | ⟨-, hout, -⟩ | ⟨-, hout, -⟩
  · omega
  · exact hcount
  · omega
  · omega

end Sys2Proof.Machine

namespace Sys2Proof.Proofs

open Sys2Proof Sys2Proof.Machine

/-- Settles O39, by induction on the samples: each finds the window full and the track in a blackout,
reports nothing and leaves a full window and a blackout one shorter for the rest. -/
theorem blackoutSuppresses : Obligations.BlackoutSuppresses := by
  intro c l xs
  induction xs with
  | nil => exact fun t hfull _ _ => ⟨rfl, rfl, hfull⟩
  | cons x xs ih =>
    intro t hfull hw hle
    rw [List.length_cons] at hle
    have hstep := peakStep_of_blackout c x.1 x.2 hfull hw (by omega)
    obtain ⟨hnone, hblackout, hwin⟩ :=
      ih { pushWin l x.1 x.2 t with blackout := t.blackout - 1 }
        (pushWin_length_of_full x.1 x.2 hfull hw) hw (Nat.le_sub_one_of_lt hle)
    rw [peakSteps_cons, hstep, List.length_cons, List.replicate_succ]
    refine ⟨congrArg (none :: ·) hnone, hblackout.trans ?_, hwin⟩
    rw [Nat.sub_sub, Nat.add_comm]

end Sys2Proof.Proofs
end

section
/-! SUPPORT. The AGC past the baseline and the clock averager, strategy by strategy (rules R201 to R205,
R221, R223 to R225). -/

namespace Sys2Proof.Machine

/-- Past the baseline the start of data is no matter (rule R221). -/
theorem agcPeak_of_frozen (c : CfgFile) (l : Latched) (h : F64) (sod : Bool) {t : Track}
    (hfrozen : t.hFrozen = true) :
    agcPeak c l (some h) sod t = agcKeepMax (gainUpdate c l h t) := by
  rw [agcPeak, hfrozen, if_neg Bool.noConfusion]

theorem gainUpdate_of_window (c : CfgFile) {l : Latched} (h : F64) (t : Track) (hl : l.agc = .window) :
    gainUpdate c l h t = { t with
      hwin := pushBounded (c.nat .agcWindow) t.hwin h
      gain := agcGainFor c t (fMinList (pushBounded (c.nat .agcWindow) t.hwin h)) } := by
  rw [gainUpdate, hl]

theorem gainUpdate_of_ewma (c : CfgFile) {l : Latched} (h : F64) (t : Track) (hl : l.agc = .ewma) :
    gainUpdate c l h t = { t with gain := ewma (c.get .agcAlpha) (agcGainFor c t h) t.gain } := by
  rw [gainUpdate, hl]

theorem gainUpdate_of_none (c : CfgFile) {l : Latched} (h : F64) (t : Track) (hl : l.agc = .none) :
    gainUpdate c l h t = t := by
  rw [gainUpdate, hl]

/-- A gain update writes the gain and the AGC window alone. -/
theorem gainUpdate_frame (c : CfgFile) (l : Latched) (h : F64) (t : Track) :
    gainUpdate c l h t =
      { t with gain := (gainUpdate c l h t).gain, hwin := (gainUpdate c l h t).hwin } := by
  cases hl : l.agc with
  | window => rw [gainUpdate_of_window c h t hl]
  | ewma => rw [gainUpdate_of_ewma c h t hl]
  | none => rw [gainUpdate_of_none c h t hl]

/-- Forcing a WINDOW averager fills a ring of the same length (rule R205). -/
theorem clkForce_window (d value : F64) (ring : List F64) :
    clkForce d { strategy := .window, ring := ring, value := value } =
      { strategy := .window, ring := List.replicate ring.length d, value := d } := by
  rw [clkForce, List.map_const']

/-- Adjusting a WINDOW averager replaces the oldest entry, so the mean is over as many (rule R202). -/
theorem clkAdjust_window (α d x value : F64) (xs : List F64) :
    clkAdjust α d { strategy := .window, ring := x :: xs, value := value } =
      { strategy := .window, ring := xs ++ [d],
        value := fDiv (fSum (xs ++ [d])) (fOfNat (xs.length + 1)) } := by
  have hlength : (xs ++ [d]).length = xs.length + 1 := List.length_append
  rw [← hlength]
  rfl

end Sys2Proof.Machine

namespace Sys2Proof.Proofs

open Sys2Proof Sys2Proof.Machine

/-- Settles O42: past the baseline a height is one `gainUpdate`, whose strategies differ, and then
`agcKeepMax`. -/
theorem agcGain : Obligations.AgcGain := by
  intro c l h t hfrozen
  simp only [agcPeak_of_frozen c l h false hfrozen]
  refine ⟨?maxGain, fun hl hlen => ?window, fun hl => ?ewma, fun hl => ?none, ?frame⟩
  case maxGain =>
    rw [gainUpdate_frame]
    rfl
  case window =>
    rw [gainUpdate_of_window c h t hl]
    exact ⟨pushBounded_eq h hlen, rfl⟩
  case ewma =>
    rw [gainUpdate_of_ewma c h t hl]
    rfl
  case none =>
    rw [gainUpdate_of_none c h t hl]
    rfl
  case frame =>
    rw [gainUpdate_frame]
    rfl

/-- Settles O40: only the WINDOW averager has a ring to keep; the other cases are the definitions'
own. -/
theorem clockOperations : Obligations.ClockOperations := fun α d _ value x xs _ =>
  ⟨rfl, rfl, rfl, clkAdjust_window α d x value xs, rfl, rfl, clkForce_window d value (x :: xs), rfl, rfl⟩

end Sys2Proof.Proofs
end

section
/-! SUPPORT. What pe_append leaves, the phases of a PE peak, and the dropout fill (rules R241 to R244, R247,
R248). -/

namespace Sys2Proof.Machine

/-! ## pe_append -/

theorem peAppend_overflows {n : Nat} {k : Fin 9} {a : Attempt} (hfull : 65536 ≤ (a.tr k).datacount)
    (b f : Bool) : peAppend n k b f a = .error ⟨.bufferOverflow, BitVec.ofNat 16 k.val⟩ := by
  rw [peAppend_eq, if_pos hfull]

@[simp] theorem peAppended_buf (n : Nat) (k : Fin 9) (b f : Bool) (a : Attempt) :
    (peAppended n k b f a).buf = writeBits n k b f (a.tr k).datacount a.buf := rfl

@[simp] theorem peAppended_tr_same (n : Nat) (k : Fin 9) (b f : Bool) (a : Attempt) :
    (peAppended n k b f a).tr k = { a.tr k with datacount := (a.tr k).datacount + 1 } :=
  Attempt.tr_setTr_same _ _ _

/-! ## The phases of a PE peak -/

/-- A track with its idle flag cleared, as every peak leaves it (rule R241). -/
def Track.awake (t : Track) : Track := { t with idle := false }

theorem Track.awake_of_busy {t : Track} (hbusy : t.idle = false) : t.awake = t := by
  rw [Track.awake, ← hbusy]

theorem pePeak_of_pre0 (c : CfgFile) (n : Nat) {k : Fin 9} (pk : Peak) {a : Attempt}
    (hphase : (a.tr k).phase = .pre0) :
    pePeak c n k pk a = .ok (a.setTr k { (a.tr k).awake with phase := .preamble }, false) := by
  simp only [pePeak, hphase, Attempt.modTr, Attempt.tr_setTr_same, Attempt.setTr_setTr]
  rfl

theorem pePeak_of_preamble (c : CfgFile) (n : Nat) {k : Fin 9} (pk : Peak) {a : Attempt}
    (hphase : (a.tr k).phase = .preamble) :
    pePeak c n k pk a =
      .ok (a.setTr k (pePreamble c pk (a.tr k).awake).1, (pePreamble c pk (a.tr k).awake).2) := by
  rw [pePeak, hphase]
  simp only [Attempt.modTr, Attempt.tr_setTr_same, Attempt.setTr_setTr]
  rfl

theorem pePeak_of_return (c : CfgFile) (n : Nat) {k : Fin 9} (pk : Peak) {a : Attempt}
    (hphase : (a.tr k).phase = .data) (hidle : (a.tr k).idle = true) :
    pePeak c n k pk a =
      andThen (peReturn c n k pk (a.setTr k (a.tr k).awake)) fun x => .ok (x, false) := by
  simp only [pePeak, hphase, hidle, if_true]
  rfl

theorem pePeak_of_data (c : CfgFile) (n : Nat) {k : Fin 9} (pk : Peak) {a : Attempt}
    (hphase : (a.tr k).phase = .data) (hbusy : (a.tr k).idle = false) :
    pePeak c n k pk a = andThen (peData c n k pk a) fun x => .ok (x, false) := by
  have hsame : (a.modTr k fun t => { t with idle := false }) = a :=
    (congrArg (a.setTr k) (Track.awake_of_busy hbusy)).trans (Attempt.setTr_tr a k)
  simp only [pePeak, hphase, hbusy, hsame, Bool.false_eq_true, if_false]

/-! ## The preamble -/

theorem pePreamble_of_start {c : CfgFile} {pk : Peak} {t : Track}
    (hlate : fLt (peWin c t) (fSub pk.t t.tLast) = true) :
    pePreamble c pk t = (peReference pk.t 0 (polTop pk.pol) { t with phase := .data }, true) :=
  if_pos hlate

theorem pePreamble_of_alternate {c : CfgFile} {pk : Peak} {t : Track}
    (hearly : fLt (peWin c t) (fSub pk.t t.tLast) = false) (hpol : pk.pol ≠ t.polLast) :
    pePreamble c pk t =
      ({ t with clk := clkAdjust (c.get .clkAlpha) (fMul fTwo (fSub pk.t t.tLast)) t.clk }, false) := by
  rw [pePreamble, hearly, if_neg Bool.noConfusion, if_pos hpol]

theorem pePreamble_of_repeat {c : CfgFile} {pk : Peak} {t : Track}
    (hearly : fLt (peWin c t) (fSub pk.t t.tLast) = false) (hpol : pk.pol = t.polLast) :
    pePreamble c pk t = (t, false) := by
  rw [pePreamble, hearly, if_neg Bool.noConfusion, if_neg (not_not_intro hpol)]

/-! ## Data -/

/-- From a track's last data transition to a peak (rule R243). -/
def peElapsed (pk : Peak) (t : Track) : F64 := fSub (fAdd pk.t t.tPulseAdj) t.tLastdata

theorem peData_of_clock {c : CfgFile} {n : Nat} {k : Fin 9} {pk : Peak} {a : Attempt}
    (hearly : fLt (peWin c (a.tr k)) (peElapsed pk (a.tr k)) = false) :
    peData c n k pk a = .ok (a.setTr k { a.tr k with clknext := false }) := by
  unfold peElapsed at hearly
  rw [peData, hearly, if_neg Bool.noConfusion]

theorem peData_of_data {c : CfgFile} {n : Nat} {k : Fin 9} {pk : Peak} {a : Attempt}
    (hlate : fLt (peWin c (a.tr k)) (peElapsed pk (a.tr k)) = true) :
    peData c n k pk a = andThen (peAppend n k (polTop pk.pol) false a) fun a' =>
      .ok (a'.modTr k (peDataClock c pk)) :=
  if_pos hlate

/-! ## The dropout fill -/

theorem peFillTarget_eq (target : Nat) (cs : List Nat) :
    peFillTarget target cs = if target = 0 then cs.foldl min (cs.headD 0)
      else if target = 1 then cs.foldl max 0 else cs.sum / cs.length := by
  match target with
  | 0 => rfl
  | 1 => rfl
  | _ + 2 => rfl

theorem peFillCount_eq (c : CfgFile) (n : Nat) (k : Fin 9) (a : Attempt) :
    peFillCount c n k a = if peOthers n k a = [] then 0
      else min (peFillTarget (c.nat .peFakeTarget) ((peOthers n k a).map fun j => (a.tr j).dcStart)
        - (a.tr k).datacount) (65536 - (a.tr k).datacount) := by
  cases hothers : peOthers n k a <;> simp [peFillCount, hothers]

/-- The fill ends with the buffer (rule R247). -/
theorem peFillCount_le (c : CfgFile) (n : Nat) (k : Fin 9) (a : Attempt) :
    peFillCount c n k a ≤ 65536 - (a.tr k).datacount := by
  rw [peFillCount_eq]
  split
  · exact Nat.zero_le _
  · exact Nat.min_le_right _ _

/-- Clamped to the buffer, the fill itself never overflows (rule R247). -/
theorem peFill_within_buffer (c : CfgFile) (n : Nat) (k : Fin 9) (a : Attempt) :
    ∃ a1, repeatTimes (peAppend n k (a.tr k).lastbit true) (peFillCount c n k a) a = .ok a1 ∧
      (a1.tr k).datacount = (a.tr k).datacount + peFillCount c n k a := by
  have hclamp := peFillCount_le c n k a
  by_cases hroom : (a.tr k).datacount ≤ 65536
  · have hfits : (a.tr k).datacount + peFillCount c n k a ≤ Config.databuf := by
      change _ ≤ 65536
      omega
    obtain ⟨a1, hrun, hcount, -⟩ := peFill_answers (peFillCount c n k a) a hfits
    exact ⟨a1, hrun, hcount⟩
  · have hnone : peFillCount c n k a = 0 := by omega
    rw [hnone]
    exact ⟨a, rfl, rfl⟩

/-- After its fill a return counts the faked bits, appends the returning bit and moves the reference
(rule R247). -/
theorem peReturn_of_fill {c : CfgFile} {n : Nat} {k : Fin 9} (pk : Peak) {a a1 : Attempt}
    (hfill : repeatTimes (peAppend n k (a.tr k).lastbit true) (peFillCount c n k a) a = .ok a1) :
    peReturn c n k pk a =
      andThen (peAppend n k (polTop pk.pol) false (bumpFaked k (peFillCount c n k a) a1)) fun a2 =>
        .ok (a2.modTr k (peReference pk.t 0 (polTop pk.pol))) := by
  rw [peReturn, hfill, andThen_ok_left]
  rfl

theorem peReturn_overflows {c : CfgFile} {n : Nat} {k : Fin 9} (pk : Peak) {a : Attempt}
    (hfull : 65536 ≤ (a.tr k).datacount + peFillCount c n k a) :
    peReturn c n k pk a = .error ⟨.bufferOverflow, BitVec.ofNat 16 k.val⟩ := by
  obtain ⟨a1, hfill, hcount⟩ := peFill_within_buffer c n k a
  have hfull1 : 65536 ≤ ((bumpFaked k (peFillCount c n k a) a1).tr k).datacount := by
    rw [bumpFaked, Attempt.tr_modTr_same]
    exact hcount ▸ hfull
  rw [peReturn_of_fill pk hfill, peAppend_overflows hfull1, andThen_error_left]

/-- What a return from a dropout leaves where there is room: its track, the other tracks, and every bit of
the data buffer (rules R247, R248). -/
structure PeReturned (n : Nat) (k : Fin 9) (pk : Peak) (fill : Nat) (a a' : Attempt) : Prop where
  track : a'.tr k = { a.tr k with
    datacount := (a.tr k).datacount + fill + 1
    faked := (a.tr k).faked + fill
    lastbit := polTop pk.pol
    tLastdata := pk.t
    clknext := true
    tPulseAdj := 0 }
  others : ∀ j, j ≠ k → a'.tr j = a.tr j
  bits : ∀ (j : Fin 9) (i : Nat), j.val < n →
    symBit n (bufRead a'.buf i).sym j =
      (if i = (a.tr k).datacount + fill ∧ j = k then polTop pk.pol
       else if j = k ∧ (a.tr k).datacount ≤ i ∧ i < (a.tr k).datacount + fill then (a.tr k).lastbit
       else symBit n (bufRead a.buf i).sym j) ∧
    symBit n (bufRead a'.buf i).fmask j =
      (if i = (a.tr k).datacount + fill ∧ j = k then false
       else if j = k ∧ (a.tr k).datacount ≤ i ∧ i < (a.tr k).datacount + fill then true
       else symBit n (bufRead a.buf i).fmask j)

section

variable {n : Nat} {k : Fin 9} {pk : Peak} {fill : Nat} {a a' : Attempt}

theorem PeReturned.filled_bits (h : PeReturned n k pk fill a a') (hk : k.val < n) {i : Nat}
    (hfrom : (a.tr k).datacount ≤ i) (hto : i < (a.tr k).datacount + fill) :
    symBit n (bufRead a'.buf i).sym k = (a.tr k).lastbit ∧
    symBit n (bufRead a'.buf i).fmask k = true := by
  obtain ⟨hsym, hfmask⟩ := h.bits k i hk
  have hnotlast : ¬ (i = (a.tr k).datacount + fill ∧ k = k) := fun hlast => by omega
  rw [hsym, hfmask, if_neg hnotlast, if_neg hnotlast, if_pos ⟨rfl, hfrom, hto⟩,
    if_pos ⟨rfl, hfrom, hto⟩]
  exact ⟨rfl, rfl⟩

theorem PeReturned.returning_bit (h : PeReturned n k pk fill a a') (hk : k.val < n) :
    symBit n (bufRead a'.buf ((a.tr k).datacount + fill)).sym k = polTop pk.pol ∧
    symBit n (bufRead a'.buf ((a.tr k).datacount + fill)).fmask k = false := by
  obtain ⟨hsym, hfmask⟩ := h.bits k _ hk
  rw [hsym, hfmask, if_pos ⟨rfl, rfl⟩, if_pos ⟨rfl, rfl⟩]
  exact ⟨rfl, rfl⟩

theorem PeReturned.other_bits (h : PeReturned n k pk fill a a') {j : Fin 9} (hj : j.val < n) {i : Nat}
    (hout : j ≠ k ∨ i < (a.tr k).datacount ∨ (a.tr k).datacount + fill < i) :
    symBit n (bufRead a'.buf i).sym j = symBit n (bufRead a.buf i).sym j ∧
    symBit n (bufRead a'.buf i).fmask j = symBit n (bufRead a.buf i).fmask j := by
  obtain ⟨hsym, hfmask⟩ := h.bits j i hj
  have hnotlast : ¬ (i = (a.tr k).datacount + fill ∧ j = k) := by omega
  have hnotfilled : ¬ (j = k ∧ (a.tr k).datacount ≤ i ∧ i < (a.tr k).datacount + fill) := by omega
  rw [hsym, hfmask, if_neg hnotlast, if_neg hnotlast, if_neg hnotfilled, if_neg hnotfilled]
  exact ⟨rfl, rfl⟩

end

theorem peReturn_returns {c : CfgFile} {n : Nat} {k : Fin 9} (pk : Peak) {a : Attempt} (hn : n ≤ 9)
    (hk : k.val < n) (hwf : Memory.wf a.buf = true)
    (hroom : (a.tr k).datacount + peFillCount c n k a < 65536) :
    ∃ a', peReturn c n k pk a = .ok a' ∧ PeReturned n k pk (peFillCount c n k a) a a' := by
  obtain ⟨a1, hfill, hwf1, htrack1, hothers1, hbits1⟩ :=
    peFill_spec n k (a.tr k).lastbit true hn hk (peFillCount c n k a) a hwf (Nat.le_of_lt hroom)
  have hcounted : (bumpFaked k (peFillCount c n k a) a1).tr k = { a.tr k with
      datacount := (a.tr k).datacount + peFillCount c n k a
      faked := (a.tr k).faked + peFillCount c n k a } := by
    rw [bumpFaked, Attempt.tr_modTr_same, htrack1]
  have hroom1 : ((bumpFaked k (peFillCount c n k a) a1).tr k).datacount < Config.databuf := by
    rw [hcounted]
    exact hroom
  rw [peReturn_of_fill pk hfill, peAppend_answers hroom1, andThen_ok_left]
  refine ⟨_, rfl, ?track, fun j hj => ?others, fun j i hj => ?bits⟩
  case track =>
    rw [Attempt.tr_modTr_same, peAppended_tr_same, hcounted]
    rfl
  case others =>
    rw [Attempt.tr_modTr, if_neg hj, peAppended_tr_other _ _ _ _ hj, bumpFaked, Attempt.tr_modTr,
      if_neg hj, hothers1 j hj]
  case bits =>
    obtain ⟨hsym, hfmask⟩ := hbits1 j i hj
    rw [Attempt.modTr_buf, peAppended_buf, hcounted, bumpFaked, Attempt.modTr_buf, ← hsym, ← hfmask]
    exact writeBits_bits hwf1 hn hk hj (polTop pk.pol) false _ i

end Sys2Proof.Machine

namespace Sys2Proof.Proofs

open Sys2Proof Sys2Proof.Machine

/-- Settles O43: an append is one `writeBits`, which replaces one bit of one entry. -/
theorem peAppendEffect : Obligations.PeAppendEffect := by
  intro n k b f a hn hk hwf
  refine ⟨fun hfull => peAppend_overflows hfull b f, fun hroom =>
    ⟨_, peAppend_answers hroom b f, peAppended_tr_same n k b f a,
      fun j hj => peAppended_tr_other n b f a hj, ?sym, ?fmask, fun j hj hne => ?bits,
      fun i hi => ?entries⟩⟩
  case sym =>
    rw [peAppended_buf, (writeBits_bits hwf hn hk hk b f _ _).1, if_pos ⟨rfl, rfl⟩]
  case fmask =>
    rw [peAppended_buf, (writeBits_bits hwf hn hk hk b f _ _).2, if_pos ⟨rfl, rfl⟩]
  case bits =>
    obtain ⟨hsym, hfmask⟩ := writeBits_bits hwf hn hk hj b f (a.tr k).datacount (a.tr k).datacount
    rw [peAppended_buf, hsym, hfmask, if_neg (hne ·.2), if_neg (hne ·.2)]
    exact ⟨rfl, rfl⟩
  case entries =>
    rw [peAppended_buf, writeBits_read hwf, if_neg hi]

/-- Settles O44, phase by phase. -/
theorem peDataPeak : Obligations.PeDataPeak := by
  intro c n k pk a t window becomes
  refine ⟨fun hphase => pePeak_of_pre0 c n pk hphase, fun hphase => ?preamble,
    fun hphase hidle => pePeak_of_return c n pk hphase hidle, fun hphase hbusy => ?data⟩
  case preamble =>
    intro elapsed
    simp only [becomes, pePeak_of_preamble c n pk hphase]
    refine ⟨fun hlate => ?start, fun hearly hpol => ?alternate, fun hearly hpol => ?same⟩
    case start =>
      rw [pePreamble_of_start (t := t.awake) hlate]
      rfl
    case alternate =>
      rw [pePreamble_of_alternate (t := t.awake) hearly hpol]
      rfl
    case same =>
      rw [pePreamble_of_repeat (t := t.awake) hearly hpol]
      rfl
  case data =>
    intro elapsed
    simp only [becomes, pePeak_of_data c n pk hphase hbusy]
    refine ⟨fun hearly => ?clock, fun hlate hfull => ?overflow, fun hlate hroom hn hk => ?append⟩
    case clock =>
      have hawake : Track.awake { t with clknext := false } = { t with clknext := false } :=
        Track.awake_of_busy hbusy
      rw [peData_of_clock hearly]
      exact congrArg (fun u => Except.ok (a.setTr k u, false)) hawake.symm
    case overflow =>
      rw [peData_of_data hlate, peAppend_overflows hfull]
      rfl
    case append =>
      have happend := peAppend_answers (n := n) hroom (polTop pk.pol) false
      rw [peData_of_data hlate, happend]
      refine ⟨_, _, rfl, fun j hj => ?others, rfl, rfl, ?track⟩
      case others => rw [Attempt.tr_modTr, if_neg hj, peAppended_tr_other _ _ _ _ hj]
      case track =>
        rw [Attempt.tr_modTr_same, peAppended_tr_same]
        rfl

/-- Settles O45: the fill is `peFillCount`, and what it and the returning bit leave is `PeReturned`. -/
theorem peDropoutFill : Obligations.PeDropoutFill := by
  intro c n k pk a hn hk hwf _ t others counts target fill
  have hfill : fill = peFillCount c n k a := by
    rw [peFillCount_eq, peFillTarget_eq]
    rfl
  rw [hfill]
  refine ⟨fun hfull => peReturn_overflows pk hfull, fun hroom => ?returns⟩
  obtain ⟨a', hreturn, hreturned⟩ := peReturn_returns pk hn hk hwf hroom
  exact ⟨a', hreturn, hreturned.track, hreturned.others,
    fun _ hfrom hto => hreturned.filled_bits hk hfrom hto, (hreturned.returning_bit hk).1,
    (hreturned.returning_bit hk).2, fun _ _ hj hout => hreturned.other_bits hj hout⟩

end Sys2Proof.Proofs
end

section
/-! SUPPORT. The faked bits a postamble strip leaves counted (rule R251). -/

namespace Sys2Proof.Machine

/-- What a run of the strip leaves of its track's count of faked bits: those of the bits it kept. -/
theorem peStrip_faked {c : CfgFile} {l : Latched} {k : Fin 9} {a : Attempt} (hl : LatFacts l)
    (hinv : AttemptInv l a) (hpe : l.runs .pe = true) (hk : k.val < l.ntrks) :
    ((peStrip c l.ntrks k a).tr k).faked =
      fakedIn l.ntrks k a.buf ((peStrip c l.ntrks k a).tr k).datacount := by
  obtain ⟨hinv', hframe⟩ := peStripFrom_inv hl hpe c hk (c.nat .maxPostambleBits) 0 hinv
  rw [peStrip, (hinv'.buf.pe hpe k hk).faked]
  exact fakedIn_congr fun i hkept => (hframe.peBuf hpe k i hk (.inl hkept)).2

/-- In a column clear past its count, bits cleared from `kept` to the count are bits cleared from `kept`
on. -/
theorem cleared_bit_of_clear_past {cond : Prop} [Decidable cond] {b : Bool} {kept count i : Nat}
    (hclear : cond → count ≤ i → b = false) :
    (if cond ∧ kept ≤ i ∧ i < count then false else b) = if cond ∧ kept ≤ i then false else b := by
  by_cases hstripped : cond ∧ kept ≤ i
  · rw [if_pos hstripped]
    split
    next => rfl
    next hpast =>
      exact hclear hstripped.1 (Nat.le_of_not_lt fun hlt => hpast ⟨hstripped.1, hstripped.2, hlt⟩)
  · rw [if_neg hstripped, if_neg fun h => hstripped ⟨h.1, h.2.1⟩]

end Sys2Proof.Machine

namespace Sys2Proof.Proofs

open Sys2Proof Sys2Proof.Machine

/-- Settles O46: the strip is a run of `peStripBit`, whose end is `peStripFrom_spec`; the invariant, which
the strip keeps, counts the faked bits left and says that the column was clear past its count. -/
theorem pePostambleStrip : Obligations.PePostambleStrip := by
  intro c l k a hlegal hinv hpe hk n a' count kept removed bit
  have hl := legal_latFacts hlegal
  obtain ⟨hkept, hremoved, hend, hzeros, htrack, hothers, hbits⟩ := peStripFrom_spec c n k hl.ntrks_le hk
    (c.nat .maxPostambleBits) 0 a hinv.buf.wf (hinv.tracks k).datacount
  simp only [Nat.zero_add] at hend hzeros
  refine ⟨hkept, hremoved, hend, hzeros, peStrip_faked hl hinv hpe hk, htrack, hothers,
    fun j i hj => ?bits⟩
  case bits =>
    obtain ⟨hsym, hfmask⟩ := hbits j i hj
    have hclear := (hinv.buf.pe hpe k hk).clear i
    refine ⟨hsym.trans (cleared_bit_of_clear_past ?sym), hfmask.trans (cleared_bit_of_clear_past ?fmask)⟩
    case sym =>
      rintro rfl hpast
      exact (hclear hpast).1
    case fmask =>
      rintro rfl hpast
      exact (hclear hpast).2

end Sys2Proof.Proofs
end

section
/-! SUPPORT. The idle timeout of all tracks, and the end of the block by it (rules R245, R246, R327,
R328). -/

namespace Sys2Proof.Machine

/-- A track is idle after its timeout: it was, or it has a peak to measure from and none has come for the
factor of a bit time (rules R245, R327). -/
def idleAfter (factor now : F64) (started : Track → Bool) (t : Track) : Bool :=
  t.idle || (started t && fLt (fMul factor t.clk.value) (fSub now t.tLast))

section

variable (n : Nat) (factor now : F64) (started : Track → Bool) (a : Attempt)

theorem eachTrack_idleTimeout_tr (k : Fin 9) :
    (eachTrack n (fun t => idleTimeout factor now (started t) t) a).tr k =
      if k.val < n then { a.tr k with idle := idleAfter factor now started (a.tr k) } else a.tr k := by
  rw [eachTrack_tr, idleTimeout_eq]
  rfl

theorem allIdle_iff : allIdle n a = true ↔
    a.anyPeak = true ∧ ∀ k : Fin 9, k.val < n → (a.tr k).idle = true := by
  simp only [allIdle, Bool.and_eq_true, List.all_eq_true, mem_tracks]

theorem allIdle_idleTimeout_iff :
    allIdle n (eachTrack n (fun t => idleTimeout factor now (started t) t) a) = true ↔
      a.anyPeak = true ∧ ∀ k : Fin 9, k.val < n → idleAfter factor now started (a.tr k) = true := by
  rw [allIdle_iff, eachTrack_anyPeak]
  refine and_congr_right fun _ => forall_congr' fun k => imp_congr_right fun hk => ?_
  rw [eachTrack_idleTimeout_tr, if_pos hk]

end

end Sys2Proof.Machine

namespace Sys2Proof.Proofs

open Sys2Proof Sys2Proof.Machine

/-- Settles O47: PE and GCR run the same timeout, from another factor and another first peak. -/
theorem idleEndsBlock : Obligations.IdleEndsBlock := fun c n now a =>
  ⟨eachTrack_idleTimeout_tr n (c.get .peIdleFactor) now (·.phase != .pre0) a,
    allIdle_idleTimeout_iff n (c.get .peIdleFactor) now (·.phase != .pre0) a,
    eachTrack_idleTimeout_tr n (c.get .gcrIdleFactor) now (·.haveLast) a,
    allIdle_idleTimeout_iff n (c.get .gcrIdleFactor) now (·.haveLast) a⟩

end Sys2Proof.Proofs
end

section
/-! SUPPORT. The tapemark test of each mode as a condition on the attempt (rules R252, R291, R342). -/

namespace Sys2Proof.Machine

theorem peTapemark_iff (c : CfgFile) (a : Attempt) : peTapemark c a = true ↔ ∀ k : Fin 9,
    if (c.get .peTmMask).getLsbD k.val then 75 < (a.tr k).peakcount ∧ (a.tr k).datacount ≤ 2
    else (a.tr k).peakcount ≤ 2 := by
  simp only [peTapemark, pattern_iff, Bool.and_eq_true, decide_eq_true_eq]

theorem gcrTapemark_iff (c : CfgFile) (a : Attempt) : gcrTapemark c a = true ↔ ∀ k : Fin 9,
    if (c.get .gcrTmMask).getLsbD k.val then 250 ≤ (a.tr k).peakcount ∧ (a.tr k).peakcount ≤ 400
    else (a.tr k).peakcount ≤ 2 := by
  simp only [gcrTapemark, pattern_iff, Bool.and_eq_true, decide_eq_true_eq]

theorem nrziTapemark_iff_of_nine (b : Buf) (count : Nat) (crc lrc : Sym) :
    nrziTapemark 9 (bufSyms b count) crc lrc = true ↔
      count = 1 ∧ (bufRead b 0).sym = 0x026 ∧ crc = 0x000 ∧ lrc = 0x026 := by
  rw [nrziTapemark, if_pos rfl, Bool.and_eq_true, Bool.and_eq_true, bufSyms_single]
  simp only [beq_iff_eq, and_assoc]

theorem nrziTapemark_iff_of_not_nine {n : Nat} (hn : n ≠ 9) (b : Buf) (count : Nat) (crc lrc : Sym) :
    nrziTapemark n (bufSyms b count) crc lrc = true ↔
      count = 1 ∧ (bufRead b 0).sym = 0x01E ∧ lrc = 0x01E := by
  rw [nrziTapemark, if_neg hn, Bool.and_eq_true, bufSyms_single, beq_iff_eq, and_assoc]

end Sys2Proof.Machine

namespace Sys2Proof.Proofs

open Sys2Proof Sys2Proof.Machine

/-- Settles O56: the block type is TAPEMARK by the test of the mode alone, and each test is its
condition. -/
theorem tapemarkTests : Obligations.TapemarkTests := by
  intro c l a hscan tapemark z
  obtain ⟨hpe, hgcr, hnrzi⟩ := finalize_tm (c := c) (a := a) hscan
  refine ⟨fun hmode => (hpe hmode).trans (peTapemark_iff c a),
    fun hmode => (hgcr hmode).trans (gcrTapemark_iff c a), fun hmode hn => ?nine, fun hmode hn => ?seven⟩
  case nine =>
    have htest := hnrzi hmode
    rw [hn] at htest
    exact htest.trans (nrziTapemark_iff_of_nine a.buf z.nsym z.crc z.lrc)
  case seven =>
    exact (hnrzi hmode).trans (nrziTapemark_iff_of_not_nine hn a.buf z.nsym z.crc z.lrc)

end Sys2Proof.Proofs
end

section
/-! SUPPORT. An NRZI peak: the start of the block, a timely and a late peak, and the speed auto-reset (rules
R281, R282, R287, R289). -/

namespace Sys2Proof.Machine

@[simp] theorem nrziBlockStart_haveBoundary (pk : Peak) (z : Nrzi) :
    (nrziBlockStart pk z).haveBoundary = z.haveBoundary := by
  unfold nrziBlockStart
  split <;> rfl

@[simp] theorem nrziBlockStart_tBoundary (pk : Peak) (z : Nrzi) :
    (nrziBlockStart pk z).tBoundary = z.tBoundary := by
  unfold nrziBlockStart
  split <;> rfl

theorem speedResetPeak_eq (c : CfgFile) (k : Fin 9) (pk : Peak) (z : Nrzi) :
    speedResetPeak c k pk z =
      if c.nat .nrziSpeedReset ≠ 1 ∨ z.srDone = true then z
      else if z.srTrk = none then
        if pk.pol = .top then { z with srTrk := some k, srT := pk.t } else z
      else if z.srTrk = some k then { z with clk := clkForce (fSub pk.t z.srT) z.clk, srDone := true }
      else z := by
  unfold speedResetPeak
  by_cases hoff : c.nat .nrziSpeedReset ≠ 1 ∨ z.srDone = true
  · rw [if_pos hoff, if_neg fun hon => hoff.elim (· hon.1) fun hdone => by simp [hon.2] at hdone]
  · have hon : c.nat .nrziSpeedReset = 1 ∧ z.srDone = false := by simpa using hoff
    rw [if_neg hoff, if_pos hon]
    cases htrk : z.srTrk with
    | none => rfl
    | some j => simp [eq_comm]

/-! ## Timely and late -/

theorem nrziPeak_of_timely (c : CfgFile) (n : Nat) (k : Fin 9) {pk : Peak} {a : Attempt}
    (htimely : ¬ (a.nrzi.haveBoundary = true ∧ fLe pk.t a.nrzi.tBoundary = true)) :
    nrziPeak c n k pk a = .ok { a.modTr k fun t =>
        if t.pending then t else { t with pending := true, tPending := pk.t } with
      nrzi := speedResetPeak c k pk (nrziBlockStart pk a.nrzi) } := by
  simp only [nrziPeak, nrziBlockStart_haveBoundary, nrziBlockStart_tBoundary, Bool.and_eq_true]
  rw [if_neg htimely]
  rfl

theorem nrziPeak_of_late (c : CfgFile) (n : Nat) (k : Fin 9) {pk : Peak} {a : Attempt}
    (hlate : a.nrzi.haveBoundary = true ∧ fLe pk.t a.nrzi.tBoundary = true) :
    nrziPeak c n k pk a = andThen (nrziLatePeak n k { a with nrzi := nrziBlockStart pk a.nrzi })
      fun x => .ok { x with nrzi := speedResetPeak c k pk x.nrzi } := by
  simp only [nrziPeak, nrziBlockStart_haveBoundary, nrziBlockStart_tBoundary, Bool.and_eq_true]
  rw [if_pos hlate]

/-! ## A late peak -/

theorem setBit_zero (n : Nat) (k : Fin 9) : setBit n 0 k = trackMask n k := BitVec.zero_or

section

variable {n : Nat} {k : Fin 9} {a : Attempt}

theorem nrziLatePeak_of_data (hpost : a.nrzi.postCounter = 0) (hsome : 0 < a.nrzi.nsym) :
    nrziLatePeak n k a = .ok (nrziLateData n k a) :=
  if_pos ⟨hpost, hsome⟩

theorem nrziLatePeak_of_tail (hpost : a.nrzi.postCounter = 1) :
    nrziLatePeak n k a = andThen (nrziAppend (setBit n 0 k) a) fun a1 =>
      .ok (nrziWarn { a1 with nrzi := { a1.nrzi with postCounter := 0 } }) := by
  rw [nrziLatePeak, if_neg (by omega), if_pos hpost]

theorem nrziLatePeak_of_ignored
    (hignored : 2 ≤ a.nrzi.postCounter ∨ (a.nrzi.postCounter = 0 ∧ a.nrzi.nsym = 0)) :
    nrziLatePeak n k a = .ok a := by
  rw [nrziLatePeak, if_neg (by omega), if_neg (by omega)]

theorem nrziLateData_of_set (hset : symBit n (bufRead a.buf (a.nrzi.nsym - 1)).sym k = true) :
    nrziLateData n k a = a :=
  if_pos hset

theorem nrziLateData_of_clear (hclear : symBit n (bufRead a.buf (a.nrzi.nsym - 1)).sym k = false) :
    nrziLateData n k a =
      let last := bufRead a.buf (a.nrzi.nsym - 1)
      nrziWarn { a with buf := bufWrite a.buf (a.nrzi.nsym - 1) { last with sym := setBit n last.sym k } } :=
  if_neg (Bool.eq_false_iff.mp hclear)

end

end Sys2Proof.Machine

namespace Sys2Proof.Proofs

open Sys2Proof Sys2Proof.Machine

/-- Settles O49: the boundary decides between a pending mark and the late peak, whose cases are those of
post_counter; both go on to `speedResetPeak`. -/
theorem nrziLatePeak : Obligations.NrziLatePeak := by
  refine ⟨?peak, ?late⟩
  case peak =>
    intro c n k pk a z t started speed late
    have hspeed : speed = speedResetPeak c k pk := funext fun x => (speedResetPeak_eq c k pk x).symm
    rw [hspeed]
    exact ⟨nrziPeak_of_timely c n k, nrziPeak_of_late c n k⟩
  case late =>
    intro n k a _ _ hwf _ z last
    refine ⟨fun hpost hsome hset => ?set, fun hpost hsome hclear => ?clear, fun hpost hroom => ?reopen,
      fun hpost hfull => ?overflow, nrziLatePeak_of_ignored⟩
    case set =>
      rw [nrziLatePeak_of_data hpost hsome, nrziLateData_of_set hset]
    case clear =>
      rw [nrziLatePeak_of_data hpost hsome, nrziLateData_of_clear hclear]
      have hlast : ∀ i, i = z.nsym - 1 ↔ i + 1 = z.nsym := fun i => by omega
      exact ⟨_, rfl, rfl, rfl, fun i =>
        (bufRead_bufWrite hwf (z.nsym - 1) i _).trans (if_congr (hlast i) rfl rfl)⟩
    case reopen =>
      rw [nrziLatePeak_of_tail hpost, setBit_zero, nrziAppend_answers hroom, andThen_ok_left]
      exact ⟨_, rfl, rfl, rfl, fun i => bufRead_bufWrite hwf z.nsym i _⟩
    case overflow =>
      rw [nrziLatePeak_of_tail hpost, nrziAppend_eq, if_pos (Nat.le_of_eq hfull.symm), andThen_error_left]

end Sys2Proof.Proofs
end

section
/-! SUPPORT. The bytes a row of data groups gives, and the invalid codes of a pair (rule R336). -/

namespace Sys2Proof.Machine

section

variable (n : Nat) (table : Code → Option (BitVec 4)) (A B : List Code) {j : Nat}

/-- Bytes 0 to 3 of a pair are those of group A. -/
theorem pairBytes_groupA (hj : j < 4) :
    (pairBytes n table (A, B)).getD j 0 = rowByte n table A j := by
  match j, hj with
  | 0, _ | 1, _ | 2, _ | 3, _ => rfl

/-- Bytes 4 to 7 of a pair are those of group B. -/
theorem pairBytes_groupB (hj : j < 4) :
    (pairBytes n table (A, B)).getD (4 + j) 0 = rowByte n table B j := by
  match j, hj with
  | 0, _ | 1, _ | 2, _ | 3, _ => rfl

theorem pairBadDgroups_eq : pairBadDgroups table (A, B) =
    (A.filter fun x => table x = none).length + (B.filter fun x => table x = none).length := by
  have hinvalid : (fun x => (table x).isNone) = fun x => decide (table x = none) :=
    funext fun x => by cases table x <;> rfl
  rw [pairBadDgroups, hinvalid, List.filter_append, List.length_append]

end

end Sys2Proof.Machine

namespace Sys2Proof.Proofs

open Sys2Proof Sys2Proof.Machine

/-- Settles O55: each byte of a pair is one `rowByte`, whose bits are those of the nibbles. -/
theorem pairBytes : Obligations.PairBytes := by
  intro n table A B hn _ _
  refine ⟨rfl, pairBadDgroups_eq table A B, ?bits⟩
  intro k j hk hj nibble
  rw [pairBytes_groupA n table A B hj, pairBytes_groupB n table A B hj]
  exact ⟨rowByte_bits hn table A j k hk, rowByte_bits hn table B j k hk⟩

end Sys2Proof.Proofs
end

section
/-! SUPPORT. A GCR peak as the bits it appends, one `gcrBitted` each, and what its last step writes over
them: the pulse adjustment, the run of ones and the clock (rules R320 to R322, R325). -/

namespace Sys2Proof.Machine

/-! ## Bits in a row -/

theorem gcrBit_of_room (k : Fin 9) (bit : Option F64) {t : Track}
    (hroom : t.datacount < Config.gcrMaxbits) : gcrBit k bit t = .ok (gcrBitted bit t) :=
  gcrBit_eq_ok.mpr ⟨hroom, rfl⟩

/-- Bits appended one after the other, where the track has room for them. -/
def appendBits (bits : List (Option F64)) (t : Track) : Track :=
  bits.foldl (fun u bit => gcrBitted bit u) t

theorem appendBits_snoc (bits : List (Option F64)) (bit : Option F64) (t : Track) :
    appendBits (bits ++ [bit]) t = gcrBitted bit (appendBits bits t) :=
  List.foldl_concat ..

theorem appendBits_datacount (bits : List (Option F64)) (t : Track) :
    (appendBits bits t).datacount = t.datacount + bits.length := by
  induction bits generalizing t with
  | nil => rfl
  | cons bit bits ih =>
    rw [appendBits, List.foldl_cons, ← appendBits, ih, gcrBitted_datacount, List.length_cons]
    omega

/-- Appended bits join the track's bits, and change no field that the rest of a peak reads but the
clock. -/
theorem appendBits_fields (bits : List (Option F64)) (t : Track) :
    (appendBits bits t).bits = t.bits ++ bits.map Option.isSome ∧
    (appendBits bits t).tPulseAdj = t.tPulseAdj ∧ (appendBits bits t).onesRun = t.onesRun ∧
    (appendBits bits t).idle = t.idle ∧ (appendBits bits t).tLast = t.tLast ∧
    (appendBits bits t).tLast2 = t.tLast2 := by
  induction bits generalizing t with
  | nil => simp [appendBits]
  | cons bit bits ih =>
    obtain ⟨b1, -, b2, b3, b4, b5, b6⟩ := resyncBit_keeps bit { t with
      bits := t.bits ++ [bit.isSome]
      datacount := t.datacount + 1
      last5 := (t.last5 <<< 1) ||| (if bit.isSome then 1 else 0) }
    obtain ⟨i1, i2, i3, i4, i5, i6⟩ := ih (gcrBitted bit t)
    refine ⟨i1.trans ?_, i2.trans b2, i3.trans b3, i4.trans b4, i5.trans b5, i6.trans b6⟩
    rw [gcrBitted, b1, List.append_assoc]
    rfl

/-! ## The bits of a peak -/

section

variable (m : Nat) (time : F64) (t : Track)

/-- The bits of a peak at `time` after `m` zeros. -/
def peakBits : List (Option F64) := List.replicate m none ++ [some time]

theorem peakBits_length : (peakBits m time).length = m + 1 := by simp [peakBits]

theorem appendBits_peakBits : appendBits (peakBits m time) t =
    gcrBitted (some time) (appendBits (List.replicate m none) t) :=
  appendBits_snoc ..

theorem appendBits_peakBits_bits : (appendBits (peakBits m time) t).bits =
    t.bits ++ List.replicate m false ++ [true] := by
  obtain ⟨hbits, -⟩ := appendBits_fields (peakBits m time) t
  rw [hbits, peakBits, List.map_append, List.map_replicate, ← List.append_assoc]
  rfl

theorem appendBits_peakBits_last5 :
    (appendBits (peakBits m time) t).last5 = (t.last5 <<< (m + 1)) ||| 1 := by
  obtain ⟨hzeros, -⟩ := gcrZeros_resync m t
  obtain ⟨hone, -⟩ := gcrBitted_one_resync time (appendBits (List.replicate m none) t)
  rw [appendBits_peakBits, hone, appendBits, hzeros, BitVec.shiftLeft_add]

/-- After zeros, the 1-bit is the first of a burst, if the last zero armed one. -/
theorem appendBits_peakBits_arms (hm : 0 < m) :
    (appendBits (peakBits m time) t).resyncActive = decide (t.last5 <<< m = 0b11100) ∧
    ((appendBits (peakBits m time) t).resyncActive = true →
      (appendBits (peakBits m time) t).resyncBitcount = 1 ∧
      (appendBits (peakBits m time) t).tResyncFirst = time) := by
  obtain ⟨-, -, hzeros⟩ := gcrZeros_resync m t
  obtain ⟨harmed, hcount⟩ := hzeros hm
  obtain ⟨-, houtside, hinside⟩ := gcrBitted_one_resync time (appendBits (List.replicate m none) t)
  rw [appendBits_peakBits, ← harmed, ← appendBits]
  cases hactive : (appendBits (List.replicate m none) t).resyncActive with
  | false =>
    obtain ⟨hstill, -⟩ := houtside hactive
    simp [hstill]
  | true =>
    obtain ⟨hstill, hnext, hfirst⟩ := hinside hactive
    have hnone := hcount hactive
    rw [← appendBits] at hnone
    simp [hstill, hnext, hfirst, hnone]

/-- Zeros break a burst, so only a 1-bit without them forces the clock. -/
theorem appendBits_peakBits_clk (hroom : t.datacount + m ≤ Config.gcrMaxbits) :
    (appendBits (peakBits m time) t).clk =
      if m = 0 ∧ t.resyncActive = true ∧ t.resyncBitcount = 69
      then clkForce (fDiv (fSub time t.tResyncFirst) (fOfNat 69)) t.clk else t.clk := by
  obtain ⟨hclk, hnone, hcount⟩ := gcrZeros_clk 0 m t _ (gcrZeros_fold 0 m t hroom)
  rw [← appendBits] at hclk hnone hcount
  rw [appendBits_peakBits, gcrBitted_one_clk]
  rcases Nat.eq_zero_or_pos m with hm | hm
  · rw [hnone hm]
    simp [hm]
  · have hfew : ¬ ((appendBits (List.replicate m none) t).resyncActive = true ∧
        (appendBits (List.replicate m none) t).resyncBitcount = 69) := fun ⟨hactive, hlast⟩ => by
      rw [hcount hm hactive] at hlast
      cases hlast
    rw [if_neg hfew, if_neg (fun h => by omega), hclk]

end

/-! ## The peak -/

/-- What gcr_clock changes: the run of ones, and the clock once the run is three (rule R321). -/
theorem gcrClock_eq (c : CfgFile) (nz : Nat) (t : Track) :
    let run := if nz = 0 then t.onesRun + 1 else 1
    gcrClock c nz t = { t with
      onesRun := run
      clk := if 3 ≤ run then clkAdjust (c.get .clkAlpha) (fSub t.tLast t.tLast2) t.clk else t.clk } := by
  intro run
  by_cases hrun : 3 ≤ run
  · rw [if_pos hrun]
    exact if_pos hrun
  · rw [if_neg hrun]
    exact if_neg hrun

section

variable (c : CfgFile) (pk : Peak) (t : Track)

/-- The zeros a peak inserts: none before the track's first (rule R320). -/
def peakZeros : Nat := if t.haveLast then gcrZeros c pk.t t else 0

/-- The track once a peak's bits stand in it. -/
def peakAppended : Track := appendBits (peakBits (peakZeros c pk t) pk.t) { t with idle := false }

variable {c pk t}

theorem peakZeros_first (hlast : t.haveLast = false) : peakZeros c pk t = 0 := by
  simp [peakZeros, hlast]

theorem peakZeros_next (hlast : t.haveLast = true) : peakZeros c pk t = gcrZeros c pk.t t := by
  simp [peakZeros, hlast]

theorem haveLast_of_peakZeros_pos (hzeros : 0 < peakZeros c pk t) : t.haveLast = true := by
  by_contra hlast
  rw [peakZeros_first (Bool.eq_false_iff.mpr hlast)] at hzeros
  exact Nat.lt_irrefl 0 hzeros

theorem peakZeros_le : peakZeros c pk t ≤ 2 := by
  cases hlast : t.haveLast with
  | false => rw [peakZeros_first hlast]; omega
  | true => rw [peakZeros_next hlast]; exact gcrZeros_le c pk.t t

theorem peakBits_peakZeros :
    (if t.haveLast then List.replicate (gcrZeros c pk.t t) none ++ [some pk.t] else [some pk.t]) =
      peakBits (peakZeros c pk t) pk.t := by
  cases hlast : t.haveLast with
  | false => rw [peakZeros_first hlast]; rfl
  | true => rw [peakZeros_next hlast]; rfl

theorem peakAppended_of_noZeros (hzeros : peakZeros c pk t = 0) :
    peakAppended c pk t = gcrBitted (some pk.t) { t with idle := false } := by
  rw [peakAppended, hzeros]
  rfl

theorem peakAppended_fields :
    (peakAppended c pk t).tPulseAdj = t.tPulseAdj ∧ (peakAppended c pk t).onesRun = t.onesRun ∧
    (peakAppended c pk t).idle = false ∧ (peakAppended c pk t).tLast = t.tLast ∧
    (peakAppended c pk t).tLast2 = t.tLast2 := by
  obtain ⟨-, hkept⟩ := appendBits_fields (peakBits (peakZeros c pk t) pk.t) { t with idle := false }
  exact hkept

theorem peakAppended_bits :
    (peakAppended c pk t).bits = t.bits ++ List.replicate (peakZeros c pk t) false ++ [true] :=
  appendBits_peakBits_bits ..

theorem peakAppended_datacount :
    (peakAppended c pk t).datacount = t.datacount + peakZeros c pk t + 1 := by
  rw [peakAppended, appendBits_datacount, peakBits_length, Nat.add_assoc]

theorem peakAppended_clk (hroom : t.datacount + 3 ≤ Config.gcrMaxbits) :
    (peakAppended c pk t).clk =
      if peakZeros c pk t = 0 ∧ t.resyncActive = true ∧ t.resyncBitcount = 69
      then clkForce (fDiv (fSub pk.t t.tResyncFirst) (fOfNat 69)) t.clk else t.clk := by
  have hfits : t.datacount + peakZeros c pk t ≤ Config.gcrMaxbits :=
    (Nat.add_le_add_left (peakZeros_le.trans (by decide)) _).trans hroom
  exact appendBits_peakBits_clk _ pk.t { t with idle := false } hfits

/-- The pulse adjustment after a peak at `time` with `nz` zeros before it: its share of how early the peak
came (rule R320). -/
def movedPulseAdj (c : CfgFile) (nz : Nat) (time : F64) (t : Track) : F64 :=
  fMul (c.get .pulseAdj) (fSub (fAdd t.tLast (fMul (fOfNat (nz + 1)) t.clk.value)) time)

theorem gcrNextPeak_eq (c : CfgFile) (k : Fin 9) (time : F64) {t : Track}
    (hroom : t.datacount + 3 ≤ Config.gcrMaxbits) :
    gcrNextPeak c k time t =
      .ok (gcrClock c (gcrZeros c time t) { appendBits (peakBits (gcrZeros c time t) time) t with
        tPulseAdj := movedPulseAdj c (gcrZeros c time t) time t }) := by
  have hle := gcrZeros_le c time t
  have hcount := appendBits_datacount (List.replicate (gcrZeros c time t) none) t
  obtain ⟨-, -, -, -, htLast, -⟩ := appendBits_fields (peakBits (gcrZeros c time t) time) t
  rw [List.length_replicate] at hcount
  rw [gcrNextPeak, gcrZeros_fold k _ t (by omega), ← appendBits, andThen_ok_left,
    gcrBit_of_room k (some time) (by omega), andThen_ok_left, ← appendBits_peakBits, movedPulseAdj,
    ← htLast]

theorem gcrPeak_first (k : Fin 9) (hroom : t.datacount < Config.gcrMaxbits)
    (hlast : t.haveLast = false) :
    gcrPeak c k pk t = .ok { peakAppended c pk t with onesRun := 1 } := by
  rw [peakAppended_of_noZeros (peakZeros_first hlast), gcrPeak, if_pos hlast,
    gcrBit_of_room k (some pk.t) (t := { t with idle := false }) hroom, andThen_ok_left]

theorem gcrPeak_next (k : Fin 9) (hroom : t.datacount + 3 ≤ Config.gcrMaxbits)
    (hlast : t.haveLast = true) :
    gcrPeak c k pk t = .ok (gcrClock c (gcrZeros c pk.t t) { peakAppended c pk t with
      tPulseAdj := movedPulseAdj c (gcrZeros c pk.t t) pk.t t }) := by
  rw [peakAppended, peakZeros_next hlast, gcrPeak, if_neg (by simp [hlast])]
  exact gcrNextPeak_eq c k pk.t hroom

/-- A peak appends its bits and then writes the pulse adjustment, the run of ones and the clock alone. -/
theorem gcrPeak_appends (k : Fin 9) (hroom : t.datacount + 3 ≤ Config.gcrMaxbits) :
    ∃ adj run clk, gcrPeak c k pk t =
      .ok { peakAppended c pk t with tPulseAdj := adj, onesRun := run, clk := clk } ∧
    (t.haveLast = false → adj = t.tPulseAdj ∧ run = 1 ∧ clk = (peakAppended c pk t).clk) ∧
    (t.haveLast = true →
      adj = movedPulseAdj c (gcrZeros c pk.t t) pk.t t ∧
      run = (if gcrZeros c pk.t t = 0 then t.onesRun + 1 else 1) ∧
      clk = if 3 ≤ run
        then clkAdjust (c.get .clkAlpha) (fSub t.tLast t.tLast2) (peakAppended c pk t).clk
        else (peakAppended c pk t).clk) := by
  obtain ⟨hadj, hrun, -, htLast, htLast2⟩ := @peakAppended_fields c pk t
  cases hlast : t.haveLast with
  | false =>
    refine ⟨_, _, _, gcrPeak_first k (by omega) hlast, fun _ => ⟨hadj, rfl, rfl⟩, nofun⟩
  | true =>
    rw [gcrPeak_next k hroom hlast, gcrClock_eq]
    refine ⟨_, _, _, rfl, nofun, fun _ => ⟨rfl, ?_, ?_⟩⟩
    · rw [← hrun]
    · rw [← htLast, ← htLast2]

end

end Sys2Proof.Machine

namespace Sys2Proof.Proofs

open Sys2Proof Sys2Proof.Machine

/-- Settles O52: the peak is its bits and the three fields of `gcrPeak_appends`; without zeros the 1-bit
meets the burst the track was in, after zeros only one that they armed. -/
theorem gcrPeakBits : Obligations.GcrPeakBits := by
  intro c k pk t hroom x nz burst forced appended bits after
  have hbits : bits = peakBits (peakZeros c pk t) pk.t := peakBits_peakZeros
  have hafter : after = peakAppended c pk t := congrArg (appendBits · { t with idle := false }) hbits
  have hlength : bits.length = peakZeros c pk t + 1 := by rw [hbits, peakBits_length]
  obtain ⟨-, -, hidle, -⟩ := @peakAppended_fields c pk t
  obtain ⟨adj, run, clk, hpeak, hfirst, hnext⟩ := gcrPeak_appends k hroom
  rw [hafter]
  refine ⟨_, hpeak, hidle, rfl, ?last5, fun hone => ?outside, fun hone => ?inside, fun hmany => ?arms,
    fun hlast => ?first, fun hlast => ?next⟩
  case last5 =>
    rw [hlength]
    exact appendBits_peakBits_last5 ..
  case outside =>
    obtain ⟨-, houtside, -⟩ := gcrBitted_one_resync pk.t { t with idle := false }
    rw [peakAppended_of_noZeros (by omega)]
    exact houtside
  case inside =>
    obtain ⟨-, -, hinside⟩ := gcrBitted_one_resync pk.t { t with idle := false }
    rw [peakAppended_of_noZeros (by omega)]
    exact hinside
  case arms =>
    have hpos : 0 < peakZeros c pk t := by omega
    have hzeros : peakZeros c pk t = nz := peakZeros_next (haveLast_of_peakZeros_pos hpos)
    rw [← hzeros]
    exact appendBits_peakBits_arms _ pk.t { t with idle := false } hpos
  case first =>
    obtain ⟨rfl, rfl, rfl⟩ := hfirst hlast
    have hzeros : peakZeros c pk t = 0 := peakZeros_first hlast
    refine ⟨?bits, ?datacount, rfl, rfl, ?clk⟩
    case bits => simpa [hzeros] using @peakAppended_bits c pk t
    case datacount => rw [peakAppended_datacount, hzeros]
    case clk => simpa [hzeros] using peakAppended_clk (c := c) (pk := pk) hroom
  case next =>
    obtain ⟨rfl, rfl, rfl⟩ := hnext hlast
    have hzeros : peakZeros c pk t = nz := peakZeros_next hlast
    refine ⟨?bits, ?datacount, rfl, rfl, ?clk⟩
    case bits => rw [peakAppended_bits, hzeros]
    case datacount => rw [peakAppended_datacount, hzeros]
    case clk => rw [peakAppended_clk hroom, hzeros]

end Sys2Proof.Proofs
end

section
/-! SUPPORT. EOF in RUN, and a block that ends in peak-scan mode (rules R133, R171, R385). -/

namespace Sys2Proof.Machine

/-- EOF in RUN notes the end of the input and finalises the attempt (rule R133). -/
theorem exec_eof_of_run {s : State} (hcore : s.core = .run) :
    exec .eof s = .next (finishBlock { s with eofSeen := true }) := by
  have hfault : s.core ≠ .fault := by simp [hcore]
  have hallowed : allowed 0x06 s.core = true := by rw [hcore]; rfl
  rw [exec, execEof, eofBody, if_pos hcore, runCommand_ok _ hfault hallowed, respond_nil]

/-- Finalisation in peak-scan mode has no pre-step (rules R171, R385). -/
theorem finalize_of_scan {c : CfgFile} {l : Latched} {a : Attempt} (hscan : l.scan = true) :
    finalize c l a = (a, scanResults) := if_pos hscan

theorem finishBlock_of_scan {s : State} (hscan : s.lat.scan = true) :
    finishBlock s = { s with core := .done, res := scanResults } := by
  rw [finishBlock, finalize_of_scan hscan]

end Sys2Proof.Machine

namespace Sys2Proof.Proofs

open Sys2Proof Sys2Proof.Machine

/-- Settles O59: EOF in RUN is `finishBlock`, which in peak-scan mode writes the state DONE and the
peak-scan results alone. -/
theorem scanResults : Obligations.ScanResults := fun s hcore hscan =>
  (exec_eof_of_run hcore).trans
    (congrArg _ (finishBlock_of_scan (s := { s with eofSeen := true }) hscan))

end Sys2Proof.Proofs
end

section
/-! SUPPORT. The words a command takes and the number of words it answers, command by command and for a
word that is no command (rules R93, R98, R406, R407). -/

namespace Sys2Proof

/-! ## The OP of what a command word is classified as -/

theorem payloadLen_eq (w : CmdWord) : payloadLen w =
    if cmdOp w = 2 then 1 else if cmdOp w = 5 then 1 + (cmdA w).toNat else 0 := by
  simp only [← BitVec.toNat_inj]
  unfold payloadLen
  split
  · next h => simp [h]
  · next h => simp [h]
  · next h2 h5 => exact ((if_neg h2).trans (if_neg h5)).symm

/-- The OP under which a command word runs or is rejected. -/
def classifiedOp : Except Reject Instr → BitVec 8
  | .error r => Machine.rejectOp r
  | .ok i => opcode i

theorem classifiedOp_zeroA {w : CmdWord} {i : Instr} (hop : opcode i = cmdOp w) :
    classifiedOp (zeroA w i) = cmdOp w := by
  unfold zeroA
  split
  · exact hop
  · rfl

/-- A command word runs or is rejected under its own OP. -/
theorem classifiedOp_classify (w : CmdWord) (p : List Word) :
    classifiedOp (classify w p) = cmdOp w := by
  unfold classify
  split
  · rfl
  split
  · rfl
  split
  case h_1 h | h_2 h | h_5 h | h_7 h => exact classifiedOp_zeroA (BitVec.eq_of_toNat_eq h.symm)
  case h_3 h | h_4 h | h_6 h | h_8 h => exact BitVec.eq_of_toNat_eq h.symm
  case h_9 =>
    simp only [imp_false] at *
    exact BitVec.eq_of_toNat_eq (show 8 = (cmdOp w).toNat by omega)

end Sys2Proof

namespace Sys2Proof.Machine

/-! ## The number of response words -/

/-- The words that a command with this OP answers, the latched NTRKS being `n`: one for a read, a header
and three words an event for SAMPLE, and none else (rules R98, R406). -/
def WordsOf (op : BitVec 8) (n : Nat) (r : List Word) : Prop :=
  if op = 3 ∨ op = 7 ∨ op = 8 then r.length = 1
  else if op = 5 then ∃ e, e ≤ n ∧ e ≤ Config.maxTrk ∧ r.length = 1 + 3 * e
  else r = []

/-- From `s` to `s'` the input stream stays, and the output stream gains the words of this OP. -/
def Answers (op : BitVec 8) (s s' : State) : Prop :=
  ∃ r, s'.input = s.input ∧ s'.output = s.output ++ r ∧ WordsOf op s.lat.ntrks r

/-- A command that raises or is ignored answers its number of words: a SAMPLE a header of no events. -/
theorem placeholder_words (op : BitVec 8) (n : Nat) : WordsOf op n (placeholder op) := by
  unfold WordsOf
  split
  · next hread => rw [placeholder_eq, if_pos (by tauto)]; rfl
  · next hread =>
    split
    · next hsample => rw [placeholder_eq, if_pos (.inr (.inl hsample))]; exact ⟨0, by simp⟩
    · next hsample => rw [placeholder_eq, if_neg (by tauto)]

theorem sampleResponse_words {c : CfgFile} {l : Latched} {t : F64} {vs : List F64} {a : Attempt}
    {y : Attempt × Bool × List Event} (h : sampleRun c l t vs a = .ok y) :
    WordsOf 0x05 l.ntrks (sampleResponse y.2.2 y.2.1) :=
  ⟨y.2.2.length, (sampleRun_events h).1, (sampleRun_events h).2, sampleResponse_length _ _⟩

/-! ## What each way through a command answers -/

theorem raiseCommand_answers (op : BitVec 8) (s : State) (r : Raise) :
    Answers op s (raiseCommand op s r) := ⟨_, rfl, rfl, placeholder_words op _⟩

theorem ignoreCommand_answers (op : BitVec 8) (s : State) : Answers op s (ignoreCommand op s) :=
  ⟨_, rfl, rfl, placeholder_words op _⟩

theorem rejectCommand_answers (r : Reject) (s : State) :
    Answers (rejectOp r) s (rejectCommand r s) := by
  unfold rejectCommand
  split
  · exact ignoreCommand_answers _ s
  · exact raiseCommand_answers _ s _

/-- A command in its frame answers its words when its body, where it does not raise, gives them. -/
theorem runCommand_answers {op : BitVec 8} {s : State} {body : Except Raise (State × List Word)}
    (hbody : ∀ x, body = .ok x → Answers op s (respond x.1 x.2)) :
    Answers op s (runCommand op s body) := by
  rcases runCommand_cases op s body with
    ⟨-, h⟩ | ⟨-, -, h⟩ | ⟨-, -, r, -, h⟩ | ⟨-, -, x, hx, h⟩ <;> rw [h]
  · exact ignoreCommand_answers op s
  · exact raiseCommand_answers op s _
  · exact raiseCommand_answers op s r
  · exact hbody x hx

theorem sampleNext_streams (s : State) (y : Attempt × Bool × List Event) :
    (sampleNext s y).input = s.input ∧ (sampleNext s y).output = s.output := by
  unfold sampleNext
  split <;> exact ⟨rfl, rfl⟩

/-- Every command answers the words of its OP, in every state. -/
theorem exec_answers (i : Instr) (s : State) :
    ∃ s', exec i s = .next s' ∧ Answers (opcode i) s s' := by
  cases i with
  | nop =>
    refine ⟨_, rfl, runCommand_answers fun x hx => ?_⟩
    cases hx
    exact ⟨[], rfl, rfl, rfl⟩
  | reset => exact ⟨_, rfl, [], rfl, (List.append_nil _).symm, rfl⟩
  | cfgWr a v =>
    refine ⟨_, rfl, runCommand_answers fun x hx => ?_⟩
    obtain ⟨r, -, hx⟩ := andThen_eq_ok.1 hx
    cases hx
    exact ⟨[], rfl, rfl, rfl⟩
  | cfgRd a =>
    refine ⟨_, rfl, runCommand_answers fun x hx => ?_⟩
    obtain ⟨r, -, hx⟩ := andThen_eq_ok.1 hx
    cases hx
    exact ⟨[s.cfg.get r], rfl, rfl, rfl⟩
  | blkStart =>
    refine ⟨_, rfl, runCommand_answers fun x hx => ?_⟩
    unfold blkStartBody at hx
    split at hx <;> cases hx
    exact ⟨[], rfl, rfl, rfl⟩
  | sample a t vs =>
    refine ⟨_, rfl, runCommand_answers fun x hx => ?_⟩
    obtain ⟨y, hy, -, rfl⟩ := sampleBody_ok hx
    obtain ⟨hin, hout⟩ := sampleNext_streams s y
    exact ⟨_, hin, congrArg (· ++ _) hout, sampleResponse_words hy⟩
  | eof =>
    refine ⟨_, rfl, runCommand_answers fun x hx => ?_⟩
    cases hx
    split <;> exact ⟨[], rfl, rfl, rfl⟩
  | resRd a =>
    by_cases hcore : s.core = .fault
    · exact ⟨_, rfl, by rw [if_pos hcore]; exact ⟨_, rfl, rfl, rfl⟩⟩
    · refine ⟨_, rfl, ?_⟩
      rw [if_neg hcore]
      refine runCommand_answers fun x hx => ?_
      unfold resRdBody at hx
      split at hx <;> cases hx
      exact ⟨_, rfl, rfl, rfl⟩
  | dataRd a =>
    refine ⟨_, rfl, runCommand_answers fun x hx => ?_⟩
    cases hx
    exact ⟨_, rfl, rfl, rfl⟩

theorem step_of_classify_ok {s : State} {w : CmdWord} {p : List Word} {rest : List InWord}
    {i : Instr} (hreset : s.resetIn = false)
    (hinput : s.input = .cmd w :: (p.map .data ++ rest)) (hlen : p.length = payloadLen w)
    (hclass : classify w p = .ok i) : step s = exec i { s with input := rest } := by
  have hdecode : decode s.input = .instr i rest := by rw [hinput, decode_command hlen, hclass]
  simp [step, hreset, hdecode]

end Sys2Proof.Machine

namespace Sys2Proof.Proofs

open Sys2Proof Sys2Proof.Machine

/-- Settles O6: the step is that of a rejected word or of a command with the word's OP, on the state with
the payload taken off, and either answers the words of that OP. -/
theorem streamsStayInStep : Obligations.StreamsStayInStep := by
  intro s w p rest hreset hinput hlen
  have hpayload : p.length = payloadLen w := hlen.trans (payloadLen_eq w).symm
  suffices h : ∃ s', step s = .next s' ∧ Answers (cmdOp w) { s with input := rest } s' by
    obtain ⟨s', hstep, r, hin, hout, hwords⟩ := h
    exact ⟨s', r, hstep, hin, hout, hwords⟩
  rw [← classifiedOp_classify w p]
  cases hclass : classify w p with
  | error r =>
    exact ⟨_, step_of_classify_error hreset hinput hpayload hclass, rejectCommand_answers r _⟩
  | ok i =>
    rw [step_of_classify_ok hreset hinput hpayload hclass]
    exact exec_answers i _

end Sys2Proof.Proofs
end

section
/-! SUPPORT. A command and its command word determine each other: `classify` of the fields and the
payload of a command, and the commands a word can be read as (rules R91 to R97). -/

namespace Sys2Proof

/-! ## The encoder's word -/

/-- Every command's words are its command word and the payload that word calls for. -/
theorem commandWord (i : Instr) : Laws.CommandWord.Statement i := by
  cases i with
  | nop => exact Laws.CommandWord.nop
  | reset => exact Laws.CommandWord.reset
  | cfgWr a v => exact Laws.CommandWord.cfgWr a v
  | cfgRd a => exact Laws.CommandWord.cfgRd a
  | blkStart => exact Laws.CommandWord.blkStart
  | sample a t vs => exact Laws.CommandWord.sample a t vs
  | eof => exact Laws.CommandWord.eof
  | resRd a => exact Laws.CommandWord.resRd a
  | dataRd a => exact Laws.CommandWord.dataRd a

/-- A word with the fields of a command and that command's payload is read as the command. -/
theorem classify_of_fields {w : CmdWord} {i : Instr} (hop : cmdOp w = opcode i)
    (hrsv : cmdRsv w = 0) (ha : cmdA w = operandA i) : classify w (payload i) = .ok i := by
  cases i <;> simp_all [classify, zeroA, opcode, operandA, payload]

/-! ## The decoder's command -/

theorem cmdOp_of_classify_ok {w : CmdWord} {p : List Word} {i : Instr}
    (h : classify w p = .ok i) : cmdOp w = opcode i := by
  rw [← classifiedOp_classify w p, h]
  rfl

theorem cmdRsv_of_classify_ok {w : CmdWord} {p : List Word} {i : Instr}
    (h : classify w p = .ok i) : cmdRsv w = 0 := by
  by_contra hrsv
  unfold classify at h
  rw [if_pos hrsv] at h
  split at h <;> cases h

/-- The A field and the payload a word was read with are those of its command, which is well
formed. -/
theorem operands_of_classify_ok {w : CmdWord} {p : List Word} {i : Instr}
    (hlen : p.length = payloadLen w) (h : classify w p = .ok i) :
    cmdA w = operandA i ∧ payload i = p ∧ i.wellFormed = true := by
  have hop := cmdOp_of_classify_ok h
  have hrsv := cmdRsv_of_classify_ok h
  rw [payloadLen_eq, hop] at hlen
  cases i with
  | nop | reset | blkStart | eof | cfgRd a | resRd a | dataRd a =>
    simp_all [classify, zeroA, opcode, operandA, payload, Instr.wellFormed]
  | cfgWr a v =>
    obtain ⟨d, rfl⟩ := List.length_eq_one_iff.1 hlen
    simp_all [classify, opcode, operandA, payload, Instr.wellFormed]
  | sample a t vs =>
    cases p with
    | nil => simp [opcode] at hlen; omega
    | cons d ds =>
      have hcount : ds.length = (cmdA w).toNat := by simp [opcode] at hlen; omega
      simp_all [classify, opcode, operandA, payload, Instr.wellFormed]

end Sys2Proof

namespace Sys2Proof.Proofs

open Sys2Proof Sys2Proof.Machine

/-- Settles O1: the word of a command has the command's fields, and calls for its payload. -/
theorem decodeOfEncode : Obligations.DecodeOfEncode := by
  intro i rest hwf
  obtain ⟨w, henc, hop, hrsv, ha, hlen⟩ := commandWord i hwf
  rw [henc, List.cons_append, decode_command hlen, classify_of_fields hop hrsv ha]

/-- Settles O2: the payload is the words taken, and a word is its three fields. -/
theorem encodeOfDecode : Obligations.EncodeOfDecode := by
  intro ws i rest h
  unfold decode at h
  split at h
  · cases h
  · cases h
  split at h
  · cases h
  · cases h
  rename_i w ws p rest' htaken
  obtain ⟨hlen, rfl⟩ := takeData_words htaken
  split at h
  · cases h
  rename_i j hclass
  cases h
  obtain ⟨ha, hp, hwf⟩ := operands_of_classify_ok hlen hclass
  refine ⟨hwf, ?words⟩
  rw [encode, ← cmdOp_of_classify_ok hclass, ← cmdRsv_of_classify_ok hclass, ← ha, cmdWord_fields,
    hp, List.cons_append]

/-- Settles O3: nine words, decoded. -/
theorem opcodeMapWords : Obligations.OpcodeMapWords := by
  unfold Obligations.OpcodeMapWords
  decide

/-- Settles O7: with the reset input released the step is the decoder's command, run. -/
theorem stepRunsDecoded : Obligations.StepRunsDecoded := by
  intro s i rest hreset hdecode
  simp [step, hreset, hdecode]

/-- Settles O8: the two answers of the decoder that are no command. -/
theorem stepWaitsOrStops : Obligations.StepWaitsOrStops := by
  intro s hreset
  refine ⟨fun hdecode => ?wait, fun hdecode => ?misframed⟩
  case wait => simp [step, hreset, hdecode]
  case misframed => simp [step, hreset, hdecode]

end Sys2Proof.Proofs
end

section
/-! SUPPORT. The machine's invariant command by command: the host's streams do not matter to it, nor
does the configuration outside RUN, and a SAMPLE leaves an attempt that meets it (rules R22, R33,
R401). -/

namespace Sys2Proof.Machine

/-- The invariant speaks of the core alone. -/
theorem Inv.of_coreOnly_eq {s t : State} (h : Inv s) (heq : s.coreOnly = t.coreOnly) : Inv t := by
  have hsent : Inv { s.coreOnly with input := t.input, output := t.output, resetIn := t.resetIn } :=
    ⟨⟨h.control.fault, h.control.info, h.control.code, h.control.lat, h.control.idle, h.control.run,
      h.control.final⟩, h.attempt, h.results, h.live, h.warncount⟩
  rw [heq] at hsent
  exact hsent

theorem inv_reset : Inv State.reset where
  control :=
    { fault := by simp [State.reset]
      info := fun _ => rfl
      code := by simp [State.reset]
      lat := .inl rfl
      idle := fun _ => ⟨rfl, rfl⟩
      run := fun h => nomatch h
      final := fun _ => rfl }
  attempt := attemptInv_init 0 clockInv_reset
  results := resultsInv_zero
  live h := nomatch h
  warncount h := nomatch h

/-- Outside RUN the configuration and the EOF flag are free. -/
theorem Inv.setCfg_setEofSeen {s : State} (h : Inv s) (hc : s.core ≠ .run) (c : CfgFile) (e : Bool) :
    Inv { s with cfg := c, eofSeen := e } :=
  ⟨⟨h.control.fault, h.control.info, h.control.code, h.control.lat, h.control.idle,
    fun hrun => absurd hrun hc, h.control.final⟩, h.attempt, h.results, fun hrun => absurd hrun hc,
    h.warncount⟩

theorem ne_run_of_idle_or_done {c : CoreState} (hstopped : c = .idle ∨ c = .done) : c ≠ .run := by
  rcases hstopped with rfl | rfl <;> simp

/-- In RUN the latched values are those of a legal configuration. -/
theorem Inv.sampleFacts {s : State} (h : Inv s) (hrun : s.core = .run) : SampleFacts s.cfg s.lat := by
  obtain ⟨hlegal, hlat, -⟩ := h.control.run hrun
  rw [hlat]
  exact legal_sampleFacts hlegal

/-- What a SAMPLE in RUN does of an attempt that meets the invariant. -/
theorem Inv.sampleDone {s : State} (h : Inv s) (hrun : s.core = .run) {t : F64} {vs : List F64}
    {y : Attempt × Bool × List Event} (hy : sampleRun s.cfg s.lat t vs s.att = .ok y) :
    SampleDone s.lat t s.att y.1 y.2.1 y.2.2 :=
  sampleRun_inv (h.sampleFacts hrun) h.attempt (h.live hrun).1 hy

/-- The block decode alone counts GCR symbols, so none is counted while the attempt runs. -/
theorem Inv.gcrNsym_of_sampleRun {s : State} (h : Inv s) (hrun : s.core = .run) {t : F64}
    {vs : List F64} {y : Attempt × Bool × List Event}
    (hy : sampleRun s.cfg s.lat t vs s.att = .ok y) : y.1.gcrNsym = 0 :=
  (h.sampleDone hrun hy).frame.gcrNsym.trans (h.live hrun).2

/-- A SAMPLE keeps the invariant, whether it ends the block or not. -/
theorem Inv.sampleNext {s : State} (h : Inv s) (hrun : s.core = .run) {t : F64} {vs : List F64}
    {y : Attempt × Bool × List Event} (hy : sampleRun s.cfg s.lat t vs s.att = .ok y) :
    Inv (sampleNext s y) := by
  have hdone := h.sampleDone hrun hy
  have hcount := h.gcrNsym_of_sampleRun hrun hy
  have hne : ∀ {c : CoreState}, s.core = c → c ≠ .run → False := fun hc hn => hn (hc ▸ hrun)
  unfold Machine.sampleNext
  cases hended : y.2.1 with
  | true => exact finish_inv s.eofSeen h hrun hdone.inv hcount
  | false =>
    exact ⟨⟨h.control.fault, h.control.info, h.control.code, h.control.lat,
      fun hidle => (hne hidle (by simp)).elim, h.control.run, h.control.final⟩, hdone.inv, h.results,
      fun _ => ⟨hdone.live hended, hcount⟩, fun hd => (hne hd (by simp)).elim⟩

/-- Every command keeps the invariant. -/
theorem Inv.exec {i : Instr} {s s' : State} (h : Inv s) (hx : ExecCase i s s') : Inv s' := by
  cases hx with
  | reset => exact inv_reset.of_coreOnly_eq rfl
  | ignored _ _ ws => exact h.respond ws
  | raised _ _ r => exact (h.raise r).respond _
  | answered _ _ ws => exact h.respond ws
  | wrote a v _ r hc => exact h.setCfg_setEofSeen (ne_run_of_idle_or_done hc) _ s.eofSeen
  | started _ hc hlegal => exact startBlock_inv h hc hlegal
  | sampled _ _ _ _ _ hrun _ hy => exact (h.sampleNext hrun hy).respond _
  | finished _ hrun => exact finish_inv true h hrun h.attempt (h.live hrun).2
  | noted _ hc => exact h.setCfg_setEofSeen (ne_run_of_idle_or_done hc) s.cfg true

end Sys2Proof.Machine

namespace Sys2Proof.Proofs

open Sys2Proof Sys2Proof.Machine

/-- Settles O33: the attempt and the results are at their init values. -/
theorem invAtReset : Obligations.InvAtReset := inv_reset

/-- Settles O34: a step resets, waits, raises, or runs a command on the state with its words taken
off, and each of these keeps the invariant. -/
theorem invKeptByStep : Obligations.InvKeptByStep := by
  intro s s' h hstep
  cases stepCase_of_next hstep with
  | resetInput => exact inv_reset.of_coreOnly_eq rfl
  | waited => exact h
  | rejectIgnored _ rest => exact (h.sent rest).respond _
  | rejectRaised _ rest => exact ((h.sent rest).raise _).respond _
  | ran _ _ rest _ _ hx => exact (h.sent rest).exec hx

end Sys2Proof.Proofs
end

section
/-! SUPPORT. What a step can do to the core state: who leaves FAULT, who enters it, and what stays
while an attempt runs (rules R22, R83, R127, R403, R405, R431). -/

namespace Sys2Proof.Machine

/-! ## Leaving FAULT and RUN -/

/-- RESET is the one command that leaves FAULT (rule R405). -/
theorem reset_of_leaves_fault {i : Instr} {s s' : State} (h : ExecCase i s s')
    (hcore : s.core = .fault) (hcore' : s'.core ≠ .fault) : i = .reset := by
  cases h with
  | reset => rfl
  | ignored => exact absurd hcore hcore'
  | raised _ _ _ hf | answered _ _ _ hf => exact absurd hcore hf
  | wrote _ _ _ _ hc | started _ hc | noted _ hc =>
    exact absurd hcore (not_fault_of_idle_or_done hc)
  | sampled _ _ _ _ _ hc | finished _ hc => simp [hc] at hcore

/-- The transitions of rule R22, command by command. -/
theorem core_of_execCase {i : Instr} {s s' : State} (h : ExecCase i s s') :
    s'.core = s.core ∨ s'.core = .fault ∨ (s'.core = .idle ∧ i = .reset) ∨
    ((s.core = .idle ∨ s.core = .done) ∧ s'.core = .run ∧ i = .blkStart) ∨
    (s.core = .run ∧ s'.core = .done ∧ (i = .eof ∨ ∃ a t vs, i = .sample a t vs)) := by
  cases h with
  | reset => exact .inr (.inr (.inl ⟨rfl, rfl⟩))
  | ignored | answered | wrote | noted => exact .inl rfl
  | raised => exact .inr (.inl rfl)
  | started _ hc => exact .inr (.inr (.inr (.inl ⟨hc, rfl, rfl⟩)))
  | finished _ hc => exact .inr (.inr (.inr (.inr ⟨hc, rfl, .inl rfl⟩)))
  | sampled a t vs _ y hc =>
    rw [respond_core, sampleNext_core]
    cases y.2.1 with
    | true => exact .inr (.inr (.inr (.inr ⟨hc, rfl, .inr ⟨a, t, vs, rfl⟩⟩)))
    | false => exact .inl rfl

theorem sampleNext_cfg_lat (s : State) (y : Attempt × Bool × List Event) :
    (sampleNext s y).cfg = s.cfg ∧ (sampleNext s y).lat = s.lat := by
  unfold sampleNext
  split <;> exact ⟨rfl, rfl⟩

/-- In RUN a command other than RESET leaves the configuration and the latched values. -/
theorem cfg_lat_of_execCase {i : Instr} {s s' : State} (h : ExecCase i s s') (hrun : s.core = .run) :
    (s'.cfg = s.cfg ∧ s'.lat = s.lat) ∨ (s'.core = .idle ∧ i = .reset) := by
  cases h with
  | reset => exact .inr ⟨rfl, rfl⟩
  | ignored | raised | answered | finished | noted => exact .inl ⟨rfl, rfl⟩
  | wrote _ _ _ _ hc | started _ hc => exact absurd hrun (ne_run_of_idle_or_done hc)
  | sampled _ _ _ _ y => exact .inl (sampleNext_cfg_lat s y)

/-! ## Entering FAULT -/

/-- The state after fault entry, whatever words were taken (rule R403). -/
def Faulted (s s' : State) : Prop :=
  ∃ (code : BitVec 8) (info : BitVec 16) (rest : List InWord) (r : List Word),
    s' = { s with core := .fault, errCode := code, errInfo := info, input := rest,
                  output := s.output ++ r } ∧
    1 ≤ code.toNat ∧ code.toNat ≤ 9 ∧ (r = [] ∨ r = [0])

theorem faulted_raiseCommand (s : State) (rest : List InWord) (op : BitVec 8) (r : Raise) :
    Faulted s (raiseCommand op { s with input := rest } r) :=
  ⟨errNumber r.code, r.info, rest, placeholder op, rfl, (errNumber_range r.code).1,
    (errNumber_range r.code).2, placeholder_short op⟩

end Sys2Proof.Machine

namespace Sys2Proof.Proofs

open Sys2Proof Sys2Proof.Machine

/-- Settles O9: the reset input takes the place of the command, and no other command but RESET
leaves FAULT. -/
theorem resetInputResets : Obligations.ResetInputResets := by
  refine ⟨fun s hreset => ⟨resetCore s, rfl, ?input⟩, fun s s' hstep hcore hcore' => ?only⟩
  case input =>
    rw [step, if_pos hreset]
    rfl
  case only =>
    cases stepCase_of_next hstep with
    | resetInput hr => exact .inl hr
    | waited => exact absurd hcore hcore'
    | rejectIgnored => exact absurd hcore hcore'
    | rejectRaised _ _ _ _ hf => exact absurd hcore hf
    | ran _ i rest _ hd hx =>
      rw [reset_of_leaves_fault hx hcore hcore'] at hd
      exact .inr ⟨rest, hd⟩

/-- Settles O30: a step enters FAULT only by fault entry, of a rejected word or of a command. -/
theorem faultIsPrecise : Obligations.FaultIsPrecise := by
  intro s s' hstep hcore hcore'
  cases stepCase_of_next hstep with
  | resetInput => cases hcore'
  | waited => exact absurd hcore' hcore
  | rejectIgnored _ _ _ _ hf => exact absurd hf hcore
  | rejectRaised r rest => exact faulted_raiseCommand s rest (rejectOp r) (rejectRaise r)
  | ran _ i rest _ _ hx =>
    obtain ⟨r, rfl, -⟩ := raised_of_enters_fault hx hcore hcore'
    exact faulted_raiseCommand s rest (opcode i) r

/-- Settles O31: the transitions command by command, and those of the other steps. -/
theorem stateTransitions : Obligations.StateTransitions := by
  intro s s' hstep hne
  cases stepCase_of_next hstep with
  | resetInput hr => exact .inr (.inl ⟨rfl, .inl hr⟩)
  | waited | rejectIgnored => exact absurd rfl hne
  | rejectRaised => exact .inl rfl
  | ran _ i rest _ hd hx =>
    rcases core_of_execCase hx with h | h | ⟨h, rfl⟩ | ⟨hc, h, rfl⟩ | ⟨hc, h, rfl | ⟨a, t, vs, rfl⟩⟩
    · exact absurd h hne
    · exact .inl h
    · exact .inr (.inl ⟨h, .inr ⟨rest, hd⟩⟩)
    · exact .inr (.inr (.inl ⟨hc, h, rest, hd⟩))
    · exact .inr (.inr (.inr ⟨hc, h, .inl ⟨rest, hd⟩⟩))
    · exact .inr (.inr (.inr ⟨hc, h, .inr ⟨a, t, vs, rest, hd⟩⟩))

/-- Settles O32: in RUN no command but a reset writes a register or latches anew. -/
theorem configurationFixedInRun : Obligations.ConfigurationFixedInRun := by
  intro s s' hstep hrun
  cases stepCase_of_next hstep with
  | resetInput hr => exact .inr ⟨rfl, .inl hr⟩
  | waited | rejectIgnored | rejectRaised => exact .inl ⟨rfl, rfl⟩
  | ran _ i rest _ hd hx =>
    refine (cfg_lat_of_execCase hx hrun).imp_right ?reset
    rintro ⟨hidle, rfl⟩
    exact ⟨hidle, .inr ⟨rest, hd⟩⟩

end Sys2Proof.Proofs
end

section
/-! SUPPORT. The commands that only read, and what every command does in FAULT and at reset (rules
R120, R121, R135, R406, R430). -/

namespace Sys2Proof.Machine

/-! ## Result registers at reset -/

/-- Without tracks every per-track register reads 0. -/
theorem trackBank_of_no_tracks {s : State} {b : Nat} {k : Fin 9} {w : Word} (hn : s.lat.ntrks = 0)
    (h : trackBank s b k = some w) : w = 0 := by
  have hview : ∀ f, trackView s k f = 0 := fun f => if_neg (by omega)
  unfold trackBank at h
  split at h
  case h_7 => cases h
  all_goals
    cases h
    exact hview _

theorem resRead_resetCore {s : State} {a : BitVec 16} {w : Word}
    (h : resRead (resetCore s) a = some w) : w = 0 := by
  unfold resRead at h
  split at h
  case h_29 =>
    split at h
    · exact trackBank_of_no_tracks rfl h
    · cases h
  all_goals
    cases h
    rfl

/-! ## RES_RD -/

theorem exec_resRd_of_fault {s : State} (a : BitVec 16) (hcore : s.core = .fault) :
    exec (.resRd a) s = .next (respond s [(resRead s a).getD 0]) :=
  congrArg _ (if_pos hcore)

theorem exec_resRd_of_not_fault {s : State} (a : BitVec 16) (hcore : s.core ≠ .fault) :
    exec (.resRd a) s = .next (runCommand 0x07 s (resRdBody a s)) :=
  congrArg _ (if_neg hcore)

end Sys2Proof.Machine

namespace Sys2Proof.Proofs

open Sys2Proof Sys2Proof.Machine

/-- Settles O10: NOP answers nothing, and FAULT ignores it without a word. -/
theorem nopDoesNothing : Obligations.NopDoesNothing := by
  intro s
  refine congrArg Host.Outcome.next ?_
  by_cases hcore : s.core = .fault
  · rw [runCommand_in_fault _ hcore, ignoreCommand_silent s rfl]
  · rw [runCommand_ok _ hcore rfl, respond_nil]

/-- Settles O11: each field is the reset state's, and with no tracks no view register shows one. -/
theorem resetSetsEverything : Obligations.ResetSetsEverything := by
  intro s
  exact ⟨resetCore s, rfl, rfl, rfl, rfl, rfl, CfgFile.get_reset, rfl, fun _ => rfl, rfl,
    Attempt.tr_init 0 Clock.reset, rfl, rfl, rfl, rfl, rfl, rfl, rfl, rfl,
    fun _ _ _ h => resRead_resetCore h, rfl, rfl, rfl⟩

/-- Settles O24: RES_RD runs in every state, and only its bad address is a fault outside FAULT. -/
theorem resReadEffect : Obligations.ResReadEffect := by
  intro a s
  refine ⟨fun w hw => ?word, fun hnone hcore => ?bad, fun hnone hcore => ?badInFault⟩
  case word =>
    by_cases hcore : s.core = .fault
    · rw [exec_resRd_of_fault a hcore, hw]
      rfl
    · rw [exec_resRd_of_not_fault a hcore, resRdBody, hw, runCommand_ok _ hcore rfl]
      rfl
  case bad =>
    rw [exec_resRd_of_not_fault a hcore, resRdBody, hnone, runCommand_error _ hcore rfl]
    rfl
  case badInFault =>
    rw [exec_resRd_of_fault a hcore, hnone]
    rfl

/-- Settles O29: but for RESET and RES_RD, FAULT answers the placeholder of the command's OP, of a
rejected word's too. -/
theorem faultIgnores : Obligations.FaultIgnores := by
  intro s hcore
  have answers : ∀ op body, runCommand op s body = respond s (placeholder op) :=
    fun op body => runCommand_in_fault body hcore
  have silent : ∀ op body, placeholder op = [] → runCommand op s body = s :=
    fun op body hop => (runCommand_in_fault body hcore).trans (ignoreCommand_silent s hop)
  refine ⟨⟨resetCore s, rfl, rfl, rfl⟩, fun a => exec_resRd_of_fault a hcore,
    fun a => congrArg _ (answers 0x03 _), fun a => congrArg _ (answers 0x08 _),
    fun a t vs => congrArg _ (answers 0x05 _), fun a v => congrArg _ (silent 0x02 _ rfl),
    congrArg _ (silent 0x00 _ rfl), congrArg _ (silent 0x04 _ rfl), congrArg _ (silent 0x06 _ rfl),
    fun w p rest r hreset hinput hlen hclass => ?rejected⟩
  have hop : rejectOp r = w.extractLsb' 24 8 := by
    have h := classifiedOp_classify w p
    rw [hclass] at h
    exact h
  rw [step_of_classify_error hreset hinput hlen hclass, rejectCommand, if_pos hcore, ignoreCommand,
    placeholder_eq, hop]
  rfl

end Sys2Proof.Proofs
end

section
/-! SUPPORT. BLK_START's two outcomes, and its checks as rule R129 lists them (rules R126, R128 to
R130, R162). -/

namespace Sys2Proof.Machine

/-! ## The two outcomes -/

theorem allowed_blkStart_of_idle_or_done {c : CoreState} (hstopped : c = .idle ∨ c = .done) :
    allowed 0x04 c = true := by
  rcases hstopped with rfl | rfl <;> rfl

theorem exec_blkStart_of_legal {s : State} (hstopped : s.core = .idle ∨ s.core = .done)
    (hlegal : cfgInvalid s.cfg = none) : exec .blkStart s = .next (startBlock s) := by
  rw [exec, execBlkStart, blkStartBody, hlegal,
    runCommand_ok _ (not_fault_of_idle_or_done hstopped) (allowed_blkStart_of_idle_or_done hstopped),
    respond_nil]

theorem exec_blkStart_of_illegal {s : State} {a : BitVec 16}
    (hstopped : s.core = .idle ∨ s.core = .done) (hinvalid : cfgInvalid s.cfg = some a) :
    exec .blkStart s = .next { s with core := .fault, errCode := 5, errInfo := a } := by
  rw [exec, execBlkStart, blkStartBody, hinvalid,
    runCommand_error _ (not_fault_of_idle_or_done hstopped)
      (allowed_blkStart_of_idle_or_done hstopped), raiseCommand_silent _ _ rfl]
  rfl

/-- The latched MODE is the register's (rule R30). -/
theorem modeNumber_modeOf {c : CfgFile} (hmode : 1 ≤ c.nat .mode ∧ c.nat .mode ≤ 3) :
    modeNumber (modeOf (c.get .mode)) = c.nat .mode := by
  obtain ⟨-, hpe, hnrzi, hgcr⟩ := modeOf_iff c
  have hcases : c.nat .mode = 1 ∨ c.nat .mode = 2 ∨ c.nat .mode = 3 := by omega
  rcases hcases with h | h | h
  · rw [hpe.2 h, h]; rfl
  · rw [hnrzi.2 h, h]; rfl
  · rw [hgcr.2 h, h]; rfl

/-! ## The checks and the rules -/

theorem mode_of_legal {c : CfgFile} (hlegal : cfgInvalid c = none) :
    1 ≤ c.nat .mode ∧ c.nat .mode ≤ 3 := (modeOf_iff c).1.1 (legal_mode hlegal)

/-- The first rule that fails names the first check that fails. -/
theorem firstFailing_of_forall₂ {pre post : List (BitVec 16 × Prop)} {a : BitVec 16} {check : Prop}
    {checks : List (BitVec 16 × Bool)}
    (h : List.Forall₂ (fun (x : BitVec 16 × Prop) (y : BitVec 16 × Bool) =>
      x.1 = y.1 ∧ (x.2 ↔ y.2 = true)) (pre ++ (a, check) :: post) checks)
    (hpre : ∀ x ∈ pre, x.2) (hcheck : ¬ check) : firstFailing checks = some a := by
  induction pre generalizing checks with
  | nil =>
    cases h with
    | @cons _ y _ _ hy _ =>
      obtain ⟨haddr, hok⟩ := hy
      have hfails : y.2 = false := Bool.eq_false_iff.2 fun hy => hcheck (hok.2 hy)
      rw [firstFailing, hfails, if_neg (by simp), ← haddr]
  | cons x pre ih =>
    cases h with
    | @cons _ y _ _ hy hrest =>
      rw [firstFailing, if_pos (hy.2.1 (hpre x List.mem_cons_self))]
      exact ih hrest fun z hz => hpre z (List.mem_cons_of_mem x hz)

/-- A MODE outside 1 to 3 fails the first check, whatever the others say. -/
theorem cfgInvalid_of_illegal_mode {c : CfgFile} (hmode : ¬ (1 ≤ c.nat .mode ∧ c.nat .mode ≤ 3)) :
    cfgInvalid c = some 0x000 := by
  have hunset : modeOf (c.get .mode) = .unset := by
    by_contra h
    exact hmode ((modeOf_iff c).1.1 h)
  simp [cfgInvalid, cfgChecks, firstFailing, hunset]

theorem configRules_eq_cons (c : CfgFile) : configRules c =
    (0x000, 1 ≤ c.nat .mode ∧ c.nat .mode ≤ 3) :: (configRules c).tail := rfl

/-- BLK_START reports the first rule that fails (rule R129). -/
theorem cfgInvalid_of_first_rule {c : CfgFile} {pre post : List (BitVec 16 × Prop)} {a : BitVec 16}
    {check : Prop} (hrules : configRules c = pre ++ (a, check) :: post) (hpre : ∀ x ∈ pre, x.2)
    (hcheck : ¬ check) : cfgInvalid c = some a := by
  by_cases hmode : 1 ≤ c.nat .mode ∧ c.nat .mode ≤ 3
  · exact firstFailing_of_forall₂ (hrules ▸ configRules_cfgChecks hmode) hpre hcheck
  · rw [cfgInvalid_of_illegal_mode hmode]
    rw [configRules_eq_cons] at hrules
    cases pre with
    | nil =>
      obtain ⟨hhead, -⟩ := List.cons.inj hrules
      rw [← (Prod.mk.inj hhead).1]
    | cons x pre =>
      obtain ⟨rfl, -⟩ := List.cons.inj hrules
      exact absurd (hpre _ List.mem_cons_self) hmode

/-- All rules hold where all checks pass. -/
theorem forall_rules_iff_of_forall₂ {rules : List (BitVec 16 × Prop)}
    {checks : List (BitVec 16 × Bool)}
    (h : List.Forall₂ (fun (x : BitVec 16 × Prop) (y : BitVec 16 × Bool) =>
      x.1 = y.1 ∧ (x.2 ↔ y.2 = true)) rules checks) :
    (∀ x ∈ rules, x.2) ↔ ∀ y ∈ checks, y.2 = true := by
  induction h with
  | nil => simp
  | cons hxy _ ih => rw [List.forall_mem_cons, List.forall_mem_cons, hxy.2, ih]

/-- A configuration is legal when every rule holds (rule R129). -/
theorem cfgInvalid_eq_none_iff_rules (c : CfgFile) :
    cfgInvalid c = none ↔ ∀ x ∈ configRules c, x.2 := by
  have same : 1 ≤ c.nat .mode ∧ c.nat .mode ≤ 3 →
      (cfgInvalid c = none ↔ ∀ x ∈ configRules c, x.2) := fun hmode =>
    firstFailing_eq_none.trans (forall_rules_iff_of_forall₂ (configRules_cfgChecks hmode)).symm
  constructor
  · exact fun hlegal => (same (mode_of_legal hlegal)).1 hlegal
  · exact fun hrules =>
      (same (hrules _ (configRules_eq_cons c ▸ List.mem_cons_self))).2 hrules

theorem mem_allTracks (k : Fin 9) : k ∈ allTracks := by
  revert k
  decide

end Sys2Proof.Machine

namespace Sys2Proof.Proofs

open Sys2Proof Sys2Proof.Machine

/-- Settles O15: the state after BLK_START is `startBlock`, field by field. -/
theorem blkStartStarts : Obligations.BlkStartStarts := by
  intro s hstopped hlegal
  exact ⟨startBlock s, exec_blkStart_of_legal hstopped hlegal, rfl, rfl, rfl, rfl, rfl, rfl, rfl, rfl,
    rfl, rfl, rfl, rfl, rfl, modeNumber_modeOf (mode_of_legal hlegal), rfl,
    Attempt.tr_init (s.cfg.get .nominalHeight) _, rfl, fun _ => rfl, rfl, rfl, rfl, rfl, rfl⟩

/-- Settles O16: the checks fail where the rules fail, and RUN refuses the command before them. -/
theorem blkStartRefuses : Obligations.BlkStartRefuses := by
  intro s
  refine ⟨fun hstopped pre a check post hrules hpre hcheck => ?illegal, fun hrun => ?run⟩
  case illegal =>
    exact exec_blkStart_of_illegal hstopped (cfgInvalid_of_first_rule hrules hpre hcheck)
  case run => exact (wrongStateRaises s).2.1 hrun

/-- Settles O17: the rules one by one, with MODE's first, by which the track count's reads the same. -/
theorem legalConfigurations : Obligations.LegalConfigurations := by
  intro c
  rw [cfgInvalid_eq_none_iff_rules]
  simp only [configRules, List.forall_mem_append, List.forall_mem_cons, List.not_mem_nil,
    false_imp_iff, implies_true, true_and, List.forall_mem_map, mem_allTracks, true_imp_iff,
    and_assoc, Bool.not_eq_true]
  refine and_congr_right fun hlow => and_congr_right fun hhigh => and_congr_right fun _ =>
    and_congr_left fun _ => ?ntrks
  case ntrks =>
    have hmode : c.nat .mode = 1 ∨ c.nat .mode = 3 ↔ c.nat .mode ≠ 2 := by omega
    rw [hmode]

/-- Settles O18: the definition's two cases, and the bounds its last check and its cap give. -/
theorem windowWidth : Obligations.WindowWidth := by
  intro c q
  refine ⟨fun hscan => ?scan, fun hscan => ?density, cfgWindow_bounds⟩
  case scan => exact if_pos hscan
  case density => exact if_neg (Bool.eq_false_iff.1 hscan)

end Sys2Proof.Proofs
end

section
/-! SUPPORT. SAMPLE and EOF, outcome by outcome: the three checks in order, the run that answers or
raises, and the end of the attempt (rules R131 to R133, R170, R370, R402). -/

namespace Sys2Proof.Machine

/-! ## SAMPLE's checks -/

theorem sampleCheck_of_bad_count {n : Nat} {p : Option F64} {a : BitVec 16} {t : F64} {vs : List F64}
    (hcount : a.toNat < 1 ∨ 9 < a.toNat ∨ a.toNat ≠ n) :
    sampleCheck n p a t vs = some ⟨.payloadMismatch, a⟩ := if_pos (by simpa [or_assoc] using hcount)

theorem sampleCheck_of_nonfinite {n i : Nat} {p : Option F64} {a : BitVec 16} {t : F64}
    {vs : List F64} (hlow : 1 ≤ a.toNat) (hhigh : a.toNat ≤ 9) (hcount : a.toNat = n)
    (hfirst : firstNonfinite 0 (t :: vs) = some i) :
    sampleCheck n p a t vs = some ⟨.nonfiniteSample, BitVec.ofNat 16 i⟩ := by
  unfold sampleCheck
  rw [if_neg (by simp; omega), hfirst]

theorem sampleCheck_of_early {n : Nat} {q : F64} {a : BitVec 16} {t : F64} {vs : List F64}
    (hlow : 1 ≤ a.toNat) (hhigh : a.toNat ≤ 9) (hcount : a.toNat = n)
    (hfinite : ∀ x ∈ t :: vs, fFinite x = true) (hearly : fLt t q = true) :
    sampleCheck n (some q) a t vs = some ⟨.timeOrder, 0⟩ := by
  unfold sampleCheck
  rw [if_neg (by simp; omega), firstNonfinite_none.2 hfinite]
  exact if_pos hearly

/-! ## SAMPLE in RUN -/

section
variable {s : State} {a : BitVec 16} {t : F64} {vs : List F64}

theorem exec_sample_of_error {r : Raise} (hrun : s.core = .run)
    (hbody : sampleBody a t vs s = .error r) :
    exec (.sample a t vs) s = .next { s with
      core := .fault, errCode := errNumber r.code, errInfo := r.info, output := s.output ++ [0] } := by
  rw [exec, execSample, hbody, runCommand_error r (by simp [hrun]) (by rw [hrun]; rfl)]
  rfl

theorem exec_sample_of_check {r : Raise} (hrun : s.core = .run)
    (hcheck : sampleCheck s.lat.ntrks s.att.tPrev a t vs = some r) :
    exec (.sample a t vs) s = .next { s with
      core := .fault, errCode := errNumber r.code, errInfo := r.info, output := s.output ++ [0] } :=
  exec_sample_of_error hrun (by rw [sampleBody, hcheck])

theorem exec_sample_of_run_error {r : Raise} (hrun : s.core = .run)
    (hcheck : sampleCheck s.lat.ntrks s.att.tPrev a t vs = none)
    (hr : sampleRun s.cfg s.lat t vs s.att = .error r) :
    exec (.sample a t vs) s = .next { s with
      core := .fault, errCode := errNumber r.code, errInfo := r.info, output := s.output ++ [0] } :=
  exec_sample_of_error hrun (by rw [sampleBody, hcheck, hr]; rfl)

theorem exec_sample_of_run_ok {y : Attempt × Bool × List Event} (hrun : s.core = .run)
    (hcheck : sampleCheck s.lat.ntrks s.att.tPrev a t vs = none)
    (hy : sampleRun s.cfg s.lat t vs s.att = .ok y) :
    exec (.sample a t vs) s = .next (respond (sampleNext s y) (sampleResponse y.2.2 y.2.1)) := by
  have hbody : sampleBody a t vs s = .ok (sampleNext s y, sampleResponse y.2.2 y.2.1) := by
    rw [sampleBody, hcheck, hy]
    rfl
  rw [exec, execSample, hbody, runCommand_ok _ (by simp [hrun]) (by rw [hrun]; rfl)]

end

/-! ## What a SAMPLE leaves of the state -/

theorem sampleNext_record (s : State) (y : Attempt × Bool × List Event) :
    (sampleNext s y).errCode = s.errCode ∧ (sampleNext s y).errInfo = s.errInfo ∧
    (sampleNext s y).eofSeen = s.eofSeen ∧ (sampleNext s y).resetIn = s.resetIn := by
  unfold sampleNext
  split <;> exact ⟨rfl, rfl, rfl, rfl⟩

theorem sampleNext_of_running {s : State} {y : Attempt × Bool × List Event} (hended : y.2.1 = false) :
    sampleNext s y = { s with att := y.1 } := if_neg (by simp [hended])

theorem sampleNext_of_ended {s : State} {y : Attempt × Bool × List Event} (hended : y.2.1 = true) :
    sampleNext s y = finishBlock { s with att := y.1 } := if_pos hended

/-- No decoder runs in peak-scan mode, so none ends the block there (rule R171). -/
theorem not_ended_of_scan {c : CfgFile} {l : Latched} {time : F64} {vs : List F64} {a a' : Attempt}
    {ended : Bool} (h : SampleRunOf c l time vs a a' ended) (hscan : l.scan = true) :
    ended = false := by
  obtain ⟨_, -, -, -, hstep, -⟩ := h
  exact (hstep hscan).2

/-- Finalisation leaves the last-peak records and the peak counts alone. -/
theorem EventsOf.final {l : Latched} {a a1 a2 : Attempt} {es : List Event}
    (h : EventsOf l.ntrks a a1 es) (f : FinalFrame l a1 a2) : EventsOf l.ntrks a a2 es where
  order := h.order
  lanes := h.lanes
  seen e he := by rw [f.tracks e.k]; exact h.seen e he
  unseen k hk := by rw [f.tracks k]; exact h.unseen k hk
  anyPeak := f.anyPeak.trans h.anyPeak

/-- In RUN the latched track count is one a SAMPLE's count can be, and a decoder is selected. -/
theorem Inv.latched_of_run {s : State} (h : Inv s) (hrun : s.core = .run) :
    1 ≤ s.lat.ntrks ∧ s.lat.ntrks ≤ 9 ∧ s.lat.mode ≠ .unset := by
  obtain ⟨hlegal, hlat, -⟩ := h.control.run hrun
  rw [hlat]
  have hmode : (latchOf s.cfg).mode ≠ .unset := legal_mode hlegal
  change 1 ≤ s.cfg.nat .ntrks ∧ s.cfg.nat .ntrks ≤ 9 ∧ _
  rcases legal_ntrks hlegal with ⟨hn, -⟩ | hn <;> exact ⟨by omega, by omega, hmode⟩

/-! ## EOF -/

theorem exec_eof_of_idle_or_done {s : State} (hstopped : s.core = .idle ∨ s.core = .done) :
    exec .eof s = .next { s with eofSeen := true } := by
  rw [exec, execEof, eofBody, if_neg (ne_run_of_idle_or_done hstopped),
    runCommand_ok _ (not_fault_of_idle_or_done hstopped) rfl, respond_nil]

/-- The end of an attempt in RUN changes only what finalisation may. -/
theorem Inv.finalFrame {s : State} (h : Inv s) (hrun : s.core = .run) {a : Attempt}
    (ha : AttemptInv s.lat a) (hcount : a.gcrNsym = 0) :
    FinalFrame s.lat a (finalize s.cfg s.lat a).1 := by
  obtain ⟨-, hframe, -⟩ := finalize_inv (h.sampleFacts hrun).lat s.cfg ha hcount
  exact hframe

end Sys2Proof.Machine

namespace Sys2Proof.Proofs

open Sys2Proof Sys2Proof.Machine

/-- Settles O20: each check is reached past the ones before it, and its raise is the command's. -/
theorem sampleChecks : Obligations.SampleChecks := by
  intro a t vs s hrun
  refine ⟨fun hcount => ?count, fun hlow hhigh hcount => ⟨fun ht => ?time,
    fun ht pre v post hvs hpre hv => ?voltage, fun ht hvs p hp hearly => ?order⟩⟩
  case count => exact exec_sample_of_check hrun (sampleCheck_of_bad_count hcount)
  case time =>
    exact exec_sample_of_check hrun (sampleCheck_of_nonfinite hlow hhigh hcount
      (firstNonfinite_some (pre := []) (by simp) ht))
  case voltage =>
    have hfirst : firstNonfinite 0 (t :: vs) = some (0 + (t :: pre).length) := by
      rw [hvs]
      exact firstNonfinite_some (pre := t :: pre) (by simpa [ht] using hpre) hv
    rw [Nat.zero_add, List.length_cons, Nat.add_comm] at hfirst
    exact exec_sample_of_check hrun (sampleCheck_of_nonfinite hlow hhigh hcount hfirst)
  case order =>
    have hcheck := sampleCheck_of_early hlow hhigh hcount (by simpa [ht] using hvs) hearly
    rw [← hp] at hcheck
    exact exec_sample_of_check hrun hcheck

/-- Settles O22: past its checks a SAMPLE faults where its run raises, and the run raises overflows
alone. -/
theorem sampleRaisesOnlyOverflow : Obligations.SampleRaisesOnlyOverflow := by
  intro a t vs s s' hrun hcount hlow hhigh ht hvs hp hexec hcore'
  have hcheck : sampleCheck s.lat.ntrks s.att.tPrev a t vs = none :=
    sampleCheck_none hlow hhigh hcount ht hvs hp
  cases hresult : sampleRun s.cfg s.lat t vs s.att with
  | error r =>
    rw [exec_sample_of_run_error hrun hcheck hresult] at hexec
    cases hexec
    obtain ⟨hcode, hscan, hinfo⟩ := sampleRun_error hresult
    exact ⟨hscan, congrArg errNumber hcode, hinfo⟩
  | ok y =>
    rw [exec_sample_of_run_ok hrun hcheck hresult] at hexec
    cases hexec
    rw [respond_core, sampleNext_core, hrun] at hcore'
    split at hcore' <;> cases hcore'

/-- Settles O23: in RUN the attempt is finalised, with no GCR symbol counted before. -/
theorem eofEffect : Obligations.EofEffect := by
  intro s
  refine ⟨exec_eof_of_idle_or_done, fun hrun hinv => ?run⟩
  case run =>
    exact ⟨_, exec_eof_of_run hrun, rfl, rfl,
      hinv.finalFrame hrun hinv.attempt (hinv.live hrun).2⟩

/-- Settles O21: the run answers where there is room; what it does of the attempt is said by the laws
of `sampleRun`, and the end of a block keeps the events and the front ends. -/
theorem sampleCompletes : Obligations.SampleCompletes := by
  intro a t vs s hinv hrun hcount hlen ht hvs hp hroom
  obtain ⟨hlow, hhigh, hmode⟩ := hinv.latched_of_run hrun
  have hfacts := hinv.sampleFacts hrun
  have hcheck : sampleCheck s.lat.ntrks s.att.tPrev a t vs = none :=
    sampleCheck_none (by omega) (by omega) hcount ht hvs hp
  obtain ⟨y, hy⟩ := sampleRun_answers (t := t) (vs := vs) hfacts hinv.attempt hroom
  obtain ⟨a', ended, es⟩ := y
  have hdone := hinv.sampleDone hrun hy
  have hfront := sampleRun_front hfacts hinv.attempt (hinv.live hrun).1 hy
  have hruns := sampleRun_of hhigh (fun _ => hmode) hy
  obtain ⟨hcfg, hlat⟩ := sampleNext_cfg_lat s (a', ended, es)
  obtain ⟨hin, hout⟩ := sampleNext_streams s (a', ended, es)
  obtain ⟨hcode, hinfo, heof, hreset⟩ := sampleNext_record s (a', ended, es)
  have hcore : (sampleNext s (a', ended, es)).core = if ended then .done else .run := by
    rw [sampleNext_core, hrun]
  have hresponse := congrArg (· ++ sampleResponse es ended) hout
  refine ⟨_, es, ended, a', exec_sample_of_run_ok hrun hcheck hy, hcore, hresponse, hcode, hinfo,
    heof, hcfg, hlat, hin, hreset, ?rest⟩
  simp only [respond_att, respond_res]
  cases ended with
  | false =>
    rw [sampleNext_of_running rfl]
    exact ⟨hdone.tPrev, hdone.nsamples, hdone.events, hfront, hruns, hdone.frame,
      fun _ => ⟨rfl, rfl⟩, fun h => nomatch h⟩
  | true =>
    have hfinal := hinv.finalFrame hrun hdone.inv (hinv.gcrNsym_of_sampleRun hrun hy)
    rw [sampleNext_of_ended rfl]
    refine ⟨hfinal.tPrev.trans hdone.tPrev, hfinal.nsamples.trans hdone.nsamples,
      hdone.events.final hfinal, hfront.final hfinal, hruns, hdone.frame, (fun h => nomatch h),
      fun _ => ⟨?scan, hfinal, rfl⟩⟩
    case scan =>
      by_contra hscan
      exact absurd (not_ended_of_scan hruns (by simpa using hscan)) (by simp)

end Sys2Proof.Proofs
end

section
/-! SUPPORT. Two states with the same core under the same commands (rules R17, R78, R81, R84). -/

namespace Sys2Proof.Machine

/-- Two states with the same core differ in the host's side alone. -/
theorem eq_of_coreOnly_eq {s t : State} (h : s.coreOnly = t.coreOnly) :
    t = { s with input := t.input, output := t.output, resetIn := t.resetIn } := by
  change t = { s.coreOnly with input := t.input, output := t.output, resetIn := t.resetIn }
  rw [h]
  rfl

/-- A command answers alike on two states with the same core, and leaves the same core. -/
theorem exec_of_coreOnly_eq (i : Instr) {s₁ s₂ : State} (h : s₁.coreOnly = s₂.coreOnly) :
    ∃ t₁ t₂ r, exec i s₁ = .next t₁ ∧ exec i s₂ = .next t₂ ∧ t₁.coreOnly = t₂.coreOnly ∧
      t₁.output = s₁.output ++ r ∧ t₂.output = s₂.output ++ r ∧
      t₁.input = s₁.input ∧ t₂.input = s₂.input ∧ t₁.resetIn = s₁.resetIn ∧
      t₂.resetIn = s₂.resetIn := by
  obtain ⟨t, r, h₂, h₁⟩ := exec_congr i s₁ s₂.input s₂.output s₂.resetIn
  rw [← eq_of_coreOnly_eq h] at h₂
  exact ⟨_, _, r, h₁, h₂, rfl, rfl, rfl, rfl, rfl, rfl, rfl⟩

theorem execAll_of_coreOnly_eq (is : List Instr) {s₁ s₂ : State} (h : s₁.coreOnly = s₂.coreOnly) :
    ∃ t₁ t₂ r, execAll is s₁ = .next t₁ ∧ execAll is s₂ = .next t₂ ∧ t₁.coreOnly = t₂.coreOnly ∧
      t₁.output = s₁.output ++ r ∧ t₂.output = s₂.output ++ r := by
  induction is generalizing s₁ s₂ with
  | nil => exact ⟨s₁, s₂, [], rfl, rfl, h, by simp, by simp⟩
  | cons i is ih =>
    obtain ⟨u₁, u₂, r, h₁, h₂, hu, ho₁, ho₂, -⟩ := exec_of_coreOnly_eq i h
    obtain ⟨t₁, t₂, q, hs₁, hs₂, ht, hq₁, hq₂⟩ := ih hu
    exact ⟨t₁, t₂, r ++ q, by rw [execAll, h₁]; exact hs₁, by rw [execAll, h₂]; exact hs₂, ht,
      by rw [hq₁, ho₁, List.append_assoc], by rw [hq₂, ho₂, List.append_assoc]⟩

/-- BLK_START leaves nothing of the attempt before: the core after it is a matter of the
configuration and the error record. -/
theorem startBlock_coreOnly_eq {s₁ s₂ : State} (hcfg : s₁.cfg = s₂.cfg)
    (hcode : s₁.errCode = s₂.errCode) (hinfo : s₁.errInfo = s₂.errInfo) :
    (startBlock s₁).coreOnly = (startBlock s₂).coreOnly := by
  rw [coreOnly_eq_iff]
  simp [hcfg, hcode, hinfo]

end Sys2Proof.Machine

namespace Sys2Proof.Proofs

open Sys2Proof Sys2Proof.Machine

/-- Settles O35: a command's frame and its body read and write the core alone. -/
theorem hostStreamsUnread : Obligations.HostStreamsUnread :=
  fun i _ _ h => exec_of_coreOnly_eq i h

/-- Settles O36: BLK_START makes the two cores alike, and the commands after it keep them so. -/
theorem retryDeterminism : Obligations.RetryDeterminism := by
  intro s₁ s₂ is hcfg hlegal hstopped₁ hstopped₂ hcode₁ hinfo₁ hcode₂ hinfo₂
  have hcore : (startBlock s₁).coreOnly = (startBlock s₂).coreOnly :=
    startBlock_coreOnly_eq hcfg (hcode₁.trans hcode₂.symm) (hinfo₁.trans hinfo₂.symm)
  obtain ⟨t₁, t₂, r, h₁, h₂, ht, ho₁, ho₂⟩ := execAll_of_coreOnly_eq is hcore
  refine ⟨t₁, t₂, r, ?first, ?second, ht, ho₁, ho₂⟩
  case first => rw [execAll, exec_blkStart_of_legal hstopped₁ hlegal]; exact h₁
  case second => rw [execAll, exec_blkStart_of_legal hstopped₂ (hcfg ▸ hlegal)]; exact h₂

/-- Settles O37: the first voltage fills the delay line, which then answers what it holds. -/
theorem deskewDelays : Obligations.DeskewDelays := by
  intro d v vs t hfifo hprimed
  cases d with
  | zero => simp [deskewAll_zero]
  | succ d =>
    have hrest := deskewAll_primed (d := d + 1) (by omega) vs
      { t with fifo := List.replicate d v ++ [v], primed := true } rfl (by simp)
    have hfirst : deskew (d + 1) v t =
        (v, { t with fifo := List.replicate d v ++ [v], primed := true }) := by
      simp [deskew, hprimed, List.replicate_succ]
    rw [deskewAll, hfirst, hrest]
    simp [List.replicate_succ]

end Sys2Proof.Proofs
end

section
/-! SUPPORT. The view registers by address (rules R31, R32, R38). -/

namespace Sys2Proof.Machine

theorem flagWord_eq (b : Bool) : flagWord b = if b then 1 else 0 := by
  cases b <;> rfl

theorem trackClockShown_iff (l : Latched) : trackClockShown l = true ↔
    (l.scan = false ∧ l.mode = .pe) ∨ (l.scan = false ∧ l.mode = .gcr) := by
  simp [trackClockShown, and_or_left]

theorem sharedClockShown_iff (l : Latched) :
    sharedClockShown l = true ↔ l.scan = false ∧ l.mode = .nrzi := by
  simp [sharedClockShown]

/-- Each bank of per-track registers shows its view of the track its address names. -/
theorem resRead_of_bank (s : State) (k : Fin 9) :
    resRead s (BitVec.ofNat 16 (0x020 + k.val)) =
      some (trackView s k fun t => countWord t.peakcount) ∧
    resRead s (BitVec.ofNat 16 (0x030 + k.val)) =
      some (trackView s k fun t => countWord t.datacount) ∧
    resRead s (BitVec.ofNat 16 (0x040 + k.val)) = some (trackView s k fun t => t.gain) ∧
    resRead s (BitVec.ofNat 16 (0x050 + k.val)) =
      some (trackView s k fun t => if trackClockShown s.lat then t.clk.value else 0) ∧
    resRead s (BitVec.ofNat 16 (0x070 + k.val)) =
      some (trackView s k fun t => countWord t.faked) ∧
    resRead s (BitVec.ofNat 16 (0x080 + k.val)) = some (trackView s k fun t => t.vAvgHeight) := by
  refine ⟨?_, ?_, ?_, ?_, ?_, ?_⟩ <;> fin_cases k <;> rfl

theorem resRead_blktype (s : State) : resRead s 0x002 =
    some (match s.res.blktype with | .none => 0 | .block => 1 | .tapemark => 2 | .noise => 3) := by
  change some (countWord (blkNumber s.res.blktype)) = _
  cases s.res.blktype <;> rfl

theorem resRead_flag (s : State) :
    resRead s 0x00C = some (if s.res.crcBad then 1 else 0) ∧
    resRead s 0x00D = some (if s.res.lrcBad then 1 else 0) ∧
    resRead s 0x011 = some (if s.res.trackMismatch then 1 else 0) := by
  simp only [← flagWord_eq]
  exact ⟨rfl, rfl, rfl⟩

/-- The shared clock's two registers (rule R32). -/
theorem resRead_sharedClock (s : State) :
    resRead s 0x060 = some (if sharedClockShown s.lat then s.att.nrzi.clk.value else 0) ∧
    resRead s 0x061 = some (if sharedClockShown s.lat then s.att.nrzi.tLastclock else 0) := ⟨rfl, rfl⟩

end Sys2Proof.Machine

namespace Sys2Proof.Proofs

open Sys2Proof Sys2Proof.Machine

/-- Settles O27: a register of its own for each address up to 0x018, and a bank of views past them,
which shows the clock by the latched mode. -/
theorem viewRegisters : Obligations.ViewRegisters := by
  intro s k
  obtain ⟨hpeaks, hcounts, hgain, hclock, hfaked, hheight⟩ := resRead_of_bank s k
  obtain ⟨hcrc, hlrc, hmismatch⟩ := resRead_flag s
  obtain ⟨hvalue, hlast⟩ := resRead_sharedClock s
  refine ⟨resRead_blktype s, rfl, rfl, rfl, rfl, rfl, rfl, rfl, rfl, rfl, hcrc, hlrc, rfl, rfl, rfl,
    hmismatch, rfl, rfl, rfl, rfl, rfl, rfl, rfl, hpeaks, hcounts, hgain, hfaked, hheight,
    fun hshown => ?clock, fun hhidden => ?noClock, fun hshown => ?shared, fun hhidden => ?noShared,
    rfl⟩
  case clock =>
    have hclocks := (trackClockShown_iff s.lat).2 hshown
    simpa [hclocks, trackView] using hclock
  case noClock =>
    have hclocks := mt (trackClockShown_iff s.lat).1 hhidden
    simpa [hclocks, trackView] using hclock
  case shared =>
    have hclocks := (sharedClockShown_iff s.lat).2 hshown
    rw [if_pos hclocks] at hvalue hlast
    exact ⟨hvalue, hlast⟩
  case noShared =>
    have hclocks := mt (sharedClockShown_iff s.lat).1 hhidden
    rw [if_neg hclocks] at hvalue hlast
    exact ⟨hvalue, hlast⟩

end Sys2Proof.Proofs
end

section
/-! SUPPORT. The peak detector over a full window: when a candidate is valid, and what the choice
between the two answers (rules R163 to R169). -/

namespace Sys2Proof.Machine

/-! ## The candidates -/

/-- A candidate at `m` of the voltages `vs`, clear of the first by `first` and of the last by `last`
(rules R165, R166). -/
def ValidCandidate (c : CfgFile) (rise first last : F64) (m : Nat) (vs : List F64) : Prop :=
  (0 < m ∧ m + 1 < vs.length) ∧ fLe rise first = true ∧ fLe rise last = true ∧
    (fEq (c.get .minPeak) 0 = true ∨ fLt (c.get .minPeak) (fAbs (vs.getD m 0)) = true)

/-- The top candidate is valid (rule R166). -/
def ValidTop (c : CfgFile) (rise : F64) (vs : List F64) : Prop :=
  let m := argmaxFirst vs
  ValidCandidate c rise (fSub (vs.getD m 0) (vs.getD 0 0))
    (fSub (vs.getD m 0) (vs.getD (vs.length - 1) 0)) m vs

/-- The bottom candidate is valid (rule R166). -/
def ValidBot (c : CfgFile) (rise : F64) (vs : List F64) : Prop :=
  let m := argminFirst vs
  ValidCandidate c rise (fSub (vs.getD 0 0) (vs.getD m 0))
    (fSub (vs.getD (vs.length - 1) 0) (vs.getD m 0)) m vs

theorem headD_eq_getD {α : Type} (l : List α) (d : α) : l.headD d = l.getD 0 d := by
  cases l <;> rfl

theorem topCandidate_of_valid {c : CfgFile} {rise : F64} {vs : List F64} (h : ValidTop c rise vs) :
    topCandidate c rise vs = some (argmaxFirst vs) := by
  simp only [topCandidate, headD_eq_getD, getLastD_eq_getD]
  exact if_pos ((candidate_iff ..).2 h)

theorem topCandidate_of_not_valid {c : CfgFile} {rise : F64} {vs : List F64}
    (h : ¬ ValidTop c rise vs) : topCandidate c rise vs = none := by
  simp only [topCandidate, headD_eq_getD, getLastD_eq_getD]
  exact if_neg (mt (candidate_iff ..).1 h)

theorem botCandidate_of_valid {c : CfgFile} {rise : F64} {vs : List F64} (h : ValidBot c rise vs) :
    botCandidate c rise vs = some (argminFirst vs) := by
  simp only [botCandidate, headD_eq_getD, getLastD_eq_getD]
  exact if_pos ((candidate_iff ..).2 h)

theorem botCandidate_of_not_valid {c : CfgFile} {rise : F64} {vs : List F64}
    (h : ¬ ValidBot c rise vs) : botCandidate c rise vs = none := by
  simp only [botCandidate, headD_eq_getD, getLastD_eq_getD]
  exact if_neg (mt (candidate_iff ..).1 h)

/-! ## The choice -/

/-- The choice among the valid candidates of a track's window (rule R167). -/
def windowChoice (c : CfgFile) (t : Track) : Option (Polarity × Nat) :=
  let vs := t.win.map (·.2)
  chooseCandidate (topCandidate c (requiredRise c t) vs) (botCandidate c (requiredRise c t) vs)

theorem detectPeak_of_no_choice {c : CfgFile} {t : Track} (h : windowChoice c t = none) :
    detectPeak c t = (t, none) := by
  unfold windowChoice at h
  unfold detectPeak
  simp only [h]

theorem detectPeak_of_choice {c : CfgFile} {t : Track} {pol : Polarity} {m : Nat}
    (h : windowChoice c t = some (pol, m)) :
    detectPeak c t = ({ t with blackout := m }, some
      { pol := pol
        t := interpolate c t.gain (t.win.getD m (0, 0)).1 (t.win.getD m (0, 0)).2
          (t.win.getD (m - 1) (0, 0)).2 (t.win.getD (m + 1) (0, 0)).2
        v := (t.win.getD m (0, 0)).2 }) := by
  unfold windowChoice at h
  unfold detectPeak
  simp only [h, getD_map_fst, getD_map_snd]

/-! ## The three ways through a peak step -/

section
variable {c : CfgFile} {l : Latched} {time u : F64} {t : Track} {win : List (F64 × F64)}
variable (hpush : pushBounded l.w t.win (time, u) = win)
include hpush

theorem peakStep_of_short_window (hshort : win.length < l.w) :
    peakStep c l time u t = ({ t with win := win }, none) := by
  unfold peakStep
  rw [hpush]
  exact if_pos hshort

theorem peakStep_of_full_dark (hfull : win.length = l.w) (hdark : 0 < t.blackout) :
    peakStep c l time u t = ({ t with win := win, blackout := t.blackout - 1 }, none) := by
  unfold peakStep
  rw [hpush]
  exact (if_neg (by simp [hfull])).trans (if_pos hdark)

theorem peakStep_of_full_light (hfull : win.length = l.w) (hlight : t.blackout = 0) :
    peakStep c l time u t = detectPeak c { t with win := win } := by
  unfold peakStep
  rw [hpush]
  exact (if_neg (by simp [hfull])).trans (if_neg (by simp [hlight]))

end

end Sys2Proof.Machine

namespace Sys2Proof.Proofs

open Sys2Proof Sys2Proof.Machine

/-- Settles O38: the choice between the candidates decides what a full window reports, and the names
of the candidates are those of the first greatest and first least. -/
theorem peakOfFullWindow : Obligations.PeakOfFullWindow := by
  refine ⟨?step, ?names⟩
  case step =>
    intro c l time u t hlen win at_ v rise interior configured mt mb top bot shifted none_ peak
    have hpush : pushBounded l.w t.win (time, u) = win := pushBounded_eq _ hlen
    refine ⟨fun hshort => peakStep_of_short_window hpush hshort,
      fun hfull hdark => peakStep_of_full_dark hpush hfull hdark, fun hfull hlight => ?full⟩
    have hstep := peakStep_of_full_light (c := c) hpush hfull hlight
    have htop : top ↔ ValidTop c rise (win.map (·.2)) := by
      simp only [ValidTop, ValidCandidate, getD_map_snd, List.length_map, hfull]
      rfl
    have hbot : bot ↔ ValidBot c rise (win.map (·.2)) := by
      simp only [ValidBot, ValidCandidate, getD_map_snd, List.length_map, hfull]
      rfl
    have peakOf : ∀ pol m, windowChoice c { t with win := win } = some (pol, m) → peak pol m :=
      fun pol m h => hstep.trans (detectPeak_of_choice h)
    have hrise : requiredRise c { t with win := win } = rise := rfl
    rw [htop, hbot]
    refine ⟨fun ht hb => ?neither, fun ht hb => peakOf _ _ ?onlyTop, fun hb ht => peakOf _ _ ?onlyBot,
      fun ht hb holder => peakOf _ _ ?topFirst, fun ht hb holder => peakOf _ _ ?botFirst⟩
    case neither =>
      have hnone : windowChoice c { t with win := win } = none := by
        simp only [windowChoice, hrise, topCandidate_of_not_valid ht, botCandidate_of_not_valid hb,
          chooseCandidate]
      change peakStep c l time u t = _
      rw [hstep.trans (detectPeak_of_no_choice hnone), ← hlight]
    case onlyTop =>
      simp only [windowChoice, hrise, topCandidate_of_valid ht, botCandidate_of_not_valid hb,
        chooseCandidate]
      rfl
    case onlyBot =>
      simp only [windowChoice, hrise, topCandidate_of_not_valid ht, botCandidate_of_valid hb,
        chooseCandidate]
      rfl
    case topFirst =>
      simp only [windowChoice, hrise, topCandidate_of_valid ht, botCandidate_of_valid hb,
        chooseCandidate]
      exact if_neg (Nat.lt_asymm holder)
    case botFirst =>
      simp only [windowChoice, hrise, topCandidate_of_valid ht, botCandidate_of_valid hb,
        chooseCandidate]
      exact if_pos holder
  case names =>
    intro vs hne hfinite mt mb
    have hnan : ∀ x ∈ vs, fIsNaN x = false := fun x hx => fIsNaN_of_finite (hfinite x hx)
    exact ⟨argmaxFirst_spec hne hnan, argminFirst_spec hne hnan⟩

/-- Settles O41: the baseline over a sequence of heights, and the guard under which PE's start of data
freezes it. -/
theorem agcBaseline : Obligations.AgcBaseline := by
  refine ⟨fun c l hs t hfrozen hcount hsum hle hne => ?heights,
    fun c l h sod t => ⟨fun hfrozen hmode hcount => ?freeze, fun hguard => ?noMatter, ?noHeight⟩⟩
  case heights =>
    have hpos : 0 < hs.length := List.length_pos_iff.2 hne
    simpa only [hcount, hsum, Nat.zero_add] using
      agcFeed_baseline c l hs t hfrozen (by omega) (by omega)
  case freeze => simp [agcPeak, Machine.agcBaseline, agcFreeze, hfrozen, hmode, hcount]
  case noMatter =>
    by_cases hfrozen : t.hFrozen = false
    · have hoff : l.mode = .pe → ¬ 1 ≤ t.hN := by
        intro hmode hcount
        rcases hguard with h | h | h
        · simp [hfrozen] at h
        · exact h hmode
        · omega
      have hbranch : ¬ (decide (l.mode = .pe) && sod && decide (1 ≤ t.hN)) = true := by
        simp only [Bool.and_eq_true, decide_eq_true_eq]
        exact fun h => hoff h.1.1 h.2
      simp only [agcPeak, if_pos hfrozen, Machine.agcBaseline, if_neg hbranch]
      simp
    · simp only [agcPeak, if_neg hfrozen]
  case noHeight => simp [agcPeak, Machine.agcBaseline]

end Sys2Proof.Proofs
end

section
/-! SUPPORT. The final registers a tapemark does not clear, and what the finalisation of each mode hands
to them (rules R370, R375 to R384). -/

namespace Sys2Proof.Machine

/-! ## Tapemark clearing, register by register -/

section
variable (r : Results)

@[simp] theorem tapemarkClear_nsymbols : (tapemarkClear r).nsymbols = r.nsymbols := by
  unfold tapemarkClear; split <;> rfl
@[simp] theorem tapemarkClear_minbits : (tapemarkClear r).minbits = r.minbits := by
  unfold tapemarkClear; split <;> rfl
@[simp] theorem tapemarkClear_maxbits : (tapemarkClear r).maxbits = r.maxbits := by
  unfold tapemarkClear; split <;> rfl
@[simp] theorem tapemarkClear_avgBitSpacing :
    (tapemarkClear r).avgBitSpacing = r.avgBitSpacing := by
  unfold tapemarkClear; split <;> rfl
@[simp] theorem tapemarkClear_fakedBits : (tapemarkClear r).fakedBits = r.fakedBits := by
  unfold tapemarkClear; split <;> rfl
@[simp] theorem tapemarkClear_crc : (tapemarkClear r).crc = r.crc := by
  unfold tapemarkClear; split <;> rfl
@[simp] theorem tapemarkClear_lrc : (tapemarkClear r).lrc = r.lrc := by
  unfold tapemarkClear; split <;> rfl
@[simp] theorem tapemarkClear_warncount : (tapemarkClear r).warncount = r.warncount := by
  unfold tapemarkClear; split <;> rfl
@[simp] theorem tapemarkClear_alltrkMaxAgcGain :
    (tapemarkClear r).alltrkMaxAgcGain = r.alltrkMaxAgcGain := by
  unfold tapemarkClear; split <;> rfl

/-- A register that clearing sets to 0 stays 0 where it was. -/
theorem tapemarkClear_eccErrs_of_zero (h : r.eccErrs = 0) : (tapemarkClear r).eccErrs = 0 := by
  unfold tapemarkClear; split <;> simp [h]
theorem tapemarkClear_badDgroups_of_zero (h : r.badDgroups = 0) :
    (tapemarkClear r).badDgroups = 0 := by
  unfold tapemarkClear; split <;> simp [h]
theorem tapemarkClear_seqErrs_of_zero (h : r.seqErrs = 0) : (tapemarkClear r).seqErrs = 0 := by
  unfold tapemarkClear; split <;> simp [h]
theorem tapemarkClear_crcBad_of_false (h : r.crcBad = false) : (tapemarkClear r).crcBad = false := by
  unfold tapemarkClear; split <;> simp [h]
theorem tapemarkClear_lrcBad_of_false (h : r.lrcBad = false) : (tapemarkClear r).lrcBad = false := by
  unfold tapemarkClear; split <;> simp [h]
theorem tapemarkClear_trackMismatch_of_false (h : r.trackMismatch = false) :
    (tapemarkClear r).trackMismatch = false := by
  unfold tapemarkClear; split <;> simp [h]

end

/-! ## The common results -/

/-- ERRCOUNT is the sum of the error registers, cleared together with them (rules R382, R383). -/
theorem errcount_tapemarkClear (l : Latched) (a : Attempt) (p : PreResults) :
    let r := tapemarkClear (commonResults l a p)
    r.errcount = r.vparityErrs + boolNat r.trackMismatch + boolNat r.crcBad + boolNat r.lrcBad +
      r.eccErrs + r.badDgroups + r.seqErrs := by
  unfold tapemarkClear
  split <;> rfl

theorem tapemarkClear_cleared {r : Results} (h : (tapemarkClear r).blktype = .tapemark) :
    (tapemarkClear r).vparityErrs = 0 ∧ (tapemarkClear r).trackMismatch = false ∧
    (tapemarkClear r).mismatchSpan = 0 ∧ (tapemarkClear r).crcBad = false ∧
    (tapemarkClear r).lrcBad = false ∧ (tapemarkClear r).eccErrs = 0 ∧
    (tapemarkClear r).badDgroups = 0 ∧ (tapemarkClear r).seqErrs = 0 ∧
    (tapemarkClear r).errcount = 0 := by
  rw [tapemarkClear_yes h]
  exact ⟨rfl, rfl, rfl, rfl, rfl, rfl, rfl, rfl, rfl⟩

/-- What each block type but TAPEMARK says of the peaks and the symbols (rule R377). -/
theorem blkTypeOf_says (tapemark anyPeak : Bool) (nsymbols : Nat) :
    (blkTypeOf tapemark anyPeak nsymbols = .none → anyPeak = false) ∧
    (blkTypeOf tapemark anyPeak nsymbols = .noise → anyPeak = true ∧ nsymbols ≤ 1) ∧
    (blkTypeOf tapemark anyPeak nsymbols = .block → anyPeak = true ∧ 1 < nsymbols) := by
  unfold blkTypeOf
  split
  · simp
  split
  · next hpeak => simp [hpeak]
  next hpeak =>
  split
  · next hfew => simpa [hpeak] using hfew
  · next hmany => simpa [hpeak] using hmany

/-! ## Finalisation, mode by mode -/

section
variable {c : CfgFile} {l : Latched} {a : Attempt}

theorem finalize_of_pe (hscan : l.scan = false) (hmode : l.mode = .pe) :
    finalize c l a = resultsOf l (pePre c l a) := by simp [finalize, hscan, hmode]

theorem finalize_of_nrzi (hscan : l.scan = false) (hmode : l.mode = .nrzi) :
    finalize c l a = resultsOf l (a, nrziPre c l a) := by simp [finalize, hscan, hmode]

theorem finalize_of_gcr (hscan : l.scan = false) (hmode : l.mode = .gcr) :
    finalize c l a = resultsOf l (gcrPre c l a) := by simp [finalize, hscan, hmode]

end

/-! ## The greatest gain -/

theorem peStripBit_maxGain (n : Nat) (k j : Fin 9) (a : Attempt) :
    ((peStripBit n k a).1.tr j).maxGain = (a.tr j).maxGain := by
  simp only [peStripBit, Attempt.tr_setTr]
  split
  · next h => rw [h]
  · rfl

theorem peStripFrom_maxGain (c : CfgFile) (n : Nat) (k j : Fin 9) (left removed : Nat)
    (a : Attempt) : ((peStripFrom c n k left removed a).tr j).maxGain = (a.tr j).maxGain := by
  induction left generalizing removed a with
  | zero => rfl
  | succ left ih =>
    simp only [peStripFrom]
    split
    · rfl
    split
    · exact peStripBit_maxGain n k j a
    · exact (ih _ _).trans (peStripBit_maxGain n k j a)

theorem foldl_peStrip_maxGain (c : CfgFile) (n : Nat) (j : Fin 9) (ks : List (Fin 9)) (a : Attempt) :
    ((ks.foldl (fun a k => peStrip c n k a) a).tr j).maxGain = (a.tr j).maxGain := by
  induction ks generalizing a with
  | nil => rfl
  | cons k ks ih => exact (ih _).trans (peStripFrom_maxGain c n k j _ _ a)

theorem gcrFinalize_tr (c : CfgFile) (n : Nat) (a : Attempt) (k : Fin 9) :
    (gcrFinalize c n a).1.tr k = a.tr k := by
  unfold gcrFinalize
  split <;> rfl

/-- Finalisation moves no gain. -/
theorem finalize_maxGain (c : CfgFile) (l : Latched) (a : Attempt) (k : Fin 9) :
    ((finalize c l a).1.tr k).maxGain = (a.tr k).maxGain := by
  unfold finalize
  split
  · rfl
  split
  · exact foldl_peStrip_maxGain c l.ntrks k _ a
  · rfl
  · exact congrArg Track.maxGain (gcrFinalize_tr c l.ntrks a k)
  · rfl

/-- The greatest gain is one of the tracks' and bounds them all, where none is a NaN (rule R381). -/
theorem allMaxGain_spec {n : Nat} (hlow : 1 ≤ n) {a : Attempt}
    (hnan : ∀ k : Fin 9, k.val < n → fIsNaN (a.tr k).maxGain = false) :
    (∃ k : Fin 9, k.val < n ∧ allMaxGain n a = (a.tr k).maxGain) ∧
    ∀ k : Fin 9, k.val < n → fLe (a.tr k).maxGain (allMaxGain n a) = true := by
  have hfirst : (0 : Fin 9) ∈ tracks n := mem_tracks.2 hlow
  have hne : (tracks n).map (fun k => (a.tr k).maxGain) ≠ [] :=
    List.ne_nil_of_mem (List.mem_map_of_mem hfirst)
  obtain ⟨hmem, hbound⟩ := fMaxList_spec hne
    (List.forall_mem_map.2 fun k hk => hnan k (mem_tracks.1 hk))
  obtain ⟨k, hk, heq⟩ := List.mem_map.1 hmem
  exact ⟨⟨k, mem_tracks.1 hk, heq.symm⟩,
    fun k hk => hbound _ (List.mem_map_of_mem (mem_tracks.2 hk))⟩

end Sys2Proof.Machine

namespace Sys2Proof.Proofs

open Sys2Proof Sys2Proof.Machine

/-- Settles O57: every mode's results are the common ones, cleared by a tapemark. -/
theorem blockTypeAndSums : Obligations.BlockTypeAndSums := by
  intro c l a hscan hmode
  obtain ⟨p, hr, hpeak, hnrzi⟩ := finalize_pre (c := c) (a := a) hscan hmode
  have hgain := finalize_maxGain c l a
  generalize finalize c l a = x at hr hpeak hnrzi hgain ⊢
  obtain ⟨a', r⟩ := x
  simp only at hr hpeak hnrzi hgain ⊢
  subst hr
  have htype := blk_common l a' p
  rw [hpeak] at htype
  obtain ⟨hnone, hnoise, hblock⟩ := blkTypeOf_says p.tapemark a.anyPeak p.nsymbols
  rw [← htype] at hnone hnoise hblock
  rw [tapemarkClear_nsymbols]
  refine ⟨hnone, hnoise, hblock, fun h => ?mismatch, errcount_tapemarkClear l a' p, ?warnings,
    tapemarkClear_cleared, fun hlow _ hnan => ?gain⟩
  case mismatch =>
    rw [tapemarkClear_not h]
    exact ⟨bne_iff_ne, rfl⟩
  case warnings =>
    rw [tapemarkClear_warncount, tapemarkClear_fakedBits, ← hnrzi]
    rfl
  case gain =>
    simp only [← hgain] at hnan ⊢
    rw [tapemarkClear_alltrkMaxAgcGain]
    exact allMaxGain_spec hlow hnan

end Sys2Proof.Proofs
end

section
/-! SUPPORT. The NRZI checks: the CRC as rule R290 writes it and what it tells apart, the LRC, and the
parity count (rules R290, R292, R378). -/

namespace Sys2Proof.Machine

/-! ## The CRC -/

theorem rotateRight_one_eq (y : Sym) : y.rotateRight 1 = (y >>> 1) ||| ((y &&& 1) <<< 8) := by
  revert y
  decide

/-- One step of the CRC's recurrence as rule R290 writes it. -/
theorem nrziCrcStep_eq (acc d : Sym) : nrziCrcStep acc d =
    ((if (acc ^^^ d).getLsbD 0 = true then (acc ^^^ d) ^^^ 0x0F0 else acc ^^^ d) >>> 1) |||
      (((if (acc ^^^ d).getLsbD 0 = true then (acc ^^^ d) ^^^ 0x0F0 else acc ^^^ d) &&& 1) <<< 8) :=
  rotateRight_one_eq _

/-- The recurrence is injective in the accumulator, so it never meets again after two symbols that
differ. -/
theorem nrziCrcStep_ne {acc d d' : Sym} (hne : d ≠ d') : nrziCrcStep acc d ≠ nrziCrcStep acc d' := by
  intro heq
  rw [crcStep_eq, crcStep_eq] at heq
  exact hne (xor_left_inj9 (crcG_inj heq))

/-! ## The checks -/

theorem nrziCrcBad_iff (n : Nat) (ds : List Sym) (crc : Sym) :
    nrziCrcBad n ds crc = true ↔ n = 9 ∧ nrziCrc ds ≠ crc := by
  rw [nrziCrcBad, Bool.and_eq_true, beq_iff_eq, bne_iff_ne]

theorem nrziLrcBad_iff (n : Nat) (ds : List Sym) (crc lrc : Sym) :
    nrziLrcBad n ds crc lrc = true ↔ (if n = 9 then xorAll ds ^^^ crc else xorAll ds) ≠ lrc := by
  rw [nrziLrcBad, bne_iff_ne]

/-! ## The parity count -/

section
variable (c : CfgFile) (b : Buf) (count : Nat)

theorem vparityErrs_eq_filter : vparityErrs c b count =
    ((bufSyms b count).filter fun d => xorReduce d ≠ c.nat .expectedParity).length := by
  rw [vparityErrs]
  refine congrArg List.length (List.filter_congr fun d _ => ?_)
  rw [Bool.eq_iff_iff, bne_iff_ne, decide_eq_true_eq]

theorem vparityErrs_eq_filter_range : vparityErrs c b count =
    ((List.range count).filter fun i =>
      xorReduce (bufRead b i).sym ≠ c.nat .expectedParity).length := by
  rw [vparityErrs_eq_filter, bufSyms, List.filter_map, List.length_map]
  rfl

theorem vparityErrs_eq_zero_iff : vparityErrs c b count = 0 ↔
    ∀ d ∈ bufSyms b count, xorReduce d = c.nat .expectedParity := by
  rw [vparityErrs_eq_filter, List.length_eq_zero_iff, List.filter_eq_nil_iff]
  simp

theorem vparityErrs_eq_zero_iff_range : vparityErrs c b count = 0 ↔
    ∀ i, i < count → xorReduce (bufRead b i).sym = c.nat .expectedParity := by
  rw [vparityErrs_eq_zero_iff, bufSyms, List.forall_mem_map]
  simp

end

/-! ## Without an error -/

/-- An error count of 0 leaves no check failed. -/
theorem checks_of_errcount_zero {l : Latched} {a : Attempt} {p : PreResults}
    (h : (commonResults l a p).errcount = 0) : p.crcBad = false ∧ p.lrcBad = false := by
  change p.vparityErrs + boolNat (p.minbits != p.maxbits) + boolNat p.crcBad + boolNat p.lrcBad +
    p.eccErrs + p.badDgroups + p.seqErrs = 0 at h
  exact ⟨boolNat_zero (by omega), boolNat_zero (by omega)⟩

end Sys2Proof.Machine

namespace Sys2Proof.Proofs

open Sys2Proof Sys2Proof.Machine

/-- Settles O50: the symbols after the one that differs keep the two accumulators apart. -/
theorem crcDetectsOneSymbol : Obligations.CrcDetectsOneSymbol := by
  intro pre post d d' hne heq
  simp only [nrziCrc, List.foldl_append, List.foldl_cons] at heq
  exact nrziCrcStep_ne hne (foldl_crc_inj (xor_right_inj9 heq))

/-- Settles O51: the pre-step's values, of which a tapemark clears the checks and the counts. -/
theorem nrziResults : Obligations.NrziResults := by
  intro c l a hscan hmode z ds crcStep crc lrc r
  have hcrc : nrziCrc ds = crc := by
    have hstep : nrziCrcStep = crcStep := by
      funext acc d
      exact nrziCrcStep_eq acc d
    rw [nrziCrc, hstep]
  have hfinal := finalize_of_nrzi (c := c) (a := a) hscan hmode
  have hr : r = tapemarkClear (commonResults l a (nrziPre c l a)) := by
    simp only [r, hfinal, resultsOf]
  have hfirst : (finalize c l a).1 = a := by rw [hfinal]; rfl
  clear_value r
  subst hr
  refine ⟨hcrc, hfirst, tapemarkClear_minbits _, tapemarkClear_maxbits _, tapemarkClear_nsymbols _,
    tapemarkClear_crc _, tapemarkClear_lrc _, tapemarkClear_fakedBits _,
    tapemarkClear_eccErrs_of_zero _ rfl, tapemarkClear_badDgroups_of_zero _ rfl,
    tapemarkClear_seqErrs_of_zero _ rfl,
    tapemarkClear_trackMismatch_of_false _ (bne_self_eq_false' z.nsym),
    tapemarkClear_avgBitSpacing _, fun h => ?checks, fun h => ?cleared⟩
  case checks =>
    have hcrcBad : (commonResults l a (nrziPre c l a)).crcBad = true ↔ l.ntrks = 9 ∧ crc ≠ z.crc := by
      rw [← hcrc]
      exact nrziCrcBad_iff l.ntrks ds z.crc
    have hlrcBad : (commonResults l a (nrziPre c l a)).lrcBad = true ↔ lrc ≠ z.lrc :=
      nrziLrcBad_iff l.ntrks ds z.crc z.lrc
    rw [tapemarkClear_not h]
    refine ⟨hcrcBad, hlrcBad, vparityErrs_eq_filter c a.buf z.nsym,
      vparityErrs_eq_zero_iff c a.buf z.nsym, fun hcount hn => ?clean⟩
    obtain ⟨hcrcGood, hlrcGood⟩ := checks_of_errcount_zero hcount
    refine ⟨?crc, ?lrc⟩
    case crc =>
      by_contra hbad
      exact absurd (hcrcBad.2 ⟨hn, hbad⟩) (Bool.eq_false_iff.1 hcrcGood)
    case lrc =>
      by_contra hbad
      exact absurd (hlrcBad.2 hbad) (Bool.eq_false_iff.1 hlrcGood)
  case cleared =>
    obtain ⟨hparity, -, -, hcrcBad, hlrcBad, -, -, -, hcount⟩ := tapemarkClear_cleared h
    exact ⟨hcount, hcrcBad, hlrcBad, hparity⟩

end Sys2Proof.Proofs
end

section
/-! SUPPORT. The results of a PE or GCR block: the counts and the clock both modes share, and the block
decode's part (rules R330, R340, R343, R375 to R381). -/

namespace Sys2Proof.Machine

/-! ## What both modes hand to the common results -/

/-- The registers PE and GCR fill alike from the attempt finalised (rules R375, R381, R384). -/
structure CountedPre (l : Latched) (a : Attempt) (p : PreResults) : Prop where
  minbits : p.minbits = minCount l.ntrks a
  maxbits : p.maxbits = maxCount l.ntrks a
  clock : p.avgBitSpacing = meanClock l.ntrks l.nominal a
  crc : p.crc = 0
  lrc : p.lrc = 0
  crcBad : p.crcBad = false
  lrcBad : p.lrcBad = false

theorem countedPre_pePre (c : CfgFile) (l : Latched) (a : Attempt) :
    CountedPre l (pePre c l a).1 (pePre c l a).2 := ⟨rfl, rfl, rfl, rfl, rfl, rfl, rfl⟩

theorem countedPre_gcrPre (c : CfgFile) (l : Latched) (a : Attempt) :
    CountedPre l (gcrPre c l a).1 (gcrPre c l a).2 := ⟨rfl, rfl, rfl, rfl, rfl, rfl, rfl⟩

theorem finalize_counted {c : CfgFile} {l : Latched} {a : Attempt} (hscan : l.scan = false)
    (hmode : l.mode = .pe ∨ l.mode = .gcr) : ∃ p, CountedPre l (finalize c l a).1 p ∧
      (finalize c l a).2 = tapemarkClear (commonResults l (finalize c l a).1 p) := by
  rcases hmode with hpe | hgcr
  · rw [finalize_of_pe hscan hpe]
    exact ⟨_, countedPre_pePre c l a, rfl⟩
  · rw [finalize_of_gcr hscan hgcr]
    exact ⟨_, countedPre_gcrPre c l a, rfl⟩

theorem meanClock_eq (n : Nat) (nominal : F64) (a : Attempt) : meanClock n nominal a =
    let peaked := (tracks n).filter fun k => 0 < (a.tr k).peakcount
    if peaked = [] then nominal
    else fDiv (fSum (peaked.map fun k => (a.tr k).clk.value)) (fOfNat peaked.length) := by
  simp only [meanClock, List.isEmpty_iff]

/-! ## The block decode's part -/

theorem gcrFinalize_of_tapemark {c : CfgFile} {n : Nat} {a : Attempt}
    (h : gcrTapemark c a = true) : gcrFinalize c n a = (a, GcrBlock.empty 0, true) := if_pos h

theorem gcrFinalize_of_block {c : CfgFile} {n : Nat} {a : Attempt} (h : gcrTapemark c a = false) :
    let block := gcrDecode n gcrDgroupTable Config.gcrEccOk a
    gcrFinalize c n a = ({ a with buf := bufWriteSyms 0 block.syms a.buf,
                                  gcrNsym := block.syms.length }, block, false) :=
  if_neg (Bool.eq_false_iff.1 h)

/-- The block decode writes its symbols from the first entry on, and there is room for them. -/
theorem bufRead_gcrBlock {n : Nat} {table : Code → Option (BitVec 4)} {ecc : List Sym → Bool}
    {a : Attempt} (hwf : Memory.wf a.buf = true) (hbits : ∀ k, (a.tr k).bits.length ≤ 65536)
    (i : Nat) :
    let syms := (gcrDecode n table ecc a).syms
    bufRead (bufWriteSyms 0 syms a.buf) i =
      if i < syms.length then { sym := syms.getD i 0, fmask := 0 } else bufRead a.buf i := by
  intro syms
  have hroom : 0 + syms.length ≤ Config.databuf := by
    have hle : 10 * syms.length ≤ 7 * 65536 := gcrDecode_length hbits
    simp only [Config.databuf]
    omega
  simpa using (bufWriteSyms_read hwf hroom).2 i

/-- The three codes with a meaning of their own are no data groups (rule R331). -/
theorem gcrDgroupTable_special {code : Code}
    (h : code = 0b00111 ∨ code = 0b11100 ∨ code = 0b11111) : gcrDgroupTable code = none := if_pos h

end Sys2Proof.Machine

namespace Sys2Proof.Proofs

open Sys2Proof Sys2Proof.Machine

/-- Settles O58: both modes count the tracks alike, PE reads the stripped buffer and GCR the block
decode. -/
theorem peResults : Obligations.PeResults := by
  intro c l a hscan hmode hlow hhigh a' r peaked
  obtain ⟨p, hp, hr⟩ := finalize_counted (c := c) (a := a) hscan hmode
  change r = tapemarkClear (commonResults l a' p) at hr
  have hmin : r.minbits = minCount l.ntrks a' := by rw [hr, tapemarkClear_minbits]; exact hp.minbits
  have hmax : r.maxbits = maxCount l.ntrks a' := by rw [hr, tapemarkClear_maxbits]; exact hp.maxbits
  have hclock : r.avgBitSpacing = meanClock l.ntrks l.nominal a' := by
    rw [hr, tapemarkClear_avgBitSpacing]; exact hp.clock
  obtain ⟨hbounds, hleast, hgreatest⟩ := counts_spec l.ntrks hlow hhigh a'
  rw [← hmin, ← hmax] at hbounds
  rw [← hmin] at hleast
  rw [← hmax] at hgreatest
  refine ⟨hbounds, hleast, hgreatest, hclock.trans (meanClock_eq ..), ?crc, ?lrc, ?crcBad, ?lrcBad,
    fun hpe => ?pe, fun hgcr => ?gcr⟩
  case crc => rw [hr, tapemarkClear_crc]; exact hp.crc
  case lrc => rw [hr, tapemarkClear_lrc]; exact hp.lrc
  case crcBad => rw [hr]; exact tapemarkClear_crcBad_of_false _ hp.crcBad
  case lrcBad => rw [hr]; exact tapemarkClear_lrcBad_of_false _ hp.lrcBad
  case pe =>
    have hfinal := finalize_of_pe (c := c) (a := a) hscan hpe
    have ha' : a' = (pePre c l a).1 := by simp only [a', hfinal, resultsOf]
    have hpre : r = tapemarkClear (commonResults l a' (pePre c l a).2) := by
      simp only [a', r, hfinal, resultsOf]
    have hcount : r.nsymbols = r.minbits := by
      rw [hpre, tapemarkClear_nsymbols, tapemarkClear_minbits]; rfl
    refine ⟨ha', hcount, ?faked, ?ecc, ?bad, ?seq, fun h => ?parity⟩
    case faked => rw [hpre, tapemarkClear_fakedBits, ha']; rfl
    case ecc => rw [hpre]; exact tapemarkClear_eccErrs_of_zero _ rfl
    case bad => rw [hpre]; exact tapemarkClear_badDgroups_of_zero _ rfl
    case seq => rw [hpre]; exact tapemarkClear_seqErrs_of_zero _ rfl
    case parity =>
      have hparity : r.vparityErrs = vparityErrs c a'.buf r.nsymbols := by
        rw [hcount, hmin, hpre, tapemarkClear_not (hpre ▸ h), ha']
        rfl
      rw [hparity]
      exact ⟨vparityErrs_eq_filter_range c a'.buf r.nsymbols,
        vparityErrs_eq_zero_iff_range c a'.buf r.nsymbols⟩
  case gcr =>
    have hfinal := finalize_of_gcr (c := c) (a := a) hscan hgcr
    have ha' : a' = (gcrFinalize c l.ntrks a).1 := by simp only [a', hfinal, resultsOf, gcrPre]
    have hpre : r = tapemarkClear (commonResults l a' (gcrPre c l a).2) := by
      simp only [a', r, hfinal, resultsOf]
    have htm : r.blktype = .tapemark ↔ gcrTapemark c a = true := (finalize_tm hscan).2.1 hgcr
    have hcount : r.nsymbols = a'.gcrNsym := by rw [hpre, tapemarkClear_nsymbols, ha']; rfl
    refine ⟨?frame, ?faked, hcount, fun _ => gcrDgroupTable_special, fun h => ?tapemark,
      fun h => ?block⟩
    case frame =>
      rw [ha']
      unfold gcrFinalize
      split <;> rfl
    case faked => rw [hpre, tapemarkClear_fakedBits]; rfl
    case tapemark => rw [ha', gcrFinalize_of_tapemark (htm.1 h)]
    case block =>
      intro block
      have hblock := gcrFinalize_of_block (n := l.ntrks) (Bool.eq_false_iff.2 (mt htm.2 h))
      have hlen : r.nsymbols = block.syms.length := by rw [hcount, ha', hblock]
      have hregs : r = commonResults l a' (gcrPre c l a).2 := by
        rw [hpre, tapemarkClear_not (hpre ▸ h)]
      refine ⟨hlen, ?parity, ?ecc, ?bad, ?seq, fun hwf hbits i => ?buffer⟩
      case buffer =>
        rw [hlen, ha', hblock]
        exact bufRead_gcrBlock hwf hbits i
      all_goals
        rw [hregs]
        simp only [commonResults, gcrPre, hblock, block]

end Sys2Proof.Proofs
end

section
/-! SUPPORT. The resync machine, bit by bit (rules R322, R325). -/

namespace Sys2Proof.Machine

section
variable {t : Track}

/-- A 0-bit that ends MARK2 arms the machine, inside a burst too. -/
theorem gcrResyncBit_zero_of_mark2 (hlast : t.last5 = 0b11100) :
    gcrResyncBit none t = { t with resyncActive := true, resyncBitcount := 0 } := by
  cases hactive : t.resyncActive <;> simp [gcrResyncBit, gcrResyncArm, hactive, hlast]

/-- Any other 0-bit breaks a burst. -/
theorem gcrResyncBit_zero_of_not_mark2 (hlast : t.last5 ≠ 0b11100) :
    gcrResyncBit none t = { t with resyncActive := false } := by
  change ¬ t.last5 = 28#5 at hlast
  cases hactive : t.resyncActive with
  | true => simp [gcrResyncBit, gcrResyncArm, hactive, hlast]
  | false =>
    have hsame : t = { t with resyncActive := false } := by rw [← hactive]
    simpa [gcrResyncBit, gcrResyncArm, hactive, hlast] using hsame

theorem gcrResyncBit_one_of_inactive (hactive : t.resyncActive = false) (time : F64) :
    gcrResyncBit (some time) t = t := by
  simp [gcrResyncBit, gcrResyncArm, hactive]

/-- A 1-bit inside a burst arms nothing. -/
theorem gcrResyncBit_one_of_active (hactive : t.resyncActive = true) (time : F64) :
    gcrResyncBit (some time) t = gcrResyncOne time t := by
  simp [gcrResyncBit, gcrResyncArm, hactive]

theorem gcrResyncOne_eq (time : F64) (t : Track) : gcrResyncOne time t =
    let first := if t.resyncBitcount = 0 then time else t.tResyncFirst
    if t.resyncBitcount = 69 then
      { t with
        resyncBitcount := 70
        tResyncFirst := first
        resyncActive := false
        clk := clkForce (fDiv (fSub time first) (fOfNat 69)) t.clk }
    else { t with resyncBitcount := t.resyncBitcount + 1, tResyncFirst := first } := by
  by_cases hlast : t.resyncBitcount = 69 <;> simp [gcrResyncOne, Config.gcrResyncOnes, hlast]

/-- The ones after the first of a burst, short of the 70th, only count. -/
theorem resyncOnes_of_few (hactive : t.resyncActive = true) (hcount : t.resyncBitcount = 0)
    (first : F64) {times : List F64} (hfew : times.length + 1 < 70) :
    resyncOnes (first :: times) t =
      { t with resyncBitcount := times.length + 1, tResyncFirst := first } := by
  have hrest := resyncOnes_count times { t with resyncBitcount := 1, tResyncFirst := first } hactive
    (by simp) (by simp only; omega)
  rw [Nat.add_comm]
  simpa [resyncOnes, resyncFirst first t hactive hcount] using hrest

/-- The 70th forces the clock to the burst's mean interval and ends it. -/
theorem resyncOnes_of_burst (hactive : t.resyncActive = true) (hcount : t.resyncBitcount = 0)
    (first last : F64) {times : List F64} (hburst : times.length + 2 = 70) :
    resyncOnes (first :: times ++ [last]) t = { t with
      resyncBitcount := 70
      tResyncFirst := first
      resyncActive := false
      clk := clkForce (fDiv (fSub last first) (fOfNat 69)) t.clk } := by
  have hcounted : resyncOnes (first :: times) t =
      { t with resyncBitcount := 69, tResyncFirst := first } := by
    rw [resyncOnes_of_few hactive hcount first (by omega), show times.length + 1 = 69 by omega]
  have hsplit : resyncOnes (first :: times ++ [last]) t =
      gcrResyncBit (some last) (resyncOnes (first :: times) t) := List.foldl_append
  rw [hsplit, hcounted, gcrResyncBit_one_of_active (by exact hactive), gcrResyncOne_eq]
  rfl

end

end Sys2Proof.Machine

namespace Sys2Proof.Proofs

open Sys2Proof Sys2Proof.Machine

/-- Settles O53: one law per bit and state of the machine, and the burst from its first to its 70th
one. -/
theorem resyncForcesClock : Obligations.ResyncForcesClock := by
  intro t
  refine ⟨fun k bit => ⟨fun hfull => if_pos hfull, fun hroom => if_neg (Nat.not_le.2 hroom)⟩,
    gcrResyncBit_zero_of_mark2, gcrResyncBit_zero_of_not_mark2, gcrResyncBit_one_of_inactive,
    fun hactive time => ?one, fun hactive hcount first times hfew => ?few,
    fun hactive hcount first last times hburst => ?burst⟩
  case one => exact (gcrResyncBit_one_of_active hactive time).trans (gcrResyncOne_eq time t)
  case few => exact resyncOnes_of_few hactive hcount first hfew
  case burst => exact resyncOnes_of_burst hactive hcount first last hburst

end Sys2Proof.Proofs
end

section
/-! SUPPORT. One midbit of the NRZI loop: the tracks it takes, the buffer and the decoder state it leaves
(rules R284, R285, R286, R288). -/

namespace Sys2Proof.Machine

section
variable (c : CfgFile) (n : Nat) (m : List (Fin 9)) (a : Attempt)

/-- The boundary of the midbit that is due (rule R284). -/
def midbitBoundary : F64 := fAdd a.nrzi.tLastclock (midbitSpan c a.nrzi)

/-- The tracks it takes (rule R284). -/
def midbitTaken : List (Fin 9) := midbitTracks n (midbitBoundary c a) a

/-- The data buffer it leaves when it takes the tracks `m`: a symbol more where a data cell is not
empty (rule R285). -/
def midbitBuf : Buf :=
  if a.nrzi.postCounter = 0 ∧ m ≠ []
  then bufWrite a.buf a.nrzi.nsym { sym := symOf n m, fmask := 0 } else a.buf

/-- The decoder state it leaves when it takes the tracks `m` (rules R285, R286, R288). -/
def midbitNrzi : Nrzi :=
  let z := a.nrzi
  let avg := pendingMean m a
  let tExp := fAdd z.tLastclock z.clk.value
  let tNew := fAdd avg (fMul (c.get .pulseAdj) (fSub tExp avg))
  if 8 ≤ z.postCounter then { z with postCounter := z.postCounter + 1 }
  else
    let fired := { z with haveBoundary := true, tBoundary := midbitBoundary c a }
    if z.postCounter = 0 then
      if m = [] then { fired with postCounter := 1, tLastclock := tExp }
      else { fired with
        nsym := z.nsym + 1
        clk := clkAdjust (c.get .clkAlpha) (fSub tNew z.tLastclock) z.clk
        tLastclock := tNew }
    else
      let counted := { fired with postCounter := z.postCounter + 1 }
      if m ≠ [] ∧ z.postCounter + 1 = 4 ∧ n = 9 then
        { counted with crc := symOf n m, tLastclock := avg }
      else if m ≠ [] ∧ z.postCounter + 1 = 8 then
        { counted with lrc := symOf n m, tLastclock := avg }
      else { counted with tLastclock := tExp }

/-- The attempt a midbit that takes the tracks `m` leaves. -/
def midbitAfter : Attempt :=
  { clearPending m a with buf := midbitBuf n m a, nrzi := midbitNrzi c n m a }

end

section
variable {c : CfgFile} {n : Nat} {a : Attempt}

theorem lt_of_mem_midbitTaken {k : Fin 9} (hk : k ∈ midbitTaken c n a) : k.val < n :=
  mem_midbitTracks hk

theorem midbitTaken_nodup : (midbitTaken c n a).Nodup := (tracks_nodup n).filter _

/-- Clearing the pending flags moves the tracks alone. -/
theorem exists_clearPending_eq (m : List (Fin 9)) (a : Attempt) :
    ∃ trk, clearPending m a = { a with trk := trk } := ⟨_, clearPending_rest m a⟩

/-- A data cell with a symbol and no room for it raises (rule R285). -/
theorem nrziMidbit_of_full (hpost : a.nrzi.postCounter = 0) (htaken : midbitTaken c n a ≠ [])
    (hfull : Config.databuf ≤ a.nrzi.nsym) : nrziMidbit c n a = .error ⟨.bufferOverflow, 0xFFFF⟩ := by
  have hcell : nrziAppend (symOf n (midbitTaken c n a)) (clearPending (midbitTaken c n a) a) =
      .error ⟨.bufferOverflow, 0xFFFF⟩ := if_pos (by rw [clearPending_nrzi]; exact hfull)
  refine (if_pos hpost).trans ((if_neg (mt List.isEmpty_iff.1 htaken)).trans ?_)
  exact congrArg (fun x => andThen (andThen x _) _) hcell

/-- The tail counts a cell and sets the boundary in either order. -/
theorem nrziPostCell_fire (n : Nat) (sym : Sym) (hit : Bool) (avg tExp b : F64) (z : Nrzi) :
    { nrziPostCell n sym hit avg tExp z with haveBoundary := true, tBoundary := b } =
      nrziPostCell n sym hit avg tExp { z with haveBoundary := true, tBoundary := b } := by
  unfold nrziPostCell
  split
  · rfl
  split <;> rfl

/-- A midbit with room for its symbol answers, and ends the block when post_counter passes 8. -/
theorem nrziMidbit_ok {m : List (Fin 9)} (hm : midbitTaken c n a = m)
    (hroom : a.nrzi.nsym < Config.databuf ∨ a.nrzi.postCounter ≠ 0 ∨ m = []) :
    nrziMidbit c n a = .ok (midbitAfter c n m a, decide (8 ≤ a.nrzi.postCounter)) := by
  have htracks : midbitTracks n (fAdd a.nrzi.tLastclock (midbitSpan c a.nrzi)) a = m := hm
  obtain ⟨trk, hclear⟩ := exists_clearPending_eq m a
  have hfold : m.foldl (fun a k => a.modTr k fun t => { t with pending := false }) a =
    { a with trk := trk } := hclear
  simp only [nrziMidbit, htracks, hfold, midbitAfter, midbitBuf, midbitNrzi, hclear]
  by_cases hpost : a.nrzi.postCounter = 0
  · cases m with
    | nil => simp [hpost, midbitBoundary]
    | cons k m =>
      have hlt : a.nrzi.nsym < Config.databuf := by simpa [hpost] using hroom
      have hcell : nrziAppend (symOf n (k :: m)) { a with trk := trk } =
        .ok (nrziAppended (symOf n (k :: m)) { a with trk := trk }) :=
        nrziAppend_answers (a := { a with trk := trk }) hlt _
      simp [hpost, nrziDataCell, hcell, nrziAppended, midbitBoundary]
  · by_cases hend : 8 ≤ a.nrzi.postCounter
    · simp [hpost, hend, Nat.lt_succ_of_le hend]
    · have hgo : ¬ 8 < a.nrzi.postCounter + 1 := by omega
      have hhit : (!m.isEmpty) = true ↔ m ≠ [] := by simp
      simp only [hpost, hend, hgo, if_false, decide_false, nrziPostCell_fire, false_and]
      simp only [nrziPostCell_cases, hhit]
      rfl

/-- The sample step ends the block exactly when post_counter passes 8, and else leaves no midbit due. -/
theorem nrziSampleStep_ends {now : F64} {a' : Attempt} {ended : Bool} (hpost : a.nrzi.postCounter ≤ 8)
    (h : nrziSampleStep c n now a = .ok (a', ended)) :
    (ended = true ↔ 8 < a'.nrzi.postCounter) ∧
    (ended = false → a.nrzi.datablock = true → midbitDue c now a'.nrzi = false) := by
  unfold nrziSampleStep at h
  split at h
  · obtain ⟨hends, hdue⟩ := nrziLoop_ends (midbitMeasure_lt_bound n a) hpost h
    exact ⟨hends, fun hrunning _ => hdue hrunning⟩
  · next hidle =>
    cases h
    exact ⟨⟨fun h => (nomatch h), fun h => absurd hpost (Nat.not_le.2 h)⟩, fun _ h => absurd h hidle⟩

/-- What a midbit's tracks, its buffer and the rest of the attempt are after it. -/
theorem midbitAfter_tr (k : Fin 9) : (midbitAfter c n (midbitTaken c n a) a).tr k =
    if k ∈ midbitTaken c n a then { a.tr k with pending := false } else a.tr k :=
  clearPending_tr midbitTaken_nodup a k

theorem midbitAfter_rest (m : List (Fin 9)) :
    midbitAfter c n m a = { a with
      trk := (midbitAfter c n m a).trk
      buf := (midbitAfter c n m a).buf
      nrzi := (midbitAfter c n m a).nrzi } := by
  obtain ⟨trk, hclear⟩ := exists_clearPending_eq m a
  simp only [midbitAfter, hclear]

theorem bufRead_midbitBuf {m : List (Fin 9)} (hwf : Memory.wf a.buf = true) (i : Nat) :
    bufRead (midbitBuf n m a) i = if a.nrzi.postCounter = 0 ∧ m ≠ [] ∧ i = a.nrzi.nsym
      then { sym := symOf n m, fmask := 0 } else bufRead a.buf i := by
  unfold midbitBuf
  by_cases hstore : a.nrzi.postCounter = 0 ∧ m ≠ []
  · rw [if_pos hstore, bufRead_bufWrite hwf]
    simp only [hstore.1, hstore.2, ne_eq, not_false_eq_true, true_and]
  · rw [if_neg hstore, if_neg fun h => hstore ⟨h.1, h.2.1⟩]

end

end Sys2Proof.Machine

namespace Sys2Proof.Proofs

open Sys2Proof Sys2Proof.Machine

/-- Settles O48: the loop needs no more midbits than pending tracks and tail cells are left, and one
midbit is `midbitAfter`. -/
theorem midbitLoopStops : Obligations.MidbitLoopStops := by
  intro c n now a extra z span boundary taken avg tExp tNew
  have hbound := midbitMeasure_lt_bound n a
  have htaken : midbitTaken c n a = taken := rfl
  refine ⟨fun hidle => ?idle, nrziSampleStep_loop, nrziLoop_fuel c n now (by omega) hbound,
    fun a' ended hpost hstep => ?ends, fun hpost hne hfull => ?full, fun hn hwf hroom => ?midbit⟩
  case idle => exact if_neg (Bool.eq_false_iff.1 hidle)
  case ends => exact nrziSampleStep_ends hpost hstep
  case full => exact nrziMidbit_of_full hpost hne hfull
  case midbit =>
    refine ⟨midbitAfter c n taken a, symOf n taken, nrziMidbit_ok htaken hroom,
      fun k hk => symOf_bits hn (fun _ => lt_of_mem_midbitTaken) hk,
      symFits_symOf fun _ => lt_of_mem_midbitTaken, midbitAfter_rest taken, midbitAfter_tr,
      bufRead_midbitBuf hwf, rfl⟩

end Sys2Proof.Proofs
end

section
/-! SUPPORT. The group machine row by row, and the counts and the assembly of a block's pairs (rules R334,
R337 to R340). -/

namespace Sys2Proof.Machine

/-! ## The group machine, from a row on -/

section
variable {row row2 : List Code} {rest : List (List Code)} {r : GroupRun}

theorem groupMachine_mark2 (hclass : groupClass row = .mark2) :
    groupMachine (row :: rest) none r = groupMachine rest (some 0) r := by
  rw [groupMachine.eq_def]
  simp [hclass]

theorem groupMachine_sync (hclass : groupClass row = .sync) :
    groupMachine (row :: rest) none r = { r with terminal := true } := by
  rw [groupMachine.eq_def]
  simp [hclass]

theorem groupMachine_mark1 (hclass : groupClass row = .mark1) :
    groupMachine (row :: rest) none r = groupMachine rest none r.bad := by
  rw [groupMachine.eq_def]
  simp [hclass]

theorem groupMachine_data_last (hclass : groupClass row = .data) :
    groupMachine [row] none r = r.bad := by
  rw [groupMachine.eq_def]
  simp [hclass]

theorem groupMachine_data_alone (hclass : groupClass row = .data) (hclass2 : groupClass row2 ≠ .data) :
    groupMachine (row :: row2 :: rest) none r = groupMachine (row2 :: rest) none r.bad := by
  rw [groupMachine.eq_def]
  simp [hclass, hclass2]

theorem groupMachine_pair (hclass : groupClass row = .data) (hclass2 : groupClass row2 = .data) :
    groupMachine (row :: row2 :: rest) none r =
      groupMachine rest none { r with pairs := r.pairs ++ [(row, row2)] } := by
  rw [groupMachine.eq_def]
  simp [hclass, hclass2]

theorem groupMachine_resync_sync (rs : Nat) (hclass : groupClass row = .sync) :
    groupMachine (row :: rest) (some rs) r =
      if rs + 1 = 14 then groupMachine rest none r else groupMachine rest (some (rs + 1)) r := by
  rw [groupMachine.eq_def]
  simp only [hclass]
  split <;> rfl

/-- A row that breaks a burst is read again in DATA, with one more sequence error. -/
theorem groupMachine_broken (rs : Nat) (hclass : groupClass row ≠ .sync) :
    groupMachine (row :: rest) (some rs) r = groupMachine (row :: rest) none r.bad := by
  rw [groupMachine.eq_def, groupMachine.eq_def (row :: rest) none]
  cases h : groupClass row with
  | sync => exact absurd h hclass
  | mark1 | mark2 => simp only [h]; rfl
  | data => simp only [h]; cases rest <;> rfl

theorem groupMachine_end (phase : GroupPhase) : groupMachine [] phase r = r := by
  rw [groupMachine.eq_def]

/-- Rows that end before the terminal SYNC count one more sequence error. -/
theorem runGroups_eq (rows : List (List Code)) : runGroups rows =
    let r := groupMachine rows none { pairs := [], seq := 0, terminal := false }
    { r with seq := r.seq + boolNat (!r.terminal) } := by
  unfold runGroups
  generalize groupMachine rows none { pairs := [], seq := 0, terminal := false } = r
  obtain ⟨pairs, seq, terminal⟩ := r
  cases terminal <;> rfl

end

/-! ## The pairs decoded -/

section
variable (n : Nat) (table : Code → Option (BitVec 4)) (ecc : List Sym → Bool)
  (rows : List (List Code))

/-- The bytes of every pair the group machine decodes. -/
def decodedBytes : List (List Sym) := (runGroups rows).pairs.map (pairBytes n table)

/-- The seven data bytes of each pair (rule R340). -/
def dataBytes (bs : List (List Sym)) : List Sym := (bs.map fun b => b.take 7).flatten

theorem gcrDecodeRows_vparityErrs : (gcrDecodeRows n table ecc rows).vparityErrs =
    ((decodedBytes n table rows).flatten.filter fun b => xorReduce b ≠ 1).length := by
  refine (oddParityErrs_flatten (decodedBytes n table rows)).trans ?_
  refine congrArg List.length (List.filter_congr fun b _ => ?_)
  rw [Bool.eq_iff_iff, bne_iff_ne, decide_eq_true_eq]

theorem gcrDecodeRows_eccErrs : (gcrDecodeRows n table ecc rows).eccErrs =
    ((decodedBytes n table rows).filter fun b => ecc b = false).length := by
  refine congrArg List.length (List.filter_congr fun b _ => ?_)
  cases ecc b <;> rfl

variable {n table ecc rows}

theorem gcrDecodeRows_of_open (hopen : (runGroups rows).terminal = false) :
    (gcrDecodeRows n table ecc rows).seqErrs = (runGroups rows).seq ∧
    (gcrDecodeRows n table ecc rows).syms = dataBytes (decodedBytes n table rows) := by
  simp [gcrDecodeRows, hopen, gcrAssemble_open, dataBytes, decodedBytes]

theorem gcrDecodeRows_of_short (hclosed : (runGroups rows).terminal = true)
    (hshort : (runGroups rows).pairs.length < 2) :
    (gcrDecodeRows n table ecc rows).seqErrs = (runGroups rows).seq + 1 ∧
    (gcrDecodeRows n table ecc rows).syms = dataBytes (decodedBytes n table rows) := by
  have hbytes : ((runGroups rows).pairs.map (pairBytes n table)).length < 2 := by
    rw [List.length_map]
    exact hshort
  simp [gcrDecodeRows, hclosed, gcrAssemble_short hbytes, dataBytes, decodedBytes]

theorem gcrDecodeRows_of_closed (hclosed : (runGroups rows).terminal = true)
    {body : List (List Sym)} {crc : List Sym} (hbytes : decodedBytes n table rows = body ++ [crc])
    (hbody : body ≠ []) :
    let residual := ((crc.getD 6 0).extractLsb' 6 3).toNat
    (gcrDecodeRows n table ecc rows).seqErrs = (runGroups rows).seq ∧
    (gcrDecodeRows n table ecc rows).syms =
      (dataBytes body).take ((dataBytes body).length - residual) := by
  unfold decodedBytes at hbytes
  simp [gcrDecodeRows, hclosed, hbytes, gcrAssemble_closed hbody, dataBytes]

end

end Sys2Proof.Machine

namespace Sys2Proof.Proofs

open Sys2Proof Sys2Proof.Machine

/-- Settles O54: the alignment, the block read as its pairs, the machine row by row, and the counts
and the assembly over whatever pairs it decodes. -/
theorem groupMachineReadsBlock : Obligations.GroupMachineReadsBlock := by
  refine ⟨fun n a hlow hhigh => ⟨?unaligned, ?aligned⟩,
    fun n stretches tail hn hne hdata => runGroups_blockRows hn hne hdata tail,
    fun row rest r => ⟨groupMachine_mark2, groupMachine_sync, groupMachine_mark1,
      groupMachine_data_last, fun h row2 h2 => groupMachine_data_alone h h2,
      fun h row2 h2 => groupMachine_pair h h2, groupMachine_resync_sync, groupMachine_broken,
      groupMachine_end⟩,
    runGroups_eq,
    fun n rows table ecc => ⟨gcrDecodeRows_vparityErrs n table ecc rows,
      gcrDecodeRows_eccErrs n table ecc rows, rfl, gcrDecodeRows_of_open, gcrDecodeRows_of_short,
      fun hclosed body crc hbytes hbody => ?closed⟩⟩
  case unaligned =>
    rintro ⟨k, hk, hnone⟩ table ecc
    exact gcrDecode_unaligned hk hnone table ecc
  case aligned => exact fun start hstart => gcrDecode_aligned hlow hhigh hstart
  case closed =>
    intro residual
    obtain ⟨hseq, hsyms⟩ := gcrDecodeRows_of_closed (ecc := ecc) hclosed hbytes hbody
    refine ⟨hseq, ?symbols, ?count⟩
    case symbols => rw [hsyms]; exact List.take_prefix _ _
    case count => rw [hsyms, List.length_take]; exact Nat.min_eq_left (Nat.sub_le _ _)

end Sys2Proof.Proofs
end

section
/-! SUPPORT. Sums, differences, products and quotients as roundings of the exact result, their special
values, and the counts and constants that are exact (rules R13, R14). -/

namespace Sys2Proof.Machine

/-! ## Finite operands -/

theorem fOverflow_pos : 0 < fOverflow := by
  rw [fOverflow_eq]
  exact Nat.mul_pos (by decide) (Nat.pow_pos (by decide))

theorem fUnits_pos : 0 < fUnits := by
  rw [fUnits_eq]
  exact Nat.pow_pos (by decide)

theorem signed_false (n : Nat) : signed false n = n := rfl

theorem signed_lt_zero (s : Bool) {n : Nat} (hn : 0 < n) : decide (signed s n < 0) = s := by
  cases s <;> simp [signed, hn]

theorem signed_ne_zero (s : Bool) {n : Nat} (hn : 0 < n) : signed s n ≠ 0 := by
  cases s <;> simp [signed] <;> omega

section
variable {a b : F64}

theorem fMag_of_isZero (hz : fIsZero a = true) : fMag a = 0 := by simpa [fIsZero] using hz

theorem fMant_of_isZero (hz : fIsZero a = true) : fMant a = 0 := by
  have h := fMag_of_isZero hz
  simp [fMant, fExp_eq_mag, fFrac_eq_mag, h]

theorem fValue_of_mant_zero (h : fMant a = 0) : fValue a = 0 := by
  rw [fValue_eq, fValue_parts, h]
  simp [signed]

theorem fValue_ne_zero (hz : fIsZero a = false) : fValue a ≠ 0 := by
  rw [fValue_eq, fValue_parts]
  exact signed_ne_zero _ (Nat.mul_pos (fMant_pos hz) (Nat.pow_pos (by decide)))

section
variable (ha : fFinite a = true) (hb : fFinite b = true)
include ha hb

theorem fAdd_rounded : Rounded fValue (fValue a + fValue b) fOverflow
    (decide (fValue a + fValue b < 0)) (fAdd a b) := by
  rw [fAdd_finite ha hb]
  rcases fAddFin_cases a b with ⟨hsum, hadd⟩ | ⟨s, m, e, hm, hadd, hsum⟩
  · rw [hadd, hsum]
    exact rounded_zero fOverflow_pos fun _ => Iff.rfl
  · have hr := fRound_rounded s (base := 1074) hm Nat.one_pos (stands_exact m e _)
    rw [hadd, hsum, signed_lt_zero s (Nat.mul_pos hm (Nat.pow_pos (by decide)))]
    simpa using hr

theorem fAdd_zero_sum (hsum : fValue a + fValue b = 0) : fAdd a b = fZero (fSign a && fSign b) := by
  rw [fAdd_finite ha hb]
  rcases fAddFin_cases a b with ⟨-, hadd⟩ | ⟨s, m, e, hm, -, hsum'⟩
  · exact hadd
  · exact absurd (hsum'.symm.trans hsum) (signed_ne_zero s (Nat.mul_pos hm (Nat.pow_pos (by decide))))

theorem fSub_rounded : Rounded fValue (fValue a - fValue b) fOverflow
    (decide (fValue a - fValue b < 0)) (fSub a b) := by
  have h := fAdd_rounded ha ((fNeg_kind b).1.trans hb)
  rwa [(fNeg_spec b).2.2, ← sub_eq_add_neg] at h

theorem fSub_zero_difference (hdiff : fValue a - fValue b = 0) :
    fSub a b = fZero (fSign a && !fSign b) := by
  have h := fAdd_zero_sum ha ((fNeg_kind b).1.trans hb)
  rw [(fNeg_spec b).2.2, ← sub_eq_add_neg, (fNeg_spec b).1] at h
  exact h hdiff

theorem fMul_rounded : Rounded (fun x => fValue x * fUnits) (fValue a * fValue b)
    (fOverflow * fUnits) (fSign a != fSign b) (fMul a b) := by
  have hval : fValue a * fValue b =
      signed (fSign a != fSign b) (fMant a * fMant b * 2 ^ (fScale a + fScale b)) := by
    rw [fValue_eq, fValue_eq, signed_mul_signed, fValue_parts, fValue_parts, Nat.pow_add]
    congr 1
    ring
  rw [fMul_finite ha hb, hval]
  rcases Nat.eq_zero_or_pos (fMant a * fMant b) with hm | hm
  · rw [hm, fRound, if_pos rfl, Nat.zero_mul, show signed (fSign a != fSign b) 0 = 0 by simp [signed]]
    refine rounded_zero (Nat.mul_pos fOverflow_pos fUnits_pos) fun y => ?_
    have hU : (fUnits : Int) ≠ 0 := by exact_mod_cast fUnits_pos.ne'
    exact mul_eq_zero_iff_right hU
  · have hr := fRound_rounded (fSign a != fSign b) (base := 2148) hm Nat.one_pos
      (stands_exact (fMant a * fMant b) (fScale a + fScale b) _)
    rwa [Nat.mul_one, Nat.mul_one, show 2148 - 1074 = 1074 from rfl, ← fUnits_eq] at hr

theorem fDiv_finite (hz : fIsZero b = false) : fDiv a b = fDivFin a b := by
  simp [fDiv, fIsNaN_of_finite ha, fIsNaN_of_finite hb, fIsInf_of_finite ha, fIsInf_of_finite hb, hz]

theorem fSign_fDiv_finite (hz : fIsZero b = false) : fSign (fDiv a b) = (fSign a != fSign b) := by
  rw [fDiv_finite ha hb hz]
  exact fRound_sign _ _ _ _

/-- Both sides are brought to one unit, in which the divisor's scale and sign are gone. -/
theorem fDiv_rounded (hz : fIsZero b = false) : Rounded (fun x => fValue x * fValue b)
    (fValue a * fUnits) (fOverflow * (fValue b).natAbs) (fSign a != fSign b) (fDiv a b) := by
  rw [fDiv_finite ha hb hz]
  by_cases hm : fMant a = 0
  · have hzero : fDivFin a b = fZero (fSign a != fSign b) := by simp [fDivFin, hm, fRound]
    rw [hzero, fValue_of_mant_zero hm, Int.zero_mul]
    exact rounded_zero (Nat.mul_pos fOverflow_pos (Int.natAbs_pos.2 (fValue_ne_zero hz)))
      fun y => mul_eq_zero_iff_right (fValue_ne_zero hz)
  · obtain ⟨m, hpos, hdiv, hstands⟩ := fDivFin_parts hz hm
    have hr := fRound_rounded (fSign a != fSign b) hpos (fMant_pos hz) hstands
    rw [← hdiv, show 2155 - 1074 = 1081 from rfl] at hr
    have hscale : fScale b ≤ fScale a + 2046 := Nat.le_trans (fScale_le b) (Nat.le_add_left _ _)
    have hpow := pow_div hscale
    have hunit : signed (fSign b) (2 ^ 1081) ≠ 0 := signed_ne_zero _ (Nat.pow_pos (by decide))
    have hscaleB : ((2 ^ fScale b : Nat) : Int) ≠ 0 := by
      exact_mod_cast (Nat.pow_pos (by decide : 0 < 2)).ne'
    have hvalB : fValue b * signed (fSign b) (2 ^ 1081) =
        ((2 ^ 1081 * fMant b : Nat) : Int) * ((2 ^ fScale b : Nat) : Int) := by
      rw [fValue_eq, signed_mul_signed, fValue_parts, bne_self_eq_false, ← Int.natCast_mul]
      exact congrArg Int.ofNat (by ring)
    have hvalA : fValue a * fUnits * signed (fSign b) (2 ^ 1081) =
        signed (fSign a != fSign b) (fMant a * 2 ^ 109 * 2 ^ (fScale a + 2046 - fScale b)) *
          ((2 ^ fScale b : Nat) : Int) := by
      rw [fValue_eq, fValue_parts, ← signed_false fUnits, ← signed_false (2 ^ fScale b),
        signed_mul_signed, signed_mul_signed, signed_mul_signed, Bool.bne_false, Bool.bne_false]
      refine congrArg (signed _) ?_
      calc fMant a * 2 ^ fScale a * fUnits * 2 ^ 1081
          = fMant a * (2 ^ fScale a * fUnits * 2 ^ 1081) := by ring
        _ = fMant a * 2 ^ 109 * 2 ^ (fScale a + 2046 - fScale b) * 2 ^ fScale b := by
          rw [hpow, ← Nat.mul_assoc, ← Nat.mul_assoc]
    have hlimit : fOverflow * (fValue b).natAbs * (signed (fSign b) (2 ^ 1081)).natAbs =
        fOverflow * 2 ^ 1081 * fMant b * ((2 ^ fScale b : Nat) : Int).natAbs := by
      rw [Nat.mul_assoc, ← Int.natAbs_mul, hvalB, Int.natAbs_mul, Int.natAbs_natCast, ← Nat.mul_assoc,
        ← Nat.mul_assoc]
    rw [← rounded_scale hunit, hvalA, hlimit]
    simp only [Int.mul_assoc, hvalB]
    simp only [← Int.mul_assoc]
    exact (rounded_scale hscaleB).2 hr

end

/-! ## NaNs, infinities and a zero divisor -/

theorem fNaN_results (hnan : fIsNaN a = true ∨ fIsNaN b = true) :
    fIsNaN (fAdd a b) = true ∧ fIsNaN (fSub a b) = true ∧ fIsNaN (fMul a b) = true ∧
      fIsNaN (fDiv a b) = true := by
  have hor : (fIsNaN a || fIsNaN b) = true := by simpa using hnan
  have hsub : (fIsNaN a || fIsNaN (fNeg b)) = true := by rwa [(fNeg_kind b).2.2]
  refine ⟨?sum, ?difference, ?product, ?quotient⟩
  case sum => rw [fAdd, if_pos hor]; exact fNaN_isNaN _ _ _
  case difference => rw [fSub, fAdd, if_pos hsub]; exact fNaN_isNaN _ _ _
  case product => rw [fMul, if_pos hor]; exact fNaN_isNaN _ _ _
  case quotient => rw [fDiv, if_pos hor]; exact fNaN_isNaN _ _ _

theorem fIsNaN_of_inf (ha : fIsInf a = true) : fIsNaN a = false := by
  rw [fIsInf_iff] at ha
  rw [← Bool.not_eq_true, fIsNaN_iff]
  omega

theorem fIsZero_of_inf (ha : fIsInf a = true) : fIsZero a = false := by
  rw [fIsInf_iff] at ha
  simp [fIsZero, ha, infMag]

theorem fInf_fNeg (ha : fIsInf a = true) : fNeg a = fInf (!fSign a) := by
  rw [fInf_of_isInf ((fNeg_kind a).2.1.trans ha), (fNeg_spec a).1]

theorem fAdd_inf_finite (ha : fIsInf a = true) (hb : fFinite b = true) : fAdd a b = a := by
  simp [fAdd, ha, fIsNaN_of_inf ha, fIsNaN_of_finite hb, fIsInf_of_finite hb]

theorem fAdd_finite_inf (ha : fIsInf a = true) (hb : fFinite b = true) : fAdd b a = a := by
  simp [fAdd, ha, fIsNaN_of_inf ha, fIsNaN_of_finite hb, fIsInf_of_finite hb]

theorem fInf_with_finite (ha : fIsInf a = true) (hb : fFinite b = true) :
    fAdd a b = a ∧ fAdd b a = a ∧ fSub a b = a ∧ fSub b a = fInf (!fSign a) ∧
      fDiv a b = fInf (fSign a != fSign b) ∧ fDiv b a = fZero (fSign a != fSign b) := by
  refine ⟨fAdd_inf_finite ha hb, fAdd_finite_inf ha hb,
    fAdd_inf_finite ha ((fNeg_kind b).1.trans hb), ?minuend, ?dividend, ?divisor⟩
  case minuend =>
    rw [fSub, fAdd_finite_inf ((fNeg_kind a).2.1.trans ha) hb, fInf_fNeg ha]
  case dividend =>
    simp [fDiv, ha, fIsNaN_of_inf ha, fIsNaN_of_finite hb, fIsInf_of_finite hb]
  case divisor =>
    simp [fDiv, ha, fIsNaN_of_inf ha, fIsNaN_of_finite hb, fIsInf_of_finite hb, Bool.xor_comm]

theorem fAdd_infs (ha : fIsInf a = true) (hb : fIsInf b = true) :
    ((fSign a != fSign b) = false → fAdd a b = a) ∧
    ((fSign a != fSign b) = true → fIsNaN (fAdd a b) = true) := by
  have hsum : fAdd a b = if (fSign a != fSign b) = true then fNaN .add a b else a := by
    simp [fAdd, ha, hb, fIsNaN_of_inf ha, fIsNaN_of_inf hb]
  refine ⟨fun h => by rw [hsum, h]; rfl, fun h => ?_⟩
  rw [hsum, if_pos h]
  exact fNaN_isNaN _ _ _

theorem fSub_infs (ha : fIsInf a = true) (hb : fIsInf b = true) :
    ((fSign a != fSign b) = false → fIsNaN (fSub a b) = true) ∧
    ((fSign a != fSign b) = true → fSub a b = a) := by
  obtain ⟨halike, hdiffer⟩ := fAdd_infs ha ((fNeg_kind b).2.1.trans hb)
  have hsign : (fSign a != fSign (fNeg b)) = !(fSign a != fSign b) := by
    rw [(fNeg_spec b).1]
    cases fSign a <;> cases fSign b <;> rfl
  refine ⟨fun h => hdiffer (by rw [hsign, h]; rfl), fun h => halike (by rw [hsign, h]; rfl)⟩

theorem fDiv_infs (ha : fIsInf a = true) (hb : fIsInf b = true) : fIsNaN (fDiv a b) = true := by
  have hdiv : fDiv a b = fNaN .div a b := by
    simp [fDiv, ha, hb, fIsNaN_of_inf ha, fIsNaN_of_inf hb]
  rw [hdiv]
  exact fNaN_isNaN _ _ _

theorem fMul_inf (ha : fIsInf a = true) (hb : fIsNaN b = false) :
    (fIsZero b = false → fMul a b = fInf (fSign a != fSign b) ∧ fMul b a = fInf (fSign a != fSign b)) ∧
    (fIsZero b = true → fIsNaN (fMul a b) = true ∧ fIsNaN (fMul b a) = true) := by
  refine ⟨fun hz => ?nonzero, fun hz => ?zero⟩
  case nonzero => simp [fMul, ha, hb, hz, fIsNaN_of_inf ha, fIsZero_of_inf ha, Bool.xor_comm]
  case zero => simp [fMul, ha, hb, hz, fIsNaN_of_inf ha, fNaN_isNaN]

theorem fIsZero_finite (hz : fIsZero a = true) : fFinite a = true := by
  rw [fFinite_iff, fMag_of_isZero hz]
  decide

theorem fDiv_by_zero (ha : fFinite a = true) (hz : fIsZero b = true) :
    (fIsZero a = false → fDiv a b = fInf (fSign a != fSign b)) ∧
    (fIsZero a = true → fIsNaN (fDiv a b) = true) := by
  have hb := fIsZero_finite hz
  have hdiv : fDiv a b = if fIsZero a then fNaN .div a b else fInf (fSign a != fSign b) := by
    simp [fDiv, hz, fIsNaN_of_finite ha, fIsNaN_of_finite hb, fIsInf_of_finite ha, fIsInf_of_finite hb]
  refine ⟨fun h => by rw [hdiv, h]; rfl, fun h => ?_⟩
  rw [hdiv, if_pos h]
  exact fNaN_isNaN _ _ _

theorem fAbs_value (ha : fFinite a = true) :
    fFinite (fAbs a) = true ∧ fValue (fAbs a) = (fValue a).natAbs := by
  obtain ⟨hsign, hmag⟩ := fAbs_spec a
  rw [fFinite_iff] at ha ⊢
  rw [fValue_eq, fValue_eq, hsign, hmag, natAbs_signed]
  exact ⟨ha, rfl⟩

theorem fFloorNat_value (a : F64) : fFloorNat a * fUnits ≤ (fValue a).natAbs ∧
    (fValue a).natAbs < (fFloorNat a + 1) * fUnits := by
  rw [fValue_eq, natAbs_signed]
  exact fFloorNat_spec a

end

/-! ## Sums, counts and constants -/

theorem fSum_append {xs : List F64} (hne : xs ≠ []) (x : F64) : fSum (xs ++ [x]) = fAdd (fSum xs) x := by
  cases xs with
  | nil => exact absurd rfl hne
  | cons y ys => exact List.foldl_append

theorem fFinite_fWithSign {m : Nat} (s : Bool) (hm : m < infMag) : fFinite (fWithSign s m) = true := by
  rw [fFinite_iff, fMag_fWithSign s (Nat.lt_trans hm infMag_lt)]
  exact hm

/-- A count of at most 53 bits fills a significand, with nothing rounded away. -/
theorem fOfNat_exact {n : Nat} (hn : n < 2 ^ 53) :
    fFinite (fOfNat n) = true ∧ fValue (fOfNat n) = n * fUnits := by
  rcases Nat.eq_zero_or_pos n with rfl | hpos
  · exact ⟨by decide, by rw [Nat.cast_zero, Int.zero_mul]; exact fValue_zero false⟩
  · obtain ⟨mant, q, hq, hmant, hfull, hexact, -, hround⟩ := roundMag_parts (e := 1074) (base := 1074) hpos
    have hlog : n.log2 < 53 := (Nat.log2_lt (by omega)).2 hn
    have hq' : q ≤ 1074 := by omega
    have hmag : roundMag n 1074 1074 = mant + q * 2 ^ 52 := by
      rw [hround, Nat.sub_self, Nat.sub_zero]
      refine Nat.min_eq_right ?_
      unfold infMag
      omega
    have hlt : mant + q * 2 ^ 52 < infMag := by
      unfold infMag
      omega
    have hcount : fOfNat n = fWithSign false (mant + q * 2 ^ 52) := by
      rw [fOfNat, fRound, if_neg (by omega), hmag]
    have h63 := Nat.lt_trans hlt infMag_lt
    rw [hcount]
    refine ⟨fFinite_fWithSign false hlt, ?_⟩
    rw [fValue_eq, fSign_fWithSign false h63, fMag_fWithSign false h63, magValue_encode hmant hfull,
      hexact hq', Nat.mul_assoc, ← Nat.pow_add, Nat.sub_add_cancel hq', ← fUnits_eq, signed_false,
      Int.natCast_mul]

theorem f64One_value : fFinite f64One = true ∧ fValue f64One = fUnits := by
  have h := fOfNat_exact (n := 1) (by decide)
  rw [Nat.cast_one, Int.one_mul] at h
  exact h

theorem fTwo_value : fFinite fTwo = true ∧ fValue fTwo = 2 * fUnits :=
  fOfNat_exact (n := 2) (by decide)

theorem fHalf_value : fFinite fHalf = true ∧ 2 * fValue fHalf = fUnits := by
  have hsign : fSign fHalf = false := by decide
  have hmant : fMant fHalf = 2 ^ 52 := by decide
  have hscale : fScale fHalf = 1021 := by decide
  refine ⟨by decide, ?_⟩
  rw [fValue_eq, fValue_parts, hsign, hmant, hscale, signed_false, fUnits_eq, ← Nat.pow_add,
    show 1074 = 52 + 1021 + 1 from rfl, Nat.pow_succ' (n := 52 + 1021), Int.natCast_mul, Nat.cast_ofNat]

end Sys2Proof.Machine

namespace Sys2Proof.Proofs

open Sys2Proof Sys2Proof.Machine

/-- Settles O60: each operation is `fRound` of an exact result, which rounds to nearest; the special
values, the comparisons and the exact operations case by case. -/
theorem arithmeticRoundsToNearest : Obligations.ArithmeticRoundsToNearest := by
  unfold Obligations.ArithmeticRoundsToNearest
  intro infinity zero
  have hinf : ∀ s, infinity s = fInf s := fun s => by cases s <;> rfl
  have hzero : ∀ s, zero s = fZero s := fun s => by cases s <;> rfl
  simp only [hinf, hzero]
  refine ⟨fun a b ha hb => ?finite, fun a b => ⟨fNaN_results, fInf_with_finite, ?infinities, fMul_inf,
      fDiv_by_zero⟩,
    fun a b => ⟨compare_finite, compare_nan, compare_inf, compare_infs, minMax_spec, fAbs_value,
      fun _ _ => fFloorNat_value a⟩,
    fun xs x hne => ⟨rfl, fSum_append hne x, fun hn => ⟨fMinList_spec hne hn, fMaxList_spec hne hn⟩⟩,
    fun n => fOfNat_exact, f64One_value, fTwo_value, fHalf_value⟩
  case finite =>
    exact ⟨fAdd_rounded ha hb, fSub_rounded ha hb, fMul_rounded ha hb, fDiv_rounded ha hb,
      fAdd_zero_sum ha hb, fSub_zero_difference ha hb, fSign_fMul ha hb, fSign_fDiv_finite ha hb⟩
  case infinities =>
    intro ha hb
    obtain ⟨hsum, hsumNaN⟩ := fAdd_infs ha hb
    obtain ⟨hdiffNaN, hdiff⟩ := fSub_infs ha hb
    exact ⟨fun h => ⟨hsum h, hdiffNaN h⟩, fun h => ⟨hsumNaN h, hdiff h⟩, fDiv_infs ha hb⟩

end Sys2Proof.Proofs
end
